-- ==== Sys2Proof/Word.lean ====
section
/-! DEFINITION. The word types and the spec's enumerations (00_scope.md R7, 10_state.md R21-R23): the names of modes,
sub-modes, flag codes, buffers and PLHD lengths. Their numbers are in `Sys2Proof/Decode.lean`. -/

namespace Sys2Proof

/-- One byte: a chip register value or one byte of a frame buffer (00_scope.md R7). -/
abbrev Byte := BitVec 8

/-- Sixteen bits: the CRC register and the value part of RESULT (00_scope.md R7, 10_state.md R27). -/
abbrev Half := BitVec 16

/-- A 32-bit command word or host register (10_state.md R24, R25). -/
abbrev Word := BitVec 32

/-- One of the four register pages (00_scope.md R6 `NPAGES`, 20_memory.md R57). -/
abbrev Page := BitVec 2

/-- OperatingMode (10_state.md R21). The number 7 names no mode, so it has no constructor. -/
inductive Mode where
  | deepSleep | sleep | standby1 | standby2 | standby3 | tx | rx
  deriving DecidableEq, Repr, Inhabited

/-- TxSubMode (10_state.md R21). -/
inductive TxSub where
  | single | continuous
  deriving DecidableEq, Repr, Inhabited

/-- RxSubMode (10_state.md R21). The number 3 names no sub-mode. -/
inductive RxSub where
  | single | singleTimeout | continuous
  deriving DecidableEq, Repr, Inhabited

/-- The status-flag codes of RX_FLAG and TX_FLAG (10_state.md R23). The codes 6 to 15 are never held. -/
inductive Flag where
  | idle | txDone | rxDone | rxTimeout | rxErr | plhdRxDone
  deriving DecidableEq, Repr, Inhabited

/-- The frame buffer a CRC16 command reads (30_encoding.md R73: BUF 0 = TBUF, 1 = RBUF). -/
inductive Buf where
  | tbuf | rbuf
  deriving DecidableEq, Repr, Inhabited

/-- The length of a PLHD read (43_frame_fifo.md R165: SEL 0 is 8 bytes, SEL 1 is 16 bytes). -/
inductive PlhdSel where
  | eight | sixteen
  deriving DecidableEq, Repr, Inhabited

end Sys2Proof
end

