-- ==== Sys2Proof/Config.lean ====
section
/-! DEFINITION. What an implementation fixes and what nothing fixes. `Params` holds the parameters of 00_scope.md R6 and
92_eei_decisions.md ("OPEN parameters, collected") as plain data; `Params.ref` is the spec's REF set, for the vectors of
95_test_vectors.md only. The constants without a body below it are the values nothing in the spec fixes. -/

namespace Sys2Proof

/-- The active edge of the chip's IRQ line (`IRQ_ACTIVE`, D29). -/
inductive IrqEdge where
  | rising | falling
  deriving DecidableEq, Repr, Inhabited

/-- `SLEEP_GUARD` (42_mode_sequencer.md R136, D17). -/
inductive SleepGuard where
  | reject | unguarded
  deriving DecidableEq, Repr, Inhabited

/-- A chip register named by page and offset (20_memory.md R57). -/
structure RegAt where
  page : Page
  addr : Byte
  deriving DecidableEq, Repr, Inhabited

/-- A register write (page, offset, value): an entry of `XTAL_TRIM` (R43) or of `AGC_TABLE` (R238). -/
structure RegWrite where
  page  : Page
  addr  : Byte
  value : Byte
  deriving DecidableEq, Repr, Inhabited

/-- One action of the "full mode reset" `MODE_RESET` (44_irq_dispatch.md R185). The source does not say what the reset
writes; the model takes it as a list of mode-field updates and verified register writes (DESIGN CHOICE, log 19). -/
inductive ResetAction where
  | setMode (m : Mode)
  | write (w : RegWrite)
  deriving DecidableEq, Repr, Inhabited

/-- `LM_FN` (44_irq_dispatch.md R187): a constant pair (the REF form), or the collaborator's own unknown function
`Config.lmFn` (log 20). -/
inductive LmFn where
  | const (rssi snr : Word)
  | collaborator
  deriving DecidableEq, Repr, Inhabited

/-- How the transport ends a transaction: good, a bus fault (20_memory.md R56), or never (93 I26). -/
inductive Transport where
  | done | fault | hang
  deriving DecidableEq, Repr, Inhabited

/-- The parameters of 00_scope.md R6 that are plain data. `NPAGES` = 4 and `NOFFS` = 256 are the types `Page` and `Byte`;
the 16-byte PLHD map is fixed by the source (43_frame_fifo.md R166). Times are in microseconds. D2: "No error for OPEN
parameters. A reader who takes a REF value as the chip's proves facts about a chip that may not exist." -/
structure Params where
  /-- `TCB_BASE` (20_memory.md R50). -/
  tcbBase : Nat
  /-- `SYSCTL_ADDR`, `PAGE_SHIFT` (10_state.md R37, D7). -/
  sysctlAddr : Byte
  pageShift : Fin 7
  /-- `PAGE_CACHE_ENABLE` (41_register_bus.md R111, D8). -/
  pageCacheEnable : Bool
  /-- `DUMMY_TX` (20_memory.md R54; D9: "No error while the parameters are OPEN."). -/
  dummyTx : Byte
  /-- `MODECTL_PAGE`, `MODECTL_ADDR` and the fields of the mode-control register (10_state.md R38; D13: "No error while the
  parameters are OPEN."). -/
  modectlPage : Page
  modectlAddr : Byte
  modePos : Nat
  modeW : Nat
  txsubPos : Fin 8
  rxsubPos : Fin 7
  /-- `MODE_CODE`, `TXSUB_CODE`, `RXSUB_CODE`, indexed by the numbers of 10_state.md R21. -/
  modeCode : Vector Byte 7
  txsubCode : Vector Byte 2
  rxsubCode : Vector Byte 3
  /-- `XTAL_TRIM` and the wake delays (42_mode_sequencer.md R133, D15). -/
  xtalTrim0 : RegWrite
  xtalTrim1 : RegWrite
  tOsc : Nat
  tStb1 : Nat
  tStb2 : Nat
  tStb3 : Nat
  /-- `T_DN` (42_mode_sequencer.md R137, D16). -/
  tDn : Nat
  /-- `SLEEP_GUARD` (42_mode_sequencer.md R136, D17). -/
  sleepGuard : SleepGuard
  /-- `TXLEN_PAGE`, `TXLEN_ADDR`, `MAX_PAYLOAD` (D21), `RXLEN_PAGE`, `RXLEN_ADDR` (D22). -/
  txlen : RegAt
  maxPayload : Byte
  rxlen : RegAt
  /-- `FIFO_ADDR` (10_state.md R41, D12). -/
  fifoAddr : Byte
  /-- `PLHD8`: eight offsets of one page; `PLHD_LEN` (43_frame_fifo.md R166, D23). -/
  plhd8Page : Page
  plhd8Offs : Vector Byte 8
  plhdLen : PlhdSel
  /-- `IRQ_CLR_PAGE`, `IRQ_CLR_ADDR`, `IRQ_CLR_VALUE` (43_frame_fifo.md R163, D24). -/
  irqClr : RegWrite
  /-- `IRQ_PAGE`, `IRQ_ADDR` and the five event bits (10_state.md R39; D25: "No error while OPEN."). -/
  irqReg : RegAt
  irqBitPlhd : Fin 8
  irqBitRxDone : Fin 8
  irqBitCrcErr : Fin 8
  irqBitRxTo : Fin 8
  irqBitTxDone : Fin 8
  /-- `MODE_RESET` (44_irq_dispatch.md R185, D26). -/
  modeReset : List ResetAction
  /-- `IRQ_ACTIVE` (10_state.md R34, D29). -/
  irqActive : IrqEdge
  /-- `POST_EVENT_MODES` (42_mode_sequencer.md R132, D30). -/
  postEventModes : List Mode
  /-- `LINK_METRICS` = (`LM_READS`, `LM_FN`) (44_irq_dispatch.md R187; D31: "No error while OPEN."). -/
  lmReads : List RegAt
  lmFn : LmFn
  /-- `CHIP_POR_MODE` (10_state.md R44, D33). -/
  chipPorMode : Mode
  /-- `AGC_TABLE`, which the host applies (70_reset_and_hazards.md R238; D39: "No error while OPEN."). -/
  agcTable : List RegWrite
  deriving DecidableEq, Repr, Inhabited

/-- The REF values of 00_scope.md R6, the spec's own choice for the test vectors: "A reader must not take a REF value to be
the radio chip's." `TCB_BASE` has no REF value (the vectors use offsets); 0 here makes an address an offset. -/
def Params.ref : Params where
  tcbBase := 0
  sysctlAddr := 0x00
  pageShift := 0
  pageCacheEnable := true
  dummyTx := 0x00
  modectlPage := 0
  modectlAddr := 0x02
  modePos := 0
  modeW := 3
  txsubPos := 3
  rxsubPos := 4
  modeCode := #v[0, 1, 2, 3, 4, 5, 6]
  txsubCode := #v[0, 1]
  rxsubCode := #v[0, 1, 2]
  xtalTrim0 := ⟨3, 0x20, 0x5A⟩
  xtalTrim1 := ⟨3, 0x21, 0x5A⟩
  tOsc := 10
  tStb1 := 10
  tStb2 := 2000
  tStb3 := 10
  tDn := 10
  sleepGuard := .reject
  txlen := ⟨1, 0x10⟩
  maxPayload := 255
  rxlen := ⟨1, 0x11⟩
  fifoAddr := 0x01
  plhd8Page := 2
  plhd8Offs := #v[0x76, 0x77, 0x78, 0x79, 0x7A, 0x7B, 0x7C, 0x7D]
  plhdLen := .sixteen
  irqClr := ⟨0, 0x60, 0x00⟩
  irqReg := ⟨0, 0x60⟩
  irqBitPlhd := 4
  irqBitRxDone := 3
  irqBitCrcErr := 2
  irqBitRxTo := 1
  irqBitTxDone := 0
  modeReset := [.setMode .standby3]
  irqActive := .rising
  postEventModes := [.standby3, .tx, .rx]
  lmReads := []
  lmFn := .const 0xC2E40000 0x40A00000
  chipPorMode := .deepSleep
  agcTable := []

/-- The parameters of the one block that `State.reset` is the state of: OPEN, so no body (00_scope.md R6: "the model must
quantify over it or take it from a configuration"; log 3). Statements over states quantify over `State.params` instead. -/
opaque Config.params : Params

/-- The n-th free answer of the transport: whether a transaction faults "is a `draw`" (20_memory.md R56), and whether it
ends at all (93 I26). -/
opaque Config.drawTransport : Nat → Transport

/-- The n-th free byte: every value a command reads from the chip (00_scope.md R9, R13; 93 I1, I9, I17, I19). -/
opaque Config.drawByte : Nat → Byte

/-- The n-th free word: what a host read of a result register returns while BUSY = 1 (20_memory.md R53, 93 I18). -/
opaque Config.drawWord : Nat → Word

/-- The n-th free byte sequence: what a faulted burst write left in the transmit FIFO (20_memory.md R56). -/
opaque Config.drawBytes : Nat → List Byte

/-- The n-th free count: how many received bytes a FIFO read that did not end good took from the chip (20_memory.md R56 is
silent; log 30). -/
opaque Config.drawCount : Nat → Nat

/-- The n-th free truth value: whether an IRQ-status bit other than the five events holds the chip's line at its level after a
clear (93 I12), and whether a write on a page that is not known was the clear (log 18). -/
opaque Config.drawBit : Nat → Bool

/-- The n-th free duration: how much longer than its minimum a settle delay lasts (70_reset_and_hazards.md R244, 93 I25). -/
opaque Config.drawTime : Nat → Nat

/-- `HDR_READ(a)`: header byte(s) of a read transaction (20_memory.md R54, OPEN, D9). -/
opaque Config.hdrRead : Byte → List Byte

/-- `HDR_WRITE(a)`: header byte(s) of a write transaction (20_memory.md R54, OPEN, D9). -/
opaque Config.hdrWrite : Byte → List Byte

/-- The LinkMetrics collaborator's function, where `LM_FN` is not a constant (44_irq_dispatch.md R187, OPEN, D31). -/
opaque Config.lmFn : List Byte → Word × Word

end Sys2Proof
end

