-- ==== Sys2Proof/Syntax.lean ====
section
/-! DEFINITION. The command set: one constructor per row of spec/opcode_table.json (30_encoding.md R73), operands in
the order A, B, C, fields marked "0" left out. -/

namespace Sys2Proof

/-- The 23 commands of 30_encoding.md R73. -/
inductive Instr where
  /-- NOP (44_irq_dispatch.md R191). -/
  | nop
  /-- CRC16.CCITT BUF, OFF, LEN (40_crc.md R102). -/
  | crcCcitt (buf : Buf) (off len : Byte)
  /-- CRC16.IBM BUF, OFF, LEN (40_crc.md R103). -/
  | crcIbm (buf : Buf) (off len : Byte)
  /-- REG_READ PAGE, ADDR (41_register_bus.md R115). -/
  | regRead (page : Page) (addr : Byte)
  /-- REG_WRITE PAGE, ADDR, VALUE (41_register_bus.md R116). -/
  | regWrite (page : Page) (addr value : Byte)
  /-- FIFO_WRITE FADDR, OFF, LEN (41_register_bus.md R117). -/
  | fifoWrite (faddr off len : Byte)
  /-- FIFO_READ FADDR, OFF, LEN (41_register_bus.md R118). -/
  | fifoRead (faddr off len : Byte)
  /-- PAGE_SYNC (41_register_bus.md R119). -/
  | pageSync
  /-- WAKE_DEEP (42_mode_sequencer.md R134). -/
  | wakeDeep
  /-- WAKE_SLEEP (42_mode_sequencer.md R135). -/
  | wakeSleep
  /-- SLEEP (42_mode_sequencer.md R138). -/
  | sleep
  /-- DEEP_SLEEP (42_mode_sequencer.md R139). -/
  | deepSleep
  /-- SET_MODE MODE (42_mode_sequencer.md R140). -/
  | setMode (mode : Mode)
  /-- GET_MODE (42_mode_sequencer.md R141). -/
  | getMode
  /-- SET_TXSUB SUB (42_mode_sequencer.md R142). -/
  | setTxsub (sub : TxSub)
  /-- SET_RXSUB SUB (42_mode_sequencer.md R143). -/
  | setRxsub (sub : RxSub)
  /-- SEND LEN (43_frame_fifo.md R161). -/
  | send (len : Byte)
  /-- RECEIVE (43_frame_fifo.md R162). -/
  | receive
  /-- RECV_PLHD SEL (43_frame_fifo.md R165). -/
  | recvPlhd (sel : PlhdSel)
  /-- CLR_IRQ (43_frame_fifo.md R164). -/
  | clrIrq
  /-- DISPATCH (44_irq_dispatch.md R180). -/
  | dispatch
  /-- SET_RXFLAG FLAG (44_irq_dispatch.md R189). -/
  | setRxflag (flag : Flag)
  /-- SET_TXFLAG FLAG (44_irq_dispatch.md R190). -/
  | setTxflag (flag : Flag)
  deriving DecidableEq, Repr, Inhabited

end Sys2Proof
end

