-- ==== Sys2Proof/WellFormed.lean ====
section
/-! DEFINITION. Which commands are well formed (the constraint column of 30_encoding.md R73) and which parameter sets
make sense together (00_scope.md R6, 10_state.md R37-R43). -/

namespace Sys2Proof

/-- OFF + LEN <= 256, computed without wrap-around (30_encoding.md R72). -/
def rangeOk (off len : Byte) : Bool := off.toNat + len.toNat ≤ 256

/-- The constraints of 30_encoding.md R73 that the operand types do not already carry: the buffer ranges, REG_WRITE's
ADDR != FIFO_ADDR, and SEND's 1 <= LEN <= MAX_PAYLOAD. -/
def Instr.wf (p : Params) : Instr → Bool
  | .crcCcitt _ off len => rangeOk off len
  | .crcIbm _ off len => rangeOk off len
  | .regWrite _ addr _ => addr != p.fifoAddr
  | .fifoWrite _ off len => rangeOk off len
  | .fifoRead _ off len => rangeOk off len
  | .send len => 1 ≤ len.toNat && len.toNat ≤ p.maxPayload.toNat
  | .nop => true
  | .regRead _ _ => true
  | .pageSync => true
  | .wakeDeep => true
  | .wakeSleep => true
  | .sleep => true
  | .deepSleep => true
  | .setMode _ => true
  | .getMode => true
  | .setTxsub _ => true
  | .setRxsub _ => true
  | .receive => true
  | .recvPlhd _ => true
  | .clrIrq => true
  | .dispatch => true
  | .setRxflag _ => true
  | .setTxflag _ => true

/-- Every mode code fits the MODE field and no two are equal, so that a register value decodes to at most one mode. -/
def Params.codesOk (p : Params) : Bool :=
  p.modeCode.toList.all (fun c => c.toNat < 2 ^ p.modeW) && decide p.modeCode.toList.Nodup
    && p.txsubCode.toList.all (fun c => c.toNat < 2) && p.rxsubCode.toList.all (fun c => c.toNat < 4)

/-- The three fields of the mode-control register lie inside the byte and do not overlap (10_state.md R38). -/
def Params.fieldsOk (p : Params) : Bool :=
  decide (1 ≤ p.modeW) && decide (p.modePos + p.modeW ≤ 8)
    && (decide (p.txsubPos.val < p.modePos) || decide (p.modePos + p.modeW ≤ p.txsubPos.val))
    && (decide (p.rxsubPos.val + 2 ≤ p.modePos) || decide (p.modePos + p.modeW ≤ p.rxsubPos.val))
    && (decide (p.txsubPos.val < p.rxsubPos.val) || decide (p.rxsubPos.val + 2 ≤ p.txsubPos.val))

/-- No register the block gives a meaning to (other than the FIFO and the system-control register themselves) lies at the
FIFO offset or at the system-control offset, and those two differ. -/
def Params.addrsOk (p : Params) : Bool :=
  p.sysctlAddr != p.fifoAddr
    && [p.modectlAddr, p.txlen.addr, p.rxlen.addr, p.irqReg.addr, p.irqClr.addr, p.xtalTrim0.addr, p.xtalTrim1.addr].all
        (fun a => a != p.sysctlAddr && a != p.fifoAddr)

/-- The registers the block writes are different registers: mode control, transmit length, IRQ clear and the trim pair. -/
def Params.regsOk (p : Params) : Bool :=
  decide [(p.modectlPage, p.modectlAddr), (p.txlen.page, p.txlen.addr), (p.irqClr.page, p.irqClr.addr),
    (p.xtalTrim0.page, p.xtalTrim0.addr), (p.xtalTrim1.page, p.xtalTrim1.addr)].Nodup

/-- A parameter set whose registers and fields are distinct, as 10_state.md R37-R43 describe them (log 29). A premise of
the statements that need it, never assumed by the step function. -/
def Params.wf (p : Params) : Bool := p.codesOk && p.fieldsOk && p.addrsOk && p.regsOk

end Sys2Proof
end

