-- ==== Sys2Proof/Decode.lean ====
section
/-! DEFINITION. The numbers of the enumerations (10_state.md R21-R23), decoding of command words (30_encoding.md R71-R75,
R81), the encoder beside it, and the pseudo-commands (R84). D3: the encoding is the spec's own design. D4: every
unassigned opcode, nonzero "0" field and out-of-range operand decodes to ILLEGAL; errs "toward unprovable: some words are
refused that a lenient implementation would run". -/

namespace Sys2Proof

/-- Mode numbers (10_state.md R21). -/
def Mode.number : Mode → Nat
  | .deepSleep => 0 | .sleep => 1 | .standby1 => 2 | .standby2 => 3 | .standby3 => 4 | .tx => 5 | .rx => 6

/-- The mode a number names; 7 and above name none (10_state.md R21). -/
def Mode.ofNumber : Nat → Option Mode
  | 0 => some .deepSleep | 1 => some .sleep | 2 => some .standby1 | 3 => some .standby2
  | 4 => some .standby3 | 5 => some .tx | 6 => some .rx | _ => none

/-- All modes, in the order of their numbers. -/
def Mode.all : List Mode := [.deepSleep, .sleep, .standby1, .standby2, .standby3, .tx, .rx]

/-- TX sub-mode numbers (10_state.md R21). -/
def TxSub.number : TxSub → Nat
  | .single => 0 | .continuous => 1

/-- The TX sub-mode a number names (10_state.md R21). -/
def TxSub.ofNumber : Nat → Option TxSub
  | 0 => some .single | 1 => some .continuous | _ => none

/-- RX sub-mode numbers (10_state.md R21). -/
def RxSub.number : RxSub → Nat
  | .single => 0 | .singleTimeout => 1 | .continuous => 2

/-- The RX sub-mode a number names; 3 names none (10_state.md R21). -/
def RxSub.ofNumber : Nat → Option RxSub
  | 0 => some .single | 1 => some .singleTimeout | 2 => some .continuous | _ => none

/-- Status-flag codes (10_state.md R23). -/
def Flag.code : Flag → Nat
  | .idle => 0 | .txDone => 1 | .rxDone => 2 | .rxTimeout => 3 | .rxErr => 4 | .plhdRxDone => 5

/-- The flag a code names; 6 to 15 name none (10_state.md R23). -/
def Flag.ofCode : Nat → Option Flag
  | 0 => some .idle | 1 => some .txDone | 2 => some .rxDone | 3 => some .rxTimeout
  | 4 => some .rxErr | 5 => some .plhdRxDone | _ => none

/-- BUF 0 = TBUF, 1 = RBUF (30_encoding.md R73). -/
def Buf.number : Buf → Nat
  | .tbuf => 0 | .rbuf => 1

/-- The buffer a number names (30_encoding.md R73: BUF <= 1). -/
def Buf.ofNumber : Nat → Option Buf
  | 0 => some .tbuf | 1 => some .rbuf | _ => none

/-- SEL 0: 8 bytes, 1: 16 bytes (30_encoding.md R73). -/
def PlhdSel.number : PlhdSel → Nat
  | .eight => 0 | .sixteen => 1

/-- The PLHD length a SEL value names (30_encoding.md R73: SEL <= 1). -/
def PlhdSel.ofNumber : Nat → Option PlhdSel
  | 0 => some .eight | 1 => some .sixteen | _ => none

/-- The page a field value names (30_encoding.md R73: PAGE <= 3). -/
def pageOfNumber (n : Nat) : Option Page := if n ≤ 3 then some (BitVec.ofNat 2 n) else none

/-- Why a word decodes to ILLEGAL (30_encoding.md R74, R75). -/
inductive Illegal where
  /-- The opcode has no row (R74). Safe: the spec's own refusal ILLEGAL_CMD. -/
  | reservedOpcode
  /-- A field the row marks "0" is not 0 (R75). Safe, likewise. -/
  | nonzeroField
  /-- An operand breaks its row's constraint (R75). Safe, likewise. -/
  | badOperand
  deriving DecidableEq, Repr

/-- What a word decodes to (30_encoding.md R81): one of the 23 commands, or ILLEGAL. -/
inductive Decoded where
  | ok (i : Instr)
  | illegal (why : Illegal)
  deriving DecidableEq, Repr

/-- The decoded command, where there is one. -/
def Decoded.toOption : Decoded → Option Instr
  | .ok i => some i
  | .illegal _ => none

/-- The fields of CMD32 (30_encoding.md R71): OPC [31:24], A [23:16], B [15:8], C [7:0]. -/
def opcOf (w : Word) : Byte := w.extractLsb' 24 8
def fieldA (w : Word) : Byte := w.extractLsb' 16 8
def fieldB (w : Word) : Byte := w.extractLsb' 8 8
def fieldC (w : Word) : Byte := w.extractLsb' 0 8

/-- A row without operands: all three fields are marked "0". -/
def row0 (a b c : Byte) (i : Instr) : Decoded :=
  if a == 0 && b == 0 && c == 0 then .ok i else .illegal .nonzeroField

/-- A row whose only operand is C, a number naming a value; A and B are marked "0". -/
def rowC {α : Type} (a b c : Byte) (named : Nat → Option α) (mk : α → Instr) : Decoded :=
  if a == 0 && b == 0 then
    match named c.toNat with
    | some x => .ok (mk x)
    | none => .illegal .badOperand
  else .illegal .nonzeroField

/-- A CRC16 row: BUF <= 1 and OFF + LEN <= 256. -/
def rowCrc (a b c : Byte) (mk : Buf → Byte → Byte → Instr) : Decoded :=
  match Buf.ofNumber a.toNat with
  | some buf => if b.toNat + c.toNat ≤ 256 then .ok (mk buf b c) else .illegal .badOperand
  | none => .illegal .badOperand

/-- A FIFO row: OFF + LEN <= 256. -/
def rowFifo (a b c : Byte) (mk : Byte → Byte → Byte → Instr) : Decoded :=
  if b.toNat + c.toNat ≤ 256 then .ok (mk a b c) else .illegal .badOperand

/-- REG_READ: C marked "0", PAGE <= 3. -/
def rowRegRead (a b c : Byte) : Decoded :=
  if c == 0 then
    match pageOfNumber a.toNat with
    | some pg => .ok (.regRead pg b)
    | none => .illegal .badOperand
  else .illegal .nonzeroField

/-- REG_WRITE: PAGE <= 3 and ADDR != FIFO_ADDR. -/
def rowRegWrite (p : Params) (a b c : Byte) : Decoded :=
  match pageOfNumber a.toNat with
  | some pg => if b == p.fifoAddr then .illegal .badOperand else .ok (.regWrite pg b c)
  | none => .illegal .badOperand

/-- SEND: A and B marked "0", 1 <= LEN <= MAX_PAYLOAD. -/
def rowSend (p : Params) (a b c : Byte) : Decoded :=
  if a == 0 && b == 0 then
    if 1 ≤ c.toNat ∧ c.toNat ≤ p.maxPayload.toNat then .ok (.send c) else .illegal .badOperand
  else .illegal .nonzeroField

/-- `decode(w)` of 30_encoding.md R81 by the rows of R73. D3: "Not applicable: the encoding is the spec's own design. A
model of a different encoding must re-derive `opcode_table.json`." It takes the two parameters a constraint names, FIFO_ADDR
and MAX_PAYLOAD, from `p`. -/
def decode (p : Params) (w : Word) : Decoded :=
  let a := fieldA w
  let b := fieldB w
  let c := fieldC w
  match (opcOf w).toNat with
  | 0x00 => row0 a b c .nop
  | 0x10 => rowCrc a b c .crcCcitt
  | 0x11 => rowCrc a b c .crcIbm
  | 0x20 => rowRegRead a b c
  | 0x21 => rowRegWrite p a b c
  | 0x22 => rowFifo a b c .fifoWrite
  | 0x23 => rowFifo a b c .fifoRead
  | 0x24 => row0 a b c .pageSync
  | 0x30 => row0 a b c .wakeDeep
  | 0x31 => row0 a b c .wakeSleep
  | 0x32 => row0 a b c .sleep
  | 0x33 => row0 a b c .deepSleep
  | 0x34 => rowC a b c Mode.ofNumber .setMode
  | 0x35 => row0 a b c .getMode
  | 0x36 => rowC a b c TxSub.ofNumber .setTxsub
  | 0x37 => rowC a b c RxSub.ofNumber .setRxsub
  | 0x40 => rowSend p a b c
  | 0x41 => row0 a b c .receive
  | 0x42 => rowC a b c PlhdSel.ofNumber .recvPlhd
  | 0x43 => row0 a b c .clrIrq
  | 0x50 => row0 a b c .dispatch
  | 0x51 => rowC a b c Flag.ofCode .setRxflag
  | 0x52 => rowC a b c Flag.ofCode .setTxflag
  | _ => .illegal .reservedOpcode

/-- Little-endian assembly of the bytes of a host word, first byte lowest (20_memory.md R52). -/
def wordOfBytes : List Byte → Nat
  | [] => 0
  | b :: bs => b.toNat + 256 * wordOfBytes bs

/-- The bytes of a number in host order, first byte lowest (20_memory.md R52). -/
def bytesOfNat : Nat → Nat → List Byte
  | 0, _ => []
  | n + 1, v => BitVec.ofNat 8 v :: bytesOfNat n (v / 256)

/-- The decoder on the four bytes the host stores at CMD. A command is exactly 4 bytes (30_encoding.md R71). -/
def decodeBytes (p : Params) (bs : List Byte) : Option Instr :=
  if bs.length = 4 then (decode p (BitVec.ofNat 32 (wordOfBytes bs))).toOption else none

/-- The host's question to the decoder: the instruction whose bits are `w`, the table giving it `nbits` bits, every bit
above them 0. Two constraints of R73 name parameters; asked without a machine, they are taken at REF (log 3). -/
def decodeTableWord (nbits w : Nat) : Option Instr :=
  decodeBytes Params.ref (bytesOfNat 4 (w % 2 ^ nbits))

/-- `w = (OPC << 24) | (A << 16) | (B << 8) | C` (30_encoding.md R71). -/
def packWord (opc a b c : Nat) : Word :=
  BitVec.ofNat 32 (opc * 2 ^ 24 + a * 2 ^ 16 + b * 2 ^ 8 + c)

/-- The word of a command, from the rows of 30_encoding.md R73. -/
def encode : Instr → Word
  | .nop => packWord 0x00 0 0 0
  | .crcCcitt buf off len => packWord 0x10 buf.number off.toNat len.toNat
  | .crcIbm buf off len => packWord 0x11 buf.number off.toNat len.toNat
  | .regRead page addr => packWord 0x20 page.toNat addr.toNat 0
  | .regWrite page addr value => packWord 0x21 page.toNat addr.toNat value.toNat
  | .fifoWrite faddr off len => packWord 0x22 faddr.toNat off.toNat len.toNat
  | .fifoRead faddr off len => packWord 0x23 faddr.toNat off.toNat len.toNat
  | .pageSync => packWord 0x24 0 0 0
  | .wakeDeep => packWord 0x30 0 0 0
  | .wakeSleep => packWord 0x31 0 0 0
  | .sleep => packWord 0x32 0 0 0
  | .deepSleep => packWord 0x33 0 0 0
  | .setMode m => packWord 0x34 0 0 m.number
  | .getMode => packWord 0x35 0 0 0
  | .setTxsub s => packWord 0x36 0 0 s.number
  | .setRxsub s => packWord 0x37 0 0 s.number
  | .send len => packWord 0x40 0 0 len.toNat
  | .receive => packWord 0x41 0 0 0
  | .recvPlhd sel => packWord 0x42 0 0 sel.number
  | .clrIrq => packWord 0x43 0 0 0
  | .dispatch => packWord 0x50 0 0 0
  | .setRxflag f => packWord 0x51 0 0 f.code
  | .setTxflag f => packWord 0x52 0 0 f.code

/-- The pseudo-commands of 30_encoding.md R84. -/
inductive Pseudo where
  | standby
  | tx
  | rx
  | rxStart (s : RxSub)
  | txStart (s : TxSub)
  | clrFlags
  /-- CRC16 P, buf, off, len with P = CCITT (true) or IBM (false). -/
  | crc16 (ccitt : Bool) (buf : Buf) (off len : Byte)
  deriving DecidableEq, Repr

/-- Their expansions (30_encoding.md R84). -/
def Pseudo.expand : Pseudo → List Instr
  | .standby => [.setMode .standby3]
  | .tx => [.setMode .tx]
  | .rx => [.setMode .rx]
  | .rxStart s => [.setRxsub s, .setMode .rx]
  | .txStart s => [.setTxsub s, .setMode .tx]
  | .clrFlags => [.setRxflag .idle, .setTxflag .idle]
  | .crc16 true buf off len => [.crcCcitt buf off len]
  | .crc16 false buf off len => [.crcIbm buf off len]

end Sys2Proof
end

