-- ==== Sys2Proof/Machine/State.lean ====
section
/-! DEFINITION. The state of the block and of what stands beside it (10_state.md), as plain data, and the state right
after reset (10_state.md R47). -/

namespace Sys2Proof.Machine

/-- Why the machine would stop with a fault. No rule of the spec stops the block: an error is a code in STATUS
(60_exceptions.md R200, R205), a model fault is a sticky set beside the state (10_state.md R46), and a transport that never
completes leaves BUSY = 1 (93 I26). So nothing raises one; the type has no constructor, which is safe. -/
inductive Fault : Type
  deriving DecidableEq, Repr

/-- Why a step would be refused. -/
inductive Refusal where
  /-- Raised by an arm of `exec` that has no meaning yet, with the row's mnemonic; safe. No arm raises it now. -/
  | notModelled (mnemonic : String)
  deriving DecidableEq, Repr

/-- Error codes of STATUS.ERR (60_exceptions.md R201; D5: "Exact for what DOC says. Codes are not DOC's."). The codes 5 and
6 are reserved for source kinds of units outside the block and never raised; 7 to 15 have no name. -/
inductive ErrCode where
  | ok | busError | verifyError | modeError | illegalCmd | unsupportedFrequency | unsupportedSf
  deriving DecidableEq, Repr, Inhabited

/-- STATUS.CAUSE (10_state.md R26, 60_exceptions.md R202): none 0, bus fault 1, verify mismatch 2, wrong starting mode 3. -/
inductive Cause where
  | none | bus | verify | wrongMode
  deriving DecidableEq, Repr, Inhabited

/-- EVENT.TAG (10_state.md R22). -/
inductive EventTag where
  | none | plhdDone | rxDone | rxCrcError | rxTimeout | txDone
  deriving DecidableEq, Repr, Inhabited

/-- The model's sticky fault set (10_state.md R46, D37: "Toward unprovable: faulted runs are never good"). -/
structure FaultSet where
  illegalTransition : Bool
  unwrittenRead     : Bool
  hostRefused       : Bool
  deriving DecidableEq, Repr, Inhabited

/-- A capability the block calls (60_exceptions.md R219). -/
inductive Cap where
  | enableTcxo | disableTcxo
  deriving DecidableEq, Repr, Inhabited

/-- One output of the block on its serial bus, capability or delay port, in order of issue (20_memory.md R63; log 13). -/
inductive BusEvent where
  /-- A single-byte read transaction at an offset: the byte returned, or none where the transport reported a fault. -/
  | read (addr : Byte) (got : Option Byte)
  /-- A single-byte write transaction, and whether it ended without a fault. -/
  | write (addr value : Byte) (good : Bool)
  /-- A burst read of `n` bytes at an offset: the bytes returned, or none at a fault. -/
  | burstRead (addr : Byte) (n : Nat) (got : Option (List Byte))
  /-- A burst write, and whether it ended without a fault. -/
  | burstWrite (addr : Byte) (bytes : List Byte) (good : Bool)
  /-- A capability call, which cannot fail. -/
  | cap (c : Cap)
  /-- A settle delay: its mandated minimum and the time it lasted, in microseconds. -/
  | delay (atLeast lasted : Nat)
  deriving DecidableEq, Repr, Inhabited

/-- What the environment has fixed about an answer still to come (log 5). -/
inductive Answer where
  /-- Nothing fixed: the test double answers, or the answer is a free value. -/
  | auto
  /-- The transaction ends in a bus fault (20_memory.md R56). -/
  | fault
  /-- The transaction never ends (93 I26). -/
  | hang
  /-- The transaction is good, and these are the first bytes a read returns. -/
  | force (bytes : List Byte)
  deriving DecidableEq, Repr, Inhabited

/-- One thing the outside does to the block (00_scope.md R12): the host, the chip, or the reset input. -/
inductive Input where
  /-- A host read of `width` bytes at a bus address (20_memory.md R50-R53). -/
  | hostRead (addr width : Nat)
  /-- A host write of `width` bytes at a bus address. -/
  | hostWrite (addr width : Nat) (value : Word)
  /-- The chip drives its IRQ line to a level (10_state.md R34). -/
  | irqLine (level : Bool)
  /-- A chip completion event, which leaves a chip in Tx or Rx in a mode of `POST_EVENT_MODES` (42_mode_sequencer.md R132 (3);
  60_exceptions.md R221). -/
  | completion (m : Mode)
  /-- The chip changes one of its registers (00_scope.md R13; the test's chip action of 95_test_vectors.md). -/
  | chipReg (page : Page) (off value : Byte)
  /-- The chip receives bytes into its FIFO (20_memory.md R58: "a test preloads it"). -/
  | chipRx (bytes : List Byte)
  /-- The chip takes the oldest `count` bytes out of its transmit FIFO (00_scope.md R12: the chip "fills and drains its
  FIFO"). -/
  | chipTx (count : Nat)
  /-- The chip is power-cycled by other means (70_reset_and_hazards.md R236; log 27). -/
  | chipPower
  /-- The block's reset input is asserted (70_reset_and_hazards.md R230). -/
  | resetAssert
  /-- The reset input is released; the argument says whether the model is told that the chip was just powered (R44). -/
  | resetRelease (chipPowered : Bool)
  deriving DecidableEq, Repr, Inhabited

/-- Memory of a space: (address, byte) cells, addresses strictly rising; an address not listed holds no value. -/
abbrev Memory := List Host.Cell

/-- The radio chip and the transport as the model holds them (10_state.md R36-R43, 20_memory.md R54-R59). -/
structure Chip where
  /-- True: the deterministic test double of 20_memory.md R58 answers. False: every answer is free (R13). Log 5. -/
  oracle : Bool
  /-- The chip's registers as last written, keyed by page * 256 + offset, the system-control register by its offset
  alone; an unlisted register's value is not known (10_state.md R36; log 6). -/
  regs : Memory
  /-- Bytes written to the transmit FIFO, oldest first (10_state.md R41, `TXQ`). -/
  txq : List Byte
  /-- Received bytes not yet read from the FIFO (10_state.md R41, `RXQ`). DESIGN CHOICE (log 35): they and the bytes of `txq`
  stay over a sleep, a mode change and the PLHD mode reset. -/
  rxq : List Byte
  /-- The level of the chip's IRQ line (10_state.md R34). -/
  irqLine : Bool
  /-- Answers already fixed, one per coming transaction, oldest first (log 5). -/
  answers : List Answer
  deriving DecidableEq, Repr, Inhabited

/-- The whole state. No privilege, no program counter, no debug unit (10_state.md R20; 60_exceptions.md R213, R214, R218; D36:
"Exact to DOC"). -/
structure State where
  /-- The parameters of the block (00_scope.md R6); no step changes them. -/
  params : Params
  /-- CMD: the last stored command word (10_state.md R25). -/
  cmd : Word
  /-- STATUS.BUSY (10_state.md R26). -/
  busy : Bool
  /-- STATUS.IRQ_PEND, and so `irq_out` (10_state.md R34). -/
  irqPend : Bool
  /-- STATUS.OVR, sticky (10_state.md R26). -/
  ovr : Bool
  /-- STATUS.ERR (60_exceptions.md R201). -/
  err : ErrCode
  /-- STATUS.STEP (60_exceptions.md R202). -/
  stepIx : BitVec 4
  /-- STATUS.CAUSE (60_exceptions.md R202). -/
  cause : Cause
  /-- RESULT[15:0] (10_state.md R27). -/
  result : Half
  /-- EVENT.TAG and EVENT.LEN (10_state.md R28). -/
  eventTag : EventTag
  eventLen : Byte
  /-- RSSI and SNR (10_state.md R29). -/
  rssi : Word
  snr : Word
  /-- FLAGS: RX_FLAG and TX_FLAG (10_state.md R30). -/
  rxFlag : Flag
  txFlag : Flag
  /-- TBUF and RBUF, keyed by host offset (20_memory.md R51); a byte not listed is unwritten (10_state.md R45). -/
  mem : Memory
  /-- PCACHE: a page, or none for UNKNOWN (10_state.md R33). -/
  pcache : Option Page
  /-- The edge detector's previous sample of the IRQ line (10_state.md R34). -/
  irqPrev : Bool
  /-- The internal sequence position: how many transactions, capability calls and delays the running command has issued;
  none while no command runs (10_state.md R35; log 17). -/
  seq : Option Nat
  /-- The reset input is asserted (70_reset_and_hazards.md R230). -/
  inReset : Bool
  /-- The oscillator as the last capability call left it (42_mode_sequencer.md R144; log 14). -/
  tcxo : Bool
  /-- The ghost CHIPMODE: a mode, or none for UNKNOWN (10_state.md R44). -/
  chipMode : Option Mode
  /-- The sticky model faults (10_state.md R46). -/
  faults : FaultSet
  /-- The chip and the transport. -/
  chip : Chip
  /-- What the last host read returned (20_memory.md R53; log 15). -/
  rdata : Word
  /-- The block's outputs so far, oldest first (log 13). -/
  log : List BusEvent
  /-- How many free values were drawn so far (log 4). -/
  draws : Nat
  /-- What the outside does next, one entry per step (log 2). -/
  inputs : List Input
  /-- What the outside does while a command runs, one list per coming boundary between its actions (log 1). -/
  during : List (List Input)
  deriving DecidableEq, Repr

/-- The state right after the reset of a block with parameters `p` (10_state.md R47). The fields R47 does not give are the
model's: log 2, 4, 5, 6, 8, 13, 14, 15, 16. -/
def State.resetWith (p : Params) : State where
  params := p
  cmd := 0
  busy := false
  irqPend := false
  ovr := false
  err := .ok
  stepIx := 0
  cause := .none
  result := 0
  eventTag := .none
  eventLen := 0
  rssi := 0
  snr := 0
  rxFlag := .idle
  txFlag := .idle
  mem := []
  pcache := none
  irqPrev := false
  seq := none
  inReset := false
  tcxo := false
  chipMode := none
  faults := ⟨false, false, false⟩
  chip := ⟨false, [], [], [], false, []⟩
  rdata := 0
  log := []
  draws := 0
  inputs := []
  during := []

/-- The machine right after reset, its OPEN parameters left open (log 3). -/
def State.reset : State := State.resetWith Config.params

end Sys2Proof.Machine
end

