-- ==== Sys2Proof/Machine/Operands.lean ====
section
/-! DEFINITION. What the parameters and the operands make of addresses and bit fields: the page-select field, the fields
of the mode-control register, mode codes, the legal transitions, the PLHD byte map, the buffers' host offsets. -/

namespace Sys2Proof.Machine

/-- A mask of `w` ones at bit `pos` of a byte. -/
def maskAt (pos w : Nat) : Byte := ((1#8 <<< w) - 1#8) <<< pos

/-- The field of width `w` at bit `pos` (00_scope.md R8: zero-extended). -/
def fieldAt (v : Byte) (pos w : Nat) : Byte := (v &&& maskAt pos w) >>> pos

/-- A byte with the field of width `w` at `pos` replaced by `x` and every other bit kept (42_mode_sequencer.md R131). -/
def insertAt (v : Byte) (pos w : Nat) (x : Byte) : Byte :=
  (v &&& ~~~(maskAt pos w)) ||| ((x <<< pos) &&& maskAt pos w)

/-- The page-select field PAGE of a system-control byte (10_state.md R37). -/
def pageField (p : Params) (v : Byte) : Page := (v >>> p.pageShift.val).setWidth 2

/-- The system-control byte with its page-select field set, the other six bits preserved (41_register_bus.md R111). -/
def setPageField (p : Params) (v : Byte) (pg : Page) : Byte :=
  (v &&& ~~~(0b11#8 <<< p.pageShift.val)) ||| (pg.setWidth 8 <<< p.pageShift.val)

/-- A field of the mode-control register (10_state.md R38). -/
inductive Field where
  | mode | txsub | rxsub
  deriving DecidableEq, Repr

/-- Position of a field (10_state.md R38). -/
def Field.pos (p : Params) : Field → Nat
  | .mode => p.modePos
  | .txsub => p.txsubPos.val
  | .rxsub => p.rxsubPos.val

/-- Width of a field (10_state.md R38). -/
def Field.width (p : Params) : Field → Nat
  | .mode => p.modeW
  | .txsub => 1
  | .rxsub => 2

/-- `v2` of `SetField(F, x)` (42_mode_sequencer.md R131): one field replaced, every other bit as read. -/
def setFieldValue (p : Params) (f : Field) (v x : Byte) : Byte := insertAt v (f.pos p) (f.width p) x

/-- `MODE_CODE(m)` (10_state.md R38). -/
def modeCodeOf (p : Params) : Mode → Byte
  | .deepSleep => p.modeCode[0]
  | .sleep => p.modeCode[1]
  | .standby1 => p.modeCode[2]
  | .standby2 => p.modeCode[3]
  | .standby3 => p.modeCode[4]
  | .tx => p.modeCode[5]
  | .rx => p.modeCode[6]

/-- `TXSUB_CODE(s)` (10_state.md R38). -/
def txsubCodeOf (p : Params) : TxSub → Byte
  | .single => p.txsubCode[0]
  | .continuous => p.txsubCode[1]

/-- `RXSUB_CODE(s)` (10_state.md R38). -/
def rxsubCodeOf (p : Params) : RxSub → Byte
  | .single => p.rxsubCode[0]
  | .singleTimeout => p.rxsubCode[1]
  | .continuous => p.rxsubCode[2]

/-- `decodeMode(v)`: the mode whose code equals the MODE field of `v`, or UNKNOWN (42_mode_sequencer.md R132, 93 I5). -/
def decodeMode (p : Params) (v : Byte) : Option Mode :=
  Mode.all.find? fun m => modeCodeOf p m == fieldAt v p.modePos p.modeW

/-- The page and offset of the mode-control register (10_state.md R38). -/
def modectl (p : Params) : RegAt := ⟨p.modectlPage, p.modectlAddr⟩

/-- `LEGAL(m, m2)`, the edges of 42_mode_sequencer.md R130; none is UNKNOWN. D14: "Toward unprovable: runs that a real
chip might tolerate are marked bad." -/
def legal (m m2 : Option Mode) : Bool :=
  m == m2 ||
  match m, m2 with
  | some .deepSleep, some .standby1 => true
  | some .sleep, some .standby1 => true
  | some .standby1, some .standby2 => true
  | some .standby2, some .standby3 => true
  | some .standby3, some .standby2 => true
  | some .standby2, some .standby1 => true
  | some .standby1, some .sleep => true
  | some .standby1, some .deepSleep => true
  | some .standby3, some .tx => true
  | some .standby3, some .rx => true
  | some .tx, some .standby3 => true
  | some .tx, some .rx => true
  | some .rx, some .standby3 => true
  | some .rx, some .tx => true
  | none, some .standby1 => true
  | _, _ => false

/-- The number of bytes of a PLHD read (43_frame_fifo.md R165). -/
def plhdCount : PlhdSel → Nat
  | .eight => 8
  | .sixteen => 16

/-- `PLHDMAP(16, i)`: ten bytes of page 2 from 0x76, then six of page 0 from 0x6C (43_frame_fifo.md R166). -/
def plhdMap16 : List RegAt :=
  [⟨2, 0x76⟩, ⟨2, 0x77⟩, ⟨2, 0x78⟩, ⟨2, 0x79⟩, ⟨2, 0x7A⟩, ⟨2, 0x7B⟩, ⟨2, 0x7C⟩, ⟨2, 0x7D⟩, ⟨2, 0x7E⟩, ⟨2, 0x7F⟩,
   ⟨0, 0x6C⟩, ⟨0, 0x6D⟩, ⟨0, 0x6E⟩, ⟨0, 0x6F⟩, ⟨0, 0x70⟩, ⟨0, 0x71⟩]

/-- The byte-source map of a PLHD read, in buffer order (43_frame_fifo.md R166, D23); `PLHD8` is OPEN. -/
def plhdMap (p : Params) : PlhdSel → List RegAt
  | .eight => p.plhd8Offs.toList.map fun a => ⟨p.plhd8Page, a⟩
  | .sixteen => plhdMap16

/-- The mask of the five event bits of the IRQ-status byte (10_state.md R39). -/
def irqEventMask (p : Params) : Byte :=
  maskAt p.irqBitPlhd.val 1 ||| maskAt p.irqBitRxDone.val 1 ||| maskAt p.irqBitCrcErr.val 1
    ||| maskAt p.irqBitRxTo.val 1 ||| maskAt p.irqBitTxDone.val 1

/-- The active level of the chip's IRQ line: the level an active edge goes to (10_state.md R34, D29). -/
def activeLevel : IrqEdge → Bool
  | .rising => true
  | .falling => false

/-- Host offset of the first byte of a frame buffer (20_memory.md R51). -/
def bufBase : Buf → Nat
  | .tbuf => 0x000
  | .rbuf => 0x100

/-- Host offset of RBUF[0] (20_memory.md R51). -/
def rbufBase : Nat := bufBase .rbuf

/-- The offset a bus address names in the window at TCB_BASE, if it is not below it (20_memory.md R50). -/
def hostOffset (p : Params) (addr : Nat) : Option Nat :=
  if p.tcbBase ≤ addr then some (addr - p.tcbBase) else none

/-- The bus address of CMD (20_memory.md R51). -/
def cmdAddr (p : Params) : Nat := p.tcbBase + 0x200

end Sys2Proof.Machine
end

