-- ==== Sys2Proof/Machine/Flags.lean ====
section
/-! DEFINITION. The 32-bit images of the host registers (10_state.md R24-R30) and the updates of the status-flag pair and
of the event mailbox (44_irq_dispatch.md R180, R188). -/

namespace Sys2Proof.Machine

/-- Error code numbers (60_exceptions.md R201). -/
def ErrCode.code : ErrCode → Nat
  | .ok => 0 | .busError => 1 | .verifyError => 2 | .modeError => 3 | .illegalCmd => 4
  | .unsupportedFrequency => 5 | .unsupportedSf => 6

/-- Cause numbers (10_state.md R26). -/
def Cause.code : Cause → Nat
  | .none => 0 | .bus => 1 | .verify => 2 | .wrongMode => 3

/-- Event tag numbers (10_state.md R22). -/
def EventTag.code : EventTag → Nat
  | .none => 0 | .plhdDone => 1 | .rxDone => 2 | .rxCrcError => 3 | .rxTimeout => 4 | .txDone => 5

/-- STATUS as the host reads it (10_state.md R26): BUSY [0], IRQ_PEND [1], OVR [2], ERR [7:4], STEP [11:8], CAUSE [15:12],
the rest 0. -/
def State.statusWord (s : State) : Word :=
  BitVec.ofNat 32 (s.busy.toNat + s.irqPend.toNat * 2 + s.ovr.toNat * 4 + s.err.code * 2 ^ 4
    + s.stepIx.toNat * 2 ^ 8 + s.cause.code * 2 ^ 12)

/-- RESULT as the host reads it: bits [31:16] read 0 (10_state.md R27). -/
def State.resultWord (s : State) : Word := s.result.setWidth 32

/-- EVENT as the host reads it: TAG [2:0], LEN [15:8], the rest 0 (10_state.md R28). -/
def State.eventWord (s : State) : Word := BitVec.ofNat 32 (s.eventTag.code + s.eventLen.toNat * 2 ^ 8)

/-- FLAGS as the host reads it: RX_FLAG [3:0], TX_FLAG [7:4], the rest 0 (10_state.md R30). -/
def State.flagsWord (s : State) : Word := BitVec.ofNat 32 (s.rxFlag.code + s.txFlag.code * 2 ^ 4)

/-- The host interrupt output (10_state.md R34: "irq_out equals STATUS.IRQ_PEND at all times"). -/
def State.irqOut (s : State) : Bool := s.irqPend

/-- The word at a register offset (20_memory.md R51): reserved offsets read 0. -/
def State.regWord (s : State) (off : Nat) : Word :=
  if off = 0x200 then s.cmd
  else if off = 0x204 then s.statusWord
  else if off = 0x208 then s.resultWord
  else if off = 0x20C then s.eventWord
  else if off = 0x210 then s.rssi
  else if off = 0x214 then s.snr
  else if off = 0x218 then s.flagsWord
  else 0

/-- Which flag of the pair an event sets (44_irq_dispatch.md R188). -/
inductive FlagUpdate where
  | keep
  | rx (f : Flag)
  | tx (f : Flag)
  deriving DecidableEq, Repr

/-- The flag pair after an event; the other flag is unchanged (44_irq_dispatch.md R188; D28: "Exact to DOC."). -/
def State.applyFlag (s : State) : FlagUpdate → State
  | .keep => s
  | .rx f => { s with rxFlag := f }
  | .tx f => { s with txFlag := f }

/-- What a DISPATCH delivers at its commit: the event, its payload length, its flag and, for RX_DONE, the link metrics
(44_irq_dispatch.md R180). -/
structure Delivery where
  tag : EventTag
  len : Byte
  flag : FlagUpdate
  metrics : Option (Word × Word)
  deriving DecidableEq, Repr

/-- The commit of DISPATCH (44_irq_dispatch.md R180): RESULT, EVENT, then RSSI and SNR for RX_DONE, then FLAGS. D27: "Exact
for successful dispatches. A failed one delivers nothing (see `70_reset_and_hazards.md` rule R250)." -/
def State.deliver (s : State) (status : Byte) (d : Delivery) : State :=
  let s1 := { s with result := status.setWidth 16, eventTag := d.tag, eventLen := d.len }
  let s2 := match d.metrics with
    | some (rssi, snr) => { s1 with rssi := rssi, snr := snr }
    | none => s1
  s2.applyFlag d.flag

end Sys2Proof.Machine
end

