-- ==== Sys2Proof/Machine/Ops.lean ====
section
/-! DEFINITION. The named operations over the state: memory in its canonical form, free values, the chip's registers and
FIFO, the CHIPMODE monitor, and the life of a command: its start, its error report (the block's synchronous exception)
and its end (the return from it). -/

namespace Sys2Proof.Machine

/-! ## Memory -/

/-- The byte an address holds; none where the address is not listed (10_state.md R45: unwritten; R36: not known). -/
def Memory.read : Memory → Nat → Option Byte
  | [], _ => none
  | (k, b) :: m, a => if k = a then some b else Memory.read m a

/-- Write one byte, keeping the addresses strictly rising. -/
def Memory.write : Memory → Nat → Byte → Memory
  | [], a, v => [(a, v)]
  | (k, b) :: m, a, v =>
    if a < k then (a, v) :: (k, b) :: m
    else if a = k then (a, v) :: m
    else (k, b) :: Memory.write m a v

/-- Write bytes at rising addresses, the first at `a`. -/
def Memory.writeList : Memory → Nat → List Byte → Memory
  | m, _, [] => m
  | m, a, b :: bs => Memory.writeList (Memory.write m a b) (a + 1) bs

/-- Forget the values at the addresses `drop` names. -/
def Memory.forget (m : Memory) (drop : Nat → Bool) : Memory := m.filter fun c => !drop c.1

/-- The bytes of a range, if every one of them is listed. -/
def Memory.readRange (m : Memory) (a : Nat) : Nat → Option (List Byte)
  | 0 => some []
  | n + 1 =>
    match Memory.read m a, Memory.readRange m (a + 1) n with
    | some b, some bs => some (b :: bs)
    | _, _ => none

/-- The canonical form: addresses strictly rising. (No unlisted address reads as a value, so every cell is kept.) -/
def Memory.wf : Memory → Bool
  | [] => true
  | [_] => true
  | (k, _) :: (k', b') :: m => k < k' && Memory.wf ((k', b') :: m)

/-! ## Free values, outputs, model faults -/

/-- The next free byte (00_scope.md R9 `draw`). -/
def State.drawByte (s : State) : Byte × State := (Config.drawByte s.draws, { s with draws := s.draws + 1 })

/-- The next free word (20_memory.md R53). -/
def State.drawWord (s : State) : Word × State := (Config.drawWord s.draws, { s with draws := s.draws + 1 })

/-- The next free truth value (00_scope.md R9 `draw`; log 18). -/
def State.drawBit (s : State) : Bool × State := (Config.drawBit s.draws, { s with draws := s.draws + 1 })

/-- `n` free bytes (93 I9). -/
def State.drawList (s : State) : Nat → List Byte × State
  | 0 => ([], s)
  | n + 1 =>
    let d := s.drawByte
    let r := d.2.drawList n
    (d.1 :: r.1, r.2)

/-- One more output of the block (20_memory.md R63). -/
def State.logged (s : State) (e : BusEvent) : State := { s with log := s.log ++ [e] }

/-- The sequence position moves on by one (10_state.md R35). -/
def State.advance (s : State) : State := { s with seq := s.seq.map (· + 1) }

/-- Record ILLEGAL_TRANSITION (10_state.md R46). -/
def State.recordIllegal (s : State) : State := { s with faults := { s.faults with illegalTransition := true } }

/-- Record UNWRITTEN_READ (10_state.md R45, R46; D34: "Toward unprovable"). -/
def State.recordUnwritten (s : State) : State := { s with faults := { s.faults with unwrittenRead := true } }

/-- Record HOST_REFUSED (20_memory.md R53; D38: "Toward unprovable"). -/
def State.recordRefused (s : State) : State := { s with faults := { s.faults with hostRefused := true } }

/-- PCACHE <- UNKNOWN (41_register_bus.md R114). -/
def State.dropPage (s : State) : State := { s with pcache := none }

/-- PCACHE <- a page (41_register_bus.md R111). -/
def State.setPage (s : State) (pg : Page) : State := { s with pcache := some pg }

/-- CHIPMODE <- a mode or UNKNOWN (10_state.md R44). -/
def State.setChipMode (s : State) (m : Option Mode) : State := { s with chipMode := m }

/-- RESULT <- a value, zero-extended (10_state.md R27). -/
def State.setResult (s : State) (v : Half) : State := { s with result := v }

/-- STATUS.OVR <- 1 (10_state.md R26). -/
def State.setOvr (s : State) : State := { s with ovr := true }

/-- The host port returns data (20_memory.md R53). -/
def State.setRdata (s : State) (w : Word) : State := { s with rdata := w }

/-- The reset input is asserted (70_reset_and_hazards.md R230). -/
def State.assertReset (s : State) : State := { s with inReset := true }

/-- The bytes in the chip's transmit FIFO (10_state.md R41). -/
def State.setTxq (s : State) (q : List Byte) : State := { s with chip := { s.chip with txq := q } }

/-- The bytes in the chip's receive FIFO (10_state.md R41). -/
def State.setRxq (s : State) (q : List Byte) : State := { s with chip := { s.chip with rxq := q } }

/-- A free sequence of bytes enters the transmit FIFO (20_memory.md R56; logs 10 and 23). -/
def State.txqDrawn (s : State) : State :=
  { s.setTxq (s.chip.txq ++ Config.drawBytes s.draws) with draws := s.draws + 1 }

/-- A free number of received bytes, `n` at most, leaves the receive FIFO (logs 10 and 30). -/
def State.rxqDrawn (s : State) (n : Nat) : State :=
  { s.setRxq (s.chip.rxq.drop (min n (Config.drawCount s.draws))) with draws := s.draws + 1 }

/-- The chip's registers replaced (10_state.md R36). -/
def State.setRegs (s : State) (m : Memory) : State := { s with chip := { s.chip with regs := m } }

/-! ## The IRQ line (10_state.md R34) -/

/-- The chip's IRQ line takes a level, and outside reset the edge detector samples it: an active edge sets IRQ_PEND. D29:
"Toward proving if the real line is level-triggered and the host relies on re-assertion (`70_reset_and_hazards.md` rule R250
says to re-dispatch)." -/
def State.setLine (s : State) (level : Bool) : State :=
  let s1 := { s with chip := { s.chip with irqLine := level } }
  if s.inReset then s1
  else
    let active := activeLevel s.params.irqActive
    { s1 with
      irqPend := s.irqPend || (s.irqPrev != active && level == active)
      irqPrev := level }

/-! ## The chip's registers (10_state.md R36-R43) -/

/-- Where a register stands in `Chip.regs`: the system-control register is shared by all pages (10_state.md R37, D7). -/
def regKey (p : Params) (pg : Page) (a : Byte) : Nat :=
  if a = p.sysctlAddr then a.toNat else pg.toNat * 256 + a.toNat

/-- The last byte written to a register, if it is known. -/
def State.regValue (s : State) (pg : Page) (a : Byte) : Option Byte := s.chip.regs.read (regKey s.params pg a)

/-- The chip's page-select field as the last good write left it (10_state.md R37). It rests on the single-master
assumption (70_reset_and_hazards.md R247; D8: "Toward unprovable: there are more page switches than a chip that keeps its
page across sleep needs. Toward proving if another master changes the page and the host omits PAGE_SYNC."); log 6. DESIGN
CHOICE (log 37): it is kept over Sleep, DeepSleep and the PLHD mode reset, which 93 I24 leaves open. -/
def State.chipPage (s : State) : Option Page :=
  (s.chip.regs.read s.params.sysctlAddr.toNat).map (pageField s.params)

/-- Under the test double the IRQ line "is high exactly while the IRQ-status byte has a set event bit" (20_memory.md R58).
DESIGN CHOICE (log 22): an IRQ-status register the test does not give, or that is no longer known, counts as 0 here, so the
line is low; and only a byte stored in a register, or a power cycle, moves the line, forgetting a register does not. -/
def State.oracleLine (s : State) : State :=
  let v := (s.regValue s.params.irqReg.page s.params.irqReg.addr).getD 0
  s.setLine (v &&& irqEventMask s.params != 0)

/-- A register takes a byte: the chip's own page for the offset, the test double's IRQ line following it. -/
def State.storeReg (s : State) (pg : Page) (a v : Byte) : State :=
  let s1 := s.setRegs (s.chip.regs.write (regKey s.params pg a) v)
  if s.chip.oracle then s1.oracleLine else s1

/-- The values of the registers at an offset are no longer known: on the current page, or on every page where that is not
known (20_memory.md R56: "After a faulted write the target register's value is a `draw`"). -/
def State.forgetReg (s : State) (a : Byte) : State :=
  s.setRegs (s.chip.regs.forget fun k =>
    match s.chipPage with
    | some q => k == regKey s.params q a
    | none => [0, 1, 2, 3].any fun q : Page => k == regKey s.params q a)

/-- A verified write did not read back: what the register then holds is not known (93 I10; log 6). The test double keeps the
byte written (95_test_vectors.md P6). -/
def State.unverified (s : State) (a : Byte) : State := if s.chip.oracle then s else s.forgetReg a

/-- What a register holds: its last byte where it is known, else a free byte. -/
def State.regOrDraw (s : State) (r : RegAt) : Byte × State :=
  match s.regValue r.page r.addr with
  | some v => (v, s)
  | none => s.drawByte

/-- The chip is in a mode it took on its own: the MODE field of the mode-control register holds the mode's code (10_state.md
R38; 00_scope.md R6: "modes the chip may leave its mode field in") and CHIPMODE follows (R44). DESIGN CHOICE (log 25): every
other bit of that register is as it was, or free where it was not known. -/
def State.chipTakesMode (s : State) (m : Mode) : State :=
  let r := modectl s.params
  let v := s.regOrDraw r
  (v.2.storeReg r.page r.addr (setFieldValue s.params .mode v.1 (modeCodeOf s.params m))).setChipMode (some m)

/-- Whether a write of `v` at offset `a` is the IRQ clear write (43_frame_fifo.md R163), on the chip's page as far as the model
knows it. -/
def State.isClear (s : State) (a v : Byte) : Bool := s.chipPage.any fun q => (⟨q, a, v⟩ : RegWrite) == s.params.irqClr

/-- Whether the clear is a write of the IRQ-status register itself, as with REF (43_frame_fifo.md R163). -/
def clearsItself (p : Params) : Bool := p.irqReg == ⟨p.irqClr.page, p.irqClr.addr⟩

/-- The effect of a verified IRQ clear on the chip (43_frame_fifo.md R163): every event bit is 0 and the line leaves its active
level. The other bits are those the clear wrote where it is a write of that register, else free: "the clear may or may not
clear them"; where one is set it may hold the line, which then stays as it was, without an edge (93 I12; log 18). -/
def State.irqCleared (s : State) : State :=
  let p := s.params
  let v := if clearsItself p then (p.irqClr.value, s) else s.drawByte
  let b := v.1 &&& ~~~(irqEventMask p)
  let held := v.2.drawBit
  let s1 := held.2.setRegs (s.chip.regs.write (regKey p p.irqReg.page p.irqReg.addr) b)
  if b != 0 && held.1 then s1 else s1.setLine (!activeLevel p.irqActive)

/-- A verified write has read back. DEDUCED (log 18): the chip has taken an IRQ clear then and not before: "an event the chip
latches between the clear write and its read-back makes the read-back differ" (43_frame_fifo.md R163), and until the clear
succeeds the bits stay latched and the line stays active (70_reset_and_hazards.md R250). Where the chip's page is not known,
whether the write was the clear is free. On the test double the register and the line follow the write itself (20_memory.md
R58). -/
def State.writeVerified (s : State) (a v : Byte) : State :=
  if s.chip.oracle then s
  else match s.chipPage with
    | some q => if (⟨q, a, v⟩ : RegWrite) = s.params.irqClr then s.irqCleared else s
    | none =>
      if (⟨s.params.irqClr.page, a, v⟩ : RegWrite) = s.params.irqClr then
        let reached := s.drawBit
        if reached.1 then reached.2.irqCleared else reached.2
      else s

/-- An IRQ clear on the test double did not read back: "IRQ stays 0x01, so no new edge arrives" (95_test_vectors.md section
2.5, error paths). The IRQ-status register holds what was read, and the line stands as that says, without an edge (log 22). -/
def State.clearFailed (s : State) (a v got : Byte) : State :=
  if s.chip.oracle && s.isClear a v && clearsItself s.params then
    { (s.setRegs (s.chip.regs.write (regKey s.params s.params.irqReg.page a) got)).oracleLine with irqPend := s.irqPend }
  else s

/-- A good single-byte write reaches the chip (20_memory.md R57-R59): the FIFO appends it, another register takes it. On a
page that is not known it reaches one of four registers, none of which is then known. DEDUCED (log 18): off the test double
the IRQ-status register keeps its bits at its own clear write, until the read-back (`State.writeVerified`). DESIGN CHOICE
(log 38): so it is during a transmission too, where 93 I20 leaves open what the chip does with it (91_not_in_source.md N10). -/
def State.chipWrite (s : State) (a v : Byte) : State :=
  if a = s.params.fifoAddr then s.setTxq (s.chip.txq ++ [v])
  else if a = s.params.sysctlAddr then s.storeReg 0 a v
  else match s.chipPage with
    | none => s.forgetReg a
    | some q => if !s.chip.oracle && s.isClear a v && clearsItself s.params then s else s.storeReg q a v

/-- A read at FIFO_ADDR takes the oldest received byte with it (20_memory.md R59; D12: "A FIFO read consumes and a FIFO
write appends"); no other read changes the FIFO. DESIGN CHOICE (log 36): no read changes a register or the IRQ line, that of the
IRQ-status or a length register included, whose side effect R59 leaves open (91_not_in_source.md N6). -/
def State.consumed (s : State) (a : Byte) : State :=
  if a = s.params.fifoAddr then s.setRxq s.chip.rxq.tail else s

/-- The test double's answer to one read (20_memory.md R58): the head of RXQ at FIFO_ADDR (0x00 when it is empty), else the
last byte written there. DESIGN CHOICE (log 22): a register whose contents the test does not give answers a free byte, and so
does every register while the page is not known, where R58 does not say which page answers. -/
def State.oracleByte (s : State) (a : Byte) : Byte × State :=
  if a = s.params.fifoAddr then (s.chip.rxq.headD 0x00, s)
  else match s.chipPage with
    | some q => s.regOrDraw ⟨q, a⟩
    | none => s.drawByte

/-- One byte the chip returns. Every value a command reads from the chip is a `draw` (00_scope.md R9, R13; D12: "Toward
unprovable: every read is free."; D30: "Toward unprovable: every chip answer is quantified"), unless the environment has fixed
it (`forced`) or the test double answers. Whoever answers, a FIFO read consumes. -/
def State.chipByte (s : State) (a : Byte) (forced : List Byte) : Byte × State :=
  let own := if s.chip.oracle then s.oracleByte a else s.drawByte
  (forced.headD own.1, own.2.consumed a)

/-- The bytes of a burst read, in increasing index (20_memory.md R55). -/
def State.chipBytes (s : State) (a : Byte) (forced : List Byte) : Nat → List Byte × State
  | 0 => ([], s)
  | n + 1 =>
    let d := s.chipByte a forced
    let r := d.2.chipBytes a forced.tail n
    (d.1 :: r.1, r.2)

/-! ## The CHIPMODE monitor (42_mode_sequencer.md R132, D37) -/

/-- The chip's page before a single-byte transaction at the mode-control register's offset. DESIGN CHOICE (log 33): where it is
not known it is a free value, drawn there and the chip's page from then on, so that a read and the write after it are on one
page; the rest of the system-control register is free with it. -/
def State.pageDrawn (s : State) (a : Byte) : State :=
  if a = s.params.modectlAddr ∧ a ≠ s.params.sysctlAddr ∧ s.chipPage = none then
    let d := s.drawByte
    d.2.setRegs (s.chip.regs.write (regKey s.params 0 s.params.sysctlAddr) d.1)
  else s

/-- Whether a transaction at offset `a` is an access to the mode-control register: it carries the offset only, "the page being
the chip's current page-select field" (20_memory.md R57), whatever page the command names (DEDUCED, log 33). -/
def State.modeAccess (s : State) (a : Byte) : Bool :=
  a == s.params.modectlAddr && a != s.params.sysctlAddr && s.chipPage == some s.params.modectlPage

/-- R132 (1): a write transaction of a byte at offset `a`. At the mode-control register an illegal transition is recorded,
then CHIPMODE is the mode written. -/
def State.monitorWrite (s : State) (a v : Byte) : State :=
  let s1 := s.pageDrawn a
  let m2 := decodeMode s.params v
  if s1.modeAccess a then (if legal s1.chipMode m2 then s1 else s1.recordIllegal).setChipMode m2 else s1

/-- R132 (2): a read transaction at offset `a` that returned a byte, the chip's page being drawn as it is issued
(`State.pageDrawn`). -/
def State.monitorRead (s : State) (a r : Byte) : State :=
  if s.modeAccess a then s.setChipMode (decodeMode s.params r) else s

/-- A write transaction at offset `a` faulted: what the register holds is a `draw` (20_memory.md R56), so at the mode-control
register the mode is not known (93 I1; log 9). -/
def State.monitorLost (s : State) (a : Byte) : State := if s.modeAccess a then s.setChipMode none else s

/-- Whether the chip's current page may be a given one, as far as the model knows. -/
def State.mayBeOn (s : State) (pg : Page) : Bool :=
  match s.chipPage with
  | some q => q == pg
  | none => true

/-- Whether a burst at offset `a` may reach a register: one at that offset or after it (93 I4), on a page the chip may be on. A
burst that begins at or below the system-control register may change the page inside itself, so it may reach every page (log
10). DESIGN CHOICE (log 10): a burst that runs past offset 0xFF does not go on at 0x00, where R117 and 93 I4 do not say; it
reaches no offset below its own. -/
def State.burstReaches (s : State) (a : Byte) (r : RegAt) : Bool :=
  a.toNat ≤ r.addr.toNat && (a.toNat ≤ s.params.sysctlAddr.toNat || s.mayBeOn r.page)

/-- The registers a burst may reach are no longer known (93 I4). -/
def State.forgetFrom (s : State) (a : Byte) : State :=
  s.setRegs (s.chip.regs.forget fun k => s.burstReaches a ⟨BitVec.ofNat 2 (k / 256), BitVec.ofNat 8 (k % 256)⟩)

/-- CHIPMODE is UNKNOWN after a burst that may reach the mode-control register (93 I4; log 10). -/
def State.burstHidesMode (s : State) (a : Byte) : State :=
  if s.burstReaches a (modectl s.params) then s.setChipMode none else s

/-- Whether a burst at offset `a` may reach the FIFO data register after the register it names (93 I4 "and after it";
41_register_bus.md R117 "possibly the following ones"). DESIGN CHOICE (log 10): one that begins above it does not wrap to it. -/
def passesFifo (p : Params) (a : Byte) : Bool := a.toNat < p.fifoAddr.toNat

/-- A good burst, or a burst read, at another offset than FIFO_ADDR: the chip registers at that offset and after it are free
values (93 I4), the mode with them (log 10). The test double's registers stay as they are (log 22). -/
def State.burstDisturbs (s : State) (a : Byte) : State :=
  if s.chip.oracle then s.burstHidesMode a else (s.burstHidesMode a).forgetFrom a

/-- A good burst write reaches the chip (10_state.md R41, 20_memory.md R58, 93 I4): the FIFO appends the bytes in order;
another register is written by the test double with each byte in turn, so the last one stays (log 22). DESIGN CHOICE (log 34):
a burst that the transport reports good is taken to have reached the FIFO as it was sent, though the block could not tell one
that the chip received corrupted from it (43_frame_fifo.md R161, R167). DESIGN CHOICE (log 38): bytes sent during a transmission
are appended like any other, where 93 I20 leaves open what the chip does with them (91_not_in_source.md N10). Off the test double
the FIFO takes a free sequence of bytes where the burst may reach it (log 10). -/
def State.chipBurst (s : State) (a : Byte) (bytes : List Byte) : State :=
  if a = s.params.fifoAddr then s.setTxq (s.chip.txq ++ bytes)
  else
    let s1 := s.burstDisturbs a
    if s.chip.oracle then bytes.foldl (fun u b => u.chipWrite a b) s1
    else if passesFifo s.params a then s1.txqDrawn else s1

/-- A burst write did not end good: what the FIFO then holds, or the registers from `a` on hold, is free, on the test double
too (20_memory.md R56: "After a faulted write the target register's value is a `draw`"; log 23), and so is what the FIFO
holds where the burst may reach it (log 10). -/
def State.chipBurstLost (s : State) (a : Byte) : State :=
  if a = s.params.fifoAddr then s.txqDrawn
  else
    let s1 := (s.burstHidesMode a).forgetFrom a
    if passesFifo s.params a then s1.txqDrawn else s1

/-- A single-byte write did not end good: what the target register then holds is free (20_memory.md R56), and so is what the
transmit FIFO holds where the write was made at FIFO_ADDR (log 23). -/
def State.chipWriteLost (s : State) (a : Byte) : State :=
  if a = s.params.fifoAddr then s.txqDrawn else s.forgetReg a

/-- A burst read of `n` bytes at another offset than FIFO_ADDR disturbs the registers there (93 I4). Off the test double it
takes a free number of received bytes, `n` at most, where it may reach the FIFO (log 10). -/
def State.chipBurstRead (s : State) (a : Byte) (n : Nat) : State :=
  if a = s.params.fifoAddr then s
  else
    let s1 := s.burstDisturbs a
    if !s.chip.oracle && passesFifo s.params a then s1.rxqDrawn n else s1

/-- A read of `n` bytes did not end good. DESIGN CHOICE (log 30): at FIFO_ADDR it took a free number of received bytes, `n` at
most, from the chip; 20_memory.md R56 is silent. A single-byte read elsewhere takes nothing; for a burst elsewhere see
`State.chipBurstRead`. -/
def State.chipReadLost (s : State) (a : Byte) (n : Nat) : State :=
  if a = s.params.fifoAddr then s.rxqDrawn n else s

/-! ## The transport (20_memory.md R54-R56) -/

/-- How the next transaction ends and which bytes of a read are fixed. Where the environment has fixed nothing, the test
double never faults (20_memory.md R58) and otherwise "Whether a transaction faults is a `draw`" (R56, D10: "Toward
unprovable: every fault is taken as possibly harmful"). -/
def State.nextAnswer (s : State) : (Transport × List Byte) × State :=
  let s1 := { s with chip := { s.chip with answers := s.chip.answers.tail } }
  match s.chip.answers.head?.getD .auto with
  | .fault => ((.fault, []), s1)
  | .hang => ((.hang, []), s1)
  | .force bs => ((.done, bs), s1)
  | .auto =>
    if s.chip.oracle then ((.done, []), s1)
    else ((Config.drawTransport s.draws, []), { s1 with draws := s.draws + 1 })

/-- What the serial bus carries for one output of the block, byte by byte (20_memory.md R54, R55): chip-select asserted, the
header, the data bytes in increasing index with `DUMMY_TX` for a read, chip-select deasserted. -/
inductive Wire where
  | assertCs
  | exchange (sent : Byte)
  | deassertCs
  deriving DecidableEq, Repr

/-- The byte-level framing of a transaction (20_memory.md R54, R55; D9: "No error while the parameters are OPEN."); a
capability call or a delay is not on the bus, and a burst of no bytes is no transaction. DESIGN CHOICE (log 32): how far the
exchange of a faulted transaction got is open; the whole window is shown for it. -/
def BusEvent.wire (p : Params) : BusEvent → List Wire
  | .read a _ => .assertCs :: (Config.hdrRead a).map .exchange ++ [.exchange p.dummyTx, .deassertCs]
  | .write a v _ => .assertCs :: (Config.hdrWrite a).map .exchange ++ [.exchange v, .deassertCs]
  | .burstRead _ 0 _ => []
  | .burstRead a n _ =>
    .assertCs :: (Config.hdrRead a).map .exchange ++ List.replicate n (.exchange p.dummyTx) ++ [.deassertCs]
  | .burstWrite _ [] _ => []
  | .burstWrite a bs _ => .assertCs :: (Config.hdrWrite a).map .exchange ++ bs.map .exchange ++ [.deassertCs]
  | .cap _ => []
  | .delay _ _ => []

/-- Whether an output is a bus transaction (70_reset_and_hazards.md R246 "ntx"). -/
def BusEvent.isTransaction : BusEvent → Bool
  | .cap _ => false
  | .delay _ _ => false
  | .read _ _ => true
  | .write _ _ _ => true
  | .burstRead _ _ _ => true
  | .burstWrite _ _ _ => true

/-! ## The life of a command -/

/-- An error a command raises (60_exceptions.md R200, R202). -/
inductive Error where
  /-- BusError. -/
  | bus
  /-- VerifyError, with the register that did not read back, or none for a page switch. -/
  | verify (reg : Option RegAt)
  /-- ModeError, with the failing step and its cause. -/
  | mode (step : BitVec 4) (cause : Cause)
  deriving DecidableEq, Repr

/-- Why a command ends before its last step. -/
inductive Stop where
  /-- `raise E(info)` (00_scope.md R9). -/
  | raised (e : Error)
  /-- A read of an unwritten buffer byte ends the command (10_state.md R45). -/
  | unwritten
  /-- The reset input was asserted (70_reset_and_hazards.md R230). -/
  | abandoned
  /-- A transaction never completes (93 I26). -/
  | hung
  deriving DecidableEq, Repr

/-- A command, or a part of one: it answers a value, or ends the command. -/
abbrev Cmd (α : Type) := EStateM Stop State α

/-- The start of a command (30_encoding.md R70): BUSY set, ERR, STEP and CAUSE zeroed. -/
def State.beginCommand (s : State) : State :=
  { s with busy := true, err := .ok, stepIx := 0, cause := .none, seq := some 0 }

/-- TAKING AN EXCEPTION: what `raise` leaves in STATUS (60_exceptions.md R201, R202). Nothing else is saved and control goes
nowhere (R205, R210). D20: "Exact to DOC, apart from the numbering". -/
def State.report (s : State) : Error → State
  | .bus => { s with err := .busError }
  | .verify _ => { s with err := .verifyError }
  | .mode k c => { s with err := .modeError, stepIx := k, cause := c }

/-- THE RETURN: a command ends, normally or by an error: BUSY cleared, the sequence position discarded (10_state.md R26,
R35; 60_exceptions.md R211). -/
def State.endCommand (s : State) : State := { s with busy := false, seq := none }

/-- A command abandoned by the reset input: its position is discarded; the rest of the block takes its reset values when
reset is released (70_reset_and_hazards.md R230; log 12). -/
def State.abandon (s : State) : State := { s with seq := none }

/-- The block's reset, at the release of the reset input (10_state.md R47, 70_reset_and_hazards.md R230, R231): every piece
of block state takes its reset value, the edge detector's previous sample the current line level; the chip, the
oscillator, the outputs so far and what the outside does next stay. CHIPMODE is CHIP_POR_MODE where the model is told the
chip was just powered (10_state.md R44), else UNKNOWN. D33: "Toward unprovable: chip contents are never assumed". -/
def State.blockReset (s : State) (chipPowered : Bool) : State :=
  { State.resetWith s.params with
    irqPrev := s.chip.irqLine
    chipMode := if chipPowered then some s.params.chipPorMode else none
    tcxo := s.tcxo
    chip := s.chip
    rdata := s.rdata
    log := s.log
    draws := s.draws
    inputs := s.inputs
    during := s.during }

/-- The chip loses power and comes back (70_reset_and_hazards.md R236, 10_state.md R44; log 27): its FIFOs are empty, its mode
is CHIP_POR_MODE and the MODE field of the mode-control register holds that mode's code (R38); nothing else is known of its
registers. DESIGN CHOICE (log 27): the IRQ line keeps its level, for R231 and N3 give it none, until the chip drives it
(`Input.irqLine`); on the test double it follows the IRQ-status register (log 22). -/
def State.chipPowered (s : State) : State :=
  { s with chip := { s.chip with regs := [], txq := [], rxq := [] } }.chipTakesMode s.params.chipPorMode

end Sys2Proof.Machine
end

