-- ==== Sys2Proof/Machine/Host.lean ====
section
/-! DEFINITION. The host port (20_memory.md R50-R53), what each input of the outside does to the block, and the host's own
programs as inputs (30_encoding.md R83, 70_reset_and_hazards.md R238). -/

namespace Sys2Proof.Machine

/-- The host accesses the block admits (20_memory.md R53, D38): 1 byte at any buffer offset, 4 bytes at a multiple of 4
anywhere in the 1 KiB window. -/
def admitted (off width : Nat) : Bool :=
  (width == 1 && off < 0x200) || (width == 4 && off % 4 == 0 && off < 0x400)

/-- The offset of an admitted access to a bus address, if it is one (20_memory.md R50, R53). -/
def State.admits (s : State) (addr width : Nat) : Option Nat :=
  match hostOffset s.params addr with
  | some off => if admitted off width then some off else none
  | none => none

/-- One byte of a buffer as the host reads it: RBUF while BUSY = 1, and a byte nothing has written, are free values
(20_memory.md R53; 93 I18, I19). -/
def State.hostByte (s : State) (off : Nat) : Byte × State :=
  if s.busy && 0x100 ≤ off then s.drawByte
  else match s.mem.read off with
    | some b => (b, s)
    | none => s.drawByte

/-- `n` bytes of the buffers, in increasing offset order, as a little-endian number (20_memory.md R52). -/
def State.hostBytes (s : State) (off : Nat) : Nat → List Byte × State
  | 0 => ([], s)
  | n + 1 =>
    let d := s.hostByte off
    let r := d.2.hostBytes (off + 1) n
    (d.1 :: r.1, r.2)

/-- The registers whose value is a draw while BUSY = 1: RESULT, EVENT, RSSI, SNR, FLAGS (20_memory.md R53). -/
def drawnWhileBusy (off : Nat) : Bool := 0x208 ≤ off && off ≤ 0x218

/-- A host read (20_memory.md R51-R53): no side effect on the block but the data it returns. An access outside the contract
records HOST_REFUSED and has no effect. DESIGN CHOICE (log 31): while BUSY = 1 all 32 bits of a result register are drawn
(R53, 93 I18), the reserved bits that 10_state.md R24 and 93 I30 give as 0 among them. -/
def State.hostRead (s : State) (addr width : Nat) : State :=
  match s.admits addr width with
  | none => s.recordRefused
  | some off =>
    if off < 0x200 then
      let r := s.hostBytes off width
      r.2.setRdata (BitVec.ofNat 32 (wordOfBytes r.1))
    else if s.busy && drawnWhileBusy off then
      let r := s.drawWord
      r.2.setRdata r.1
    else s.setRdata (s.regWord off)

/-- A host write that starts no command (20_memory.md R51-R53): TBUF takes the bytes, or refuses them and sets OVR while
BUSY = 1 (10_state.md R31); CMD while BUSY = 1 sets OVR (10_state.md R25; D35: "Toward unprovable for hosts that break the
handshake."); every other admitted write is ignored. -/
def State.hostWrite (s : State) (addr width : Nat) (v : Word) : State :=
  match s.admits addr width with
  | none => s.recordRefused
  | some off =>
    if off < 0x100 then
      if s.busy then s.setOvr
      else { s with mem := s.mem.writeList off (bytesOfNat width v.toNat) }
    else if off = 0x200 && s.busy then s.setOvr
    else s

/-- The chip's mode as far as the model knows it: on the test double the mode its mode-control register holds (20_memory.md
R58), else CHIPMODE (10_state.md R44). -/
def State.knownMode (s : State) : Option Mode :=
  let held := (s.regValue s.params.modectlPage s.params.modectlAddr).bind (decodeMode s.params)
  if s.chip.oracle && held.isSome then held else s.chipMode

/-- Whether an event may end a transmission or a reception: Tx and Rx are the modes the chip leaves after an event, and "only a
block command wakes the chip" (60_exceptions.md R221; DEDUCED, log 25). DESIGN CHOICE (log 25): where the mode is not known the
chip may be in one of them. -/
def State.mayComplete (s : State) : Bool :=
  s.knownMode == none || s.knownMode == some .tx || s.knownMode == some .rx

/-- What one input does to the block, but for a CMD write that starts a command (`startWord`). While reset is asserted host
accesses have no effect (70_reset_and_hazards.md R230). A completion event moves the mode of a chip in Tx or Rx
(42_mode_sequencer.md R132 (3), 60_exceptions.md R221: `State.mayComplete`); DESIGN CHOICE (log 25): the MODE field of the
mode-control register with it, so that a GET_MODE tells it (70_reset_and_hazards.md R256), and a mode outside POST_EVENT_MODES is
ignored. DESIGN CHOICE (log 35): no input, short of a power cycle, lets the chip drop received bytes from RXQ. -/
def State.arrive (s : State) : Input → State
  | .hostRead addr width => if s.inReset then s else s.hostRead addr width
  | .hostWrite addr width v => if s.inReset then s else s.hostWrite addr width v
  | .irqLine level => if s.chip.oracle then s else s.setLine level
  | .completion m => if s.mayComplete ∧ m ∈ s.params.postEventModes then s.chipTakesMode m else s
  | .chipReg pg off v => s.storeReg (if off = s.params.sysctlAddr then 0 else pg) off v
  | .chipRx bytes => s.setRxq (s.chip.rxq ++ bytes)
  | .chipTx count => s.setTxq (s.chip.txq.drop count)
  | .chipPower => s.chipPowered
  | .resetAssert => s.assertReset
  | .resetRelease chipPowered => if s.inReset then s.blockReset chipPowered else s

/-- The command word an input hands to the block: an admitted 4-byte write of CMD while BUSY = 0, outside reset (10_state.md
R25). -/
def State.startWord (s : State) : Input → Option Word
  | .hostWrite addr width v =>
    if !s.inReset && !s.busy && s.admits addr width == some 0x200 then some v else none
  | .hostRead _ _ => none
  | .irqLine _ => none
  | .completion _ => none
  | .chipReg _ _ _ => none
  | .chipRx _ => none
  | .chipTx _ => none
  | .chipPower => none
  | .resetAssert => none
  | .resetRelease _ => none

/-! ## The host's programs as inputs -/

/-- The host writes a command word to CMD (30_encoding.md R71: one 4-byte access). -/
def cmdInput (p : Params) (w : Word) : Input := .hostWrite (cmdAddr p) 4 w

/-- `.tbuf OFF: b0 b1 ...` (30_encoding.md R83): the host writes bytes to TBUF by 1-byte accesses. -/
def tbufInputs (p : Params) : Nat → List Byte → List Input
  | _, [] => []
  | off, b :: bs => .hostWrite (p.tcbBase + off) 1 (b.setWidth 32) :: tbufInputs p (off + 1) bs

/-- A program of commands, each written to CMD in turn (30_encoding.md R83). -/
def programInputs (p : Params) (prog : List Instr) : List Input := prog.map fun i => cmdInput p (encode i)

/-- The AGC table as the host applies it, one REG_WRITE per triple in table order (70_reset_and_hazards.md R238; D39: "No
error while OPEN."); stopping at the first command whose ERR is not OK is the host's part. -/
def agcProgram (p : Params) : List Instr := p.agcTable.map fun w => .regWrite w.page w.addr w.value

end Sys2Proof.Machine
end

