-- ==== Sys2Proof/Machine/Bus.lean ====
section
/-! DEFINITION. The actions of a running command: the boundary before each, the bus transactions, the capability calls and
delays, the paged access procedures (41_register_bus.md R110-R114), and how a command runs from its start to its end. -/

namespace Sys2Proof.Machine

/-- What arrives at one boundary, in order. Reset ends the command there; what comes after it is left for the idle block. A
release of reset means nothing here: no command runs while reset is asserted (70_reset_and_hazards.md R230). -/
def State.arriveAll (s : State) : List Input → EStateM.Result Stop State Unit
  | [] => .ok () s
  | .resetAssert :: rest => .error .abandoned { s.assertReset with inputs := rest ++ s.inputs }
  | .resetRelease _ :: rest => s.arriveAll rest
  | i :: rest => (s.arrive i).arriveAll rest

/-- The boundary before an action: the chip and the host may act here and only here (00_scope.md R13, 20_memory.md R62; log
1). -/
def boundary : Cmd Unit := fun s =>
  match s.during with
  | [] => .ok () s
  | now :: later => { s with during := later }.arriveAll now

/-- The parameters of the block. -/
def getParams : Cmd Params := fun s => .ok s.params s

/-- A change of the state that cannot fail and is no action on a port. -/
def change (f : State → State) : Cmd Unit := fun s => .ok () (f s)

/-- One transaction (20_memory.md R54-R56): `before` happens as it is issued; then it is good; or it faults, which leaves the
chip as `lost` says, the output `failed`, PCACHE UNKNOWN (41_register_bus.md R114 (c)) and BusError; or it never ends.
DEDUCED (log 11): a transaction that never ends (93 I26) leaves the chip as a faulted one does, and no output is recorded for
it: what it put on the bus is open. -/
def transact {α : Type} (before : State → State) (good : List Byte → State → α × State) (lost : State → State)
    (failed : BusEvent) : Cmd α := do
  boundary
  fun s =>
    let s1 := (before s).advance
    let r := s1.nextAnswer
    match r.1.1 with
    | .done => let g := good r.1.2 r.2; .ok g.1 g.2
    | .fault => .error (.raised .bus) ((lost r.2).logged failed).dropPage
    | .hang => .error .hung (lost r.2)

/-- `BusRead(a)` (20_memory.md R54). Its one side effect on the chip is `State.consumed`'s; that a read of the IRQ-status or a
length register has none is the model's DESIGN CHOICE (R59, 91_not_in_source.md N6; log 36). -/
def busRead (a : Byte) : Cmd Byte :=
  transact (fun s => s.pageDrawn a)
    (fun forced s =>
      let d := s.chipByte a forced
      (d.1, (d.2.logged (.read a (some d.1))).monitorRead a d.1))
    (fun s => s.chipReadLost a 1) (.read a none)

/-- `BusWrite(a, v)` (20_memory.md R54). After a fault the register's value is a `draw` (R56). -/
def busWrite (a v : Byte) : Cmd Unit :=
  transact (fun s => s.monitorWrite a v)
    (fun _ s => ((), (s.chipWrite a v).logged (.write a v true)))
    (fun s => (s.chipWriteLost a).monitorLost a) (.write a v false)

/-- `BusBurstRead(a, n)`, n >= 1 (20_memory.md R55). -/
def busBurstRead (a : Byte) (n : Nat) : Cmd (List Byte) :=
  transact id
    (fun forced s =>
      let d := s.chipBytes a forced n
      (d.1, (d.2.chipBurstRead a n).logged (.burstRead a n (some d.1))))
    (fun s => (s.chipReadLost a n).chipBurstRead a n) (.burstRead a n none)

/-- `BusBurstWrite(a, bytes)`, at least one byte (20_memory.md R55). DESIGN CHOICE (log 10): a burst that begins at
the mode-control register is judged as a write of its first byte there, and of no later one. -/
def busBurstWrite (a : Byte) (bytes : List Byte) : Cmd Unit :=
  transact
    (fun s => if a = s.params.fifoAddr then s else s.monitorWrite a (bytes.headD 0))
    (fun _ s => ((), (s.chipBurst a bytes).logged (.burstWrite a bytes true)))
    (fun s => s.chipBurstLost a) (.burstWrite a bytes false)

/-- `Cap(name)` (60_exceptions.md R219): cannot fail, returns nothing. -/
def callCap (c : Cap) : Cmd Unit := do
  boundary
  change fun s => { (s.advance.logged (.cap c)) with tcxo := c == .enableTcxo }

/-- `Delay(t)` (70_reset_and_hazards.md R243, R244): at least `t`, with no upper bound (D32: "Toward
unprovable for upper-bound timing claims, which cannot be proved."). -/
def delay (t : Nat) : Cmd Unit := do
  boundary
  change fun s => { (s.advance.logged (.delay t (t + Config.drawTime s.draws))) with draws := s.draws + 1 }

/-- `raise E(info)` (00_scope.md R9). -/
def raiseError {α : Type} (e : Error) : Cmd α := fun s => .error (.raised e) s

/-- `SwitchPage(p)` (41_register_bus.md R111, D8; D7: "Toward unprovable: a chip with read-only or volatile bits in that
register fails every switch here"). -/
def switchPage (pg : Page) : Cmd Unit := fun s =>
  if s.params.pageCacheEnable && s.pcache == some pg then .ok () s
  else
    (do let v ← busRead s.params.sysctlAddr
        busWrite s.params.sysctlAddr (setPageField s.params v pg)
        let r ← busRead s.params.sysctlAddr
        if r = setPageField s.params v pg then change fun u => u.setPage pg
        else do
          change fun u => (u.unverified u.params.sysctlAddr).dropPage
          raiseError (.verify none) : Cmd Unit) s

/-- `PagedRead(p, a)` (41_register_bus.md R112). -/
def pagedRead (r : RegAt) : Cmd Byte := do
  switchPage r.page
  busRead r.addr

/-- `PagedWrite(p, a, v)` (41_register_bus.md R113, D11: "Toward unprovable for registers with self-clearing or read-only
bits (`93_implementation_defined.md` I3)."). A write at SYSCTL_ADDR drops PCACHE right after its write transaction (R114
(e)). -/
def pagedWrite (r : RegAt) (v : Byte) : Cmd Unit := do
  switchPage r.page
  busWrite r.addr v
  change fun s => if r.addr = s.params.sysctlAddr then s.dropPage else s
  let got ← busRead r.addr
  if got = v then change fun s => s.writeVerified r.addr v
  else do
    change fun s => (s.unverified r.addr).clearFailed r.addr v got
    raiseError (.verify (some r))

/-- A verified write of a (page, offset, value) triple. -/
def pagedWriteTriple (w : RegWrite) : Cmd Unit := pagedWrite ⟨w.page, w.addr⟩ w.value

/-- The bytes of a buffer range, or the end of the command with UNWRITTEN_READ where one is unwritten (10_state.md R45). -/
def readBuffer (b : Buf) (off len : Nat) : Cmd (List Byte) := fun s =>
  match s.mem.readRange (bufBase b + off) len with
  | some bs => .ok bs s
  | none => .error .unwritten s.recordUnwritten

/-- The block writes RBUF from index `off` on (10_state.md R32, R45). -/
def State.storeRbuf (s : State) (off : Nat) (bs : List Byte) : State :=
  { s with mem := s.mem.writeList (rbufBase + off) bs }

/-- A burst read into RBUF[off .. off+n-1]; after a fault those bytes are written with free values (41_register_bus.md R118,
93 I9; log 28). -/
def burstIntoRbuf (a : Byte) (off n : Nat) : Cmd Unit := fun s =>
  match busBurstRead a n s with
  | .ok bs s1 => .ok () (s1.storeRbuf off bs)
  | .error (.raised e) s1 =>
    let d := s1.drawList n
    .error (.raised e) (d.2.storeRbuf off d.1)
  | .error .unwritten s1 => .error .unwritten s1
  | .error .abandoned s1 => .error .abandoned s1
  | .error .hung s1 => .error .hung s1

/-! ## Running a command -/

/-- The end of a command after its last action: what arrives before BUSY clears still meets BUSY = 1 (log 21). -/
def State.closeCommand (s : State) (status : State → State) : State :=
  match boundary s with
  | .ok _ s1 => (status s1).endCommand
  | .error _ s1 => s1.abandon

/-- The state a command leaves (10_state.md R26; 60_exceptions.md R203, R205). After UNWRITTEN_READ the command ends with ERR
= OK (40_crc.md R102); a transaction that never completes leaves BUSY = 1 (93 I26; log 11). -/
def commandResult : EStateM.Result Stop State Unit → State
  | .ok _ s => s.closeCommand id
  | .error (.raised e) s => s.closeCommand fun u => u.report e
  | .error .unwritten s => s.closeCommand id
  | .error .abandoned s => s.abandon
  | .error .hung s => s

/-- A command from its start to its end (30_encoding.md R70). It is one step: the block "executes one command at a time"
(00_scope.md R12; log 1). D1: "Toward proving for a host that breaks the single-writer rule: the interleavings the
software could suffer are excluded here (a second command is refused, OVR). Exact otherwise." -/
def runCommand (c : Cmd Unit) (s : State) : Host.Outcome State Fault Refusal :=
  .next (commandResult (c s.beginCommand))

/-- A word that decodes to ILLEGAL: ERR = ILLEGAL_CMD and no action (30_encoding.md R70). DESIGN CHOICE (log 21): like any
command that issues nothing it has the one boundary before BUSY clears. -/
def State.illegalCommand (s : State) : State := s.beginCommand.closeCommand fun u => { u with err := .illegalCmd }

end Sys2Proof.Machine
end

