-- ==== Sys2Proof/Machine/Crc.lean ====
section
/-! DEFINITION. The CRC-16 engine (40_crc.md): CRC16.CCITT and CRC16.IBM. -/

namespace Sys2Proof.Machine

/-- One bit of the loop of 40_crc.md R100: feedback `c[15] ^ data bit`, shift left, exclusive-or with the polynomial. D6:
"Toward wrong values, not toward proving or unprovable: if the chip's CRC is reflected, every CRC16 result differs. A reader
who knows the chip's order replaces rule R100's loop. The reflected IBM form (CRC-16/MODBUS) is named in
`91_not_in_source.md` N9." (log 24). -/
def crcBit (poly c : Half) (bit : Bool) : Half :=
  if c.getLsbD 15 ^^ bit then (c <<< 1) ^^^ poly else c <<< 1

/-- One byte, most significant bit first (40_crc.md R100). -/
def crcByte (poly c : Half) (b : Byte) : Half :=
  [7, 6, 5, 4, 3, 2, 1, 0].foldl (fun c i => crcBit poly c (b.getLsbD i)) c

/-- The 16-bit register after a byte sequence, from a starting value (40_crc.md R100). -/
def crcRegister (poly c : Half) (d : List Byte) : Half := d.foldl (crcByte poly) c

/-- `crc16(d, poly, seed, inv)` (40_crc.md R100). -/
def crc16 (d : List Byte) (poly seed : Half) (inv : Bool) : Half :=
  if inv then ~~~(crcRegister poly seed d) else crcRegister poly seed d

/-- The CCITT profile (40_crc.md R101). -/
def crcCcitt (d : List Byte) : Half := crc16 d 0x1021 0x1D0F true

/-- The IBM profile (40_crc.md R101). -/
def crcIbm (d : List Byte) : Half := crc16 d 0x8005 0xFFFF false

/-- A CRC16 command (40_crc.md R102, R103): the CRC of a buffer range to RESULT. The engine keeps no state (R104) and is not
connected to the chip's frame CRC (R105). -/
def crcCommand (crc : List Byte → Half) (buf : Buf) (off len : Byte) : Cmd Unit := do
  let d ← readBuffer buf off.toNat len.toNat
  change fun s => s.setResult (crc d)

/-- CRC16.CCITT (40_crc.md R102). -/
def execCrcCcitt (buf : Buf) (off len : Byte) (s : State) : Host.Outcome State Fault Refusal :=
  runCommand (crcCommand crcCcitt buf off len) s

/-- CRC16.IBM (40_crc.md R103). -/
def execCrcIbm (buf : Buf) (off len : Byte) (s : State) : Host.Outcome State Fault Refusal :=
  runCommand (crcCommand crcIbm buf off len) s

end Sys2Proof.Machine
end

