-- ==== Sys2Proof/Machine/ModeSequencer.lean ====
section
/-! DEFINITION. The mode-transition sequencer (42_mode_sequencer.md). -/

namespace Sys2Proof.Machine

/-- `SetField(F, x)` (42_mode_sequencer.md R131, D19: "Toward unprovable: one extra read per mode write"). -/
def setField (f : Field) (x : Byte) : Cmd Unit := do
  let p ← getParams
  let v ← pagedRead (modectl p)
  pagedWrite (modectl p) (setFieldValue p f v x)

/-- `SetField(MODE, MODE_CODE(m))`. -/
def setModeField (m : Mode) : Cmd Unit := do
  let p ← getParams
  setField .mode (modeCodeOf p m)

/-- A step of a mode sequence: a BusError or VerifyError in it is raised as ModeError with its step and cause
(60_exceptions.md R202, R204). CHIPMODE is then UNKNOWN unless the read-back of the mode-control register has
re-synchronised it (93 I1, 42_mode_sequencer.md R144; log 9), which takes a chip on that register's page (log 33). -/
def modeStep {α : Type} (k : BitVec 4) (act : Cmd α) : Cmd α := fun s =>
  match act s with
  | .ok a s1 => .ok a s1
  | .error (.raised .bus) s1 => .error (.raised (.mode k .bus)) (s1.setChipMode none)
  | .error (.raised (.verify r)) s1 =>
    .error (.raised (.mode k .verify))
      (if r = some (modectl s1.params) ∧ s1.chipPage = some s1.params.modectlPage then s1 else s1.setChipMode none)
  | .error (.raised (.mode j c)) s1 => .error (.raised (.mode j c)) s1
  | .error .unwritten s1 => .error .unwritten s1
  | .error .abandoned s1 => .error .abandoned s1
  | .error .hung s1 => .error .hung s1

/-- `WakeSeq` (42_mode_sequencer.md R133; the assignment of the delays is 90_conflicts.md C3). D15: "A timing proof that
depends on the exact assignment errs either way. Functional rules do not depend on it (`70_reset_and_hazards.md` rule
R244)." -/
def wakeSeq : Cmd Unit := do
  change State.dropPage
  let p ← getParams
  modeStep 1 (pagedWriteTriple p.xtalTrim0)
  modeStep 2 (pagedWriteTriple p.xtalTrim1)
  callCap .enableTcxo
  delay p.tOsc
  modeStep 4 (setModeField .standby1)
  delay p.tStb1
  modeStep 5 (setModeField .standby2)
  delay p.tStb2
  modeStep 6 (setModeField .standby3)
  delay p.tStb3

/-- WAKE_DEEP (42_mode_sequencer.md R134; D18: "Exact to DOC. A wake from Standby3 records ILLEGAL_TRANSITION."). -/
def execWakeDeep (s : State) : Host.Outcome State Fault Refusal := runCommand wakeSeq s

/-- WAKE_SLEEP, identical (42_mode_sequencer.md R135). -/
def execWakeSleep (s : State) : Host.Outcome State Fault Refusal := runCommand wakeSeq s

/-- The sleep guard, step 0 (42_mode_sequencer.md R136). D17: "Reject: toward unprovable, because it refuses the source's
blind sequence. Unguarded: exact to the source." -/
def sleepGuardStep : Cmd Unit := do
  let p ← getParams
  match p.sleepGuard with
  | .unguarded => pure ()
  | .reject => do
    let v ← modeStep 0 (pagedRead (modectl p))
    if decodeMode p v = some .standby3 then pure () else raiseError (.mode 0 .wrongMode)

/-- Steps 1 to 4 of `SleepSeq(target)` (42_mode_sequencer.md R137, D16: errs "Either way, if the chip needs the oscillator on
its last step"). -/
def sleepSteps (target : Mode) : Cmd Unit := do
  let p ← getParams
  modeStep 1 (setModeField .standby2)
  delay p.tDn
  modeStep 2 (setModeField .standby1)
  delay p.tDn
  callCap .disableTcxo
  modeStep 4 (setModeField target)

/-- However a part of a command ends, PCACHE is UNKNOWN then (42_mode_sequencer.md R137, 41_register_bus.md R114 (g), (h)). A
transaction that never completes is no end. -/
def thenDropPage (c : Cmd Unit) : Cmd Unit := fun s =>
  match c s with
  | .ok _ s1 => .ok () s1.dropPage
  | .error .hung s1 => .error .hung s1
  | .error .abandoned s1 => .error .abandoned s1.dropPage
  | .error .unwritten s1 => .error .unwritten s1.dropPage
  | .error (.raised e) s1 => .error (.raised e) s1.dropPage

/-- `SleepSeq(target)` (42_mode_sequencer.md R137). DCDC and low-data-rate are the host's (R145; D40: "Toward proving: the
model does not see the chip's misbehaviour when the contract is broken (`93_implementation_defined.md` I7)."). -/
def sleepSeq (target : Mode) : Cmd Unit := do
  sleepGuardStep
  thenDropPage (sleepSteps target)

/-- SLEEP (42_mode_sequencer.md R138). -/
def execSleep (s : State) : Host.Outcome State Fault Refusal := runCommand (sleepSeq .sleep) s

/-- DEEP_SLEEP (42_mode_sequencer.md R139). -/
def execDeepSleep (s : State) : Host.Outcome State Fault Refusal := runCommand (sleepSeq .deepSleep) s

/-- SET_MODE (42_mode_sequencer.md R140): step 1 is its only step. -/
def execSetMode (m : Mode) (s : State) : Host.Outcome State Fault Refusal :=
  runCommand (modeStep 1 (setModeField m)) s

/-- What GET_MODE returns for a mode-control byte (42_mode_sequencer.md R141, D42: "Exact"). -/
def modeResult (m : Option Mode) : Half :=
  match m with
  | some m => BitVec.ofNat 16 m.number
  | none => 0xFF

/-- GET_MODE (42_mode_sequencer.md R141). -/
def getModeCommand : Cmd Unit := do
  let p ← getParams
  let v ← pagedRead (modectl p)
  change fun s => s.setResult (modeResult (decodeMode p v))

/-- GET_MODE (42_mode_sequencer.md R141). -/
def execGetMode (s : State) : Host.Outcome State Fault Refusal := runCommand getModeCommand s

/-- SET_TXSUB (42_mode_sequencer.md R142): no mode transition, so plain bus and verify errors. -/
def setTxsubCommand (sub : TxSub) : Cmd Unit := do
  let p ← getParams
  setField .txsub (txsubCodeOf p sub)

/-- SET_TXSUB (42_mode_sequencer.md R142). -/
def execSetTxsub (sub : TxSub) (s : State) : Host.Outcome State Fault Refusal := runCommand (setTxsubCommand sub) s

/-- SET_RXSUB (42_mode_sequencer.md R143). -/
def setRxsubCommand (sub : RxSub) : Cmd Unit := do
  let p ← getParams
  setField .rxsub (rxsubCodeOf p sub)

/-- SET_RXSUB (42_mode_sequencer.md R143). -/
def execSetRxsub (sub : RxSub) (s : State) : Host.Outcome State Fault Refusal := runCommand (setRxsubCommand sub) s

end Sys2Proof.Machine
end

