-- ==== Sys2Proof/Machine/FrameFifo.lean ====
section
/-! DEFINITION. The frame FIFO port (43_frame_fifo.md). A burst that the transport reports good is never retried (R167). -/

namespace Sys2Proof.Machine

/-- SEND (43_frame_fifo.md R161): length, Tx mode, burst, in the source's order (R160). D21: "LEN = 0 is toward unprovable.
The order is exact to DOC." No antenna call is made
(60_exceptions.md R219, D41: "Toward proving if a real chip needs the antenna path set by the block"). -/
def sendCommand (len : Byte) : Cmd Unit := do
  let d ← readBuffer .tbuf 0 len.toNat
  let p ← getParams
  pagedWrite p.txlen len
  modeStep 2 (setModeField .tx)
  busBurstWrite p.fifoAddr d

/-- SEND (43_frame_fifo.md R161). -/
def execSend (len : Byte) (s : State) : Host.Outcome State Fault Refusal := runCommand (sendCommand len) s

/-- `ClearIrq()` (43_frame_fifo.md R163, D24: "The verify can report an event that races the clear as VERIFY_ERROR, which is
toward unprovable"). -/
def clearIrq : Cmd Unit := do
  let p ← getParams
  pagedWriteTriple p.irqClr

/-- The received length, and that many bytes from the FIFO into RBUF[0 ..] (43_frame_fifo.md R162; 44_irq_dispatch.md R183;
D22: "Exact to DOC"). No burst for length 0. -/
def drainFrame : Cmd Byte := do
  let p ← getParams
  let n ← pagedRead p.rxlen
  match n.toNat with
  | 0 => pure n
  | k + 1 => do
    burstIntoRbuf p.fifoAddr 0 (k + 1)
    pure n

/-- RECEIVE (43_frame_fifo.md R162). -/
def receiveCommand : Cmd Unit := do
  let n ← drainFrame
  clearIrq
  change fun s => s.setResult (n.setWidth 16)

/-- RECEIVE (43_frame_fifo.md R162). -/
def execReceive (s : State) : Host.Outcome State Fault Refusal := runCommand receiveCommand s

/-- CLR_IRQ (43_frame_fifo.md R164): STATUS.IRQ_PEND is not touched. -/
def execClrIrq (s : State) : Host.Outcome State Fault Refusal := runCommand clearIrq s

/-- The paged reads of a PLHD map into RBUF, in buffer order, from index `i` on (43_frame_fifo.md R166). -/
def plhdReadFrom : Nat → List RegAt → Cmd Unit
  | _, [] => pure ()
  | i, r :: rs => do
    let x ← pagedRead r
    change fun s => s.storeRbuf i [x]
    plhdReadFrom (i + 1) rs

/-- `PlhdRead(n)` (43_frame_fifo.md R166, D23: "Toward unprovable: more transactions than a burst read would need"). -/
def plhdRead (sel : PlhdSel) : Cmd Unit := do
  let p ← getParams
  plhdReadFrom 0 (plhdMap p sel)

/-- RECV_PLHD (43_frame_fifo.md R165). -/
def recvPlhdCommand (sel : PlhdSel) : Cmd Unit := do
  plhdRead sel
  clearIrq
  change fun s => s.setResult (BitVec.ofNat 16 (plhdCount sel))

/-- RECV_PLHD (43_frame_fifo.md R165). -/
def execRecvPlhd (sel : PlhdSel) (s : State) : Host.Outcome State Fault Refusal := runCommand (recvPlhdCommand sel) s

end Sys2Proof.Machine
end

