-- ==== Sys2Proof/Machine/IrqDispatch.lean ====
section
/-! DEFINITION. The interrupt event dispatcher (44_irq_dispatch.md): DISPATCH, SET_RXFLAG, SET_TXFLAG, NOP. -/

namespace Sys2Proof.Machine

/-- The handler `Select` picks (44_irq_dispatch.md R181). -/
inductive Handler where
  | plhd | rxDone | crcErr | rxTo | txDone | none
  deriving DecidableEq, Repr

/-- `Select(s)`: the first matching event bit in the source's fixed order, whatever the bit positions (44_irq_dispatch.md
R181; D25: "No error while OPEN."; 90_conflicts.md C2). -/
def selectHandler (p : Params) (status : Byte) : Handler :=
  if status.getLsbD p.irqBitPlhd.val then .plhd
  else if status.getLsbD p.irqBitRxDone.val then .rxDone
  else if status.getLsbD p.irqBitCrcErr.val then .crcErr
  else if status.getLsbD p.irqBitRxTo.val then .rxTo
  else if status.getLsbD p.irqBitTxDone.val then .txDone
  else .none

/-- One action of `MODE_RESET`. -/
def resetAction : ResetAction → Cmd Unit
  | .setMode m => setModeField m
  | .write w => pagedWriteTriple w

/-- The actions of `MODE_RESET`, in order. -/
def resetActions : List ResetAction → Cmd Unit
  | [] => pure ()
  | a :: as => do
    resetAction a
    resetActions as

/-- `ModeReset()` (44_irq_dispatch.md R185, D26: "With REF: toward proving if the real reset is a chip soft reset that also
loses configuration."): step 1 of a mode sequence, PCACHE UNKNOWN at its end, whatever it does. DESIGN CHOICE (log 37): the chip
keeps its page-select over it, which R185 and 93 I24 leave open. -/
def modeReset : Cmd Unit := do
  let p ← getParams
  thenDropPage (modeStep 1 (resetActions p.modeReset))

/-- `HandlePlhd()` (44_irq_dispatch.md R182; 90_conflicts.md C9: every handler clears). -/
def handlePlhd : Cmd Delivery := do
  let p ← getParams
  plhdRead p.plhdLen
  clearIrq
  modeReset
  pure ⟨.plhdDone, BitVec.ofNat 8 (plhdCount p.plhdLen), .rx .plhdRxDone, none⟩

/-- The paged reads of `LM_READS`, in order (44_irq_dispatch.md R187). -/
def readAll : List RegAt → Cmd (List Byte)
  | [] => pure []
  | r :: rs => do
    let y ← pagedRead r
    let ys ← readAll rs
    pure (y :: ys)

/-- `LM_FN` (44_irq_dispatch.md R187; D31: "No error while OPEN."); the block does no arithmetic on the patterns
(10_state.md R29). -/
def lmApply (f : LmFn) (ys : List Byte) : Word × Word :=
  match f with
  | .const rssi snr => (rssi, snr)
  | .collaborator => Config.lmFn ys

/-- `LinkMetrics()` (44_irq_dispatch.md R187). -/
def linkMetrics : Cmd (Word × Word) := do
  let p ← getParams
  let ys ← readAll p.lmReads
  pure (lmApply p.lmFn ys)

/-- `HandleRxDone()` (44_irq_dispatch.md R183): the metrics first, then the drain and the clear. -/
def handleRxDone : Cmd Delivery := do
  let m ← linkMetrics
  let n ← drainFrame
  clearIrq
  pure ⟨.rxDone, n, .rx .rxDone, some m⟩

/-- `HandleNoPayload(h)` (44_irq_dispatch.md R184): the clear only. -/
def handleNoPayload (tag : EventTag) (f : FlagUpdate) : Cmd Delivery := do
  clearIrq
  pure ⟨tag, 0, f, none⟩

/-- The handler's actions and what it delivers (44_irq_dispatch.md R180, R182-R186; flags R188). No event bit: nothing is
cleared (R186, 90_conflicts.md C1). -/
def runHandler : Handler → Cmd Delivery
  | .plhd => handlePlhd
  | .rxDone => handleRxDone
  | .crcErr => handleNoPayload .rxCrcError (.rx .rxErr)
  | .rxTo => handleNoPayload .rxTimeout (.rx .rxTimeout)
  | .txDone => handleNoPayload .txDone (.tx .txDone)
  | .none => pure ⟨.none, 0, .keep, none⟩

/-- DISPATCH (44_irq_dispatch.md R180). IRQ_PEND is cleared before the first transaction (10_state.md R34); the commit is
reached only if no step raised. -/
def dispatchCommand : Cmd Unit := do
  change fun s => { s with irqPend := false }
  let p ← getParams
  let status ← pagedRead p.irqReg
  let d ← runHandler (selectHandler p status)
  change fun s => s.deliver status d

/-- DISPATCH (44_irq_dispatch.md R180): the block's trap handler (60_exceptions.md R210, R211). -/
def execDispatch (s : State) : Host.Outcome State Fault Refusal := runCommand dispatchCommand s

/-- SET_RXFLAG (44_irq_dispatch.md R189). -/
def execSetRxflag (f : Flag) (s : State) : Host.Outcome State Fault Refusal :=
  runCommand (change fun u => u.applyFlag (.rx f)) s

/-- SET_TXFLAG (44_irq_dispatch.md R190). -/
def execSetTxflag (f : Flag) (s : State) : Host.Outcome State Fault Refusal :=
  runCommand (change fun u => u.applyFlag (.tx f)) s

/-- NOP (44_irq_dispatch.md R191). -/
def execNop (s : State) : Host.Outcome State Fault Refusal := runCommand (pure ()) s

end Sys2Proof.Machine
end

