-- ==== Sys2Proof/Machine/RegisterBus.lean ====
section
/-! DEFINITION. The paged register bus commands (41_register_bus.md section 2). There is no retry and no rollback (R120). -/

namespace Sys2Proof.Machine

/-- REG_READ (41_register_bus.md R115). -/
def regReadCommand (page : Page) (addr : Byte) : Cmd Unit := do
  let x ← pagedRead ⟨page, addr⟩
  change fun s => s.setResult (x.setWidth 16)

/-- REG_READ (41_register_bus.md R115). -/
def execRegRead (page : Page) (addr : Byte) (s : State) : Host.Outcome State Fault Refusal :=
  runCommand (regReadCommand page addr) s

/-- REG_WRITE (41_register_bus.md R116). -/
def execRegWrite (page : Page) (addr value : Byte) (s : State) : Host.Outcome State Fault Refusal :=
  runCommand (pagedWrite ⟨page, addr⟩ value) s

/-- FIFO_WRITE (41_register_bus.md R117; D12: "Toward unprovable: every read is free."): no page switch, no verify; nothing on
the bus for LEN = 0. -/
def fifoWriteCommand (faddr off len : Byte) : Cmd Unit := do
  let d ← readBuffer .tbuf off.toNat len.toNat
  match len.toNat with
  | 0 => pure ()
  | _ + 1 => busBurstWrite faddr d

/-- FIFO_WRITE (41_register_bus.md R117). -/
def execFifoWrite (faddr off len : Byte) (s : State) : Host.Outcome State Fault Refusal :=
  runCommand (fifoWriteCommand faddr off len) s

/-- FIFO_READ (41_register_bus.md R118; D12: "Toward unprovable: every read is free."): no page switch, no verify; nothing on
the bus for LEN = 0. The bytes a FIFO read at FIFO_ADDR returns leave the chip's FIFO. -/
def fifoReadCommand (faddr off len : Byte) : Cmd Unit :=
  match len.toNat with
  | 0 => pure ()
  | n + 1 => burstIntoRbuf faddr off.toNat (n + 1)

/-- FIFO_READ (41_register_bus.md R118). -/
def execFifoRead (faddr off len : Byte) (s : State) : Host.Outcome State Fault Refusal :=
  runCommand (fifoReadCommand faddr off len) s

/-- PAGE_SYNC (41_register_bus.md R119): PCACHE <- UNKNOWN, no transaction. -/
def execPageSync (s : State) : Host.Outcome State Fault Refusal :=
  runCommand (change State.dropPage) s

end Sys2Proof.Machine
end

