-- ==== Sys2Proof/Machine/Dispatch.lean ====
section
/-! DEFINITION. The meaning of every command: one arm per constructor (30_encoding.md R73). -/

namespace Sys2Proof.Machine

def exec (i : Instr) (s : State) : Host.Outcome State Fault Refusal :=
  match i with
  | .nop => Sys2Proof.Machine.execNop s
  | .crcCcitt buf off len => Sys2Proof.Machine.execCrcCcitt buf off len s
  | .crcIbm buf off len => Sys2Proof.Machine.execCrcIbm buf off len s
  | .regRead page addr => Sys2Proof.Machine.execRegRead page addr s
  | .regWrite page addr value => Sys2Proof.Machine.execRegWrite page addr value s
  | .fifoWrite faddr off len => Sys2Proof.Machine.execFifoWrite faddr off len s
  | .fifoRead faddr off len => Sys2Proof.Machine.execFifoRead faddr off len s
  | .pageSync => Sys2Proof.Machine.execPageSync s
  | .wakeDeep => Sys2Proof.Machine.execWakeDeep s
  | .wakeSleep => Sys2Proof.Machine.execWakeSleep s
  | .sleep => Sys2Proof.Machine.execSleep s
  | .deepSleep => Sys2Proof.Machine.execDeepSleep s
  | .setMode m => Sys2Proof.Machine.execSetMode m s
  | .getMode => Sys2Proof.Machine.execGetMode s
  | .setTxsub sub => Sys2Proof.Machine.execSetTxsub sub s
  | .setRxsub sub => Sys2Proof.Machine.execSetRxsub sub s
  | .send len => Sys2Proof.Machine.execSend len s
  | .receive => Sys2Proof.Machine.execReceive s
  | .recvPlhd sel => Sys2Proof.Machine.execRecvPlhd sel s
  | .clrIrq => Sys2Proof.Machine.execClrIrq s
  | .dispatch => Sys2Proof.Machine.execDispatch s
  | .setRxflag f => Sys2Proof.Machine.execSetRxflag f s
  | .setTxflag f => Sys2Proof.Machine.execSetTxflag f s

end Sys2Proof.Machine
end

