-- ==== Sys2Proof/Machine/Step.lean ====
section
/-! DEFINITION. One step: the next input of the outside arrives. A CMD write while BUSY = 0 runs the command it holds to its
end (10_state.md R25, 30_encoding.md R70); every other input does what `State.arrive` says. -/

namespace Sys2Proof.Machine

/-- The block is handed a command word (10_state.md R25, 30_encoding.md R70): it is stored in CMD, decoded, and performed, or
reported as ILLEGAL_CMD. -/
def startCommand (w : Word) (s : State) : Host.Outcome State Fault Refusal :=
  match decode s.params w with
  | .ok i => exec i { s with cmd := w }
  | .illegal _ => .next { s with cmd := w }.illegalCommand

/-- One step. With nothing to come the block is idle and nothing changes (70_reset_and_hazards.md R232; log 2). -/
def step (s : State) : Host.Outcome State Fault Refusal :=
  match s.inputs with
  | [] => .next s
  | i :: rest =>
    match { s with inputs := rest }.startWord i with
    | some w => startCommand w { s with inputs := rest }
    | none => .next ({ s with inputs := rest }.arrive i)

/-- The state in which the very next step is the host's write of the word `w` (of `nbits` bits, those above them 0) to CMD:
the write is the next input, the block is out of reset and idle (log 2), and its parameters are REF, under which
`decodeTableWord` reads the same word: under OPEN ones neither the address of CMD nor the constraints of REG_WRITE and SEND
are fixed (log 3). -/
def State.withFetchWord (s : State) (nbits w : Nat) : State :=
  { s with
    params := Params.ref
    inputs := cmdInput Params.ref (BitVec.ofNat 32 (w % 2 ^ nbits)) :: s.inputs
    busy := false
    inReset := false }

end Sys2Proof.Machine
end

