-- ==== Sys2Proof/Safety.lean ====
section
/-! DEFINITION. What counts as a good state, in the terms the statements use (10_state.md R33, R46; 60_exceptions.md R222). -/

namespace Sys2Proof.Machine

/-- No model fault is recorded: "A state with a non-empty fault set is never a good final state" (10_state.md R46). -/
def State.good (s : State) : Prop := s.faults = ⟨false, false, false⟩

/-- The fault set of `s` is among that of `t`. -/
def FaultSet.within (f g : FaultSet) : Prop :=
  (f.illegalTransition = true → g.illegalTransition = true) ∧ (f.unwrittenRead = true → g.unwrittenRead = true)
    ∧ (f.hostRefused = true → g.hostRefused = true)

/-- The invariant of the page cache (10_state.md R33): if PCACHE = p then the chip's page-select field equals p. -/
def State.pageCoherent (s : State) : Prop := ∀ p : Page, s.pcache = some p → s.chipPage = some p

/-- Nothing arrives while the next command runs. -/
def State.quiet (s : State) : Prop := s.during = []

/-- The deterministic test double of 20_memory.md R58 answers, with no answer fixed beforehand. -/
def State.underOracle (s : State) : Prop := s.chip.oracle = true ∧ s.chip.answers = []

/-- The addresses of the frame buffers (20_memory.md R51): nothing else is listed in `mem`. -/
def State.memInBuffers (s : State) : Prop := ∀ a, s.mem.read a ≠ none → a < 0x200

/-- The state's own shape: canonical memories, nothing outside the buffers, no error code of an absent unit (60_exceptions.md
R201), STEP and CAUSE zero but for MODE_ERROR (10_state.md R26), LEN zero but for the two payload events (10_state.md
R28), and no sequence position while idle (10_state.md R35). -/
structure State.Inv (s : State) : Prop where
  memWf : s.mem.wf = true
  regsWf : s.chip.regs.wf = true
  inBuffers : s.memInBuffers
  errKnown : s.err ≠ .unsupportedFrequency ∧ s.err ≠ .unsupportedSf
  stepCause : s.err ≠ .modeError → s.stepIx = 0 ∧ s.cause = .none
  eventLen : s.eventTag ≠ .plhdDone → s.eventTag ≠ .rxDone → s.eventLen = 0
  idleSeq : s.busy = false → s.seq = none

/-! ## The words of the statements -/

/-- How a command ended: BUSY clear, no position left, and what STATUS reports (10_state.md R26, 60_exceptions.md R202). -/
def State.endedAs (t : State) (e : ErrCode) (k : BitVec 4) (c : Cause) : Prop :=
  t.busy = false ∧ t.seq = none ∧ t.err = e ∧ t.stepIx = k ∧ t.cause = c

/-- A command ended without an error. -/
def State.endedOk (t : State) : Prop := t.endedAs .ok 0 .none

/-- The state `s` with the status words a command that issued nothing leaves: everything else as before. -/
def State.endingOk (s : State) : State :=
  { s with busy := false, seq := none, err := .ok, stepIx := 0, cause := .none }

/-- The page cache saves the switch to a page (41_register_bus.md R111). -/
def State.cached (s : State) (pg : Page) : Prop := s.params.pageCacheEnable = true ∧ s.pcache = some pg

/-- The answers the next transactions will get, whoever else acts: each good, a read returning the given byte. -/
def State.willAnswer (s : State) (bytes : List (List Byte)) : Prop := ∃ rest, s.chip.answers = bytes.map .force ++ rest

/-- The first accesses of a switch to a page: the answers they will get and the outputs they leave. None where the page is
cached; else the three of 41_register_bus.md R111, the system-control byte being `v`. -/
def State.switchesTo (s : State) (pg : Page) (v : Byte) (answers : List (List Byte)) (outputs : List BusEvent) : Prop :=
  s.cached pg ∧ answers = [] ∧ outputs = []
    ∨ ¬ s.cached pg ∧ answers = [[v], [], [setPageField s.params v pg]]
      ∧ outputs = [.read s.params.sysctlAddr (some v), .write s.params.sysctlAddr (setPageField s.params v pg) true,
          .read s.params.sysctlAddr (some (setPageField s.params v pg))]

/-- A test of 95_test_vectors.md: sensible parameters, the test double answering, nothing arriving while a command runs, the
chip's page known and the page cache right about it (10_state.md R33). -/
structure State.OnBench (s : State) : Prop where
  params : s.params.wf = true
  oracle : s.underOracle
  quiet : s.quiet
  page : s.chipPage ≠ none
  coherent : s.pageCoherent

/-- The outputs a rule's table lists as steps: every write but those of a page switch, the bursts, the capability calls and
the delays (42_mode_sequencer.md R133, R137; 43_frame_fifo.md R160). -/
def BusEvent.isStep (p : Params) : BusEvent → Bool
  | .read _ _ => false
  | .write a _ _ => a != p.sysctlAddr
  | .burstRead _ _ _ => true
  | .burstWrite _ _ _ => true
  | .cap _ => true
  | .delay _ _ => true

/-- The outputs that are no access of a page switch: the paged reads, the writes and their read-backs, the bursts, the
capability calls and the delays. -/
def BusEvent.isAccess (p : Params) : BusEvent → Bool
  | .read a _ => a != p.sysctlAddr
  | .write a _ _ => a != p.sysctlAddr
  | .burstRead _ _ _ => true
  | .burstWrite _ _ _ => true
  | .cap _ => true
  | .delay _ _ => true

/-- The good reads of registers in order, each returning its byte, the page switches apart (43_frame_fifo.md R166;
44_irq_dispatch.md R187). -/
def readsOf (rs : List RegAt) (bytes : List Byte) : List BusEvent := List.zipWith (fun r b => .read r.addr (some b)) rs bytes

/-- A transaction that ended in a bus fault (20_memory.md R56). -/
def BusEvent.isFault : BusEvent → Bool
  | .read _ got => got.isNone
  | .write _ _ good => !good
  | .burstRead _ _ got => got.isNone
  | .burstWrite _ _ good => !good
  | .cap _ => false
  | .delay _ _ => false

/-- The capability a call calls (60_exceptions.md R219). -/
def BusEvent.cap? : BusEvent → Option Cap
  | .cap c => some c
  | .read _ _ => none
  | .write _ _ _ => none
  | .burstRead _ _ _ => none
  | .burstWrite _ _ _ => none
  | .delay _ _ => none

/-- The minimum of a settle delay (70_reset_and_hazards.md R243). -/
def BusEvent.delay? : BusEvent → Option Nat
  | .delay t _ => some t
  | .cap _ => none
  | .read _ _ => none
  | .write _ _ _ => none
  | .burstRead _ _ _ => none
  | .burstWrite _ _ _ => none

/-- The reset input is being released. -/
def State.releasing (s : State) : Prop := ∃ b rest, s.inputs = .resetRelease b :: rest

/-- The registers the actions of a mode reset write (44_irq_dispatch.md R185). -/
def resetWrites (p : Params) : List ResetAction → List RegAt
  | [] => []
  | .setMode _ :: l => modectl p :: resetWrites p l
  | .write w :: l => ⟨w.page, w.addr⟩ :: resetWrites p l

end Sys2Proof.Machine

namespace Sys2Proof

/-- A register that a paged access reaches as itself: neither the FIFO offset nor the system-control offset. -/
def RegAt.plain (p : Params) (r : RegAt) : Prop := r.addr ≠ p.fifoAddr ∧ r.addr ≠ p.sysctlAddr

/-- The part of RBUF a command may store to, as a first index and a length (41_register_bus.md R118; 43_frame_fifo.md R162,
R165; 44_irq_dispatch.md R180); none where it stores nothing. -/
def Instr.rbufRange : Instr → Option (Nat × Nat)
  | .fifoRead _ off len => some (off.toNat, len.toNat)
  | .receive => some (0, 256)
  | .recvPlhd sel => some (0, Machine.plhdCount sel)
  | .dispatch => some (0, 256)
  | .nop => none
  | .crcCcitt _ _ _ => none
  | .crcIbm _ _ _ => none
  | .regRead _ _ => none
  | .regWrite _ _ _ => none
  | .fifoWrite _ _ _ => none
  | .pageSync => none
  | .wakeDeep => none
  | .wakeSleep => none
  | .sleep => none
  | .deepSleep => none
  | .setMode _ => none
  | .getMode => none
  | .setTxsub _ => none
  | .setRxsub _ => none
  | .send _ => none
  | .clrIrq => none
  | .setRxflag _ => none
  | .setTxflag _ => none

/-- The commands that return a value in RESULT (10_state.md R27). -/
def Instr.returnsValue : Instr → Bool
  | .crcCcitt _ _ _ => true
  | .crcIbm _ _ _ => true
  | .regRead _ _ => true
  | .getMode => true
  | .receive => true
  | .recvPlhd _ => true
  | .dispatch => true
  | .nop => false
  | .regWrite _ _ _ => false
  | .fifoWrite _ _ _ => false
  | .fifoRead _ _ _ => false
  | .pageSync => false
  | .wakeDeep => false
  | .wakeSleep => false
  | .sleep => false
  | .deepSleep => false
  | .setMode _ => false
  | .setTxsub _ => false
  | .setRxsub _ => false
  | .send _ => false
  | .clrIrq => false
  | .setRxflag _ => false
  | .setTxflag _ => false

/-- The mode sequences: the commands whose steps are numbered (42_mode_sequencer.md R133, R137, R140). -/
def Instr.isSequence (i : Instr) : Prop :=
  i = .wakeDeep ∨ i = .wakeSleep ∨ i = .sleep ∨ i = .deepSleep ∨ ∃ m, i = .setMode m

/-- The commands that never touch the chip (70_reset_and_hazards.md R246, last row). -/
def Instr.isLocal (i : Instr) : Prop :=
  i = .nop ∨ i = .pageSync ∨ (∃ b o n, i = .crcCcitt b o n) ∨ (∃ b o n, i = .crcIbm b o n) ∨ (∃ f, i = .setRxflag f)
    ∨ ∃ f, i = .setTxflag f

/-- The registers a DISPATCH may read, whatever the event (44_irq_dispatch.md R180, R182, R183, R185, R187). -/
def dispatchReads (p : Params) : List RegAt :=
  p.irqReg :: p.rxlen :: Machine.modectl p :: (Machine.plhdMap p p.plhdLen ++ p.lmReads)

/-- The registers a command reads by paged reads, the read-backs of its writes and the page switches apart (41_register_bus.md
R115; 42_mode_sequencer.md R131, R136, R141; 43_frame_fifo.md R162, R166; 44_irq_dispatch.md R180). -/
def Instr.reads (p : Params) : Instr → List RegAt
  | .regRead pg a => [⟨pg, a⟩]
  | .wakeDeep => [Machine.modectl p]
  | .wakeSleep => [Machine.modectl p]
  | .sleep => [Machine.modectl p]
  | .deepSleep => [Machine.modectl p]
  | .setMode _ => [Machine.modectl p]
  | .getMode => [Machine.modectl p]
  | .setTxsub _ => [Machine.modectl p]
  | .setRxsub _ => [Machine.modectl p]
  | .send _ => [Machine.modectl p]
  | .receive => [p.rxlen]
  | .recvPlhd sel => Machine.plhdMap p sel
  | .dispatch => dispatchReads p
  | .nop => []
  | .crcCcitt _ _ _ => []
  | .crcIbm _ _ _ => []
  | .regWrite _ _ _ => []
  | .fifoWrite _ _ _ => []
  | .fifoRead _ _ _ => []
  | .pageSync => []
  | .clrIrq => []
  | .setRxflag _ => []
  | .setTxflag _ => []

/-- The registers a command writes by paged writes (41_register_bus.md R116; 42_mode_sequencer.md R131, R133, R137;
43_frame_fifo.md R161, R163; 44_irq_dispatch.md R185). -/
def Instr.writes (p : Params) : Instr → List RegAt
  | .regWrite pg a _ => [⟨pg, a⟩]
  | .wakeDeep => [Machine.modectl p, ⟨p.xtalTrim0.page, p.xtalTrim0.addr⟩, ⟨p.xtalTrim1.page, p.xtalTrim1.addr⟩]
  | .wakeSleep => [Machine.modectl p, ⟨p.xtalTrim0.page, p.xtalTrim0.addr⟩, ⟨p.xtalTrim1.page, p.xtalTrim1.addr⟩]
  | .sleep => [Machine.modectl p]
  | .deepSleep => [Machine.modectl p]
  | .setMode _ => [Machine.modectl p]
  | .setTxsub _ => [Machine.modectl p]
  | .setRxsub _ => [Machine.modectl p]
  | .send _ => [p.txlen, Machine.modectl p]
  | .receive => [⟨p.irqClr.page, p.irqClr.addr⟩]
  | .recvPlhd _ => [⟨p.irqClr.page, p.irqClr.addr⟩]
  | .clrIrq => [⟨p.irqClr.page, p.irqClr.addr⟩]
  | .dispatch => ⟨p.irqClr.page, p.irqClr.addr⟩ :: Machine.resetWrites p p.modeReset
  | .nop => []
  | .crcCcitt _ _ _ => []
  | .crcIbm _ _ _ => []
  | .regRead _ _ => []
  | .fifoWrite _ _ _ => []
  | .fifoRead _ _ _ => []
  | .pageSync => []
  | .getMode => []
  | .setRxflag _ => []
  | .setTxflag _ => []

/-- The offset a command's burst write is made at, where it makes one (41_register_bus.md R117, 43_frame_fifo.md R161). -/
def Instr.burstWriteAt (p : Params) : Instr → Option Byte
  | .fifoWrite fa _ _ => some fa
  | .send _ => some p.fifoAddr
  | .fifoRead _ _ _ => none
  | .receive => none
  | .dispatch => none
  | .nop => none
  | .crcCcitt _ _ _ => none
  | .crcIbm _ _ _ => none
  | .regRead _ _ => none
  | .regWrite _ _ _ => none
  | .pageSync => none
  | .wakeDeep => none
  | .wakeSleep => none
  | .sleep => none
  | .deepSleep => none
  | .setMode _ => none
  | .getMode => none
  | .setTxsub _ => none
  | .setRxsub _ => none
  | .recvPlhd _ => none
  | .clrIrq => none
  | .setRxflag _ => none
  | .setTxflag _ => none

/-- The offset a command's burst read is made at, where it makes one (41_register_bus.md R118, 43_frame_fifo.md R162). -/
def Instr.burstReadAt (p : Params) : Instr → Option Byte
  | .fifoRead fa _ _ => some fa
  | .receive => some p.fifoAddr
  | .dispatch => some p.fifoAddr
  | .fifoWrite _ _ _ => none
  | .send _ => none
  | .nop => none
  | .crcCcitt _ _ _ => none
  | .crcIbm _ _ _ => none
  | .regRead _ _ => none
  | .regWrite _ _ _ => none
  | .pageSync => none
  | .wakeDeep => none
  | .wakeSleep => none
  | .sleep => none
  | .deepSleep => none
  | .setMode _ => none
  | .getMode => none
  | .setTxsub _ => none
  | .setRxsub _ => none
  | .recvPlhd _ => none
  | .clrIrq => none
  | .setRxflag _ => none
  | .setTxflag _ => none

end Sys2Proof
end

