-- ==== Sys2Proof/Certificates/Slice0/Obligations.lean ====
section
/-! DEFINITION. The statements for the provers, each a proposition about the model; which rule each formalises is in
OBLIGATIONS.json and in its docstring. -/

section
open Sys2Proof Sys2Proof.Machine

/-! ## Encoding (30_encoding.md) -/

/-- Every well-formed command survives encoding and decoding, with every operand at every value (R71, R73, R81). -/
def Obligations.DecodeOfEncode : Prop :=
  ∀ (p : Params) (i : Instr), i.wf p = true → decode p (encode i) = .ok i

/-- A decoded command meets the constraints of its row, and its encoding is the word it came from: no bit is ignored, and no
word decodes to two commands (R81). -/
def Obligations.EncodeOfDecode : Prop :=
  ∀ (p : Params) (w : Word) (i : Instr), decode p w = .ok i → i.wf p = true ∧ encode i = w

/-- Words the spec itself writes out, to the commands their rows give (R73, R81; the words stand in R82 and in sections 2.5
and 2.6 of 95_test_vectors.md). -/
def Obligations.SpecWordsDecode : Prop :=
  decode Params.ref 0x10000003 = .ok (.crcCcitt .tbuf 0 3) ∧ decode Params.ref 0x2101100A = .ok (.regWrite 1 0x10 10)
    ∧ decode Params.ref 0x34000004 = .ok (.setMode .standby3) ∧ decode Params.ref 0x42000001 = .ok (.recvPlhd .sixteen)
    ∧ decode Params.ref 0x1001FF01 = .ok (.crcCcitt .rbuf 255 1) ∧ decode Params.ref 0x37000002 = .ok (.setRxsub .continuous)
    ∧ decode Params.ref 0x52000005 = .ok (.setTxflag .plhdRxDone) ∧ decode Params.ref 0x400000FF = .ok (.send 255)

/-- The reserved opcodes are the ranges of R74, and they are illegal whatever the other fields hold; no other word is illegal
for its opcode. -/
def Obligations.ReservedOpcodesIllegal : Prop :=
  ∀ (p : Params) (w : Word),
    let o := w.toNat / 2 ^ 24
    decode p w = .illegal .reservedOpcode ↔
      (1 ≤ o ∧ o ≤ 0x0F) ∨ (0x12 ≤ o ∧ o ≤ 0x1F) ∨ (0x25 ≤ o ∧ o ≤ 0x2F) ∨ (0x38 ≤ o ∧ o ≤ 0x3F) ∨ (0x44 ≤ o ∧ o ≤ 0x4F)
        ∨ (0x53 ≤ o ∧ o ≤ 0xFF)

/-- A word decodes to a command exactly when its fields meet the constraints of its opcode's row (R72, R73, R75, R81). -/
def Obligations.ConstraintsDecideDecoding : Prop :=
  ∀ (p : Params) (w : Word),
    let o := w.toNat / 2 ^ 24
    let a := w.toNat / 2 ^ 16 % 256
    let b := w.toNat / 2 ^ 8 % 256
    let c := w.toNat % 256
    (∃ i, decode p w = .ok i) ↔
      (o ∈ [0x00, 0x24, 0x30, 0x31, 0x32, 0x33, 0x35, 0x41, 0x43, 0x50] ∧ a = 0 ∧ b = 0 ∧ c = 0)
        ∨ ((o = 0x10 ∨ o = 0x11) ∧ a ≤ 1 ∧ b + c ≤ 256)
        ∨ (o = 0x20 ∧ a ≤ 3 ∧ c = 0)
        ∨ (o = 0x21 ∧ a ≤ 3 ∧ b ≠ p.fifoAddr.toNat)
        ∨ ((o = 0x22 ∨ o = 0x23) ∧ b + c ≤ 256)
        ∨ (o = 0x34 ∧ a = 0 ∧ b = 0 ∧ c ≤ 6)
        ∨ (o = 0x36 ∧ a = 0 ∧ b = 0 ∧ c ≤ 1)
        ∨ (o = 0x37 ∧ a = 0 ∧ b = 0 ∧ c ≤ 2)
        ∨ (o = 0x40 ∧ a = 0 ∧ b = 0 ∧ 1 ≤ c ∧ c ≤ p.maxPayload.toNat)
        ∨ (o = 0x42 ∧ a = 0 ∧ b = 0 ∧ c ≤ 1)
        ∨ ((o = 0x51 ∨ o = 0x52) ∧ a = 0 ∧ b = 0 ∧ c ≤ 5)

/-! ## The machine as a whole -/

/-- A host write of a word to CMD while BUSY = 0, outside reset, stores it and runs the command it decodes to (10_state.md
R25, 30_encoding.md R70). Nothing stands around `exec` but that. -/
def Obligations.StepRunsCommand : Prop :=
  ∀ (s : State) (w : Word) (rest : List Input) (i : Instr),
    s.inputs = .hostWrite (cmdAddr s.params) 4 w :: rest → s.busy = false → s.inReset = false →
      decode s.params w = .ok i → step s = exec i { s with inputs := rest, cmd := w }

/-- A word that decodes to ILLEGAL sets ERR and nothing else but CMD (30_encoding.md R70, R75; 60_exceptions.md R201). The
second clause says what holds whatever arrives before BUSY clears; that something can arrive there is the model's choice
(log 21), and a reset that does abandons the command with BUSY = 1 (log 12). -/
def Obligations.IllegalWordSetsErrOnly : Prop :=
  ∀ (s : State) (w : Word) (rest : List Input) (why : Illegal),
    s.inputs = .hostWrite (cmdAddr s.params) 4 w :: rest → s.busy = false → s.inReset = false →
      decode s.params w = .illegal why →
      (s.quiet → step s = .next { s with
        inputs := rest, cmd := w, seq := none, err := .illegalCmd, stepIx := 0, cause := .none })
      ∧ ∃ t, step s = .next t ∧ t.cmd = w ∧ t.log = s.log ∧ t.mem = s.mem ∧ t.result = s.result ∧ t.eventWord = s.eventWord
        ∧ t.rssi = s.rssi ∧ t.snr = s.snr ∧ t.flagsWord = s.flagsWord ∧ t.pcache = s.pcache ∧ t.seq = none
        ∧ (t.busy = false → t.err = .illegalCmd ∧ t.stepIx = 0 ∧ t.cause = .none)

/-- No step stops the machine: every error is a report in STATUS (60_exceptions.md R200, R205). A transaction that never
completes (93 I26): where it is a command's first one, the command leaves BUSY = 1 and its position, no output, and RESULT, the
buffers and PCACHE as they were, the wakes having dropped PCACHE before it (42_mode_sequencer.md R133); whichever one it is,
nothing is reported or delivered and a position is left; and BUSY = 1 and the position stay until reset is released. That the
step answers such a state, and what it leaves, is the model's (log 11). -/
def Obligations.StepAnswersNext : Prop :=
  (∀ s : State, ∃ t, step s = .next t)
  ∧ (∀ (i : Instr) (s : State) (rest : List Answer), s.quiet → s.chip.answers = .hang :: rest → ¬ i.isLocal →
    (∀ fa off len, i = .fifoRead fa off len → len ≠ 0) →
    (∀ fa off len, i = .fifoWrite fa off len → len ≠ 0 ∧ ∀ k, k < len.toNat → s.mem.read (off.toNat + k) ≠ none) →
    (∀ len, i = .send len → ∀ k, k < len.toNat → s.mem.read k ≠ none) →
    ∃ t, exec i s = .next t ∧ t.busy = true ∧ t.seq ≠ none ∧ t.log = s.log ∧ t.result = s.result ∧ t.mem = s.mem
      ∧ t.pcache = (if i = .wakeDeep ∨ i = .wakeSleep then none else s.pcache))
  ∧ (∀ (i : Instr) (s t : State), s.quiet → exec i s = .next t → t.busy = true →
    t.seq ≠ none ∧ t.err = .ok ∧ t.stepIx = 0 ∧ t.cause = .none ∧ t.result = s.result ∧ t.eventWord = s.eventWord
      ∧ t.rssi = s.rssi ∧ t.snr = s.snr ∧ t.flagsWord = s.flagsWord)
  ∧ ∀ s t : State, s.busy = true → ¬ s.releasing → step s = .next t → t.busy = true ∧ t.seq = s.seq

/-- What reset leaves: in the reset state itself, and after every release of the reset input (10_state.md R47). -/
def Obligations.ResetValues : Prop :=
  (∀ (s : State) (told : Bool) (rest : List Input), s.inputs = .resetRelease told :: rest → s.inReset = true →
    ∃ t, step s = .next t ∧ t.cmd = 0 ∧ t.statusWord = 0 ∧ t.resultWord = 0 ∧ t.eventWord = 0 ∧ t.rssi = 0 ∧ t.snr = 0
      ∧ t.flagsWord = 0 ∧ (∀ a, t.mem.read a = none) ∧ t.pcache = none ∧ t.irqPrev = s.chip.irqLine ∧ t.seq = none
      ∧ t.faults = ⟨false, false, false⟩ ∧ t.chip = s.chip)
  ∧ State.reset.cmd = 0 ∧ State.reset.statusWord = 0 ∧ State.reset.resultWord = 0 ∧ State.reset.eventWord = 0
  ∧ State.reset.rssi = 0 ∧ State.reset.snr = 0 ∧ State.reset.flagsWord = 0 ∧ (∀ a, State.reset.mem.read a = none)
  ∧ State.reset.pcache = none ∧ State.reset.irqPrev = State.reset.chip.irqLine ∧ State.reset.seq = none
  ∧ State.reset.faults = ⟨false, false, false⟩

/-- While reset is asserted host accesses have no effect; a command that finds it asserted before its first action issues
nothing; and where it is asserted after the k-th action the outputs already issued stay and none follows
(70_reset_and_hazards.md R230): `u` is what the command does with nothing arriving. That a command so abandoned keeps BUSY = 1
until the release is the model's (log 12), and so is one boundary before each action (log 1). -/
def Obligations.ResetHoldsTheBlock : Prop :=
  (∀ (s : State) (addr width : Nat) (v : Word) (rest : List Input), s.inReset = true →
    (s.inputs = .hostWrite addr width v :: rest → step s = .next { s with inputs := rest })
      ∧ (s.inputs = .hostRead addr width :: rest → step s = .next { s with inputs := rest }))
  ∧ (∀ (i : Instr) (s t : State) (later : List (List Input)), s.during = [.resetAssert] :: later → exec i s = .next t →
      t.log = s.log ∧ t.inReset = true ∧ t.busy = true ∧ t.seq = none)
  ∧ ∀ (i : Instr) (s t u : State) (k : Nat) (later : List (List Input)) (evs : List BusEvent),
      s.during = List.replicate k [] ++ [.resetAssert] :: later → exec i s = .next t →
      exec i { s with during := [] } = .next u → u.log = s.log ++ evs →
      t.log = s.log ++ evs.take k ∧ (k ≤ evs.length → t.inReset = true ∧ t.busy = true ∧ t.seq = none)

/-- The state's own shape holds at reset. -/
def Obligations.InvAtReset : Prop := State.reset.Inv

/-- Every step keeps the state's own shape: the memories in their canonical form and inside the buffers, no error code of an
absent unit, STEP and CAUSE zero but for MODE_ERROR, LEN zero but for a payload event, no position while idle (10_state.md
R26, R28, R31, R32, R35; 60_exceptions.md R201, R202). -/
def Obligations.StepKeepsInv : Prop :=
  ∀ s t : State, s.Inv → step s = .next t → t.Inv

/-- The invariant of the page cache (10_state.md R33): while BUSY = 0, if PCACHE = p then the chip's page-select field is p.
Its premises are the rule's own assumption (no other agent writes the system-control register, R247: here, neither the
chip's own actions nor a power cycle), and that no burst goes to another offset than FIFO_ADDR (93 I4). -/
def Obligations.StepKeepsPageCoherence : Prop :=
  ∀ s t : State, s.params.wf = true → (s.busy = false → s.pageCoherent) →
    (∀ x ∈ s.inputs ++ s.during.flatten, x ≠ .chipPower ∧ ∀ pg v, x ≠ .chipReg pg s.params.sysctlAddr v) →
    (∀ addr width w rest i, s.inputs = .hostWrite addr width w :: rest → decode s.params w = .ok i →
      (∀ fa off len, i = .fifoWrite fa off len → fa = s.params.fifoAddr)
        ∧ ∀ fa off len, i = .fifoRead fa off len → fa = s.params.fifoAddr) →
    step s = .next t → t.busy = false → t.pageCoherent

/-- What no step takes back: but for the release of reset, OVR and the model's fault set (10_state.md R46, 60_exceptions.md
R222). That the parameters are part of the state and never change, and that the outputs so far are kept, through a reset
too, is the model's (logs 3 and 13). -/
def Obligations.StepKeepsSticky : Prop :=
  ∀ s t : State, step s = .next t →
    t.params = s.params ∧ s.log <+: t.log
      ∧ (¬ s.releasing → (s.ovr = true → t.ovr = true) ∧ s.faults.within t.faults)

/-! ## Frames -/

/-- What a command leaves of the block's own registers, however it ends and whatever arrives meanwhile: RESULT but for the
commands that return a value (10_state.md R27), the mailbox but for DISPATCH (R28, R29), each flag but for its setter and
DISPATCH (R30), the oscillator but for the mode sequences that call it (60_exceptions.md R219), IRQ_PEND never cleared but by
DISPATCH (R34); CMD (R25), OVR (R26, R222) and the fault set (R46) always. That the parameters are kept is log 3; what STATUS
holds of a command abandoned by reset, before the release, is log 12. -/
def Obligations.BlockFrame : Prop :=
  ∀ (i : Instr) (s t : State), exec i s = .next t →
    t.params = s.params ∧ t.cmd = s.cmd
      ∧ (i.returnsValue = false → t.result = s.result)
      ∧ (i ≠ .dispatch → t.eventTag = s.eventTag ∧ t.eventLen = s.eventLen ∧ t.rssi = s.rssi ∧ t.snr = s.snr)
      ∧ (i ≠ .dispatch → (∀ f, i ≠ .setRxflag f) → t.rxFlag = s.rxFlag)
      ∧ (i ≠ .dispatch → (∀ f, i ≠ .setTxflag f) → t.txFlag = s.txFlag)
      ∧ (i ≠ .wakeDeep → i ≠ .wakeSleep → i ≠ .sleep → i ≠ .deepSleep → t.tcxo = s.tcxo)
      ∧ (i ≠ .dispatch → s.irqPend = true → t.irqPend = true)
      ∧ (s.ovr = true → t.ovr = true) ∧ s.faults.within t.faults

/-- What a command leaves of memory, byte by byte: TBUF always (10_state.md R31), RBUF outside the range the command's rule
stores to, and, for a command that stores nothing, all of it. RECEIVE and DISPATCH store at most as many bytes as their burst
reads (43_frame_fifo.md R162, 44_irq_dispatch.md R183); a DISPATCH that makes no burst, at most its PLHD bytes (R182). -/
def Obligations.MemoryFrame : Prop :=
  ∀ (i : Instr) (s t : State) (evs : List BusEvent), exec i s = .next t → t.log = s.log ++ evs →
    (i.rbufRange = none → t.mem = s.mem)
      ∧ (∀ a, (∀ off n, i.rbufRange = some (off, n) → ¬ (0x100 + off ≤ a ∧ a < 0x100 + off + n)) →
        t.mem.read a = s.mem.read a)
      ∧ (i = .receive ∨ i = .dispatch → ∀ a,
        (∀ fa n got, .burstRead fa n got ∈ evs → ¬ (0x100 ≤ a ∧ a < 0x100 + n)) →
        (i = .dispatch → (∀ fa n got, .burstRead fa n got ∉ evs) →
          ¬ (0x100 ≤ a ∧ a < 0x100 + plhdCount s.params.plhdLen)) →
        t.mem.read a = s.mem.read a)

/-- What a command leaves of the chip while nothing else acts, the page-select field and bursts at other offsets than
FIFO_ADDR apart (93 I4): on the test double every register but those it writes; otherwise every register at an offset it
does not write, the IRQ-status register too where the command makes no clear; the transmit FIFO where it writes nothing at
FIFO_ADDR, and the receive FIFO where it reads nothing there (10_state.md R36, R39, R41; 20_memory.md R56, R57, R59). What
the model takes a register to hold is log 6; the model's choices are also that a read of the IRQ-status or a length register
changes nothing (log 36), and that the FIFOs outlast a sleep and a mode change (log 35). -/
def Obligations.ChipFrame : Prop :=
  ∀ (i : Instr) (s t : State), exec i s = .next t → s.quiet → s.params.wf = true →
    (∀ a, i.burstWriteAt s.params = some a ∨ i.burstReadAt s.params = some a → a = s.params.fifoAddr) →
    (s.OnBench → ∀ pg a, a ≠ s.params.sysctlAddr → (⟨pg, a⟩ : RegAt) ∉ i.writes s.params →
      t.regValue pg a = s.regValue pg a)
    ∧ (∀ pg a, a ≠ s.params.sysctlAddr → (∀ r ∈ i.writes s.params, r.addr ≠ a) →
      (a = s.params.irqReg.addr → ∀ r ∈ i.writes s.params, r.addr ≠ s.params.irqClr.addr) →
      t.regValue pg a = s.regValue pg a)
    ∧ (i.burstWriteAt s.params = none → (∀ r ∈ i.writes s.params, r.addr ≠ s.params.fifoAddr) →
      t.chip.txq = s.chip.txq)
    ∧ (i.burstReadAt s.params = none → (∀ r ∈ i.reads s.params ++ i.writes s.params, r.addr ≠ s.params.fifoAddr) →
      t.chip.rxq = s.chip.rxq)

/-! ## Commands that never touch the chip -/

/-- NOP does nothing but clear ERR, STEP and CAUSE (44_irq_dispatch.md R191). -/
def Obligations.NopOnlyEndsOk : Prop :=
  ∀ s : State, s.quiet → exec .nop s = .next s.endingOk

/-- SET_RXFLAG and SET_TXFLAG write their flag and nothing else (44_irq_dispatch.md R189, R190). -/
def Obligations.SetFlags : Prop :=
  ∀ (s : State) (f : Flag), s.quiet →
    exec (.setRxflag f) s = .next { s.endingOk with rxFlag := f }
      ∧ exec (.setTxflag f) s = .next { s.endingOk with txFlag := f }

/-- PAGE_SYNC forgets the cached page and does nothing else (41_register_bus.md R119). -/
def Obligations.PageSyncForgets : Prop :=
  ∀ s : State, s.quiet → exec .pageSync s = .next { s.endingOk with pcache := none }

/-- CRC16.CCITT: RESULT is the complement of the register after the loop of R100 over the bytes, seed 0x1D0F, polynomial
0x1021 (40_crc.md R100, R101, R102); nothing else changes. `c n` is the register after n bits. -/
def Obligations.CrcCcittResult : Prop :=
  ∀ (s : State) (buf : Buf) (off len : Byte) (d : List Byte) (c : Nat → Half), s.quiet → d.length = len.toNat →
    (∀ k (h : k < d.length), s.mem.read (bufBase buf + off.toNat + k) = some d[k]) →
    c 0 = 0x1D0F →
    (∀ k (h : k < d.length) i, i < 8 →
      c (8 * k + i + 1) =
        if (c (8 * k + i)).getLsbD 15 != d[k].getLsbD (7 - i) then (c (8 * k + i) <<< 1) ^^^ 0x1021 else c (8 * k + i) <<< 1) →
    exec (.crcCcitt buf off len) s = .next { s.endingOk with result := ~~~ (c (8 * len.toNat)) }

/-- CRC16.IBM: RESULT is the register after the loop of R100 over the bytes, seed 0xFFFF, polynomial 0x8005, not inverted
(40_crc.md R100, R101, R103); nothing else changes. -/
def Obligations.CrcIbmResult : Prop :=
  ∀ (s : State) (buf : Buf) (off len : Byte) (d : List Byte) (c : Nat → Half), s.quiet → d.length = len.toNat →
    (∀ k (h : k < d.length), s.mem.read (bufBase buf + off.toNat + k) = some d[k]) →
    c 0 = 0xFFFF →
    (∀ k (h : k < d.length) i, i < 8 →
      c (8 * k + i + 1) =
        if (c (8 * k + i)).getLsbD 15 != d[k].getLsbD (7 - i) then (c (8 * k + i) <<< 1) ^^^ 0x8005 else c (8 * k + i) <<< 1) →
    exec (.crcIbm buf off len) s = .next { s.endingOk with result := c (8 * len.toNat) }

/-- A consequence of R100 that a wrong bit order, shift or feedback would break: a sequence followed by its own IBM CRC, high
byte first, has CRC 0 (40_crc.md R100, R103). -/
def Obligations.CrcIbmResidue : Prop :=
  ∀ d : List Byte, crcIbm (d ++ [(crcIbm d).extractLsb' 8 8, (crcIbm d).extractLsb' 0 8]) = 0

/-- A command that reads an unwritten buffer byte ends at once with the model fault UNWRITTEN_READ: no transaction, no result
(10_state.md R45; 40_crc.md R102, R103; 41_register_bus.md R117; 43_frame_fifo.md R161). -/
def Obligations.UnwrittenByteEndsCommand : Prop :=
  ∀ (s : State) (i : Instr) (base n : Nat), s.quiet →
    (∃ buf off len, (i = .crcCcitt buf off len ∨ i = .crcIbm buf off len) ∧ base = bufBase buf + off.toNat ∧ n = len.toNat)
      ∨ (∃ fa off len, i = .fifoWrite fa off len ∧ base = off.toNat ∧ n = len.toNat)
      ∨ (∃ len, i = .send len ∧ base = 0 ∧ n = len.toNat) →
    (∃ k, k < n ∧ s.mem.read (base + k) = none) →
    exec i s = .next { s.endingOk with faults := { s.faults with unwrittenRead := true } }

/-! ## The register bus (41_register_bus.md) -/

/-- REG_READ, the page cached (one transaction) and not (the switch of R111 first, then the read): RESULT is the byte read
(R111, R112, R115). At FIFO_ADDR the one read takes one received byte with it (20_memory.md R59, D12). -/
def Obligations.RegReadReturns : Prop :=
  ∀ (s : State) (pg : Page) (a v x : Byte), s.quiet →
    (s.cached pg → s.willAnswer [[x]] →
      ∃ t, exec (.regRead pg a) s = .next t ∧ t.endedOk ∧ t.result = x.setWidth 16 ∧ t.pcache = some pg
        ∧ t.log = s.log ++ [.read a (some x)]
        ∧ t.chip.rxq = (if a = s.params.fifoAddr then s.chip.rxq.tail else s.chip.rxq))
    ∧ (¬ s.cached pg → s.willAnswer [[v], [], [setPageField s.params v pg], [x]] →
      ∃ t, exec (.regRead pg a) s = .next t ∧ t.endedOk ∧ t.result = x.setWidth 16 ∧ t.pcache = some pg
        ∧ t.log = s.log ++ [.read s.params.sysctlAddr (some v),
            .write s.params.sysctlAddr (setPageField s.params v pg) true,
            .read s.params.sysctlAddr (some (setPageField s.params v pg)), .read a (some x)])

/-- A page switch that does not read back ends the command with VERIFY_ERROR, the page unknown, and nothing after it (R111,
R114 (d), R115, R116, R120). -/
def Obligations.SwitchVerifyFails : Prop :=
  ∀ (s : State) (pg : Page) (a x v r : Byte) (i : Instr), s.quiet → ¬ s.cached pg →
    (i = .regRead pg a ∨ i = .regWrite pg a x) → r ≠ setPageField s.params v pg → s.willAnswer [[v], [], [r]] →
    ∃ t, exec i s = .next t ∧ t.endedAs .verifyError 0 .none ∧ t.pcache = none ∧ t.result = s.result
      ∧ t.log = s.log ++ [.read s.params.sysctlAddr (some v),
          .write s.params.sysctlAddr (setPageField s.params v pg) true, .read s.params.sysctlAddr (some r)]

/-- REG_WRITE, the page cached and not: one write and its read-back; OK where the byte read back is the byte written,
VERIFY_ERROR where it is not; RESULT unchanged; PCACHE dropped by a write of the system-control register (R113, R114 (e),
R116). -/
def Obligations.RegWriteVerifies : Prop :=
  ∀ (s : State) (pg : Page) (a v g v0 : Byte) (sw : List BusEvent), s.quiet →
    (s.cached pg ∧ s.willAnswer [[], [g]] ∧ sw = []
      ∨ ¬ s.cached pg ∧ s.willAnswer [[v0], [], [setPageField s.params v0 pg], [], [g]]
        ∧ sw = [.read s.params.sysctlAddr (some v0), .write s.params.sysctlAddr (setPageField s.params v0 pg) true,
            .read s.params.sysctlAddr (some (setPageField s.params v0 pg))]) →
    ∃ t, exec (.regWrite pg a v) s = .next t ∧ t.result = s.result
      ∧ t.log = s.log ++ (sw ++ [.write a v true, .read a (some g)])
      ∧ t.pcache = (if a = s.params.sysctlAddr then none else some pg)
      ∧ (g = v → t.endedOk) ∧ (g ≠ v → t.endedAs .verifyError 0 .none)

/-- What moves the ghost CHIPMODE besides the mode sequences. A REG_WRITE at the mode-control register's offset: on a chip whose
own page is that register's page, whatever page the command names (20_memory.md R57), an illegal transition is recorded at the
write, and the read-back re-synchronises CHIPMODE (42_mode_sequencer.md R130, R132); on another page neither happens. A REG_READ
at that offset re-synchronises CHIPMODE on that page, whether the page was cached or is switched to, and leaves it on another; it
records no fault (R132 (2)). Where the chip's page is not known, which page `q` the access reaches is a free value, and the chip
is known to be on it from then on, which is the model's (log 33). A completion event into a mode of POST_EVENT_MODES, between
commands and while one runs, of a chip that is in Tx, in Rx or in a mode not known, sets CHIPMODE (R132 (3)) and, of the
mode-control register, the MODE field alone (70_reset_and_hazards.md R256; that the register follows, and that a mode not known
is left, is log 25); of a chip in another mode it changes nothing (60_exceptions.md R221: no event wakes the chip or leaves
Standby), and an event into another mode is ignored by the model (log 25). The release of reset: CHIP_POR_MODE where the model
is told that the chip was powered, else UNKNOWN; and a power cycle of the chip, whose mode-control register then holds that
mode's code (10_state.md R38, R44; logs 8 and 27). -/
def Obligations.ChipModeMonitor : Prop :=
  (∀ (s : State) (pg : Page) (v g : Byte), s.params.wf = true → s.quiet → s.cached pg → s.willAnswer [[], [g]] →
    ∃ t q, exec (.regWrite pg s.params.modectlAddr v) s = .next t ∧ t.chipPage = some q ∧ (∀ q', s.chipPage = some q' → q = q')
      ∧ (q = s.params.modectlPage → t.chipMode = decodeMode s.params g
        ∧ t.faults = (if legal s.chipMode (decodeMode s.params v) then s.faults
          else { s.faults with illegalTransition := true }))
      ∧ (q ≠ s.params.modectlPage → t.chipMode = s.chipMode ∧ t.faults = s.faults))
  ∧ (∀ (s : State) (pg : Page) (x : Byte), s.params.wf = true → s.quiet → s.cached pg → s.willAnswer [[x]] →
    ∃ t q, exec (.regRead pg s.params.modectlAddr) s = .next t ∧ t.chipPage = some q ∧ (∀ q', s.chipPage = some q' → q = q')
      ∧ t.faults = s.faults
      ∧ t.chipMode = if q = s.params.modectlPage then decodeMode s.params x else s.chipMode)
  ∧ (∀ (s : State) (pg : Page) (v x : Byte), s.params.wf = true → s.quiet → ¬ s.cached pg →
    s.willAnswer [[v], [], [setPageField s.params v pg], [x]] →
    ∃ t, exec (.regRead pg s.params.modectlAddr) s = .next t ∧ t.faults = s.faults
      ∧ t.chipMode = if pg = s.params.modectlPage then decodeMode s.params x else s.chipMode)
  ∧ (∀ (s : State) (m : Mode) (rest : List Input), s.inputs = .completion m :: rest →
    (m ∉ s.params.postEventModes ∨ (∃ m0, s.knownMode = some m0 ∧ m0 ≠ .tx ∧ m0 ≠ .rx) →
      step s = .next { s with inputs := rest })
    ∧ (m ∈ s.params.postEventModes → (∀ m0, s.knownMode = some m0 → m0 = .tx ∨ m0 = .rx) → ∃ t, step s = .next t ∧ t.chipMode = some m ∧ t.faults = s.faults
      ∧ ∃ b, t.regValue s.params.modectlPage s.params.modectlAddr = some b
        ∧ (s.params.wf = true → decodeMode s.params b = some m)
        ∧ ∀ v, s.regValue s.params.modectlPage s.params.modectlAddr = some v →
          b = setFieldValue s.params .mode v (modeCodeOf s.params m)))
  ∧ (∀ (s : State) (m : Mode), s.during = [[.completion m]] →
    (m ∉ s.params.postEventModes ∨ (∃ m0, s.knownMode = some m0 ∧ m0 ≠ .tx ∧ m0 ≠ .rx) →
      exec .nop s = .next { s.endingOk with during := [] })
    ∧ (m ∈ s.params.postEventModes → (∀ m0, s.knownMode = some m0 → m0 = .tx ∨ m0 = .rx) → ∃ t, exec .nop s = .next t ∧ t.endedOk ∧ t.chipMode = some m ∧ t.faults = s.faults
      ∧ ∃ b, t.regValue s.params.modectlPage s.params.modectlAddr = some b
        ∧ (s.params.wf = true → decodeMode s.params b = some m)
        ∧ ∀ v, s.regValue s.params.modectlPage s.params.modectlAddr = some v →
          b = setFieldValue s.params .mode v (modeCodeOf s.params m)))
  ∧ (∀ (s : State) (told : Bool) (rest : List Input), s.inputs = .resetRelease told :: rest → s.inReset = true →
    ∃ t, step s = .next t ∧ t.chipMode = if told then some s.params.chipPorMode else none)
  ∧ ∀ (s : State) (rest : List Input), s.inputs = .chipPower :: rest →
    ∃ t b, step s = .next t ∧ t.chipMode = some s.params.chipPorMode
      ∧ t.regValue s.params.modectlPage s.params.modectlAddr = some b
      ∧ (s.params.wf = true → decodeMode s.params b = some s.params.chipPorMode)

/-- A page switch changes the two bits of the page-select field and no other; an update of a field of the mode-control
register changes that field and no other bit, and the mode written is the mode decoded (41_register_bus.md R111; 10_state.md
R37, R38; 42_mode_sequencer.md R131, R132). -/
def Obligations.FieldUpdatesKeepOtherBits : Prop :=
  (∀ (p : Params) (v : Byte) (pg : Page), pageField p (setPageField p v pg) = pg
    ∧ ∀ k, k < 8 → k ≠ p.pageShift.val → k ≠ p.pageShift.val + 1 → (setPageField p v pg).getLsbD k = v.getLsbD k)
  ∧ ∀ (p : Params) (f : Field) (v x : Byte) (m : Mode), p.wf = true →
    (∀ k, k < 8 → ¬ (f.pos p ≤ k ∧ k < f.pos p + f.width p) → (setFieldValue p f v x).getLsbD k = v.getLsbD k)
    ∧ (∀ k, k < f.width p → (setFieldValue p f v x).getLsbD (f.pos p + k) = x.getLsbD k)
    ∧ decodeMode p (setFieldValue p .mode v (modeCodeOf p m)) = some m
    ∧ (f ≠ .mode → decodeMode p (setFieldValue p f v x) = decodeMode p v)

/-- Nothing follows a bus fault: it is the last output of its command, there is one at most, the page is unknown, and the
command, unless reset abandons it, ends with BUS_ERROR or with MODE_ERROR and the cause of a bus fault; and those reports come
from a fault only (20_memory.md R56; 41_register_bus.md R114 (c), R120; 60_exceptions.md R201, R203, R204). -/
def Obligations.BusFaultIsLast : Prop :=
  ∀ (i : Instr) (s t : State) (evs : List BusEvent), exec i s = .next t → t.log = s.log ++ evs →
    ((∃ e ∈ evs, e.isFault = true) →
      (∃ pre e, evs = pre ++ [e] ∧ e.isFault = true ∧ ∀ x ∈ pre, x.isFault = false) ∧ t.pcache = none
        ∧ (t.busy = false → t.err = .busError ∨ t.err = .modeError ∧ t.cause = .bus))
    ∧ (t.err = .busError ∨ t.err = .modeError ∧ t.cause = .bus → ∃ e ∈ evs, e.isFault = true)

/-- Which command reports which error, with which STEP and CAUSE (60_exceptions.md R201, R202, R204): the columns "raised
by" of R201, the failing steps of R133 and R137, step 1 for SET_MODE and the PLHD mode reset, step 2 for SEND. -/
def Obligations.ErrorsByCommand : Prop :=
  ∀ (i : Instr) (s t : State), exec i s = .next t →
    t.err ≠ .illegalCmd ∧ t.err ≠ .unsupportedFrequency ∧ t.err ≠ .unsupportedSf
      ∧ (i.isLocal → t.err = .ok)
      ∧ (i.isSequence → t.err = .ok ∨ t.err = .modeError)
      ∧ ((∃ fa off len, i = .fifoWrite fa off len ∨ i = .fifoRead fa off len) → t.err = .ok ∨ t.err = .busError)
      ∧ (t.err ≠ .modeError → t.stepIx = 0 ∧ t.cause = .none)
      ∧ (t.err = .modeError →
        (t.cause = .bus ∨ t.cause = .verify ∨ t.cause = .wrongMode ∧ t.stepIx = 0 ∧ (i = .sleep ∨ i = .deepSleep))
        ∧ ((i = .wakeDeep ∨ i = .wakeSleep) ∧ t.stepIx ∈ [1, 2, 4, 5, 6]
          ∨ (i = .sleep ∨ i = .deepSleep) ∧ t.stepIx ∈ [0, 1, 2, 4]
          ∨ (∃ m, i = .setMode m) ∧ t.stepIx = 1
          ∨ i = .dispatch ∧ t.stepIx = 1
          ∨ (∃ n, i = .send n) ∧ t.stepIx = 2))

/-- FIFO_WRITE: one burst of the TBUF bytes, no page switch, no verify; nothing on the bus for LEN = 0 (R117, 20_memory.md
R55). DESIGN CHOICE (log 34): that at FIFO_ADDR the transmit FIFO then grows by exactly the bytes sent is the spec's on the test
double alone (20_memory.md R58); off it the model leaves out the silent corruption of a burst that is reported good, which
43_frame_fifo.md R161 and R167 allow, and takes the bytes to be appended during a transmission too (log 38). -/
def Obligations.FifoWriteBursts : Prop :=
  ∀ (s : State) (fa off len : Byte) (d : List Byte), s.quiet → d.length = len.toNat →
    (∀ k (h : k < d.length), s.mem.read (off.toNat + k) = some d[k]) →
    (len = 0 → exec (.fifoWrite fa off len) s = .next s.endingOk)
    ∧ (len ≠ 0 → s.willAnswer [[]] →
      ∃ t, exec (.fifoWrite fa off len) s = .next t ∧ t.endedOk ∧ t.pcache = s.pcache
        ∧ t.log = s.log ++ [.burstWrite fa d true]
        ∧ (fa = s.params.fifoAddr → t.chip.txq = s.chip.txq ++ d))

/-- FIFO_READ: one burst of LEN bytes into RBUF from OFF on, nothing else of RBUF touched; nothing on the bus for LEN = 0
(R118). At FIFO_ADDR the burst takes LEN received bytes out of the chip's FIFO (20_memory.md R59, D12). -/
def Obligations.FifoReadFillsRbuf : Prop :=
  ∀ (s : State) (fa off len : Byte) (bs : List Byte), s.quiet → bs.length = len.toNat →
    (len = 0 → exec (.fifoRead fa off len) s = .next s.endingOk)
    ∧ (len ≠ 0 → s.willAnswer [bs] →
      ∃ t, exec (.fifoRead fa off len) s = .next t ∧ t.endedOk ∧ t.pcache = s.pcache
        ∧ t.mem = s.mem.writeList (0x100 + off.toNat) bs ∧ t.log = s.log ++ [.burstRead fa len.toNat (some bs)]
        ∧ (fa = s.params.fifoAddr → t.chip.rxq = s.chip.rxq.drop len.toNat))

/-- FIFO_READ whose burst faults: BUS_ERROR, the page unknown, the touched bytes written with values nothing fixes, the others
as before (R118; 10_state.md R45; 93 I9). That all LEN bytes are touched is log 28, and that a free number of received bytes,
LEN at most, has left the chip's FIFO is log 30. -/
def Obligations.FifoReadFault : Prop :=
  ∀ (s : State) (fa off len : Byte) (rest : List Answer), s.quiet → len ≠ 0 → s.chip.answers = .fault :: rest →
    ∃ t, exec (.fifoRead fa off len) s = .next t ∧ t.endedAs .busError 0 .none ∧ t.pcache = none
      ∧ t.log = s.log ++ [.burstRead fa len.toNat none]
      ∧ (∀ k, k < len.toNat → t.mem.read (0x100 + off.toNat + k) ≠ none)
      ∧ (∀ a, ¬ (0x100 + off.toNat ≤ a ∧ a < 0x100 + off.toNat + len.toNat) → t.mem.read a = s.mem.read a)
      ∧ (fa = s.params.fifoAddr → ∃ k, k ≤ len.toNat ∧ t.chip.rxq = s.chip.rxq.drop k)

/-- The round trip of R121 on the test double: what REG_WRITE wrote, REG_READ returns, for every page, offset and value; at
the system-control register exactly when the value's page field is the page. -/
def Obligations.RegRoundTrip : Prop :=
  ∀ (s : State) (pg : Page) (a v : Byte), s.OnBench → a ≠ s.params.fifoAddr →
    ∃ t u, exec (.regWrite pg a v) s = .next t ∧ t.endedOk ∧ exec (.regRead pg a) t = .next u ∧ u.endedOk
      ∧ (a ≠ s.params.sysctlAddr → u.result = v.setWidth 16)
      ∧ (a = s.params.sysctlAddr → (u.result = v.setWidth 16 ↔ pageField s.params v = pg))

/-! ## The mode sequencer (42_mode_sequencer.md) -/

/-- The legal transitions are those of R130 and no others; a write that reaches the mode-control register records the fault
when, and only when, its transition is not one of them (20_memory.md R57: the page is the chip's); and the write is made all the
same: SET_MODE is not refused. The premise of the last clause on the page cache is its invariant (10_state.md R33). -/
def Obligations.LegalTransitions : Prop :=
  (∀ m m2 : Option Mode, legal m m2 = true ↔
    m2 = m
      ∨ ((m = some .deepSleep ∨ m = some .sleep) ∧ m2 = some .standby1)
      ∨ (m = some .standby1 ∧ m2 = some .standby2)
      ∨ (m = some .standby2 ∧ m2 = some .standby3)
      ∨ (m = some .standby3 ∧ m2 = some .standby2)
      ∨ (m = some .standby2 ∧ m2 = some .standby1)
      ∨ (m = some .standby1 ∧ (m2 = some .sleep ∨ m2 = some .deepSleep))
      ∨ ((m = some .standby3 ∨ m = some .tx ∨ m = some .rx) ∧ (m2 = some .standby3 ∨ m2 = some .tx ∨ m2 = some .rx))
      ∨ (m = none ∧ m2 = some .standby1))
  ∧ (∀ (s : State) (a v : Byte), s.modeAccess a = true →
    (s.monitorWrite a v).faults.illegalTransition =
      (s.faults.illegalTransition || !legal s.chipMode (decodeMode s.params v)))
  ∧ ∀ (s : State) (m : Mode) (v g : Byte), s.params.wf = true → s.pageCoherent → s.quiet → s.cached s.params.modectlPage →
    s.willAnswer [[v], [], [g]] → legal (decodeMode s.params v) (some m) = false →
    ∃ t, exec (.setMode m) s = .next t ∧ t.faults.illegalTransition = true
      ∧ .write s.params.modectlAddr (setFieldValue s.params .mode v (modeCodeOf s.params m)) true ∈ t.log

/-- WAKE_DEEP and WAKE_SLEEP on the test double run the whole table of R133, in order: the trim pair, the oscillator, the
three mode writes, each delay at least its minimum; the chip ends in Standby3 with every other bit of the register as it
was; the fault is recorded exactly when the first mode write is no legal transition (R130, R133, R134, R135). -/
def Obligations.WakeCompletes : Prop :=
  ∀ (s : State) (i : Instr) (v : Byte), i = .wakeDeep ∨ i = .wakeSleep → s.OnBench →
    s.regValue s.params.modectlPage s.params.modectlAddr = some v →
    let p := s.params
    let v1 := setFieldValue p .mode v (modeCodeOf p .standby1)
    let v2 := setFieldValue p .mode v1 (modeCodeOf p .standby2)
    let v3 := setFieldValue p .mode v2 (modeCodeOf p .standby3)
    ∃ t evs d1 d2 d3 d4, exec i s = .next t ∧ t.endedOk ∧ t.tcxo = true ∧ t.pcache = some p.modectlPage
      ∧ t.chipMode = some .standby3 ∧ t.regValue p.modectlPage p.modectlAddr = some v3
      ∧ t.regValue p.xtalTrim0.page p.xtalTrim0.addr = some p.xtalTrim0.value
      ∧ t.regValue p.xtalTrim1.page p.xtalTrim1.addr = some p.xtalTrim1.value
      ∧ t.faults = (if legal (decodeMode p v) (some .standby1) then s.faults
          else { s.faults with illegalTransition := true })
      ∧ t.log = s.log ++ evs
      ∧ evs.filter (BusEvent.isStep p) =
        [.write p.xtalTrim0.addr p.xtalTrim0.value true, .write p.xtalTrim1.addr p.xtalTrim1.value true,
          .cap .enableTcxo, .delay p.tOsc d1, .write p.modectlAddr v1 true, .delay p.tStb1 d2,
          .write p.modectlAddr v2 true, .delay p.tStb2 d3, .write p.modectlAddr v3 true, .delay p.tStb3 d4]
      ∧ p.tOsc ≤ d1 ∧ p.tStb1 ≤ d2 ∧ p.tStb2 ≤ d3 ∧ p.tStb3 ≤ d4

/-- SLEEP and DEEP_SLEEP on the test double, from Standby3 or unguarded, run the whole table of R137, in order; the page is
unknown afterwards, the oscillator off, the chip in the target mode (R136, R137, R138, R139, R114 (g)). -/
def Obligations.SleepCompletes : Prop :=
  ∀ (s : State) (i : Instr) (target : Mode) (v : Byte),
    (i = .sleep ∧ target = .sleep ∨ i = .deepSleep ∧ target = .deepSleep) → s.OnBench →
    s.regValue s.params.modectlPage s.params.modectlAddr = some v →
    (decodeMode s.params v = some .standby3 ∨ s.params.sleepGuard = .unguarded) →
    let p := s.params
    let v1 := setFieldValue p .mode v (modeCodeOf p .standby2)
    let v2 := setFieldValue p .mode v1 (modeCodeOf p .standby1)
    let v3 := setFieldValue p .mode v2 (modeCodeOf p target)
    ∃ t evs d1 d2, exec i s = .next t ∧ t.endedOk ∧ t.tcxo = false ∧ t.pcache = none ∧ t.chipMode = some target
      ∧ t.regValue p.modectlPage p.modectlAddr = some v3
      ∧ t.faults = (if legal (decodeMode p v) (some .standby2) then s.faults
          else { s.faults with illegalTransition := true })
      ∧ t.log = s.log ++ evs
      ∧ evs.filter (BusEvent.isStep p) =
        [.write p.modectlAddr v1 true, .delay p.tDn d1, .write p.modectlAddr v2 true, .delay p.tDn d2,
          .cap .disableTcxo, .write p.modectlAddr v3 true]
      ∧ p.tDn ≤ d1 ∧ p.tDn ≤ d2

/-- The sleep guard, the page cached and not: from any mode but Standby3, SLEEP and DEEP_SLEEP end with MODE_ERROR, STEP 0,
CAUSE 3 after the one read, nothing but the page switch written (R111, R136, R147). What CHIPMODE is then holds where the page
cache is right about the chip (10_state.md R33). -/
def Obligations.SleepGuardRejects : Prop :=
  ∀ (s : State) (i : Instr) (v v0 : Byte) (ans : List (List Byte)) (sw : List BusEvent), i = .sleep ∨ i = .deepSleep →
    s.quiet → s.params.sleepGuard = .reject → s.switchesTo s.params.modectlPage v0 ans sw → s.willAnswer (ans ++ [[v]]) →
    decodeMode s.params v ≠ some .standby3 →
    ∃ t, exec i s = .next t ∧ t.endedAs .modeError 0 .wrongMode ∧ t.tcxo = s.tcxo ∧ t.faults = s.faults
      ∧ (s.params.wf = true → s.pageCoherent → t.chipMode = decodeMode s.params v)
      ∧ t.log = s.log ++ (sw ++ [.read s.params.modectlAddr (some v)])

/-- SET_MODE: one read, one write with the mode field alone replaced, one read-back; a mismatch is MODE_ERROR, STEP 1, CAUSE
2; an illegal transition is performed and recorded (R130, R131, R132, R140). The page switch comes before the read and,
where no page is cached, before the write again (R111). What the monitor then holds is said where the page cache is right about
the chip (10_state.md R33). -/
def Obligations.SetModeWrites : Prop :=
  ∀ (s : State) (m : Mode) (v g v0 v1 : Byte) (ans1 ans2 : List (List Byte)) (sw1 sw2 : List BusEvent),
    s.params.wf = true → s.quiet → s.switchesTo s.params.modectlPage v0 ans1 sw1 →
    (s.setPage s.params.modectlPage).switchesTo s.params.modectlPage v1 ans2 sw2 →
    s.willAnswer (ans1 ++ [[v]] ++ ans2 ++ [[], [g]]) →
    let p := s.params
    let v2 := setFieldValue p .mode v (modeCodeOf p m)
    ∃ t, exec (.setMode m) s = .next t ∧ t.pcache = some p.modectlPage
      ∧ t.log = s.log ++ (sw1 ++ [.read p.modectlAddr (some v)] ++ sw2
          ++ [.write p.modectlAddr v2 true, .read p.modectlAddr (some g)])
      ∧ (s.pageCoherent → t.chipMode = decodeMode p g ∧ t.faults = (if legal (decodeMode p v) (some m) then s.faults
          else { s.faults with illegalTransition := true }))
      ∧ (g = v2 → t.endedOk) ∧ (g ≠ v2 → t.endedAs .modeError 1 .verify)

/-- SET_TXSUB and SET_RXSUB: the same with their own field; a mismatch is plain VERIFY_ERROR. No illegal transition is ever
recorded, whether or not the page cache is right about the chip and where the chip's page is not known too (R132); CHIPMODE is
the mode read back where the page cache is right (R111, R131, R142, R143; 10_state.md R33; 60_exceptions.md R204). -/
def Obligations.SubModeWrites : Prop :=
  ∀ (s : State) (i : Instr) (f : Field) (x v g v0 v1 : Byte) (ans1 ans2 : List (List Byte)) (sw1 sw2 : List BusEvent),
    s.params.wf = true → s.quiet → s.switchesTo s.params.modectlPage v0 ans1 sw1 →
    (s.setPage s.params.modectlPage).switchesTo s.params.modectlPage v1 ans2 sw2 →
    ((∃ sub, i = .setTxsub sub ∧ f = .txsub ∧ x = txsubCodeOf s.params sub)
      ∨ ∃ sub, i = .setRxsub sub ∧ f = .rxsub ∧ x = rxsubCodeOf s.params sub) →
    s.willAnswer (ans1 ++ [[v]] ++ ans2 ++ [[], [g]]) →
    let p := s.params
    let v2 := setFieldValue p f v x
    ∃ t, exec i s = .next t ∧ t.pcache = some p.modectlPage
      ∧ t.log = s.log ++ (sw1 ++ [.read p.modectlAddr (some v)] ++ sw2
          ++ [.write p.modectlAddr v2 true, .read p.modectlAddr (some g)])
      ∧ t.faults = s.faults ∧ (s.pageCoherent → t.chipMode = decodeMode p g)
      ∧ (g = v2 → t.endedOk) ∧ (g ≠ v2 → t.endedAs .verifyError 0 .none)

/-- GET_MODE, the page cached and not: RESULT is the number of the mode read, 0xFF where the field is no mode's code; CHIPMODE
follows where the page cache is right about the chip (R111, R132, R141; 10_state.md R33). -/
def Obligations.GetModeReturns : Prop :=
  ∀ (s : State) (v v0 : Byte) (ans : List (List Byte)) (sw : List BusEvent), s.quiet →
    s.switchesTo s.params.modectlPage v0 ans sw → s.willAnswer (ans ++ [[v]]) →
    ∃ t, exec .getMode s = .next t ∧ t.endedOk
      ∧ (∀ m, decodeMode s.params v = some m → t.result.toNat = m.number)
      ∧ (decodeMode s.params v = none → t.result = 0xFF)
      ∧ (s.params.wf = true → s.pageCoherent → t.chipMode = decodeMode s.params v) ∧ t.faults = s.faults
      ∧ t.log = s.log ++ (sw ++ [.read s.params.modectlAddr (some v)])

/-- The capability calls and the settle delays of a command are an initial part of those its sequence lists, in order, none
where it has no sequence; and every delay lasts at least its minimum (R133, R137; 60_exceptions.md R219;
70_reset_and_hazards.md R243, R244). -/
def Obligations.CapsAndDelays : Prop :=
  ∀ (i : Instr) (s t : State) (evs : List BusEvent), exec i s = .next t → t.log = s.log ++ evs →
    let p := s.params
    (i = .wakeDeep ∨ i = .wakeSleep →
      evs.filterMap BusEvent.cap? <+: [.enableTcxo]
        ∧ evs.filterMap BusEvent.delay? <+: [p.tOsc, p.tStb1, p.tStb2, p.tStb3])
    ∧ (i = .sleep ∨ i = .deepSleep →
      evs.filterMap BusEvent.cap? <+: [.disableTcxo] ∧ evs.filterMap BusEvent.delay? <+: [p.tDn, p.tDn])
    ∧ (i ≠ .wakeDeep → i ≠ .wakeSleep → i ≠ .sleep → i ≠ .deepSleep →
      evs.filterMap BusEvent.cap? = [] ∧ evs.filterMap BusEvent.delay? = [])
    ∧ ∀ lo lasted, .delay lo lasted ∈ evs → lo ≤ lasted

/-! ## The frame FIFO port (43_frame_fifo.md) -/

/-- SEND on the test double: the length register, the mode write, the burst, in that order (R160, R161): the FIFO holds the
frame, the length register its length, the chip is in Tx; an illegal transition is performed and recorded. -/
def Obligations.SendCompletes : Prop :=
  ∀ (s : State) (len v : Byte) (d : List Byte), s.OnBench → 1 ≤ len.toNat → d.length = len.toNat →
    (∀ k (h : k < d.length), s.mem.read k = some d[k]) →
    s.regValue s.params.modectlPage s.params.modectlAddr = some v →
    let p := s.params
    let v2 := setFieldValue p .mode v (modeCodeOf p .tx)
    ∃ t evs, exec (.send len) s = .next t ∧ t.endedOk ∧ t.chip.txq = s.chip.txq ++ d
      ∧ t.regValue p.txlen.page p.txlen.addr = some len ∧ t.regValue p.modectlPage p.modectlAddr = some v2
      ∧ t.chipMode = some .tx
      ∧ t.faults = (if legal (decodeMode p v) (some .tx) then s.faults else { s.faults with illegalTransition := true })
      ∧ t.log = s.log ++ evs
      ∧ evs.filter (BusEvent.isStep p) =
        [.write p.txlen.addr len true, .write p.modectlAddr v2 true, .burstWrite p.fifoAddr d true]

/-- RECEIVE on the test double: as many bytes as the received-length register says go from the FIFO to RBUF from index 0 on,
then the clear; RESULT is the length; no burst for length 0 (R162, R163). -/
def Obligations.ReceiveCompletes : Prop :=
  ∀ (s : State) (n : Byte) (bs more : List Byte), s.OnBench →
    s.regValue s.params.rxlen.page s.params.rxlen.addr = some n → s.chip.rxq = bs ++ more → bs.length = n.toNat →
    let p := s.params
    ∃ t evs, exec .receive s = .next t ∧ t.endedOk ∧ t.result = n.setWidth 16 ∧ t.mem = s.mem.writeList 0x100 bs
      ∧ t.chip.rxq = more ∧ t.regValue p.irqClr.page p.irqClr.addr = some p.irqClr.value
      ∧ t.pcache = some p.irqClr.page ∧ t.log = s.log ++ evs
      ∧ evs.filter (BusEvent.isStep p) =
        (if n = 0 then [] else [.burstRead p.fifoAddr n.toNat (some bs)])
          ++ [.write p.irqClr.addr p.irqClr.value true]

/-- RECV_PLHD on the test double: the bytes of the map of R166 in buffer order, one paged read each, then the clear; RESULT is 8
or 16 (R163, R165, R166). The 16-byte map is R166's, written out; the 8-byte one is OPEN. The premise on the map's offsets is
the layout's (no PLHD byte at the FIFO or system-control offset). -/
def Obligations.RecvPlhdCompletes : Prop :=
  ∀ (s : State) (sel : PlhdSel) (map : List RegAt) (bs : List Byte), s.OnBench →
    (sel = .sixteen ∧ map = [⟨2, 0x76⟩, ⟨2, 0x77⟩, ⟨2, 0x78⟩, ⟨2, 0x79⟩, ⟨2, 0x7A⟩, ⟨2, 0x7B⟩, ⟨2, 0x7C⟩, ⟨2, 0x7D⟩,
        ⟨2, 0x7E⟩, ⟨2, 0x7F⟩, ⟨0, 0x6C⟩, ⟨0, 0x6D⟩, ⟨0, 0x6E⟩, ⟨0, 0x6F⟩, ⟨0, 0x70⟩, ⟨0, 0x71⟩]
      ∨ sel = .eight ∧ map = s.params.plhd8Offs.toList.map fun a => ⟨s.params.plhd8Page, a⟩) →
    (∀ r ∈ map, r.plain s.params) → map.map (fun r => s.regValue r.page r.addr) = bs.map some →
    let p := s.params
    ∃ t evs, exec (.recvPlhd sel) s = .next t ∧ t.endedOk ∧ t.result.toNat = plhdCount sel
      ∧ t.mem = s.mem.writeList 0x100 bs ∧ t.pcache = some p.irqClr.page
      ∧ t.regValue p.irqClr.page p.irqClr.addr = some p.irqClr.value
      ∧ t.log = s.log ++ evs
      ∧ evs.filter (BusEvent.isAccess p) =
        readsOf map bs ++ [.write p.irqClr.addr p.irqClr.value true, .read p.irqClr.addr (some p.irqClr.value)]

/-- CLR_IRQ, the page cached and not: the clear write and its read-back, nothing else; a mismatch is VERIFY_ERROR (R111,
R163, R164). Where the page cache is right about the chip, and the test double does not stand for it, a clear that reads back
leaves every event bit of the IRQ-status register 0 and the line at its inactive level, or where it was if another bit of that
register is set (R163; 93 I12; that the chip takes the clear when it has read back is log 18); one that does not read back
leaves the line where it was, so that no later level is a new edge (70_reset_and_hazards.md R250). -/
def Obligations.ClrIrqWrites : Prop :=
  ∀ (s : State) (g v0 : Byte) (ans : List (List Byte)) (sw : List BusEvent), s.quiet → s.params.wf = true →
    s.switchesTo s.params.irqClr.page v0 ans sw → s.willAnswer (ans ++ [[], [g]]) →
    let c := s.params.irqClr
    ∃ t, exec .clrIrq s = .next t ∧ t.pcache = some c.page
      ∧ t.log = s.log ++ (sw ++ [.write c.addr c.value true, .read c.addr (some g)])
      ∧ (g = c.value → t.endedOk) ∧ (g ≠ c.value → t.endedAs .verifyError 0 .none)
      ∧ (s.chip.oracle = false → t.irqPend = s.irqPend
        ∧ (g ≠ c.value → t.chip.irqLine = s.chip.irqLine ∧ t.irqPrev = s.irqPrev)
        ∧ (g = c.value → s.pageCoherent →
          ∃ b, t.regValue s.params.irqReg.page s.params.irqReg.addr = some b
            ∧ (∀ k ∈ [s.params.irqBitPlhd, s.params.irqBitRxDone, s.params.irqBitCrcErr, s.params.irqBitRxTo,
              s.params.irqBitTxDone], b.getLsbD k.val = false)
            ∧ (t.chip.irqLine = !activeLevel s.params.irqActive
              ∨ b ≠ 0 ∧ t.chip.irqLine = s.chip.irqLine ∧ t.irqPrev = s.irqPrev)))

/-! ## The dispatcher (44_irq_dispatch.md) -/

/-- One handler, chosen by event in the source's order, whatever the bit positions (R181). -/
def Obligations.SelectPriority : Prop :=
  ∀ (p : Params) (st : Byte),
    let plhd := st.getLsbD p.irqBitPlhd.val = true
    let rxDone := st.getLsbD p.irqBitRxDone.val = true
    let crcErr := st.getLsbD p.irqBitCrcErr.val = true
    let rxTo := st.getLsbD p.irqBitRxTo.val = true
    let txDone := st.getLsbD p.irqBitTxDone.val = true
    (selectHandler p st = .plhd ↔ plhd) ∧ (selectHandler p st = .rxDone ↔ ¬ plhd ∧ rxDone)
      ∧ (selectHandler p st = .crcErr ↔ ¬ plhd ∧ ¬ rxDone ∧ crcErr)
      ∧ (selectHandler p st = .rxTo ↔ ¬ plhd ∧ ¬ rxDone ∧ ¬ crcErr ∧ rxTo)
      ∧ (selectHandler p st = .txDone ↔ ¬ plhd ∧ ¬ rxDone ∧ ¬ crcErr ∧ ¬ rxTo ∧ txDone)
      ∧ (selectHandler p st = .none ↔ ¬ plhd ∧ ¬ rxDone ∧ ¬ crcErr ∧ ¬ rxTo ∧ ¬ txDone)

/-- DISPATCH with no event bit set issues the page switch, if any, and the status read, and delivers NONE (R180, R186).
IRQ_PEND is 0 after it (10_state.md R34); where the test double answers, whose line can rise at the write of a page switch,
this is said for the page cached. -/
def Obligations.DispatchNoEvent : Prop :=
  ∀ (s : State) (st v : Byte) (sw : List BusEvent), s.quiet →
    st.getLsbD s.params.irqBitPlhd.val = false → st.getLsbD s.params.irqBitRxDone.val = false →
    st.getLsbD s.params.irqBitCrcErr.val = false → st.getLsbD s.params.irqBitRxTo.val = false →
    st.getLsbD s.params.irqBitTxDone.val = false →
    let p := s.params
    let v2 := setPageField p v p.irqReg.page
    (s.cached p.irqReg.page ∧ s.willAnswer [[st]] ∧ sw = []
      ∨ ¬ s.cached p.irqReg.page ∧ s.willAnswer [[v], [], [v2], [st]]
        ∧ sw = [.read p.sysctlAddr (some v), .write p.sysctlAddr v2 true, .read p.sysctlAddr (some v2)]) →
    ∃ t, exec .dispatch s = .next t ∧ t.endedOk ∧ t.log = s.log ++ (sw ++ [.read p.irqReg.addr (some st)])
      ∧ t.result = st.setWidth 16 ∧ t.eventWord = 0 ∧ t.rssi = s.rssi ∧ t.snr = s.snr ∧ t.rxFlag = s.rxFlag
      ∧ t.txFlag = s.txFlag ∧ (s.chip.oracle = false ∨ s.cached p.irqReg.page → t.irqPend = false)

/-- DISPATCH of CRC-error, RX-timeout and TX-done on the test double: the clear only, then the event, its flag and RESULT;
length 0, no buffer, metric or other flag touched, and no length register or FIFO: the bytes received stay there (R180, R184,
R188). -/
def Obligations.DispatchNoPayload : Prop :=
  ∀ (s : State) (st : Byte) (h : Handler) (tag : EventTag) (rx tx : Flag), s.OnBench →
    s.regValue s.params.irqReg.page s.params.irqReg.addr = some st → selectHandler s.params st = h →
    (h = .crcErr ∧ tag = .rxCrcError ∧ rx = .rxErr ∧ tx = s.txFlag
      ∨ h = .rxTo ∧ tag = .rxTimeout ∧ rx = .rxTimeout ∧ tx = s.txFlag
      ∨ h = .txDone ∧ tag = .txDone ∧ rx = s.rxFlag ∧ tx = .txDone) →
    let p := s.params
    ∃ t evs, exec .dispatch s = .next t ∧ t.endedOk ∧ t.result = st.setWidth 16 ∧ t.eventTag = tag ∧ t.eventLen = 0
      ∧ t.rxFlag = rx ∧ t.txFlag = tx ∧ t.rssi = s.rssi ∧ t.snr = s.snr ∧ t.mem = s.mem
      ∧ t.chip.rxq = s.chip.rxq ∧ t.chip.txq = s.chip.txq
      ∧ t.regValue p.irqClr.page p.irqClr.addr = some p.irqClr.value
      ∧ t.log = s.log ++ evs
      ∧ evs.filter (BusEvent.isAccess p) = [.read p.irqReg.addr (some st), .write p.irqClr.addr p.irqClr.value true,
        .read p.irqClr.addr (some p.irqClr.value)]

/-- DISPATCH of RX-done on the test double: the status, then the metric registers in the order of LM_READS, then the received
length, then the frame into RBUF, then the clear; at the commit the event
with its length, the two metric patterns, the receive flag and RESULT (R180, R183, R187, R188). -/
def Obligations.DispatchRxDone : Prop :=
  ∀ (s : State) (st n : Byte) (ys bs more : List Byte), s.OnBench →
    s.regValue s.params.irqReg.page s.params.irqReg.addr = some st → selectHandler s.params st = .rxDone →
    (∀ r ∈ s.params.lmReads, r.plain s.params) →
    s.params.lmReads.map (fun r => s.regValue r.page r.addr) = ys.map some →
    s.regValue s.params.rxlen.page s.params.rxlen.addr = some n → s.chip.rxq = bs ++ more → bs.length = n.toNat →
    let p := s.params
    ∃ t evs, exec .dispatch s = .next t ∧ t.endedOk ∧ t.result = st.setWidth 16 ∧ t.eventTag = .rxDone ∧ t.eventLen = n
      ∧ (t.rssi, t.snr) = lmApply p.lmFn ys ∧ t.rxFlag = .rxDone ∧ t.txFlag = s.txFlag
      ∧ t.mem = s.mem.writeList 0x100 bs ∧ t.chip.rxq = more
      ∧ t.regValue p.irqClr.page p.irqClr.addr = some p.irqClr.value
      ∧ t.log = s.log ++ evs
      ∧ evs.filter (BusEvent.isAccess p) =
        .read p.irqReg.addr (some st) :: readsOf p.lmReads ys ++ .read p.rxlen.addr (some n)
          :: (if n = 0 then [] else [.burstRead p.fifoAddr n.toNat (some bs)])
          ++ [.write p.irqClr.addr p.irqClr.value true, .read p.irqClr.addr (some p.irqClr.value)]

/-- DISPATCH of PLHD-done on the test double, with the mode reset of REF (a SetField of Standby3; what the reset writes is
OPEN, log 19): the status, the PLHD bytes into RBUF by the map of 43_frame_fifo.md R166 (the 16-byte map written out, the 8-byte
one OPEN), the clear, the mode write; the page unknown afterwards (R180, R182, R185, R188; 41_register_bus.md R114 (h)). -/
def Obligations.DispatchPlhd : Prop :=
  ∀ (s : State) (st v : Byte) (map : List RegAt) (bs : List Byte), s.OnBench → s.params.modeReset = [.setMode .standby3] →
    s.regValue s.params.irqReg.page s.params.irqReg.addr = some st → selectHandler s.params st = .plhd →
    (s.params.plhdLen = .sixteen ∧ map = [⟨2, 0x76⟩, ⟨2, 0x77⟩, ⟨2, 0x78⟩, ⟨2, 0x79⟩, ⟨2, 0x7A⟩, ⟨2, 0x7B⟩, ⟨2, 0x7C⟩,
        ⟨2, 0x7D⟩, ⟨2, 0x7E⟩, ⟨2, 0x7F⟩, ⟨0, 0x6C⟩, ⟨0, 0x6D⟩, ⟨0, 0x6E⟩, ⟨0, 0x6F⟩, ⟨0, 0x70⟩, ⟨0, 0x71⟩]
      ∨ s.params.plhdLen = .eight ∧ map = s.params.plhd8Offs.toList.map fun a => ⟨s.params.plhd8Page, a⟩) →
    (∀ r ∈ map, r.plain s.params) → map.map (fun r => s.regValue r.page r.addr) = bs.map some →
    s.regValue s.params.modectlPage s.params.modectlAddr = some v →
    let p := s.params
    let v2 := setFieldValue p .mode v (modeCodeOf p .standby3)
    ∃ t evs, exec .dispatch s = .next t ∧ t.endedOk ∧ t.result = st.setWidth 16 ∧ t.eventTag = .plhdDone
      ∧ t.eventLen.toNat = plhdCount p.plhdLen ∧ t.rxFlag = .plhdRxDone ∧ t.txFlag = s.txFlag ∧ t.rssi = s.rssi
      ∧ t.snr = s.snr ∧ t.mem = s.mem.writeList 0x100 bs ∧ t.pcache = none ∧ t.chipMode = some .standby3
      ∧ t.regValue p.modectlPage p.modectlAddr = some v2
      ∧ t.regValue p.irqClr.page p.irqClr.addr = some p.irqClr.value
      ∧ t.log = s.log ++ evs
      ∧ evs.filter (BusEvent.isAccess p) =
        .read p.irqReg.addr (some st) :: readsOf map bs
          ++ [.write p.irqClr.addr p.irqClr.value true, .read p.irqClr.addr (some p.irqClr.value),
            .read p.modectlAddr (some v), .write p.modectlAddr v2 true, .read p.modectlAddr (some v2)]

/-- A DISPATCH that ends in an error delivers nothing: the commit is not reached (R180). And where no clear of it has read back,
the chip's IRQ line and the edge detector's sample are as before and IRQ_PEND stays 0 (70_reset_and_hazards.md R250), while
nothing else acts and the test double, whose line follows its register, does not answer. -/
def Obligations.DispatchErrorDeliversNothing : Prop :=
  ∀ s t : State, exec .dispatch s = .next t → t.err ≠ .ok →
    t.result = s.result ∧ t.eventTag = s.eventTag ∧ t.eventLen = s.eventLen ∧ t.rssi = s.rssi ∧ t.snr = s.snr
      ∧ t.rxFlag = s.rxFlag ∧ t.txFlag = s.txFlag
      ∧ ∀ evs, s.quiet → s.chip.oracle = false → t.log = s.log ++ evs →
        ¬ [.write s.params.irqClr.addr s.params.irqClr.value true,
          .read s.params.irqClr.addr (some s.params.irqClr.value)] <:+: evs →
        t.chip.irqLine = s.chip.irqLine ∧ t.irqPrev = s.irqPrev ∧ t.irqPend = false

/-- DISPATCH clears IRQ_PEND at its start, before its first transaction; an active edge during it sets it again (10_state.md
R34, 44_irq_dispatch.md R180), whatever the event and however the command ends. The edge here arrives at the first boundary.
The second clause says of a status without an event bit that such a DISPATCH completes. -/
def Obligations.DispatchAndIrqPend : Prop :=
  (∀ s t : State, s.chip.oracle = false → exec .dispatch s = .next t →
    (s.quiet → t.irqPend = false)
    ∧ (s.inReset = false → s.during = [[.irqLine (activeLevel s.params.irqActive)]] →
      (t.irqPend = true ↔ s.irqPrev ≠ activeLevel s.params.irqActive)))
  ∧ ∀ (s : State) (st : Byte), s.cached s.params.irqReg.page → s.willAnswer [[st]] →
    selectHandler s.params st = .none → s.inReset = false → s.chip.oracle = false →
    (s.quiet → ∃ t, exec .dispatch s = .next t ∧ t.endedOk ∧ t.irqPend = false)
    ∧ (s.during = [[.irqLine (activeLevel s.params.irqActive)]] →
      ∃ t, exec .dispatch s = .next t ∧ t.endedOk
        ∧ (t.irqPend = true ↔ s.irqPrev ≠ activeLevel s.params.irqActive))

/-- The edge detector (10_state.md R34): outside reset a change of the chip's IRQ line to the active level sets IRQ_PEND, no
other change does, and the sample is remembered. (Under the test double the line follows the IRQ status instead, log 22.) -/
def Obligations.EdgeDetector : Prop :=
  ∀ (s : State) (level : Bool) (rest : List Input), s.inputs = .irqLine level :: rest → s.inReset = false →
    s.chip.oracle = false →
    ∃ t, step s = .next t ∧ t.irqPrev = level ∧ t.chip.irqLine = level ∧ t.irqOut = t.irqPend
      ∧ (t.irqPend = true ↔
        s.irqPend = true ∨ s.irqPrev ≠ level ∧ (s.params.irqActive = .rising ∧ level = true
          ∨ s.params.irqActive = .falling ∧ level = false))

/-! ## The host port (20_memory.md section 1) -/

/-- A write of CMD or of TBUF while BUSY = 1 changes nothing and sets OVR, whether the command has stalled or is running
(10_state.md R25, R31; 60_exceptions.md R222). The moment of the second clause, after NOP's last action and before BUSY
clears, is the model's choice (log 21). -/
def Obligations.BusyWriteSetsOvr : Prop :=
  (∀ (s : State) (off width : Nat) (v : Word) (rest : List Input),
    s.inputs = .hostWrite (s.params.tcbBase + off) width v :: rest → s.inReset = false → s.busy = true →
    (width = 4 ∧ off = 0x200 ∨ width = 4 ∧ off % 4 = 0 ∧ off < 0x100 ∨ width = 1 ∧ off < 0x100) →
    step s = .next { s with inputs := rest, ovr := true })
  ∧ ∀ (s : State) (off width : Nat) (v : Word), s.inReset = false →
    (width = 4 ∧ off = 0x200 ∨ width = 4 ∧ off % 4 = 0 ∧ off < 0x100 ∨ width = 1 ∧ off < 0x100) →
    s.during = [[.hostWrite (s.params.tcbBase + off) width v]] →
    exec .nop s = .next { s.endingOk with during := [], ovr := true }

/-- A host access outside the contract records HOST_REFUSED and has no other effect (20_memory.md R53). -/
def Obligations.UnadmittedAccessRefused : Prop :=
  ∀ (s : State) (addr width : Nat) (v : Word) (rest : List Input), s.inReset = false →
    ¬ (s.params.tcbBase ≤ addr ∧ (width = 1 ∧ addr - s.params.tcbBase < 0x200
      ∨ width = 4 ∧ (addr - s.params.tcbBase) % 4 = 0 ∧ addr - s.params.tcbBase < 0x400)) →
    (s.inputs = .hostWrite addr width v :: rest →
      step s = .next { s with inputs := rest, faults := { s.faults with hostRefused := true } })
    ∧ (s.inputs = .hostRead addr width :: rest →
      step s = .next { s with inputs := rest, faults := { s.faults with hostRefused := true } })

/-- What an admitted host write does while no command is started. TBUF is little-endian: a word written at a multiple of 4
stores its bytes lowest first and a read of it returns the word; a 1-byte write, the access of `.tbuf`, stores its byte; no
other byte of memory and nothing else changes (20_memory.md R51, R52, R53; 30_encoding.md R83). A write of RBUF, STATUS,
RESULT, EVENT, RSSI, SNR, FLAGS or a reserved offset changes nothing, BUSY or not (R51; 10_state.md R24, R26 to R30, R32).
-/
def Obligations.HostWrites : Prop :=
  (∀ (s : State) (off : Nat) (v : Word) (rest : List Input), off % 4 = 0 → off < 0x100 → s.inReset = false →
    s.busy = false →
    s.inputs = .hostWrite (s.params.tcbBase + off) 4 v :: .hostRead (s.params.tcbBase + off) 4 :: rest →
    ∃ t u, step s = .next t ∧ step t = .next u ∧ u.rdata = v
      ∧ (∀ k, k < 4 → t.mem.read (off + k) = some (v.extractLsb' (8 * k) 8))
      ∧ (∀ a, ¬ (off ≤ a ∧ a < off + 4) → t.mem.read a = s.mem.read a)
      ∧ t = { s with inputs := .hostRead (s.params.tcbBase + off) 4 :: rest, mem := t.mem })
  ∧ (∀ (s : State) (off : Nat) (v : Word) (rest : List Input), off < 0x100 → s.inReset = false → s.busy = false →
    s.inputs = .hostWrite (s.params.tcbBase + off) 1 v :: rest →
    ∃ t, step s = .next t ∧ t.mem.read off = some (v.extractLsb' 0 8) ∧ (∀ a, a ≠ off → t.mem.read a = s.mem.read a)
      ∧ t = { s with inputs := rest, mem := t.mem })
  ∧ ∀ (s : State) (off width : Nat) (v : Word) (rest : List Input), s.inReset = false →
    s.inputs = .hostWrite (s.params.tcbBase + off) width v :: rest →
    (width = 1 ∧ 0x100 ≤ off ∧ off < 0x200 ∨ width = 4 ∧ off % 4 = 0 ∧ 0x100 ≤ off ∧ off < 0x400 ∧ off ≠ 0x200) →
    step s = .next { s with inputs := rest }

/-- Host reads have no side effect on the block: an admitted read changes the data returned and the count of free values,
and nothing else (20_memory.md R53). Written bytes of TBUF, and of RBUF while BUSY = 0, are returned lowest offset first,
the rest of the word 0 (R51, R52; that a 1-byte read is returned in the low byte is log 15). A read of CMD or STATUS is
always exact; while BUSY = 0 so is one of every other register; a reserved offset reads 0 (R51). -/
def Obligations.HostReads : Prop :=
  ∀ (s : State) (off width : Nat) (rest : List Input),
    s.inputs = .hostRead (s.params.tcbBase + off) width :: rest → s.inReset = false →
    (width = 1 ∧ off < 0x200 ∨ width = 4 ∧ off % 4 = 0 ∧ off < 0x400) →
    ∃ data draws, step s = .next { s with inputs := rest, rdata := data, draws := draws }
      ∧ (∀ bs : List Byte, bs.length = width → off < 0x100 ∨ off < 0x200 ∧ s.busy = false →
        (∀ k (h : k < bs.length), s.mem.read (off + k) = some bs[k]) →
        ∀ k, k < 4 → data.extractLsb' (8 * k) 8 = bs.getD k 0)
      ∧ (width = 4 → off = 0x200 → data = s.cmd) ∧ (width = 4 → off = 0x204 → data = s.statusWord)
      ∧ (s.busy = false →
        (off = 0x208 → data = s.resultWord) ∧ (off = 0x20C → data = s.eventWord) ∧ (off = 0x210 → data = s.rssi)
          ∧ (off = 0x214 → data = s.snr) ∧ (off = 0x218 → data = s.flagsWord))
      ∧ (0x21C ≤ off → data = 0)

/-- The fields of STATUS, EVENT and FLAGS stand where R26, R28 and R30 put them, and every other bit reads 0 (R24, R27); the
numbers they hold are those of 60_exceptions.md R201 (ERR), R26 (CAUSE), R22 (TAG) and R23 (the flags). -/
def Obligations.HostRegisterFields : Prop :=
  ([ErrCode.ok, .busError, .verifyError, .modeError, .illegalCmd, .unsupportedFrequency, .unsupportedSf].map ErrCode.code
      = [0, 1, 2, 3, 4, 5, 6])
  ∧ ([Cause.none, .bus, .verify, .wrongMode].map Cause.code = [0, 1, 2, 3])
  ∧ ([EventTag.none, .plhdDone, .rxDone, .rxCrcError, .rxTimeout, .txDone].map EventTag.code = [0, 1, 2, 3, 4, 5])
  ∧ ([Flag.idle, .txDone, .rxDone, .rxTimeout, .rxErr, .plhdRxDone].map Flag.code = [0, 1, 2, 3, 4, 5])
  ∧ ∀ s : State,
    s.statusWord.getLsbD 0 = s.busy ∧ s.statusWord.getLsbD 1 = s.irqPend ∧ s.statusWord.getLsbD 2 = s.ovr
      ∧ s.statusWord.getLsbD 3 = false ∧ (s.statusWord.extractLsb' 4 4).toNat = s.err.code
      ∧ s.statusWord.extractLsb' 8 4 = s.stepIx ∧ (s.statusWord.extractLsb' 12 4).toNat = s.cause.code
      ∧ s.statusWord.extractLsb' 16 16 = 0
      ∧ s.resultWord.extractLsb' 0 16 = s.result ∧ s.resultWord.extractLsb' 16 16 = 0
      ∧ (s.eventWord.extractLsb' 0 3).toNat = s.eventTag.code ∧ s.eventWord.extractLsb' 3 5 = 0
      ∧ s.eventWord.extractLsb' 8 8 = s.eventLen ∧ s.eventWord.extractLsb' 16 16 = 0
      ∧ (s.flagsWord.extractLsb' 0 4).toNat = s.rxFlag.code ∧ (s.flagsWord.extractLsb' 4 4).toNat = s.txFlag.code
      ∧ s.flagsWord.extractLsb' 8 24 = 0

end
end

