-- ==== Sys2Proof/Laws/Fields.lean ====
section
/-! SUPPORT. What sensible parameters give, and the bits of the page-select field and of the fields of the mode-control
register: what an update writes, what it keeps, and which mode is decoded afterwards. -/

namespace Sys2Proof.Machine

theorem maskAt_bit {pos w k : Nat} (hw : w ≤ 8) (hp : pos ≤ 8) (hk : k < 8) :
    (maskAt pos w).getLsbD k = decide (pos ≤ k ∧ k < pos + w) := by
  have h : ∀ w < 9, ∀ pos < 9, ∀ k < 8, (maskAt pos w).getLsbD k = decide (pos ≤ k ∧ k < pos + w) := by decide
  exact h w (by omega) pos (by omega) k hk

theorem pageMask_bit (s : Fin 7) {k : Nat} (hk : k < 8) :
    (0b11#8 <<< s.val).getLsbD k = decide (s.val ≤ k ∧ k < s.val + 2) := by
  have h : ∀ s : Fin 7, ∀ k < 8, (0b11#8 <<< s.val).getLsbD k = decide (s.val ≤ k ∧ k < s.val + 2) := by decide
  exact h s k hk

/-- Every bit of an updated system-control byte. -/
theorem setPageField_bit (p : Params) (v : Byte) (pg : Page) {k : Nat} (hk : k < 8) :
    (setPageField p v pg).getLsbD k =
      if p.pageShift.val ≤ k ∧ k < p.pageShift.val + 2 then pg.getLsbD (k - p.pageShift.val) else v.getLsbD k := by
  simp only [setPageField, BitVec.getLsbD_or, BitVec.getLsbD_and, BitVec.getLsbD_not, pageMask_bit _ hk,
    BitVec.getLsbD_shiftLeft, BitVec.getLsbD_setWidth, hk, decide_true, Bool.true_and]
  split
  · next h =>
    have h1 : ¬ k < p.pageShift.val := by omega
    have h2 : k - p.pageShift.val < 8 := by omega
    simp [h, h1, h2]
  · next h =>
    have h0 : decide (p.pageShift.val ≤ k ∧ k < p.pageShift.val + 2) = false := decide_eq_false h
    rw [h0, Bool.not_false, Bool.and_true, Bool.or_eq_left_iff_imp]
    intro h3
    simp only [Bool.and_eq_true, Bool.not_eq_true', decide_eq_false_iff_not, decide_eq_true_eq] at h3
    have := BitVec.lt_of_getLsbD h3.2.2
    omega

/-- The page written is the page read. -/
theorem pageField_setPageField (p : Params) (v : Byte) (pg : Page) : pageField p (setPageField p v pg) = pg := by
  apply BitVec.eq_of_getLsbD_eq
  intro k hk
  have hs := p.pageShift.isLt
  simp only [pageField, BitVec.getLsbD_setWidth, hk, decide_true, Bool.true_and, BitVec.getLsbD_ushiftRight]
  rw [setPageField_bit p v pg (by omega), if_pos (by omega), Nat.add_sub_cancel_left]

/-- Every bit of a byte with one field replaced. -/
theorem insertAt_bit {pos w k : Nat} (hp : pos + w ≤ 8) (v x : Byte) (hk : k < 8) :
    (insertAt v pos w x).getLsbD k = if pos ≤ k ∧ k < pos + w then x.getLsbD (k - pos) else v.getLsbD k := by
  simp only [insertAt, BitVec.getLsbD_or, BitVec.getLsbD_and, BitVec.getLsbD_not,
    maskAt_bit (show w ≤ 8 by omega) (show pos ≤ 8 by omega) hk, BitVec.getLsbD_shiftLeft, hk, decide_true, Bool.true_and]
  split
  · next h =>
    have h1 : ¬ k < pos := by omega
    simp [h, h1]
  · next h => simp [h]

/-- Every bit of an extracted field. -/
theorem fieldAt_bit {pos w k : Nat} (hp : pos + w ≤ 8) (v : Byte) :
    (fieldAt v pos w).getLsbD k = (decide (k < w) && v.getLsbD (pos + k)) := by
  simp only [fieldAt, BitVec.getLsbD_ushiftRight, BitVec.getLsbD_and]
  by_cases h : pos + k < 8
  · rw [maskAt_bit (by omega) (by omega) h, Bool.and_comm]
    congr 1
    simp
  · rw [BitVec.getLsbD_of_ge v (pos + k) (by omega)]
    simp

/-- A field that fits, written and read back. -/
theorem fieldAt_insertAt {pos w : Nat} (hp : pos + w ≤ 8) (v x : Byte) (hx : x.toNat < 2 ^ w) :
    fieldAt (insertAt v pos w x) pos w = x := by
  apply BitVec.eq_of_getLsbD_eq
  intro k hk
  rw [fieldAt_bit hp _]
  by_cases h : k < w
  · rw [insertAt_bit hp _ _ (by omega), if_pos (by omega), Nat.add_sub_cancel_left]
    simp [h]
  · have : x.getLsbD k = false := by
      rw [BitVec.getLsbD, Nat.testBit_lt_two_pow (Nat.lt_of_lt_of_le hx (Nat.pow_le_pow_right (by decide) (by omega)))]
    simp [h, this]

/-- A field outside the one written reads as before. -/
theorem fieldAt_insertAt_other {pos w pos' w' : Nat} (hp : pos + w ≤ 8) (hp' : pos' + w' ≤ 8)
    (hd : pos + w ≤ pos' ∨ pos' + w' ≤ pos) (v x : Byte) : fieldAt (insertAt v pos w x) pos' w' = fieldAt v pos' w' := by
  apply BitVec.eq_of_getLsbD_eq
  intro k hk
  rw [fieldAt_bit hp' _, fieldAt_bit hp' _]
  by_cases h : k < w'
  · rw [insertAt_bit hp _ _ (by omega), if_neg (by omega)]
  · simp [h]

/-- The parts of a sensible parameter set. -/
theorem Params.wf_parts {p : Params} (h : p.wf = true) :
    p.codesOk = true ∧ p.fieldsOk = true ∧ p.addrsOk = true ∧ p.regsOk = true := by
  simp only [Params.wf, Bool.and_eq_true] at h
  exact ⟨h.1.1.1, h.1.1.2, h.1.2, h.2⟩

theorem Params.mode_fits {p : Params} (h : p.wf = true) : p.modePos + p.modeW ≤ 8 := by
  have := (Params.wf_parts h).2.1
  simp only [Params.fieldsOk, Bool.and_eq_true, decide_eq_true_eq] at this
  exact this.1.1.1.2

theorem Field.fits {p : Params} (h : p.wf = true) (f : Field) : f.pos p + f.width p ≤ 8 := by
  cases f with
  | mode => exact Params.mode_fits h
  | txsub => have := p.txsubPos.isLt; simp only [Field.pos, Field.width]; omega
  | rxsub => have := p.rxsubPos.isLt; simp only [Field.pos, Field.width]; omega

/-- The other two fields lie outside MODE. -/
theorem Field.apart {p : Params} (h : p.wf = true) {f : Field} (hf : f ≠ .mode) :
    f.pos p + f.width p ≤ p.modePos ∨ p.modePos + p.modeW ≤ f.pos p := by
  have := (Params.wf_parts h).2.1
  simp only [Params.fieldsOk, Bool.and_eq_true, Bool.or_eq_true, decide_eq_true_eq] at this
  cases f with
  | mode => exact absurd rfl hf
  | txsub => simp only [Field.pos, Field.width]; omega
  | rxsub => simp only [Field.pos, Field.width]; omega

theorem modeCode_fits {p : Params} (h : p.wf = true) (m : Mode) : (modeCodeOf p m).toNat < 2 ^ p.modeW := by
  have := (Params.wf_parts h).1
  simp only [Params.codesOk, Bool.and_eq_true, List.all_eq_true, decide_eq_true_eq] at this
  have h1 := this.1.1.1
  apply h1
  cases m <;> simp only [modeCodeOf, Vector.mem_toList_iff] <;> exact Vector.getElem_mem _

theorem modeCode_injective {p : Params} (h : p.wf = true) {m m2 : Mode} (he : modeCodeOf p m = modeCodeOf p m2) : m = m2 := by
  have := (Params.wf_parts h).1
  simp only [Params.codesOk, Bool.and_eq_true, decide_eq_true_eq] at this
  have hn := this.1.1.2
  have hi : ∀ i j (hi : i < 7) (hj : j < 7), p.modeCode[i] = p.modeCode[j] → i = j := by
    intro i j hi hj hij
    exact (List.Nodup.getElem_inj_iff hn (hi := by simpa using hi) (hj := by simpa using hj)).1 (by simpa using hij)
  cases m <;> cases m2 <;> first | rfl | (exfalso; revert he; intro he; exact absurd (hi _ _ _ _ he) (by decide))

/-- The mode whose code the field holds is the mode decoded. -/
theorem decodeMode_of_field {p : Params} (h : p.wf = true) {v : Byte} {m : Mode}
    (hv : fieldAt v p.modePos p.modeW = modeCodeOf p m) : decodeMode p v = some m := by
  have hfind : ∀ l : List Mode, m ∈ l → l.find? (fun m2 => modeCodeOf p m2 == modeCodeOf p m) = some m := by
    intro l
    induction l with
    | nil => intro hm; cases hm
    | cons a l ih =>
      intro hm
      by_cases ha : modeCodeOf p a = modeCodeOf p m
      · rw [List.find?_cons_of_pos (by simp [ha]), modeCode_injective h ha]
      · rw [List.find?_cons_of_neg (by simp [ha])]
        rcases List.mem_cons.1 hm with rfl | hm
        · exact absurd rfl ha
        · exact ih hm
  unfold decodeMode
  rw [hv]
  exact hfind _ (by cases m <;> decide)

/-- A mode written is the mode decoded. -/
theorem decodeMode_setMode {p : Params} (h : p.wf = true) (v : Byte) (m : Mode) :
    decodeMode p (setFieldValue p .mode v (modeCodeOf p m)) = some m :=
  decodeMode_of_field h (fieldAt_insertAt (Params.mode_fits h) _ _ (modeCode_fits h m))

/-- A sub-mode update leaves the mode. -/
theorem decodeMode_setOther {p : Params} (h : p.wf = true) {f : Field} (hf : f ≠ .mode) (v x : Byte) :
    decodeMode p (setFieldValue p f v x) = decodeMode p v := by
  unfold decodeMode setFieldValue
  rw [fieldAt_insertAt_other (Field.fits h f) (Params.mode_fits h) (Field.apart h hf)]

theorem legal_self (m : Option Mode) : legal m m = true := by
  simp only [legal, beq_self_eq_true, Bool.true_or]

theorem Params.sysctl_ne_fifo {p : Params} (h : p.wf = true) : p.sysctlAddr ≠ p.fifoAddr := by
  have := (Params.wf_parts h).2.2.1
  simp only [Params.addrsOk, Bool.and_eq_true, bne_iff_ne] at this
  exact this.1

/-- The registers the block gives a meaning to are plain. -/
theorem Params.plain_of_wf {p : Params} (h : p.wf = true) :
    (modectl p).plain p ∧ p.txlen.plain p ∧ p.rxlen.plain p ∧ p.irqReg.plain p
      ∧ (⟨p.irqClr.page, p.irqClr.addr⟩ : RegAt).plain p ∧ (⟨p.xtalTrim0.page, p.xtalTrim0.addr⟩ : RegAt).plain p
      ∧ (⟨p.xtalTrim1.page, p.xtalTrim1.addr⟩ : RegAt).plain p := by
  have := (Params.wf_parts h).2.2.1
  simp only [Params.addrsOk, Bool.and_eq_true, bne_iff_ne, List.all_cons, List.all_nil] at this
  unfold RegAt.plain modectl
  tauto

end Sys2Proof.Machine
end

