-- ==== Sys2Proof/Laws/Memory.lean ====
section
/-! SUPPORT. The laws of the memory operations: a read after a write, what a write leaves alone, ranges, and that every
operation keeps the canonical form. -/

namespace Sys2Proof.Machine

/-! ## Reads after writes -/

@[simp] theorem Memory.read_nil (a : Nat) : Memory.read [] a = none := rfl

theorem Memory.read_write_same (m : Memory) (a : Nat) (v : Byte) : (m.write a v).read a = some v := by
  induction m with
  | nil => simp [Memory.write, Memory.read]
  | cons c m ih =>
    obtain ⟨k, b⟩ := c
    simp only [Memory.write]
    split
    · simp [Memory.read]
    · split
      · simp [Memory.read]
      · rename_i h1 h2
        have : ¬ k = a := fun h => h2 h.symm
        simp [Memory.read, this, ih]

theorem Memory.read_write_other (m : Memory) {a a' : Nat} (v : Byte) (h : a' ≠ a) :
    (m.write a v).read a' = m.read a' := by
  induction m with
  | nil => simp [Memory.write, Memory.read, h.symm]
  | cons c m ih =>
    obtain ⟨k, b⟩ := c
    simp only [Memory.write]
    split
    · simp [Memory.read, h.symm]
    · split
      · rename_i h2
        subst h2
        simp [Memory.read, h.symm]
      · simp only [Memory.read, ih]

theorem Memory.read_write (m : Memory) (a a' : Nat) (v : Byte) :
    (m.write a v).read a' = if a' = a then some v else m.read a' := by
  split
  · next h => rw [h, read_write_same]
  · next h => exact read_write_other m v h

theorem Memory.read_forget (m : Memory) (drop : Nat → Bool) (a : Nat) :
    (m.forget drop).read a = if drop a then none else m.read a := by
  unfold Memory.forget
  induction m with
  | nil => simp [Memory.read]
  | cons c m ih =>
    obtain ⟨k, b⟩ := c
    by_cases hk : drop k
    · simp only [List.filter, hk, Bool.not_true]
      rw [ih]
      simp only [Memory.read]
      by_cases h : k = a
      · subst h; simp [hk]
      · simp [h]
    · simp only [List.filter, hk, Bool.not_false, Memory.read]
      by_cases h : k = a
      · subst h; simp [hk]
      · simp [h, ih]

/-! ## Ranges -/

theorem Memory.read_writeList_outside (bs : List Byte) (m : Memory) (a a' : Nat)
    (h : ¬ (a ≤ a' ∧ a' < a + bs.length)) : (m.writeList a bs).read a' = m.read a' := by
  induction bs generalizing m a with
  | nil => rfl
  | cons b bs ih =>
    simp only [Memory.writeList]
    rw [ih _ _ (by simp only [List.length_cons] at h; omega), read_write_other]
    simp only [List.length_cons] at h
    omega

theorem Memory.read_writeList_inside (bs : List Byte) (m : Memory) (a k : Nat) (h : k < bs.length) :
    (m.writeList a bs).read (a + k) = some bs[k] := by
  induction bs generalizing m a k with
  | nil => simp at h
  | cons b bs ih =>
    simp only [Memory.writeList]
    cases k with
    | zero => rw [read_writeList_outside _ _ _ _ (by omega)]; simp [read_write_same]
    | succ k =>
      have := ih (m.write a b) (a + 1) k (by simpa using h)
      rw [show a + (k + 1) = a + 1 + k by omega]
      simpa using this

theorem Memory.readRange_length {m : Memory} {a n : Nat} {bs : List Byte} (h : m.readRange a n = some bs) :
    bs.length = n := by
  induction n generalizing a bs with
  | zero => simp [Memory.readRange] at h; simp [h]
  | succ n ih =>
    simp only [Memory.readRange] at h
    split at h
    · next b bs' _ hb => simp at h; subst h; simp [ih hb]
    · simp at h

/-- A range reads as a list exactly when every byte of it does. -/
theorem Memory.readRange_eq_some (m : Memory) (a : Nat) (bs : List Byte) :
    m.readRange a bs.length = some bs ↔ ∀ k (h : k < bs.length), m.read (a + k) = some bs[k] := by
  induction bs generalizing a with
  | nil => simp [Memory.readRange]
  | cons b bs ih =>
    simp only [List.length_cons, Memory.readRange]
    constructor
    · intro h k hk
      split at h
      · next b' bs' hb hbs =>
        simp at h
        obtain ⟨rfl, rfl⟩ := h
        cases k with
        | zero => simpa using hb
        | succ k =>
          have := (ih (a + 1)).1 hbs k (by simpa using hk)
          rw [show a + (k + 1) = a + 1 + k by omega]
          simpa using this
      · simp at h
    · intro h
      have h0 := h 0 (by simp)
      have h1 := (ih (a + 1)).2 (fun k hk => by
        have := h (k + 1) (by simpa using hk)
        rw [show a + 1 + k = a + (k + 1) by omega]
        simpa using this)
      simp at h0
      simp [h0, h1]

/-- A range with an unlisted byte reads as none. -/
theorem Memory.readRange_eq_none (m : Memory) (a n : Nat) :
    m.readRange a n = none ↔ ∃ k < n, m.read (a + k) = none := by
  induction n generalizing a with
  | zero => simp [Memory.readRange]
  | succ n ih =>
    simp only [Memory.readRange]
    constructor
    · intro h
      cases hb : m.read a with
      | none => exact ⟨0, by omega, by simpa using hb⟩
      | some b =>
        cases hbs : m.readRange (a + 1) n with
        | none =>
          obtain ⟨k, hk, hr⟩ := (ih (a + 1)).1 hbs
          exact ⟨k + 1, by omega, by rw [show a + (k + 1) = a + 1 + k by omega]; exact hr⟩
        | some bs => simp [hb, hbs] at h
    · rintro ⟨k, hk, hr⟩
      cases k with
      | zero => simp at hr; simp [hr]
      | succ k =>
        have := (ih (a + 1)).2 ⟨k, by omega, by rw [show a + 1 + k = a + (k + 1) by omega]; exact hr⟩
        simp [this]

/-! ## The canonical form -/

theorem Memory.wf_iff (m : Memory) : m.wf = true ↔ m.Pairwise (fun c d => c.1 < d.1) := by
  induction m with
  | nil => simp [Memory.wf]
  | cons c m ih =>
    cases m with
    | nil => simp [Memory.wf]
    | cons d m =>
      obtain ⟨k, b⟩ := c
      obtain ⟨k', b'⟩ := d
      simp only [Memory.wf, Bool.and_eq_true, decide_eq_true_eq, ih, List.pairwise_cons]
      constructor
      · rintro ⟨h, h1, h2⟩
        refine ⟨?_, h1, h2⟩
        intro x hx
        rcases List.mem_cons.1 hx with rfl | hx
        · exact h
        · exact lt_trans h (h1 x hx)
      · rintro ⟨h, h1, h2⟩
        exact ⟨h _ List.mem_cons_self, h1, h2⟩

theorem Memory.mem_write {m : Memory} {a : Nat} {v : Byte} {c : Host.Cell} (h : c ∈ m.write a v) :
    c = (a, v) ∨ c ∈ m := by
  induction m with
  | nil => simpa [Memory.write] using h
  | cons d m ih =>
    obtain ⟨k, b⟩ := d
    simp only [Memory.write] at h
    split at h
    · simpa using h
    · split at h
      · rcases List.mem_cons.1 h with h | h
        · exact .inl h
        · exact .inr (List.mem_cons_of_mem _ h)
      · rcases List.mem_cons.1 h with h | h
        · exact .inr (h ▸ List.mem_cons_self)
        · rcases ih h with h | h
          · exact .inl h
          · exact .inr (List.mem_cons_of_mem _ h)

theorem Memory.wf_write {m : Memory} (h : m.wf = true) (a : Nat) (v : Byte) : (m.write a v).wf = true := by
  rw [wf_iff] at h ⊢
  induction m with
  | nil => simp [Memory.write]
  | cons d m ih =>
    obtain ⟨k, b⟩ := d
    rw [List.pairwise_cons] at h
    simp only [Memory.write]
    split
    · next hlt =>
      refine List.pairwise_cons.2 ⟨?_, List.pairwise_cons.2 h⟩
      intro x hx
      rcases List.mem_cons.1 hx with rfl | hx
      · exact hlt
      · exact lt_trans hlt (h.1 x hx)
    · split
      · next heq => subst heq; exact List.pairwise_cons.2 ⟨h.1, h.2⟩
      · next h1 h2 =>
        refine List.pairwise_cons.2 ⟨?_, ih h.2⟩
        intro x hx
        rcases mem_write hx with rfl | hx
        · simp only; omega
        · exact h.1 x hx

theorem Memory.wf_writeList {m : Memory} (h : m.wf = true) (a : Nat) (bs : List Byte) :
    (m.writeList a bs).wf = true := by
  induction bs generalizing m a with
  | nil => exact h
  | cons b bs ih => exact ih (wf_write h a b) (a + 1)

theorem Memory.wf_forget {m : Memory} (h : m.wf = true) (drop : Nat → Bool) : (m.forget drop).wf = true := by
  rw [wf_iff] at h ⊢
  exact h.filter _

/-- The memories of the reset state are in the canonical form. -/
theorem State.reset_wf : State.reset.mem.wf = true ∧ State.reset.chip.regs.wf = true := ⟨rfl, rfl⟩

end Sys2Proof.Machine
end

