-- ==== Sys2Proof/Laws/State.lean ====
section
/-! SUPPORT. One lemma per field per update of the state, true by unfolding, so that no proof unfolds a record update. -/

namespace Sys2Proof.Machine

variable (s : State)

/-! `State.logged` -/

@[simp] theorem State.logged_params (e : BusEvent) : (s.logged e).params = s.params := rfl
@[simp] theorem State.logged_cmd (e : BusEvent) : (s.logged e).cmd = s.cmd := rfl
@[simp] theorem State.logged_busy (e : BusEvent) : (s.logged e).busy = s.busy := rfl
@[simp] theorem State.logged_irqPend (e : BusEvent) : (s.logged e).irqPend = s.irqPend := rfl
@[simp] theorem State.logged_ovr (e : BusEvent) : (s.logged e).ovr = s.ovr := rfl
@[simp] theorem State.logged_err (e : BusEvent) : (s.logged e).err = s.err := rfl
@[simp] theorem State.logged_stepIx (e : BusEvent) : (s.logged e).stepIx = s.stepIx := rfl
@[simp] theorem State.logged_cause (e : BusEvent) : (s.logged e).cause = s.cause := rfl
@[simp] theorem State.logged_result (e : BusEvent) : (s.logged e).result = s.result := rfl
@[simp] theorem State.logged_eventTag (e : BusEvent) : (s.logged e).eventTag = s.eventTag := rfl
@[simp] theorem State.logged_eventLen (e : BusEvent) : (s.logged e).eventLen = s.eventLen := rfl
@[simp] theorem State.logged_rssi (e : BusEvent) : (s.logged e).rssi = s.rssi := rfl
@[simp] theorem State.logged_snr (e : BusEvent) : (s.logged e).snr = s.snr := rfl
@[simp] theorem State.logged_rxFlag (e : BusEvent) : (s.logged e).rxFlag = s.rxFlag := rfl
@[simp] theorem State.logged_txFlag (e : BusEvent) : (s.logged e).txFlag = s.txFlag := rfl
@[simp] theorem State.logged_mem (e : BusEvent) : (s.logged e).mem = s.mem := rfl
@[simp] theorem State.logged_pcache (e : BusEvent) : (s.logged e).pcache = s.pcache := rfl
@[simp] theorem State.logged_irqPrev (e : BusEvent) : (s.logged e).irqPrev = s.irqPrev := rfl
@[simp] theorem State.logged_seq (e : BusEvent) : (s.logged e).seq = s.seq := rfl
@[simp] theorem State.logged_inReset (e : BusEvent) : (s.logged e).inReset = s.inReset := rfl
@[simp] theorem State.logged_tcxo (e : BusEvent) : (s.logged e).tcxo = s.tcxo := rfl
@[simp] theorem State.logged_chipMode (e : BusEvent) : (s.logged e).chipMode = s.chipMode := rfl
@[simp] theorem State.logged_faults (e : BusEvent) : (s.logged e).faults = s.faults := rfl
@[simp] theorem State.logged_chip (e : BusEvent) : (s.logged e).chip = s.chip := rfl
@[simp] theorem State.logged_rdata (e : BusEvent) : (s.logged e).rdata = s.rdata := rfl
@[simp] theorem State.logged_log (e : BusEvent) : (s.logged e).log = s.log ++ [e] := rfl
@[simp] theorem State.logged_draws (e : BusEvent) : (s.logged e).draws = s.draws := rfl
@[simp] theorem State.logged_inputs (e : BusEvent) : (s.logged e).inputs = s.inputs := rfl
@[simp] theorem State.logged_during (e : BusEvent) : (s.logged e).during = s.during := rfl

/-! `State.advance` -/

@[simp] theorem State.advance_params : (s.advance).params = s.params := rfl
@[simp] theorem State.advance_cmd : (s.advance).cmd = s.cmd := rfl
@[simp] theorem State.advance_busy : (s.advance).busy = s.busy := rfl
@[simp] theorem State.advance_irqPend : (s.advance).irqPend = s.irqPend := rfl
@[simp] theorem State.advance_ovr : (s.advance).ovr = s.ovr := rfl
@[simp] theorem State.advance_err : (s.advance).err = s.err := rfl
@[simp] theorem State.advance_stepIx : (s.advance).stepIx = s.stepIx := rfl
@[simp] theorem State.advance_cause : (s.advance).cause = s.cause := rfl
@[simp] theorem State.advance_result : (s.advance).result = s.result := rfl
@[simp] theorem State.advance_eventTag : (s.advance).eventTag = s.eventTag := rfl
@[simp] theorem State.advance_eventLen : (s.advance).eventLen = s.eventLen := rfl
@[simp] theorem State.advance_rssi : (s.advance).rssi = s.rssi := rfl
@[simp] theorem State.advance_snr : (s.advance).snr = s.snr := rfl
@[simp] theorem State.advance_rxFlag : (s.advance).rxFlag = s.rxFlag := rfl
@[simp] theorem State.advance_txFlag : (s.advance).txFlag = s.txFlag := rfl
@[simp] theorem State.advance_mem : (s.advance).mem = s.mem := rfl
@[simp] theorem State.advance_pcache : (s.advance).pcache = s.pcache := rfl
@[simp] theorem State.advance_irqPrev : (s.advance).irqPrev = s.irqPrev := rfl
@[simp] theorem State.advance_seq : (s.advance).seq = s.seq.map (· + 1) := rfl
@[simp] theorem State.advance_inReset : (s.advance).inReset = s.inReset := rfl
@[simp] theorem State.advance_tcxo : (s.advance).tcxo = s.tcxo := rfl
@[simp] theorem State.advance_chipMode : (s.advance).chipMode = s.chipMode := rfl
@[simp] theorem State.advance_faults : (s.advance).faults = s.faults := rfl
@[simp] theorem State.advance_chip : (s.advance).chip = s.chip := rfl
@[simp] theorem State.advance_rdata : (s.advance).rdata = s.rdata := rfl
@[simp] theorem State.advance_log : (s.advance).log = s.log := rfl
@[simp] theorem State.advance_draws : (s.advance).draws = s.draws := rfl
@[simp] theorem State.advance_inputs : (s.advance).inputs = s.inputs := rfl
@[simp] theorem State.advance_during : (s.advance).during = s.during := rfl

/-! `State.recordIllegal` -/

@[simp] theorem State.recordIllegal_params : (s.recordIllegal).params = s.params := rfl
@[simp] theorem State.recordIllegal_cmd : (s.recordIllegal).cmd = s.cmd := rfl
@[simp] theorem State.recordIllegal_busy : (s.recordIllegal).busy = s.busy := rfl
@[simp] theorem State.recordIllegal_irqPend : (s.recordIllegal).irqPend = s.irqPend := rfl
@[simp] theorem State.recordIllegal_ovr : (s.recordIllegal).ovr = s.ovr := rfl
@[simp] theorem State.recordIllegal_err : (s.recordIllegal).err = s.err := rfl
@[simp] theorem State.recordIllegal_stepIx : (s.recordIllegal).stepIx = s.stepIx := rfl
@[simp] theorem State.recordIllegal_cause : (s.recordIllegal).cause = s.cause := rfl
@[simp] theorem State.recordIllegal_result : (s.recordIllegal).result = s.result := rfl
@[simp] theorem State.recordIllegal_eventTag : (s.recordIllegal).eventTag = s.eventTag := rfl
@[simp] theorem State.recordIllegal_eventLen : (s.recordIllegal).eventLen = s.eventLen := rfl
@[simp] theorem State.recordIllegal_rssi : (s.recordIllegal).rssi = s.rssi := rfl
@[simp] theorem State.recordIllegal_snr : (s.recordIllegal).snr = s.snr := rfl
@[simp] theorem State.recordIllegal_rxFlag : (s.recordIllegal).rxFlag = s.rxFlag := rfl
@[simp] theorem State.recordIllegal_txFlag : (s.recordIllegal).txFlag = s.txFlag := rfl
@[simp] theorem State.recordIllegal_mem : (s.recordIllegal).mem = s.mem := rfl
@[simp] theorem State.recordIllegal_pcache : (s.recordIllegal).pcache = s.pcache := rfl
@[simp] theorem State.recordIllegal_irqPrev : (s.recordIllegal).irqPrev = s.irqPrev := rfl
@[simp] theorem State.recordIllegal_seq : (s.recordIllegal).seq = s.seq := rfl
@[simp] theorem State.recordIllegal_inReset : (s.recordIllegal).inReset = s.inReset := rfl
@[simp] theorem State.recordIllegal_tcxo : (s.recordIllegal).tcxo = s.tcxo := rfl
@[simp] theorem State.recordIllegal_chipMode : (s.recordIllegal).chipMode = s.chipMode := rfl
@[simp] theorem State.recordIllegal_faults : (s.recordIllegal).faults = { s.faults with illegalTransition := true } := rfl
@[simp] theorem State.recordIllegal_chip : (s.recordIllegal).chip = s.chip := rfl
@[simp] theorem State.recordIllegal_rdata : (s.recordIllegal).rdata = s.rdata := rfl
@[simp] theorem State.recordIllegal_log : (s.recordIllegal).log = s.log := rfl
@[simp] theorem State.recordIllegal_draws : (s.recordIllegal).draws = s.draws := rfl
@[simp] theorem State.recordIllegal_inputs : (s.recordIllegal).inputs = s.inputs := rfl
@[simp] theorem State.recordIllegal_during : (s.recordIllegal).during = s.during := rfl

/-! `State.recordUnwritten` -/

@[simp] theorem State.recordUnwritten_params : (s.recordUnwritten).params = s.params := rfl
@[simp] theorem State.recordUnwritten_cmd : (s.recordUnwritten).cmd = s.cmd := rfl
@[simp] theorem State.recordUnwritten_busy : (s.recordUnwritten).busy = s.busy := rfl
@[simp] theorem State.recordUnwritten_irqPend : (s.recordUnwritten).irqPend = s.irqPend := rfl
@[simp] theorem State.recordUnwritten_ovr : (s.recordUnwritten).ovr = s.ovr := rfl
@[simp] theorem State.recordUnwritten_err : (s.recordUnwritten).err = s.err := rfl
@[simp] theorem State.recordUnwritten_stepIx : (s.recordUnwritten).stepIx = s.stepIx := rfl
@[simp] theorem State.recordUnwritten_cause : (s.recordUnwritten).cause = s.cause := rfl
@[simp] theorem State.recordUnwritten_result : (s.recordUnwritten).result = s.result := rfl
@[simp] theorem State.recordUnwritten_eventTag : (s.recordUnwritten).eventTag = s.eventTag := rfl
@[simp] theorem State.recordUnwritten_eventLen : (s.recordUnwritten).eventLen = s.eventLen := rfl
@[simp] theorem State.recordUnwritten_rssi : (s.recordUnwritten).rssi = s.rssi := rfl
@[simp] theorem State.recordUnwritten_snr : (s.recordUnwritten).snr = s.snr := rfl
@[simp] theorem State.recordUnwritten_rxFlag : (s.recordUnwritten).rxFlag = s.rxFlag := rfl
@[simp] theorem State.recordUnwritten_txFlag : (s.recordUnwritten).txFlag = s.txFlag := rfl
@[simp] theorem State.recordUnwritten_mem : (s.recordUnwritten).mem = s.mem := rfl
@[simp] theorem State.recordUnwritten_pcache : (s.recordUnwritten).pcache = s.pcache := rfl
@[simp] theorem State.recordUnwritten_irqPrev : (s.recordUnwritten).irqPrev = s.irqPrev := rfl
@[simp] theorem State.recordUnwritten_seq : (s.recordUnwritten).seq = s.seq := rfl
@[simp] theorem State.recordUnwritten_inReset : (s.recordUnwritten).inReset = s.inReset := rfl
@[simp] theorem State.recordUnwritten_tcxo : (s.recordUnwritten).tcxo = s.tcxo := rfl
@[simp] theorem State.recordUnwritten_chipMode : (s.recordUnwritten).chipMode = s.chipMode := rfl
@[simp] theorem State.recordUnwritten_faults : (s.recordUnwritten).faults = { s.faults with unwrittenRead := true } := rfl
@[simp] theorem State.recordUnwritten_chip : (s.recordUnwritten).chip = s.chip := rfl
@[simp] theorem State.recordUnwritten_rdata : (s.recordUnwritten).rdata = s.rdata := rfl
@[simp] theorem State.recordUnwritten_log : (s.recordUnwritten).log = s.log := rfl
@[simp] theorem State.recordUnwritten_draws : (s.recordUnwritten).draws = s.draws := rfl
@[simp] theorem State.recordUnwritten_inputs : (s.recordUnwritten).inputs = s.inputs := rfl
@[simp] theorem State.recordUnwritten_during : (s.recordUnwritten).during = s.during := rfl

/-! `State.recordRefused` -/

@[simp] theorem State.recordRefused_params : (s.recordRefused).params = s.params := rfl
@[simp] theorem State.recordRefused_cmd : (s.recordRefused).cmd = s.cmd := rfl
@[simp] theorem State.recordRefused_busy : (s.recordRefused).busy = s.busy := rfl
@[simp] theorem State.recordRefused_irqPend : (s.recordRefused).irqPend = s.irqPend := rfl
@[simp] theorem State.recordRefused_ovr : (s.recordRefused).ovr = s.ovr := rfl
@[simp] theorem State.recordRefused_err : (s.recordRefused).err = s.err := rfl
@[simp] theorem State.recordRefused_stepIx : (s.recordRefused).stepIx = s.stepIx := rfl
@[simp] theorem State.recordRefused_cause : (s.recordRefused).cause = s.cause := rfl
@[simp] theorem State.recordRefused_result : (s.recordRefused).result = s.result := rfl
@[simp] theorem State.recordRefused_eventTag : (s.recordRefused).eventTag = s.eventTag := rfl
@[simp] theorem State.recordRefused_eventLen : (s.recordRefused).eventLen = s.eventLen := rfl
@[simp] theorem State.recordRefused_rssi : (s.recordRefused).rssi = s.rssi := rfl
@[simp] theorem State.recordRefused_snr : (s.recordRefused).snr = s.snr := rfl
@[simp] theorem State.recordRefused_rxFlag : (s.recordRefused).rxFlag = s.rxFlag := rfl
@[simp] theorem State.recordRefused_txFlag : (s.recordRefused).txFlag = s.txFlag := rfl
@[simp] theorem State.recordRefused_mem : (s.recordRefused).mem = s.mem := rfl
@[simp] theorem State.recordRefused_pcache : (s.recordRefused).pcache = s.pcache := rfl
@[simp] theorem State.recordRefused_irqPrev : (s.recordRefused).irqPrev = s.irqPrev := rfl
@[simp] theorem State.recordRefused_seq : (s.recordRefused).seq = s.seq := rfl
@[simp] theorem State.recordRefused_inReset : (s.recordRefused).inReset = s.inReset := rfl
@[simp] theorem State.recordRefused_tcxo : (s.recordRefused).tcxo = s.tcxo := rfl
@[simp] theorem State.recordRefused_chipMode : (s.recordRefused).chipMode = s.chipMode := rfl
@[simp] theorem State.recordRefused_faults : (s.recordRefused).faults = { s.faults with hostRefused := true } := rfl
@[simp] theorem State.recordRefused_chip : (s.recordRefused).chip = s.chip := rfl
@[simp] theorem State.recordRefused_rdata : (s.recordRefused).rdata = s.rdata := rfl
@[simp] theorem State.recordRefused_log : (s.recordRefused).log = s.log := rfl
@[simp] theorem State.recordRefused_draws : (s.recordRefused).draws = s.draws := rfl
@[simp] theorem State.recordRefused_inputs : (s.recordRefused).inputs = s.inputs := rfl
@[simp] theorem State.recordRefused_during : (s.recordRefused).during = s.during := rfl

/-! `State.dropPage` -/

@[simp] theorem State.dropPage_params : (s.dropPage).params = s.params := rfl
@[simp] theorem State.dropPage_cmd : (s.dropPage).cmd = s.cmd := rfl
@[simp] theorem State.dropPage_busy : (s.dropPage).busy = s.busy := rfl
@[simp] theorem State.dropPage_irqPend : (s.dropPage).irqPend = s.irqPend := rfl
@[simp] theorem State.dropPage_ovr : (s.dropPage).ovr = s.ovr := rfl
@[simp] theorem State.dropPage_err : (s.dropPage).err = s.err := rfl
@[simp] theorem State.dropPage_stepIx : (s.dropPage).stepIx = s.stepIx := rfl
@[simp] theorem State.dropPage_cause : (s.dropPage).cause = s.cause := rfl
@[simp] theorem State.dropPage_result : (s.dropPage).result = s.result := rfl
@[simp] theorem State.dropPage_eventTag : (s.dropPage).eventTag = s.eventTag := rfl
@[simp] theorem State.dropPage_eventLen : (s.dropPage).eventLen = s.eventLen := rfl
@[simp] theorem State.dropPage_rssi : (s.dropPage).rssi = s.rssi := rfl
@[simp] theorem State.dropPage_snr : (s.dropPage).snr = s.snr := rfl
@[simp] theorem State.dropPage_rxFlag : (s.dropPage).rxFlag = s.rxFlag := rfl
@[simp] theorem State.dropPage_txFlag : (s.dropPage).txFlag = s.txFlag := rfl
@[simp] theorem State.dropPage_mem : (s.dropPage).mem = s.mem := rfl
@[simp] theorem State.dropPage_pcache : (s.dropPage).pcache = none := rfl
@[simp] theorem State.dropPage_irqPrev : (s.dropPage).irqPrev = s.irqPrev := rfl
@[simp] theorem State.dropPage_seq : (s.dropPage).seq = s.seq := rfl
@[simp] theorem State.dropPage_inReset : (s.dropPage).inReset = s.inReset := rfl
@[simp] theorem State.dropPage_tcxo : (s.dropPage).tcxo = s.tcxo := rfl
@[simp] theorem State.dropPage_chipMode : (s.dropPage).chipMode = s.chipMode := rfl
@[simp] theorem State.dropPage_faults : (s.dropPage).faults = s.faults := rfl
@[simp] theorem State.dropPage_chip : (s.dropPage).chip = s.chip := rfl
@[simp] theorem State.dropPage_rdata : (s.dropPage).rdata = s.rdata := rfl
@[simp] theorem State.dropPage_log : (s.dropPage).log = s.log := rfl
@[simp] theorem State.dropPage_draws : (s.dropPage).draws = s.draws := rfl
@[simp] theorem State.dropPage_inputs : (s.dropPage).inputs = s.inputs := rfl
@[simp] theorem State.dropPage_during : (s.dropPage).during = s.during := rfl

/-! `State.setPage` -/

@[simp] theorem State.setPage_params (pg : Page) : (s.setPage pg).params = s.params := rfl
@[simp] theorem State.setPage_cmd (pg : Page) : (s.setPage pg).cmd = s.cmd := rfl
@[simp] theorem State.setPage_busy (pg : Page) : (s.setPage pg).busy = s.busy := rfl
@[simp] theorem State.setPage_irqPend (pg : Page) : (s.setPage pg).irqPend = s.irqPend := rfl
@[simp] theorem State.setPage_ovr (pg : Page) : (s.setPage pg).ovr = s.ovr := rfl
@[simp] theorem State.setPage_err (pg : Page) : (s.setPage pg).err = s.err := rfl
@[simp] theorem State.setPage_stepIx (pg : Page) : (s.setPage pg).stepIx = s.stepIx := rfl
@[simp] theorem State.setPage_cause (pg : Page) : (s.setPage pg).cause = s.cause := rfl
@[simp] theorem State.setPage_result (pg : Page) : (s.setPage pg).result = s.result := rfl
@[simp] theorem State.setPage_eventTag (pg : Page) : (s.setPage pg).eventTag = s.eventTag := rfl
@[simp] theorem State.setPage_eventLen (pg : Page) : (s.setPage pg).eventLen = s.eventLen := rfl
@[simp] theorem State.setPage_rssi (pg : Page) : (s.setPage pg).rssi = s.rssi := rfl
@[simp] theorem State.setPage_snr (pg : Page) : (s.setPage pg).snr = s.snr := rfl
@[simp] theorem State.setPage_rxFlag (pg : Page) : (s.setPage pg).rxFlag = s.rxFlag := rfl
@[simp] theorem State.setPage_txFlag (pg : Page) : (s.setPage pg).txFlag = s.txFlag := rfl
@[simp] theorem State.setPage_mem (pg : Page) : (s.setPage pg).mem = s.mem := rfl
@[simp] theorem State.setPage_pcache (pg : Page) : (s.setPage pg).pcache = some pg := rfl
@[simp] theorem State.setPage_irqPrev (pg : Page) : (s.setPage pg).irqPrev = s.irqPrev := rfl
@[simp] theorem State.setPage_seq (pg : Page) : (s.setPage pg).seq = s.seq := rfl
@[simp] theorem State.setPage_inReset (pg : Page) : (s.setPage pg).inReset = s.inReset := rfl
@[simp] theorem State.setPage_tcxo (pg : Page) : (s.setPage pg).tcxo = s.tcxo := rfl
@[simp] theorem State.setPage_chipMode (pg : Page) : (s.setPage pg).chipMode = s.chipMode := rfl
@[simp] theorem State.setPage_faults (pg : Page) : (s.setPage pg).faults = s.faults := rfl
@[simp] theorem State.setPage_chip (pg : Page) : (s.setPage pg).chip = s.chip := rfl
@[simp] theorem State.setPage_rdata (pg : Page) : (s.setPage pg).rdata = s.rdata := rfl
@[simp] theorem State.setPage_log (pg : Page) : (s.setPage pg).log = s.log := rfl
@[simp] theorem State.setPage_draws (pg : Page) : (s.setPage pg).draws = s.draws := rfl
@[simp] theorem State.setPage_inputs (pg : Page) : (s.setPage pg).inputs = s.inputs := rfl
@[simp] theorem State.setPage_during (pg : Page) : (s.setPage pg).during = s.during := rfl

/-! `State.setChipMode` -/

@[simp] theorem State.setChipMode_params (m : Option Mode) : (s.setChipMode m).params = s.params := rfl
@[simp] theorem State.setChipMode_cmd (m : Option Mode) : (s.setChipMode m).cmd = s.cmd := rfl
@[simp] theorem State.setChipMode_busy (m : Option Mode) : (s.setChipMode m).busy = s.busy := rfl
@[simp] theorem State.setChipMode_irqPend (m : Option Mode) : (s.setChipMode m).irqPend = s.irqPend := rfl
@[simp] theorem State.setChipMode_ovr (m : Option Mode) : (s.setChipMode m).ovr = s.ovr := rfl
@[simp] theorem State.setChipMode_err (m : Option Mode) : (s.setChipMode m).err = s.err := rfl
@[simp] theorem State.setChipMode_stepIx (m : Option Mode) : (s.setChipMode m).stepIx = s.stepIx := rfl
@[simp] theorem State.setChipMode_cause (m : Option Mode) : (s.setChipMode m).cause = s.cause := rfl
@[simp] theorem State.setChipMode_result (m : Option Mode) : (s.setChipMode m).result = s.result := rfl
@[simp] theorem State.setChipMode_eventTag (m : Option Mode) : (s.setChipMode m).eventTag = s.eventTag := rfl
@[simp] theorem State.setChipMode_eventLen (m : Option Mode) : (s.setChipMode m).eventLen = s.eventLen := rfl
@[simp] theorem State.setChipMode_rssi (m : Option Mode) : (s.setChipMode m).rssi = s.rssi := rfl
@[simp] theorem State.setChipMode_snr (m : Option Mode) : (s.setChipMode m).snr = s.snr := rfl
@[simp] theorem State.setChipMode_rxFlag (m : Option Mode) : (s.setChipMode m).rxFlag = s.rxFlag := rfl
@[simp] theorem State.setChipMode_txFlag (m : Option Mode) : (s.setChipMode m).txFlag = s.txFlag := rfl
@[simp] theorem State.setChipMode_mem (m : Option Mode) : (s.setChipMode m).mem = s.mem := rfl
@[simp] theorem State.setChipMode_pcache (m : Option Mode) : (s.setChipMode m).pcache = s.pcache := rfl
@[simp] theorem State.setChipMode_irqPrev (m : Option Mode) : (s.setChipMode m).irqPrev = s.irqPrev := rfl
@[simp] theorem State.setChipMode_seq (m : Option Mode) : (s.setChipMode m).seq = s.seq := rfl
@[simp] theorem State.setChipMode_inReset (m : Option Mode) : (s.setChipMode m).inReset = s.inReset := rfl
@[simp] theorem State.setChipMode_tcxo (m : Option Mode) : (s.setChipMode m).tcxo = s.tcxo := rfl
@[simp] theorem State.setChipMode_chipMode (m : Option Mode) : (s.setChipMode m).chipMode = m := rfl
@[simp] theorem State.setChipMode_faults (m : Option Mode) : (s.setChipMode m).faults = s.faults := rfl
@[simp] theorem State.setChipMode_chip (m : Option Mode) : (s.setChipMode m).chip = s.chip := rfl
@[simp] theorem State.setChipMode_rdata (m : Option Mode) : (s.setChipMode m).rdata = s.rdata := rfl
@[simp] theorem State.setChipMode_log (m : Option Mode) : (s.setChipMode m).log = s.log := rfl
@[simp] theorem State.setChipMode_draws (m : Option Mode) : (s.setChipMode m).draws = s.draws := rfl
@[simp] theorem State.setChipMode_inputs (m : Option Mode) : (s.setChipMode m).inputs = s.inputs := rfl
@[simp] theorem State.setChipMode_during (m : Option Mode) : (s.setChipMode m).during = s.during := rfl

/-! `State.setResult` -/

@[simp] theorem State.setResult_params (v : Half) : (s.setResult v).params = s.params := rfl
@[simp] theorem State.setResult_cmd (v : Half) : (s.setResult v).cmd = s.cmd := rfl
@[simp] theorem State.setResult_busy (v : Half) : (s.setResult v).busy = s.busy := rfl
@[simp] theorem State.setResult_irqPend (v : Half) : (s.setResult v).irqPend = s.irqPend := rfl
@[simp] theorem State.setResult_ovr (v : Half) : (s.setResult v).ovr = s.ovr := rfl
@[simp] theorem State.setResult_err (v : Half) : (s.setResult v).err = s.err := rfl
@[simp] theorem State.setResult_stepIx (v : Half) : (s.setResult v).stepIx = s.stepIx := rfl
@[simp] theorem State.setResult_cause (v : Half) : (s.setResult v).cause = s.cause := rfl
@[simp] theorem State.setResult_result (v : Half) : (s.setResult v).result = v := rfl
@[simp] theorem State.setResult_eventTag (v : Half) : (s.setResult v).eventTag = s.eventTag := rfl
@[simp] theorem State.setResult_eventLen (v : Half) : (s.setResult v).eventLen = s.eventLen := rfl
@[simp] theorem State.setResult_rssi (v : Half) : (s.setResult v).rssi = s.rssi := rfl
@[simp] theorem State.setResult_snr (v : Half) : (s.setResult v).snr = s.snr := rfl
@[simp] theorem State.setResult_rxFlag (v : Half) : (s.setResult v).rxFlag = s.rxFlag := rfl
@[simp] theorem State.setResult_txFlag (v : Half) : (s.setResult v).txFlag = s.txFlag := rfl
@[simp] theorem State.setResult_mem (v : Half) : (s.setResult v).mem = s.mem := rfl
@[simp] theorem State.setResult_pcache (v : Half) : (s.setResult v).pcache = s.pcache := rfl
@[simp] theorem State.setResult_irqPrev (v : Half) : (s.setResult v).irqPrev = s.irqPrev := rfl
@[simp] theorem State.setResult_seq (v : Half) : (s.setResult v).seq = s.seq := rfl
@[simp] theorem State.setResult_inReset (v : Half) : (s.setResult v).inReset = s.inReset := rfl
@[simp] theorem State.setResult_tcxo (v : Half) : (s.setResult v).tcxo = s.tcxo := rfl
@[simp] theorem State.setResult_chipMode (v : Half) : (s.setResult v).chipMode = s.chipMode := rfl
@[simp] theorem State.setResult_faults (v : Half) : (s.setResult v).faults = s.faults := rfl
@[simp] theorem State.setResult_chip (v : Half) : (s.setResult v).chip = s.chip := rfl
@[simp] theorem State.setResult_rdata (v : Half) : (s.setResult v).rdata = s.rdata := rfl
@[simp] theorem State.setResult_log (v : Half) : (s.setResult v).log = s.log := rfl
@[simp] theorem State.setResult_draws (v : Half) : (s.setResult v).draws = s.draws := rfl
@[simp] theorem State.setResult_inputs (v : Half) : (s.setResult v).inputs = s.inputs := rfl
@[simp] theorem State.setResult_during (v : Half) : (s.setResult v).during = s.during := rfl

/-! `State.setOvr` -/

@[simp] theorem State.setOvr_params : (s.setOvr).params = s.params := rfl
@[simp] theorem State.setOvr_cmd : (s.setOvr).cmd = s.cmd := rfl
@[simp] theorem State.setOvr_busy : (s.setOvr).busy = s.busy := rfl
@[simp] theorem State.setOvr_irqPend : (s.setOvr).irqPend = s.irqPend := rfl
@[simp] theorem State.setOvr_ovr : (s.setOvr).ovr = true := rfl
@[simp] theorem State.setOvr_err : (s.setOvr).err = s.err := rfl
@[simp] theorem State.setOvr_stepIx : (s.setOvr).stepIx = s.stepIx := rfl
@[simp] theorem State.setOvr_cause : (s.setOvr).cause = s.cause := rfl
@[simp] theorem State.setOvr_result : (s.setOvr).result = s.result := rfl
@[simp] theorem State.setOvr_eventTag : (s.setOvr).eventTag = s.eventTag := rfl
@[simp] theorem State.setOvr_eventLen : (s.setOvr).eventLen = s.eventLen := rfl
@[simp] theorem State.setOvr_rssi : (s.setOvr).rssi = s.rssi := rfl
@[simp] theorem State.setOvr_snr : (s.setOvr).snr = s.snr := rfl
@[simp] theorem State.setOvr_rxFlag : (s.setOvr).rxFlag = s.rxFlag := rfl
@[simp] theorem State.setOvr_txFlag : (s.setOvr).txFlag = s.txFlag := rfl
@[simp] theorem State.setOvr_mem : (s.setOvr).mem = s.mem := rfl
@[simp] theorem State.setOvr_pcache : (s.setOvr).pcache = s.pcache := rfl
@[simp] theorem State.setOvr_irqPrev : (s.setOvr).irqPrev = s.irqPrev := rfl
@[simp] theorem State.setOvr_seq : (s.setOvr).seq = s.seq := rfl
@[simp] theorem State.setOvr_inReset : (s.setOvr).inReset = s.inReset := rfl
@[simp] theorem State.setOvr_tcxo : (s.setOvr).tcxo = s.tcxo := rfl
@[simp] theorem State.setOvr_chipMode : (s.setOvr).chipMode = s.chipMode := rfl
@[simp] theorem State.setOvr_faults : (s.setOvr).faults = s.faults := rfl
@[simp] theorem State.setOvr_chip : (s.setOvr).chip = s.chip := rfl
@[simp] theorem State.setOvr_rdata : (s.setOvr).rdata = s.rdata := rfl
@[simp] theorem State.setOvr_log : (s.setOvr).log = s.log := rfl
@[simp] theorem State.setOvr_draws : (s.setOvr).draws = s.draws := rfl
@[simp] theorem State.setOvr_inputs : (s.setOvr).inputs = s.inputs := rfl
@[simp] theorem State.setOvr_during : (s.setOvr).during = s.during := rfl

/-! `State.setRdata` -/

@[simp] theorem State.setRdata_params (w : Word) : (s.setRdata w).params = s.params := rfl
@[simp] theorem State.setRdata_cmd (w : Word) : (s.setRdata w).cmd = s.cmd := rfl
@[simp] theorem State.setRdata_busy (w : Word) : (s.setRdata w).busy = s.busy := rfl
@[simp] theorem State.setRdata_irqPend (w : Word) : (s.setRdata w).irqPend = s.irqPend := rfl
@[simp] theorem State.setRdata_ovr (w : Word) : (s.setRdata w).ovr = s.ovr := rfl
@[simp] theorem State.setRdata_err (w : Word) : (s.setRdata w).err = s.err := rfl
@[simp] theorem State.setRdata_stepIx (w : Word) : (s.setRdata w).stepIx = s.stepIx := rfl
@[simp] theorem State.setRdata_cause (w : Word) : (s.setRdata w).cause = s.cause := rfl
@[simp] theorem State.setRdata_result (w : Word) : (s.setRdata w).result = s.result := rfl
@[simp] theorem State.setRdata_eventTag (w : Word) : (s.setRdata w).eventTag = s.eventTag := rfl
@[simp] theorem State.setRdata_eventLen (w : Word) : (s.setRdata w).eventLen = s.eventLen := rfl
@[simp] theorem State.setRdata_rssi (w : Word) : (s.setRdata w).rssi = s.rssi := rfl
@[simp] theorem State.setRdata_snr (w : Word) : (s.setRdata w).snr = s.snr := rfl
@[simp] theorem State.setRdata_rxFlag (w : Word) : (s.setRdata w).rxFlag = s.rxFlag := rfl
@[simp] theorem State.setRdata_txFlag (w : Word) : (s.setRdata w).txFlag = s.txFlag := rfl
@[simp] theorem State.setRdata_mem (w : Word) : (s.setRdata w).mem = s.mem := rfl
@[simp] theorem State.setRdata_pcache (w : Word) : (s.setRdata w).pcache = s.pcache := rfl
@[simp] theorem State.setRdata_irqPrev (w : Word) : (s.setRdata w).irqPrev = s.irqPrev := rfl
@[simp] theorem State.setRdata_seq (w : Word) : (s.setRdata w).seq = s.seq := rfl
@[simp] theorem State.setRdata_inReset (w : Word) : (s.setRdata w).inReset = s.inReset := rfl
@[simp] theorem State.setRdata_tcxo (w : Word) : (s.setRdata w).tcxo = s.tcxo := rfl
@[simp] theorem State.setRdata_chipMode (w : Word) : (s.setRdata w).chipMode = s.chipMode := rfl
@[simp] theorem State.setRdata_faults (w : Word) : (s.setRdata w).faults = s.faults := rfl
@[simp] theorem State.setRdata_chip (w : Word) : (s.setRdata w).chip = s.chip := rfl
@[simp] theorem State.setRdata_rdata (w : Word) : (s.setRdata w).rdata = w := rfl
@[simp] theorem State.setRdata_log (w : Word) : (s.setRdata w).log = s.log := rfl
@[simp] theorem State.setRdata_draws (w : Word) : (s.setRdata w).draws = s.draws := rfl
@[simp] theorem State.setRdata_inputs (w : Word) : (s.setRdata w).inputs = s.inputs := rfl
@[simp] theorem State.setRdata_during (w : Word) : (s.setRdata w).during = s.during := rfl

/-! `State.assertReset` -/

@[simp] theorem State.assertReset_params : (s.assertReset).params = s.params := rfl
@[simp] theorem State.assertReset_cmd : (s.assertReset).cmd = s.cmd := rfl
@[simp] theorem State.assertReset_busy : (s.assertReset).busy = s.busy := rfl
@[simp] theorem State.assertReset_irqPend : (s.assertReset).irqPend = s.irqPend := rfl
@[simp] theorem State.assertReset_ovr : (s.assertReset).ovr = s.ovr := rfl
@[simp] theorem State.assertReset_err : (s.assertReset).err = s.err := rfl
@[simp] theorem State.assertReset_stepIx : (s.assertReset).stepIx = s.stepIx := rfl
@[simp] theorem State.assertReset_cause : (s.assertReset).cause = s.cause := rfl
@[simp] theorem State.assertReset_result : (s.assertReset).result = s.result := rfl
@[simp] theorem State.assertReset_eventTag : (s.assertReset).eventTag = s.eventTag := rfl
@[simp] theorem State.assertReset_eventLen : (s.assertReset).eventLen = s.eventLen := rfl
@[simp] theorem State.assertReset_rssi : (s.assertReset).rssi = s.rssi := rfl
@[simp] theorem State.assertReset_snr : (s.assertReset).snr = s.snr := rfl
@[simp] theorem State.assertReset_rxFlag : (s.assertReset).rxFlag = s.rxFlag := rfl
@[simp] theorem State.assertReset_txFlag : (s.assertReset).txFlag = s.txFlag := rfl
@[simp] theorem State.assertReset_mem : (s.assertReset).mem = s.mem := rfl
@[simp] theorem State.assertReset_pcache : (s.assertReset).pcache = s.pcache := rfl
@[simp] theorem State.assertReset_irqPrev : (s.assertReset).irqPrev = s.irqPrev := rfl
@[simp] theorem State.assertReset_seq : (s.assertReset).seq = s.seq := rfl
@[simp] theorem State.assertReset_inReset : (s.assertReset).inReset = true := rfl
@[simp] theorem State.assertReset_tcxo : (s.assertReset).tcxo = s.tcxo := rfl
@[simp] theorem State.assertReset_chipMode : (s.assertReset).chipMode = s.chipMode := rfl
@[simp] theorem State.assertReset_faults : (s.assertReset).faults = s.faults := rfl
@[simp] theorem State.assertReset_chip : (s.assertReset).chip = s.chip := rfl
@[simp] theorem State.assertReset_rdata : (s.assertReset).rdata = s.rdata := rfl
@[simp] theorem State.assertReset_log : (s.assertReset).log = s.log := rfl
@[simp] theorem State.assertReset_draws : (s.assertReset).draws = s.draws := rfl
@[simp] theorem State.assertReset_inputs : (s.assertReset).inputs = s.inputs := rfl
@[simp] theorem State.assertReset_during : (s.assertReset).during = s.during := rfl

/-! `State.setTxq` -/

@[simp] theorem State.setTxq_params (q : List Byte) : (s.setTxq q).params = s.params := rfl
@[simp] theorem State.setTxq_cmd (q : List Byte) : (s.setTxq q).cmd = s.cmd := rfl
@[simp] theorem State.setTxq_busy (q : List Byte) : (s.setTxq q).busy = s.busy := rfl
@[simp] theorem State.setTxq_irqPend (q : List Byte) : (s.setTxq q).irqPend = s.irqPend := rfl
@[simp] theorem State.setTxq_ovr (q : List Byte) : (s.setTxq q).ovr = s.ovr := rfl
@[simp] theorem State.setTxq_err (q : List Byte) : (s.setTxq q).err = s.err := rfl
@[simp] theorem State.setTxq_stepIx (q : List Byte) : (s.setTxq q).stepIx = s.stepIx := rfl
@[simp] theorem State.setTxq_cause (q : List Byte) : (s.setTxq q).cause = s.cause := rfl
@[simp] theorem State.setTxq_result (q : List Byte) : (s.setTxq q).result = s.result := rfl
@[simp] theorem State.setTxq_eventTag (q : List Byte) : (s.setTxq q).eventTag = s.eventTag := rfl
@[simp] theorem State.setTxq_eventLen (q : List Byte) : (s.setTxq q).eventLen = s.eventLen := rfl
@[simp] theorem State.setTxq_rssi (q : List Byte) : (s.setTxq q).rssi = s.rssi := rfl
@[simp] theorem State.setTxq_snr (q : List Byte) : (s.setTxq q).snr = s.snr := rfl
@[simp] theorem State.setTxq_rxFlag (q : List Byte) : (s.setTxq q).rxFlag = s.rxFlag := rfl
@[simp] theorem State.setTxq_txFlag (q : List Byte) : (s.setTxq q).txFlag = s.txFlag := rfl
@[simp] theorem State.setTxq_mem (q : List Byte) : (s.setTxq q).mem = s.mem := rfl
@[simp] theorem State.setTxq_pcache (q : List Byte) : (s.setTxq q).pcache = s.pcache := rfl
@[simp] theorem State.setTxq_irqPrev (q : List Byte) : (s.setTxq q).irqPrev = s.irqPrev := rfl
@[simp] theorem State.setTxq_seq (q : List Byte) : (s.setTxq q).seq = s.seq := rfl
@[simp] theorem State.setTxq_inReset (q : List Byte) : (s.setTxq q).inReset = s.inReset := rfl
@[simp] theorem State.setTxq_tcxo (q : List Byte) : (s.setTxq q).tcxo = s.tcxo := rfl
@[simp] theorem State.setTxq_chipMode (q : List Byte) : (s.setTxq q).chipMode = s.chipMode := rfl
@[simp] theorem State.setTxq_faults (q : List Byte) : (s.setTxq q).faults = s.faults := rfl
@[simp] theorem State.setTxq_chip (q : List Byte) : (s.setTxq q).chip = { s.chip with txq := q } := rfl
@[simp] theorem State.setTxq_rdata (q : List Byte) : (s.setTxq q).rdata = s.rdata := rfl
@[simp] theorem State.setTxq_log (q : List Byte) : (s.setTxq q).log = s.log := rfl
@[simp] theorem State.setTxq_draws (q : List Byte) : (s.setTxq q).draws = s.draws := rfl
@[simp] theorem State.setTxq_inputs (q : List Byte) : (s.setTxq q).inputs = s.inputs := rfl
@[simp] theorem State.setTxq_during (q : List Byte) : (s.setTxq q).during = s.during := rfl

/-! `State.setRxq` -/

@[simp] theorem State.setRxq_params (q : List Byte) : (s.setRxq q).params = s.params := rfl
@[simp] theorem State.setRxq_cmd (q : List Byte) : (s.setRxq q).cmd = s.cmd := rfl
@[simp] theorem State.setRxq_busy (q : List Byte) : (s.setRxq q).busy = s.busy := rfl
@[simp] theorem State.setRxq_irqPend (q : List Byte) : (s.setRxq q).irqPend = s.irqPend := rfl
@[simp] theorem State.setRxq_ovr (q : List Byte) : (s.setRxq q).ovr = s.ovr := rfl
@[simp] theorem State.setRxq_err (q : List Byte) : (s.setRxq q).err = s.err := rfl
@[simp] theorem State.setRxq_stepIx (q : List Byte) : (s.setRxq q).stepIx = s.stepIx := rfl
@[simp] theorem State.setRxq_cause (q : List Byte) : (s.setRxq q).cause = s.cause := rfl
@[simp] theorem State.setRxq_result (q : List Byte) : (s.setRxq q).result = s.result := rfl
@[simp] theorem State.setRxq_eventTag (q : List Byte) : (s.setRxq q).eventTag = s.eventTag := rfl
@[simp] theorem State.setRxq_eventLen (q : List Byte) : (s.setRxq q).eventLen = s.eventLen := rfl
@[simp] theorem State.setRxq_rssi (q : List Byte) : (s.setRxq q).rssi = s.rssi := rfl
@[simp] theorem State.setRxq_snr (q : List Byte) : (s.setRxq q).snr = s.snr := rfl
@[simp] theorem State.setRxq_rxFlag (q : List Byte) : (s.setRxq q).rxFlag = s.rxFlag := rfl
@[simp] theorem State.setRxq_txFlag (q : List Byte) : (s.setRxq q).txFlag = s.txFlag := rfl
@[simp] theorem State.setRxq_mem (q : List Byte) : (s.setRxq q).mem = s.mem := rfl
@[simp] theorem State.setRxq_pcache (q : List Byte) : (s.setRxq q).pcache = s.pcache := rfl
@[simp] theorem State.setRxq_irqPrev (q : List Byte) : (s.setRxq q).irqPrev = s.irqPrev := rfl
@[simp] theorem State.setRxq_seq (q : List Byte) : (s.setRxq q).seq = s.seq := rfl
@[simp] theorem State.setRxq_inReset (q : List Byte) : (s.setRxq q).inReset = s.inReset := rfl
@[simp] theorem State.setRxq_tcxo (q : List Byte) : (s.setRxq q).tcxo = s.tcxo := rfl
@[simp] theorem State.setRxq_chipMode (q : List Byte) : (s.setRxq q).chipMode = s.chipMode := rfl
@[simp] theorem State.setRxq_faults (q : List Byte) : (s.setRxq q).faults = s.faults := rfl
@[simp] theorem State.setRxq_chip (q : List Byte) : (s.setRxq q).chip = { s.chip with rxq := q } := rfl
@[simp] theorem State.setRxq_rdata (q : List Byte) : (s.setRxq q).rdata = s.rdata := rfl
@[simp] theorem State.setRxq_log (q : List Byte) : (s.setRxq q).log = s.log := rfl
@[simp] theorem State.setRxq_draws (q : List Byte) : (s.setRxq q).draws = s.draws := rfl
@[simp] theorem State.setRxq_inputs (q : List Byte) : (s.setRxq q).inputs = s.inputs := rfl
@[simp] theorem State.setRxq_during (q : List Byte) : (s.setRxq q).during = s.during := rfl

/-! `State.setRegs` -/

@[simp] theorem State.setRegs_params (m : Memory) : (s.setRegs m).params = s.params := rfl
@[simp] theorem State.setRegs_cmd (m : Memory) : (s.setRegs m).cmd = s.cmd := rfl
@[simp] theorem State.setRegs_busy (m : Memory) : (s.setRegs m).busy = s.busy := rfl
@[simp] theorem State.setRegs_irqPend (m : Memory) : (s.setRegs m).irqPend = s.irqPend := rfl
@[simp] theorem State.setRegs_ovr (m : Memory) : (s.setRegs m).ovr = s.ovr := rfl
@[simp] theorem State.setRegs_err (m : Memory) : (s.setRegs m).err = s.err := rfl
@[simp] theorem State.setRegs_stepIx (m : Memory) : (s.setRegs m).stepIx = s.stepIx := rfl
@[simp] theorem State.setRegs_cause (m : Memory) : (s.setRegs m).cause = s.cause := rfl
@[simp] theorem State.setRegs_result (m : Memory) : (s.setRegs m).result = s.result := rfl
@[simp] theorem State.setRegs_eventTag (m : Memory) : (s.setRegs m).eventTag = s.eventTag := rfl
@[simp] theorem State.setRegs_eventLen (m : Memory) : (s.setRegs m).eventLen = s.eventLen := rfl
@[simp] theorem State.setRegs_rssi (m : Memory) : (s.setRegs m).rssi = s.rssi := rfl
@[simp] theorem State.setRegs_snr (m : Memory) : (s.setRegs m).snr = s.snr := rfl
@[simp] theorem State.setRegs_rxFlag (m : Memory) : (s.setRegs m).rxFlag = s.rxFlag := rfl
@[simp] theorem State.setRegs_txFlag (m : Memory) : (s.setRegs m).txFlag = s.txFlag := rfl
@[simp] theorem State.setRegs_mem (m : Memory) : (s.setRegs m).mem = s.mem := rfl
@[simp] theorem State.setRegs_pcache (m : Memory) : (s.setRegs m).pcache = s.pcache := rfl
@[simp] theorem State.setRegs_irqPrev (m : Memory) : (s.setRegs m).irqPrev = s.irqPrev := rfl
@[simp] theorem State.setRegs_seq (m : Memory) : (s.setRegs m).seq = s.seq := rfl
@[simp] theorem State.setRegs_inReset (m : Memory) : (s.setRegs m).inReset = s.inReset := rfl
@[simp] theorem State.setRegs_tcxo (m : Memory) : (s.setRegs m).tcxo = s.tcxo := rfl
@[simp] theorem State.setRegs_chipMode (m : Memory) : (s.setRegs m).chipMode = s.chipMode := rfl
@[simp] theorem State.setRegs_faults (m : Memory) : (s.setRegs m).faults = s.faults := rfl
@[simp] theorem State.setRegs_chip (m : Memory) : (s.setRegs m).chip = { s.chip with regs := m } := rfl
@[simp] theorem State.setRegs_rdata (m : Memory) : (s.setRegs m).rdata = s.rdata := rfl
@[simp] theorem State.setRegs_log (m : Memory) : (s.setRegs m).log = s.log := rfl
@[simp] theorem State.setRegs_draws (m : Memory) : (s.setRegs m).draws = s.draws := rfl
@[simp] theorem State.setRegs_inputs (m : Memory) : (s.setRegs m).inputs = s.inputs := rfl
@[simp] theorem State.setRegs_during (m : Memory) : (s.setRegs m).during = s.during := rfl

/-! `State.beginCommand` -/

@[simp] theorem State.beginCommand_params : (s.beginCommand).params = s.params := rfl
@[simp] theorem State.beginCommand_cmd : (s.beginCommand).cmd = s.cmd := rfl
@[simp] theorem State.beginCommand_busy : (s.beginCommand).busy = true := rfl
@[simp] theorem State.beginCommand_irqPend : (s.beginCommand).irqPend = s.irqPend := rfl
@[simp] theorem State.beginCommand_ovr : (s.beginCommand).ovr = s.ovr := rfl
@[simp] theorem State.beginCommand_err : (s.beginCommand).err = .ok := rfl
@[simp] theorem State.beginCommand_stepIx : (s.beginCommand).stepIx = 0 := rfl
@[simp] theorem State.beginCommand_cause : (s.beginCommand).cause = .none := rfl
@[simp] theorem State.beginCommand_result : (s.beginCommand).result = s.result := rfl
@[simp] theorem State.beginCommand_eventTag : (s.beginCommand).eventTag = s.eventTag := rfl
@[simp] theorem State.beginCommand_eventLen : (s.beginCommand).eventLen = s.eventLen := rfl
@[simp] theorem State.beginCommand_rssi : (s.beginCommand).rssi = s.rssi := rfl
@[simp] theorem State.beginCommand_snr : (s.beginCommand).snr = s.snr := rfl
@[simp] theorem State.beginCommand_rxFlag : (s.beginCommand).rxFlag = s.rxFlag := rfl
@[simp] theorem State.beginCommand_txFlag : (s.beginCommand).txFlag = s.txFlag := rfl
@[simp] theorem State.beginCommand_mem : (s.beginCommand).mem = s.mem := rfl
@[simp] theorem State.beginCommand_pcache : (s.beginCommand).pcache = s.pcache := rfl
@[simp] theorem State.beginCommand_irqPrev : (s.beginCommand).irqPrev = s.irqPrev := rfl
@[simp] theorem State.beginCommand_seq : (s.beginCommand).seq = some 0 := rfl
@[simp] theorem State.beginCommand_inReset : (s.beginCommand).inReset = s.inReset := rfl
@[simp] theorem State.beginCommand_tcxo : (s.beginCommand).tcxo = s.tcxo := rfl
@[simp] theorem State.beginCommand_chipMode : (s.beginCommand).chipMode = s.chipMode := rfl
@[simp] theorem State.beginCommand_faults : (s.beginCommand).faults = s.faults := rfl
@[simp] theorem State.beginCommand_chip : (s.beginCommand).chip = s.chip := rfl
@[simp] theorem State.beginCommand_rdata : (s.beginCommand).rdata = s.rdata := rfl
@[simp] theorem State.beginCommand_log : (s.beginCommand).log = s.log := rfl
@[simp] theorem State.beginCommand_draws : (s.beginCommand).draws = s.draws := rfl
@[simp] theorem State.beginCommand_inputs : (s.beginCommand).inputs = s.inputs := rfl
@[simp] theorem State.beginCommand_during : (s.beginCommand).during = s.during := rfl

/-! `State.endCommand` -/

@[simp] theorem State.endCommand_params : (s.endCommand).params = s.params := rfl
@[simp] theorem State.endCommand_cmd : (s.endCommand).cmd = s.cmd := rfl
@[simp] theorem State.endCommand_busy : (s.endCommand).busy = false := rfl
@[simp] theorem State.endCommand_irqPend : (s.endCommand).irqPend = s.irqPend := rfl
@[simp] theorem State.endCommand_ovr : (s.endCommand).ovr = s.ovr := rfl
@[simp] theorem State.endCommand_err : (s.endCommand).err = s.err := rfl
@[simp] theorem State.endCommand_stepIx : (s.endCommand).stepIx = s.stepIx := rfl
@[simp] theorem State.endCommand_cause : (s.endCommand).cause = s.cause := rfl
@[simp] theorem State.endCommand_result : (s.endCommand).result = s.result := rfl
@[simp] theorem State.endCommand_eventTag : (s.endCommand).eventTag = s.eventTag := rfl
@[simp] theorem State.endCommand_eventLen : (s.endCommand).eventLen = s.eventLen := rfl
@[simp] theorem State.endCommand_rssi : (s.endCommand).rssi = s.rssi := rfl
@[simp] theorem State.endCommand_snr : (s.endCommand).snr = s.snr := rfl
@[simp] theorem State.endCommand_rxFlag : (s.endCommand).rxFlag = s.rxFlag := rfl
@[simp] theorem State.endCommand_txFlag : (s.endCommand).txFlag = s.txFlag := rfl
@[simp] theorem State.endCommand_mem : (s.endCommand).mem = s.mem := rfl
@[simp] theorem State.endCommand_pcache : (s.endCommand).pcache = s.pcache := rfl
@[simp] theorem State.endCommand_irqPrev : (s.endCommand).irqPrev = s.irqPrev := rfl
@[simp] theorem State.endCommand_seq : (s.endCommand).seq = none := rfl
@[simp] theorem State.endCommand_inReset : (s.endCommand).inReset = s.inReset := rfl
@[simp] theorem State.endCommand_tcxo : (s.endCommand).tcxo = s.tcxo := rfl
@[simp] theorem State.endCommand_chipMode : (s.endCommand).chipMode = s.chipMode := rfl
@[simp] theorem State.endCommand_faults : (s.endCommand).faults = s.faults := rfl
@[simp] theorem State.endCommand_chip : (s.endCommand).chip = s.chip := rfl
@[simp] theorem State.endCommand_rdata : (s.endCommand).rdata = s.rdata := rfl
@[simp] theorem State.endCommand_log : (s.endCommand).log = s.log := rfl
@[simp] theorem State.endCommand_draws : (s.endCommand).draws = s.draws := rfl
@[simp] theorem State.endCommand_inputs : (s.endCommand).inputs = s.inputs := rfl
@[simp] theorem State.endCommand_during : (s.endCommand).during = s.during := rfl

/-! `State.abandon` -/

@[simp] theorem State.abandon_params : (s.abandon).params = s.params := rfl
@[simp] theorem State.abandon_cmd : (s.abandon).cmd = s.cmd := rfl
@[simp] theorem State.abandon_busy : (s.abandon).busy = s.busy := rfl
@[simp] theorem State.abandon_irqPend : (s.abandon).irqPend = s.irqPend := rfl
@[simp] theorem State.abandon_ovr : (s.abandon).ovr = s.ovr := rfl
@[simp] theorem State.abandon_err : (s.abandon).err = s.err := rfl
@[simp] theorem State.abandon_stepIx : (s.abandon).stepIx = s.stepIx := rfl
@[simp] theorem State.abandon_cause : (s.abandon).cause = s.cause := rfl
@[simp] theorem State.abandon_result : (s.abandon).result = s.result := rfl
@[simp] theorem State.abandon_eventTag : (s.abandon).eventTag = s.eventTag := rfl
@[simp] theorem State.abandon_eventLen : (s.abandon).eventLen = s.eventLen := rfl
@[simp] theorem State.abandon_rssi : (s.abandon).rssi = s.rssi := rfl
@[simp] theorem State.abandon_snr : (s.abandon).snr = s.snr := rfl
@[simp] theorem State.abandon_rxFlag : (s.abandon).rxFlag = s.rxFlag := rfl
@[simp] theorem State.abandon_txFlag : (s.abandon).txFlag = s.txFlag := rfl
@[simp] theorem State.abandon_mem : (s.abandon).mem = s.mem := rfl
@[simp] theorem State.abandon_pcache : (s.abandon).pcache = s.pcache := rfl
@[simp] theorem State.abandon_irqPrev : (s.abandon).irqPrev = s.irqPrev := rfl
@[simp] theorem State.abandon_seq : (s.abandon).seq = none := rfl
@[simp] theorem State.abandon_inReset : (s.abandon).inReset = s.inReset := rfl
@[simp] theorem State.abandon_tcxo : (s.abandon).tcxo = s.tcxo := rfl
@[simp] theorem State.abandon_chipMode : (s.abandon).chipMode = s.chipMode := rfl
@[simp] theorem State.abandon_faults : (s.abandon).faults = s.faults := rfl
@[simp] theorem State.abandon_chip : (s.abandon).chip = s.chip := rfl
@[simp] theorem State.abandon_rdata : (s.abandon).rdata = s.rdata := rfl
@[simp] theorem State.abandon_log : (s.abandon).log = s.log := rfl
@[simp] theorem State.abandon_draws : (s.abandon).draws = s.draws := rfl
@[simp] theorem State.abandon_inputs : (s.abandon).inputs = s.inputs := rfl
@[simp] theorem State.abandon_during : (s.abandon).during = s.during := rfl

/-! `State.storeRbuf` -/

@[simp] theorem State.storeRbuf_params (o : Nat) (bs : List Byte) : (s.storeRbuf o bs).params = s.params := rfl
@[simp] theorem State.storeRbuf_cmd (o : Nat) (bs : List Byte) : (s.storeRbuf o bs).cmd = s.cmd := rfl
@[simp] theorem State.storeRbuf_busy (o : Nat) (bs : List Byte) : (s.storeRbuf o bs).busy = s.busy := rfl
@[simp] theorem State.storeRbuf_irqPend (o : Nat) (bs : List Byte) : (s.storeRbuf o bs).irqPend = s.irqPend := rfl
@[simp] theorem State.storeRbuf_ovr (o : Nat) (bs : List Byte) : (s.storeRbuf o bs).ovr = s.ovr := rfl
@[simp] theorem State.storeRbuf_err (o : Nat) (bs : List Byte) : (s.storeRbuf o bs).err = s.err := rfl
@[simp] theorem State.storeRbuf_stepIx (o : Nat) (bs : List Byte) : (s.storeRbuf o bs).stepIx = s.stepIx := rfl
@[simp] theorem State.storeRbuf_cause (o : Nat) (bs : List Byte) : (s.storeRbuf o bs).cause = s.cause := rfl
@[simp] theorem State.storeRbuf_result (o : Nat) (bs : List Byte) : (s.storeRbuf o bs).result = s.result := rfl
@[simp] theorem State.storeRbuf_eventTag (o : Nat) (bs : List Byte) : (s.storeRbuf o bs).eventTag = s.eventTag := rfl
@[simp] theorem State.storeRbuf_eventLen (o : Nat) (bs : List Byte) : (s.storeRbuf o bs).eventLen = s.eventLen := rfl
@[simp] theorem State.storeRbuf_rssi (o : Nat) (bs : List Byte) : (s.storeRbuf o bs).rssi = s.rssi := rfl
@[simp] theorem State.storeRbuf_snr (o : Nat) (bs : List Byte) : (s.storeRbuf o bs).snr = s.snr := rfl
@[simp] theorem State.storeRbuf_rxFlag (o : Nat) (bs : List Byte) : (s.storeRbuf o bs).rxFlag = s.rxFlag := rfl
@[simp] theorem State.storeRbuf_txFlag (o : Nat) (bs : List Byte) : (s.storeRbuf o bs).txFlag = s.txFlag := rfl
@[simp] theorem State.storeRbuf_mem (o : Nat) (bs : List Byte) : (s.storeRbuf o bs).mem = s.mem.writeList (rbufBase + o) bs := rfl
@[simp] theorem State.storeRbuf_pcache (o : Nat) (bs : List Byte) : (s.storeRbuf o bs).pcache = s.pcache := rfl
@[simp] theorem State.storeRbuf_irqPrev (o : Nat) (bs : List Byte) : (s.storeRbuf o bs).irqPrev = s.irqPrev := rfl
@[simp] theorem State.storeRbuf_seq (o : Nat) (bs : List Byte) : (s.storeRbuf o bs).seq = s.seq := rfl
@[simp] theorem State.storeRbuf_inReset (o : Nat) (bs : List Byte) : (s.storeRbuf o bs).inReset = s.inReset := rfl
@[simp] theorem State.storeRbuf_tcxo (o : Nat) (bs : List Byte) : (s.storeRbuf o bs).tcxo = s.tcxo := rfl
@[simp] theorem State.storeRbuf_chipMode (o : Nat) (bs : List Byte) : (s.storeRbuf o bs).chipMode = s.chipMode := rfl
@[simp] theorem State.storeRbuf_faults (o : Nat) (bs : List Byte) : (s.storeRbuf o bs).faults = s.faults := rfl
@[simp] theorem State.storeRbuf_chip (o : Nat) (bs : List Byte) : (s.storeRbuf o bs).chip = s.chip := rfl
@[simp] theorem State.storeRbuf_rdata (o : Nat) (bs : List Byte) : (s.storeRbuf o bs).rdata = s.rdata := rfl
@[simp] theorem State.storeRbuf_log (o : Nat) (bs : List Byte) : (s.storeRbuf o bs).log = s.log := rfl
@[simp] theorem State.storeRbuf_draws (o : Nat) (bs : List Byte) : (s.storeRbuf o bs).draws = s.draws := rfl
@[simp] theorem State.storeRbuf_inputs (o : Nat) (bs : List Byte) : (s.storeRbuf o bs).inputs = s.inputs := rfl
@[simp] theorem State.storeRbuf_during (o : Nat) (bs : List Byte) : (s.storeRbuf o bs).during = s.during := rfl

/-! `State.drawBit` -/

@[simp] theorem State.drawBit_params : (s.drawBit.2).params = s.params := rfl
@[simp] theorem State.drawBit_cmd : (s.drawBit.2).cmd = s.cmd := rfl
@[simp] theorem State.drawBit_busy : (s.drawBit.2).busy = s.busy := rfl
@[simp] theorem State.drawBit_irqPend : (s.drawBit.2).irqPend = s.irqPend := rfl
@[simp] theorem State.drawBit_ovr : (s.drawBit.2).ovr = s.ovr := rfl
@[simp] theorem State.drawBit_err : (s.drawBit.2).err = s.err := rfl
@[simp] theorem State.drawBit_stepIx : (s.drawBit.2).stepIx = s.stepIx := rfl
@[simp] theorem State.drawBit_cause : (s.drawBit.2).cause = s.cause := rfl
@[simp] theorem State.drawBit_result : (s.drawBit.2).result = s.result := rfl
@[simp] theorem State.drawBit_eventTag : (s.drawBit.2).eventTag = s.eventTag := rfl
@[simp] theorem State.drawBit_eventLen : (s.drawBit.2).eventLen = s.eventLen := rfl
@[simp] theorem State.drawBit_rssi : (s.drawBit.2).rssi = s.rssi := rfl
@[simp] theorem State.drawBit_snr : (s.drawBit.2).snr = s.snr := rfl
@[simp] theorem State.drawBit_rxFlag : (s.drawBit.2).rxFlag = s.rxFlag := rfl
@[simp] theorem State.drawBit_txFlag : (s.drawBit.2).txFlag = s.txFlag := rfl
@[simp] theorem State.drawBit_mem : (s.drawBit.2).mem = s.mem := rfl
@[simp] theorem State.drawBit_pcache : (s.drawBit.2).pcache = s.pcache := rfl
@[simp] theorem State.drawBit_irqPrev : (s.drawBit.2).irqPrev = s.irqPrev := rfl
@[simp] theorem State.drawBit_seq : (s.drawBit.2).seq = s.seq := rfl
@[simp] theorem State.drawBit_inReset : (s.drawBit.2).inReset = s.inReset := rfl
@[simp] theorem State.drawBit_tcxo : (s.drawBit.2).tcxo = s.tcxo := rfl
@[simp] theorem State.drawBit_chipMode : (s.drawBit.2).chipMode = s.chipMode := rfl
@[simp] theorem State.drawBit_faults : (s.drawBit.2).faults = s.faults := rfl
@[simp] theorem State.drawBit_chip : (s.drawBit.2).chip = s.chip := rfl
@[simp] theorem State.drawBit_rdata : (s.drawBit.2).rdata = s.rdata := rfl
@[simp] theorem State.drawBit_log : (s.drawBit.2).log = s.log := rfl
@[simp] theorem State.drawBit_draws : (s.drawBit.2).draws = s.draws + 1 := rfl
@[simp] theorem State.drawBit_inputs : (s.drawBit.2).inputs = s.inputs := rfl
@[simp] theorem State.drawBit_during : (s.drawBit.2).during = s.during := rfl

/-! `State.txqDrawn` -/

@[simp] theorem State.txqDrawn_params : (s.txqDrawn).params = s.params := rfl
@[simp] theorem State.txqDrawn_cmd : (s.txqDrawn).cmd = s.cmd := rfl
@[simp] theorem State.txqDrawn_busy : (s.txqDrawn).busy = s.busy := rfl
@[simp] theorem State.txqDrawn_irqPend : (s.txqDrawn).irqPend = s.irqPend := rfl
@[simp] theorem State.txqDrawn_ovr : (s.txqDrawn).ovr = s.ovr := rfl
@[simp] theorem State.txqDrawn_err : (s.txqDrawn).err = s.err := rfl
@[simp] theorem State.txqDrawn_stepIx : (s.txqDrawn).stepIx = s.stepIx := rfl
@[simp] theorem State.txqDrawn_cause : (s.txqDrawn).cause = s.cause := rfl
@[simp] theorem State.txqDrawn_result : (s.txqDrawn).result = s.result := rfl
@[simp] theorem State.txqDrawn_eventTag : (s.txqDrawn).eventTag = s.eventTag := rfl
@[simp] theorem State.txqDrawn_eventLen : (s.txqDrawn).eventLen = s.eventLen := rfl
@[simp] theorem State.txqDrawn_rssi : (s.txqDrawn).rssi = s.rssi := rfl
@[simp] theorem State.txqDrawn_snr : (s.txqDrawn).snr = s.snr := rfl
@[simp] theorem State.txqDrawn_rxFlag : (s.txqDrawn).rxFlag = s.rxFlag := rfl
@[simp] theorem State.txqDrawn_txFlag : (s.txqDrawn).txFlag = s.txFlag := rfl
@[simp] theorem State.txqDrawn_mem : (s.txqDrawn).mem = s.mem := rfl
@[simp] theorem State.txqDrawn_pcache : (s.txqDrawn).pcache = s.pcache := rfl
@[simp] theorem State.txqDrawn_irqPrev : (s.txqDrawn).irqPrev = s.irqPrev := rfl
@[simp] theorem State.txqDrawn_seq : (s.txqDrawn).seq = s.seq := rfl
@[simp] theorem State.txqDrawn_inReset : (s.txqDrawn).inReset = s.inReset := rfl
@[simp] theorem State.txqDrawn_tcxo : (s.txqDrawn).tcxo = s.tcxo := rfl
@[simp] theorem State.txqDrawn_chipMode : (s.txqDrawn).chipMode = s.chipMode := rfl
@[simp] theorem State.txqDrawn_faults : (s.txqDrawn).faults = s.faults := rfl
@[simp] theorem State.txqDrawn_chip : (s.txqDrawn).chip = { s.chip with txq := s.chip.txq ++ Config.drawBytes s.draws } := rfl
@[simp] theorem State.txqDrawn_rdata : (s.txqDrawn).rdata = s.rdata := rfl
@[simp] theorem State.txqDrawn_log : (s.txqDrawn).log = s.log := rfl
@[simp] theorem State.txqDrawn_draws : (s.txqDrawn).draws = s.draws + 1 := rfl
@[simp] theorem State.txqDrawn_inputs : (s.txqDrawn).inputs = s.inputs := rfl
@[simp] theorem State.txqDrawn_during : (s.txqDrawn).during = s.during := rfl

/-! `State.rxqDrawn` -/

@[simp] theorem State.rxqDrawn_params (n : Nat) : (s.rxqDrawn n).params = s.params := rfl
@[simp] theorem State.rxqDrawn_cmd (n : Nat) : (s.rxqDrawn n).cmd = s.cmd := rfl
@[simp] theorem State.rxqDrawn_busy (n : Nat) : (s.rxqDrawn n).busy = s.busy := rfl
@[simp] theorem State.rxqDrawn_irqPend (n : Nat) : (s.rxqDrawn n).irqPend = s.irqPend := rfl
@[simp] theorem State.rxqDrawn_ovr (n : Nat) : (s.rxqDrawn n).ovr = s.ovr := rfl
@[simp] theorem State.rxqDrawn_err (n : Nat) : (s.rxqDrawn n).err = s.err := rfl
@[simp] theorem State.rxqDrawn_stepIx (n : Nat) : (s.rxqDrawn n).stepIx = s.stepIx := rfl
@[simp] theorem State.rxqDrawn_cause (n : Nat) : (s.rxqDrawn n).cause = s.cause := rfl
@[simp] theorem State.rxqDrawn_result (n : Nat) : (s.rxqDrawn n).result = s.result := rfl
@[simp] theorem State.rxqDrawn_eventTag (n : Nat) : (s.rxqDrawn n).eventTag = s.eventTag := rfl
@[simp] theorem State.rxqDrawn_eventLen (n : Nat) : (s.rxqDrawn n).eventLen = s.eventLen := rfl
@[simp] theorem State.rxqDrawn_rssi (n : Nat) : (s.rxqDrawn n).rssi = s.rssi := rfl
@[simp] theorem State.rxqDrawn_snr (n : Nat) : (s.rxqDrawn n).snr = s.snr := rfl
@[simp] theorem State.rxqDrawn_rxFlag (n : Nat) : (s.rxqDrawn n).rxFlag = s.rxFlag := rfl
@[simp] theorem State.rxqDrawn_txFlag (n : Nat) : (s.rxqDrawn n).txFlag = s.txFlag := rfl
@[simp] theorem State.rxqDrawn_mem (n : Nat) : (s.rxqDrawn n).mem = s.mem := rfl
@[simp] theorem State.rxqDrawn_pcache (n : Nat) : (s.rxqDrawn n).pcache = s.pcache := rfl
@[simp] theorem State.rxqDrawn_irqPrev (n : Nat) : (s.rxqDrawn n).irqPrev = s.irqPrev := rfl
@[simp] theorem State.rxqDrawn_seq (n : Nat) : (s.rxqDrawn n).seq = s.seq := rfl
@[simp] theorem State.rxqDrawn_inReset (n : Nat) : (s.rxqDrawn n).inReset = s.inReset := rfl
@[simp] theorem State.rxqDrawn_tcxo (n : Nat) : (s.rxqDrawn n).tcxo = s.tcxo := rfl
@[simp] theorem State.rxqDrawn_chipMode (n : Nat) : (s.rxqDrawn n).chipMode = s.chipMode := rfl
@[simp] theorem State.rxqDrawn_faults (n : Nat) : (s.rxqDrawn n).faults = s.faults := rfl
@[simp] theorem State.rxqDrawn_chip (n : Nat) : (s.rxqDrawn n).chip = { s.chip with rxq := s.chip.rxq.drop (min n (Config.drawCount s.draws)) } := rfl
@[simp] theorem State.rxqDrawn_rdata (n : Nat) : (s.rxqDrawn n).rdata = s.rdata := rfl
@[simp] theorem State.rxqDrawn_log (n : Nat) : (s.rxqDrawn n).log = s.log := rfl
@[simp] theorem State.rxqDrawn_draws (n : Nat) : (s.rxqDrawn n).draws = s.draws + 1 := rfl
@[simp] theorem State.rxqDrawn_inputs (n : Nat) : (s.rxqDrawn n).inputs = s.inputs := rfl
@[simp] theorem State.rxqDrawn_during (n : Nat) : (s.rxqDrawn n).during = s.during := rfl

end Sys2Proof.Machine
end

