-- ==== Sys2Proof/Laws/Carried.lean ====
section
/-! SUPPORT. What any part of a running command carries over from the state before it, said once: `Carried p s t`, where the
permissions `p` name the few fields the part may change besides. Every shared operation of the machine has its lemma here;
the frame of a command is then one composition (`Laws/Frames.lean`). -/

namespace Sys2Proof.Machine

/-- What a part of a command may change besides the chip's side, the page cache and the ghosts. -/
structure Perm where
  /-- BUSY, ERR, STEP and CAUSE: only the start and the end of a command write them. -/
  status  : Bool := false
  result  : Bool := false
  tcxo    : Bool := false
  mailbox : Bool := false
  rxFlag  : Bool := false
  txFlag  : Bool := false
  pend    : Bool := false
  /-- Bytes of `mem` from `lo` up to but not including `hi`. -/
  lo : Nat := 0
  hi : Nat := 0

/-- What is carried over. -/
structure Carried (p : Perm) (s t : State) : Prop where
  params  : t.params = s.params
  cmd     : t.cmd = s.cmd
  busy    : p.status = false → t.busy = s.busy
  err     : p.status = false → t.err = s.err
  stepIx  : p.status = false → t.stepIx = s.stepIx
  cause   : p.status = false → t.cause = s.cause
  result  : p.result = false → t.result = s.result
  tcxo    : p.tcxo = false → t.tcxo = s.tcxo
  tag     : p.mailbox = false → t.eventTag = s.eventTag
  len     : p.mailbox = false → t.eventLen = s.eventLen
  rssi    : p.mailbox = false → t.rssi = s.rssi
  snr     : p.mailbox = false → t.snr = s.snr
  rxFlag  : p.rxFlag = false → t.rxFlag = s.rxFlag
  txFlag  : p.txFlag = false → t.txFlag = s.txFlag
  pend    : p.pend = false → s.irqPend = true → t.irqPend = true
  memSame : p.hi ≤ p.lo → t.mem = s.mem
  memOut  : ∀ a, ¬ (p.lo ≤ a ∧ a < p.hi) → t.mem.read a = s.mem.read a
  listed  : ∀ a, s.mem.read a ≠ none → t.mem.read a ≠ none
  memWf   : s.mem.wf = true → t.mem.wf = true
  regsWf  : s.chip.regs.wf = true → t.chip.regs.wf = true
  log     : s.log <+: t.log
  ovr     : s.ovr = true → t.ovr = true
  faults  : s.faults.within t.faults
  draws   : s.draws ≤ t.draws
  oracle  : t.chip.oracle = s.chip.oracle
  inReset : s.inReset = true → t.inReset = true

theorem FaultSet.within_refl (f : FaultSet) : f.within f := ⟨id, id, id⟩

theorem FaultSet.within_trans {f g h : FaultSet} (a : f.within g) (b : g.within h) : f.within h :=
  ⟨b.1 ∘ a.1, b.2.1 ∘ a.2.1, b.2.2 ∘ a.2.2⟩

theorem Carried.refl (p : Perm) (s : State) : Carried p s s where
  params := rfl
  cmd := rfl
  busy _ := rfl
  err _ := rfl
  stepIx _ := rfl
  cause _ := rfl
  result _ := rfl
  tcxo _ := rfl
  tag _ := rfl
  len _ := rfl
  rssi _ := rfl
  snr _ := rfl
  rxFlag _ := rfl
  txFlag _ := rfl
  pend _ := id
  memSame _ := rfl
  memOut _ _ := rfl
  listed _ := id
  memWf := id
  regsWf := id
  log := List.prefix_rfl
  ovr := id
  faults := FaultSet.within_refl _
  draws := le_rfl
  oracle := rfl
  inReset := id

theorem Carried.trans {p : Perm} {s t u : State} (a : Carried p s t) (b : Carried p t u) : Carried p s u where
  params := b.params.trans a.params
  cmd := b.cmd.trans a.cmd
  busy h := (b.busy h).trans (a.busy h)
  err h := (b.err h).trans (a.err h)
  stepIx h := (b.stepIx h).trans (a.stepIx h)
  cause h := (b.cause h).trans (a.cause h)
  result h := (b.result h).trans (a.result h)
  tcxo h := (b.tcxo h).trans (a.tcxo h)
  tag h := (b.tag h).trans (a.tag h)
  len h := (b.len h).trans (a.len h)
  rssi h := (b.rssi h).trans (a.rssi h)
  snr h := (b.snr h).trans (a.snr h)
  rxFlag h := (b.rxFlag h).trans (a.rxFlag h)
  txFlag h := (b.txFlag h).trans (a.txFlag h)
  pend h := b.pend h ∘ a.pend h
  memSame h := (b.memSame h).trans (a.memSame h)
  memOut x h := (b.memOut x h).trans (a.memOut x h)
  listed x h := b.listed x (a.listed x h)
  memWf := b.memWf ∘ a.memWf
  regsWf := b.regsWf ∘ a.regsWf
  log := a.log.trans b.log
  ovr := b.ovr ∘ a.ovr
  faults := FaultSet.within_trans a.faults b.faults
  draws := le_trans a.draws b.draws
  oracle := b.oracle.trans a.oracle
  inReset := b.inReset ∘ a.inReset

/-- A part that changes nothing of the status words is also one that may. -/
theorem Carried.status_of {p : Perm} {s t : State} (a : Carried p s t) : Carried { p with status := true } s t :=
  { a with
    busy := fun h => nomatch h
    err := fun h => nomatch h
    stepIx := fun h => nomatch h
    cause := fun h => nomatch h }

/-- The chip's side of the state, and what only the outside and the block's ports see: fields no permission guards. -/
theorem Carried.of_ports (p : Perm) (s : State) (chip : Chip) (pcache : Option Page) (irqPrev : Bool) (seq : Option Nat)
    (chipMode : Option Mode) (rdata : Word) (draws : Nat) (inputs : List Input) (during : List (List Input))
    (ho : chip.oracle = s.chip.oracle) (hw : s.chip.regs.wf = true → chip.regs.wf = true) (hd : s.draws ≤ draws) :
    Carried p s { s with
      chip := chip
      pcache := pcache
      irqPrev := irqPrev
      seq := seq
      chipMode := chipMode
      rdata := rdata
      draws := draws
      inputs := inputs
      during := during } :=
  { Carried.refl p s with oracle := ho, regsWf := hw, draws := hd }

variable (p : Perm) (s : State)

/-! ## Outputs, free values, model faults -/

theorem carried_drawByte : Carried p s s.drawByte.2 := { Carried.refl p s with draws := Nat.le_succ _ }

theorem carried_drawBit : Carried p s s.drawBit.2 := { Carried.refl p s with draws := Nat.le_succ _ }

theorem carried_drawWord : Carried p s s.drawWord.2 := { Carried.refl p s with draws := Nat.le_succ _ }

theorem carried_drawList (n : Nat) : Carried p s (s.drawList n).2 := by
  induction n generalizing s with
  | zero => exact Carried.refl p s
  | succ n ih => exact (carried_drawByte p s).trans (ih _)

theorem carried_logged (e : BusEvent) : Carried p s (s.logged e) :=
  { Carried.refl p s with log := List.prefix_append _ _ }

theorem carried_advance : Carried p s s.advance := { Carried.refl p s with }

theorem carried_dropPage : Carried p s s.dropPage := { Carried.refl p s with }

theorem carried_recordIllegal : Carried p s s.recordIllegal :=
  { Carried.refl p s with faults := ⟨fun _ => rfl, id, id⟩ }

theorem carried_recordUnwritten : Carried p s s.recordUnwritten :=
  { Carried.refl p s with faults := ⟨id, fun _ => rfl, id⟩ }

theorem carried_recordRefused : Carried p s s.recordRefused :=
  { Carried.refl p s with faults := ⟨id, id, fun _ => rfl⟩ }

/-! ## The chip's side -/

theorem carried_setRegs (m : Memory) (h : s.chip.regs.wf = true → m.wf = true) : Carried p s (s.setRegs m) :=
  { Carried.refl p s with regsWf := h, oracle := rfl }

theorem carried_setLine (level : Bool) : Carried p s (s.setLine level) := by
  unfold State.setLine
  split
  · exact { Carried.refl p s with oracle := rfl }
  · exact { Carried.refl p s with oracle := rfl, pend := fun _ h => by simp [h] }

theorem carried_oracleLine : Carried p s s.oracleLine := carried_setLine p s _

theorem carried_storeReg (pg : Page) (a v : Byte) : Carried p s (s.storeReg pg a v) := by
  have h := carried_setRegs p s (s.chip.regs.write (regKey s.params pg a) v) (fun h => Memory.wf_write h _ _)
  unfold State.storeReg
  split
  · exact h.trans (carried_oracleLine p _)
  · exact h

theorem carried_forgetReg (a : Byte) : Carried p s (s.forgetReg a) :=
  carried_setRegs p s _ fun h => Memory.wf_forget h _

theorem carried_unverified (a : Byte) : Carried p s (s.unverified a) := by
  unfold State.unverified
  split
  · exact Carried.refl p s
  · exact carried_forgetReg p s a

theorem carried_regOrDraw (r : RegAt) : Carried p s (s.regOrDraw r).2 := by
  unfold State.regOrDraw
  split
  · exact Carried.refl p s
  · exact carried_drawByte p s

/-- A register read or drawn leaves the chip as it is. -/
theorem regOrDraw_chip (r : RegAt) : (s.regOrDraw r).2.chip = s.chip := by
  unfold State.regOrDraw
  split <;> rfl

/-- All a verified IRQ clear can do: the IRQ-status register has a byte with no event bit set, and the line falls, unless a
bit of that byte holds it. -/
theorem irqCleared_cases (s : State) :
    ∃ (b : Byte) (n : Nat), s.draws ≤ n ∧ b &&& irqEventMask s.params = 0 ∧
      (clearsItself s.params = true → b = s.params.irqClr.value &&& ~~~(irqEventMask s.params)) ∧
      let u := ({ s with draws := n }).setRegs
        (s.chip.regs.write (regKey s.params s.params.irqReg.page s.params.irqReg.addr) b)
      (s.irqCleared = u.setLine (!activeLevel s.params.irqActive) ∨ b ≠ 0 ∧ s.irqCleared = u) := by
  have hm (v m : Byte) : v &&& ~~~m &&& m = 0 := by
    ext i hi
    cases h : m[i] <;> simp [h]
  unfold State.irqCleared
  dsimp only
  split
  · refine ⟨s.params.irqClr.value &&& ~~~(irqEventMask s.params), s.draws + 1, by omega, hm _ _, fun _ => rfl, ?_⟩
    split
    · next h => exact .inr ⟨bne_iff_ne.1 (Bool.and_eq_true _ _ ▸ h).1, rfl⟩
    · exact .inl rfl
  · next hc =>
    refine ⟨s.drawByte.1 &&& ~~~(irqEventMask s.params), s.draws + 2, by omega, hm _ _, fun h => absurd h hc, ?_⟩
    split
    · next h => exact .inr ⟨bne_iff_ne.1 (Bool.and_eq_true _ _ ▸ h).1, rfl⟩
    · exact .inl rfl

theorem carried_irqCleared : Carried p s s.irqCleared := by
  obtain ⟨b, n, hn, -, -, h⟩ := irqCleared_cases s
  have hu : Carried p s (({ s with draws := n }).setRegs
      (s.chip.regs.write (regKey s.params s.params.irqReg.page s.params.irqReg.addr) b)) :=
    { Carried.refl p s with oracle := rfl, draws := hn, regsWf := fun hw => Memory.wf_write hw _ _ }
  rcases h with h | ⟨-, h⟩
  · exact h ▸ hu.trans (carried_setLine p _ _)
  · exact h ▸ hu

theorem carried_writeVerified (a v : Byte) : Carried p s (s.writeVerified a v) := by
  unfold State.writeVerified
  split
  · exact Carried.refl p s
  · split
    · split
      · exact carried_irqCleared p s
      · exact Carried.refl p s
    · split
      · dsimp only
        split
        · exact (carried_drawBit p s).trans (carried_irqCleared p _)
        · exact carried_drawBit p s
      · exact Carried.refl p s

theorem carried_clearFailed (a v got : Byte) : Carried p s (s.clearFailed a v got) := by
  unfold State.clearFailed
  split
  · have h := (carried_setRegs p s (s.chip.regs.write (regKey s.params s.params.irqReg.page a) got)
      fun h => Memory.wf_write h _ _).trans (carried_oracleLine p _)
    exact { h with pend := fun _ => id }
  · exact Carried.refl p s

theorem carried_setTxq (q : List Byte) : Carried p s (s.setTxq q) := { Carried.refl p s with oracle := rfl }

theorem carried_setRxq (q : List Byte) : Carried p s (s.setRxq q) := { Carried.refl p s with oracle := rfl }

theorem carried_txqDrawn : Carried p s s.txqDrawn := { Carried.refl p s with oracle := rfl, draws := Nat.le_succ _ }

theorem carried_rxqDrawn (n : Nat) : Carried p s (s.rxqDrawn n) :=
  { Carried.refl p s with oracle := rfl, draws := Nat.le_succ _ }

theorem carried_chipWrite (a v : Byte) : Carried p s (s.chipWrite a v) := by
  unfold State.chipWrite
  split
  · exact carried_setTxq p s _
  · split
    · exact carried_storeReg p s 0 a v
    · split
      · exact carried_forgetReg p s a
      · split
        · exact Carried.refl p s
        · exact carried_storeReg p s _ a v

theorem carried_consumed (a : Byte) : Carried p s (s.consumed a) := by
  unfold State.consumed
  split
  · exact carried_setRxq p s _
  · exact Carried.refl p s

theorem carried_oracleByte (a : Byte) : Carried p s (s.oracleByte a).2 := by
  unfold State.oracleByte
  split
  · exact Carried.refl p s
  · split
    · exact carried_regOrDraw p s _
    · exact carried_drawByte p s

theorem carried_chipByte (a : Byte) (forced : List Byte) : Carried p s (s.chipByte a forced).2 := by
  have h : Carried p s (if s.chip.oracle then s.oracleByte a else s.drawByte).2 := by
    split
    · exact carried_oracleByte p s a
    · exact carried_drawByte p s
  exact h.trans (carried_consumed p _ a)

theorem carried_chipBytes (a : Byte) (forced : List Byte) (n : Nat) : Carried p s (s.chipBytes a forced n).2 := by
  induction n generalizing s forced with
  | zero => exact Carried.refl p s
  | succ n ih => exact (carried_chipByte p s a forced).trans (ih _ _)

theorem carried_setChipMode (m : Option Mode) : Carried p s (s.setChipMode m) := { Carried.refl p s with }

/-- CHIPMODE is the mode-control register's own ghost: the chip takes a mode on its own. -/
theorem carried_chipTakesMode (m : Mode) : Carried p s (s.chipTakesMode m) :=
  ((carried_regOrDraw p s _).trans (carried_storeReg p _ _ _ _)).trans (carried_setChipMode p _ _)

theorem carried_pageDrawn (a : Byte) : Carried p s (s.pageDrawn a) := by
  unfold State.pageDrawn
  split
  · exact (carried_drawByte p s).trans (carried_setRegs p _ _ fun h => Memory.wf_write h _ _)
  · exact Carried.refl p s

theorem carried_monitorWrite (a v : Byte) : Carried p s (s.monitorWrite a v) := by
  unfold State.monitorWrite
  dsimp only
  refine (carried_pageDrawn p s a).trans ?_
  split
  · refine Carried.trans ?_ (carried_setChipMode p _ _)
    split
    · exact Carried.refl p _
    · exact carried_recordIllegal p _
  · exact Carried.refl p _

theorem carried_monitorRead (a r : Byte) : Carried p s (s.monitorRead a r) := by
  unfold State.monitorRead
  split
  · exact carried_setChipMode p s _
  · exact Carried.refl p s

theorem carried_monitorLost (a : Byte) : Carried p s (s.monitorLost a) := by
  unfold State.monitorLost
  split
  · exact carried_setChipMode p s _
  · exact Carried.refl p s

theorem carried_forgetFrom (a : Byte) : Carried p s (s.forgetFrom a) :=
  carried_setRegs p s _ fun h => Memory.wf_forget h _

theorem carried_burstHidesMode (a : Byte) : Carried p s (s.burstHidesMode a) := by
  unfold State.burstHidesMode
  split
  · exact carried_setChipMode p s _
  · exact Carried.refl p s

theorem carried_burstDisturbs (a : Byte) : Carried p s (s.burstDisturbs a) := by
  unfold State.burstDisturbs
  split
  · exact carried_burstHidesMode p s a
  · exact (carried_burstHidesMode p s a).trans (carried_forgetFrom p _ a)

theorem carried_foldl_chipWrite (a : Byte) (bs : List Byte) :
    Carried p s (bs.foldl (fun u b => u.chipWrite a b) s) := by
  induction bs generalizing s with
  | nil => exact Carried.refl p s
  | cons b bs ih => exact (carried_chipWrite p s a b).trans (ih _)

theorem carried_chipBurst (a : Byte) (bs : List Byte) : Carried p s (s.chipBurst a bs) := by
  unfold State.chipBurst
  split
  · exact carried_setTxq p s _
  · dsimp only
    split
    · exact (carried_burstDisturbs p s a).trans (carried_foldl_chipWrite p _ a bs)
    · split
      · exact (carried_burstDisturbs p s a).trans (carried_txqDrawn p _)
      · exact carried_burstDisturbs p s a

theorem carried_chipBurstLost (a : Byte) : Carried p s (s.chipBurstLost a) := by
  have h := (carried_burstHidesMode p s a).trans (carried_forgetFrom p _ a)
  unfold State.chipBurstLost
  split
  · exact carried_txqDrawn p s
  · dsimp only
    split
    · exact h.trans (carried_txqDrawn p _)
    · exact h

theorem carried_chipWriteLost (a : Byte) : Carried p s (s.chipWriteLost a) := by
  unfold State.chipWriteLost
  split
  · exact carried_txqDrawn p s
  · exact carried_forgetReg p s a

theorem carried_chipReadLost (a : Byte) (n : Nat) : Carried p s (s.chipReadLost a n) := by
  unfold State.chipReadLost
  split
  · exact carried_rxqDrawn p s n
  · exact Carried.refl p s

theorem carried_chipBurstRead (a : Byte) (n : Nat) : Carried p s (s.chipBurstRead a n) := by
  unfold State.chipBurstRead
  split
  · exact Carried.refl p s
  · dsimp only
    split
    · exact (carried_burstDisturbs p s a).trans (carried_rxqDrawn p _ n)
    · exact carried_burstDisturbs p s a

theorem carried_nextAnswer : Carried p s s.nextAnswer.2 := by
  unfold State.nextAnswer
  dsimp only
  split
  · exact { Carried.refl p s with oracle := rfl }
  · exact { Carried.refl p s with oracle := rfl }
  · exact { Carried.refl p s with oracle := rfl }
  · split
    · exact { Carried.refl p s with oracle := rfl }
    · exact { Carried.refl p s with oracle := rfl, draws := Nat.le_succ _ }

theorem carried_chipPowered : Carried p s s.chipPowered := by
  have h : Carried p s { s with chip := { s.chip with regs := [], txq := [], rxq := [] } } :=
    { Carried.refl p s with oracle := rfl, regsWf := fun _ => rfl }
  exact h.trans (carried_chipTakesMode p _ _)

/-! ## What arrives while a command runs -/

theorem carried_hostByte (off : Nat) : Carried p s (s.hostByte off).2 := by
  unfold State.hostByte
  split
  · exact carried_drawByte p s
  · split
    · exact Carried.refl p s
    · exact carried_drawByte p s

theorem carried_hostBytes (off n : Nat) : Carried p s (s.hostBytes off n).2 := by
  induction n generalizing s off with
  | zero => exact Carried.refl p s
  | succ n ih => exact (carried_hostByte p s off).trans (ih _ _)

theorem carried_setRdata (w : Word) : Carried p s (s.setRdata w) := { Carried.refl p s with }

theorem carried_setOvr : Carried p s s.setOvr := { Carried.refl p s with ovr := fun _ => rfl }

theorem carried_assertReset : Carried p s s.assertReset := { Carried.refl p s with inReset := fun _ => rfl }

theorem carried_hostRead (addr width : Nat) : Carried p s (s.hostRead addr width) := by
  unfold State.hostRead
  split
  · exact carried_recordRefused p s
  · split
    · exact (carried_hostBytes p s _ _).trans (carried_setRdata p _ _)
    · split
      · exact (carried_drawWord p s).trans (carried_setRdata p _ _)
      · exact carried_setRdata p s _

/-- A host write that meets BUSY = 1 changes nothing of the block but OVR and the fault set. -/
theorem carried_hostWrite (hb : s.busy = true) (addr width : Nat) (v : Word) :
    Carried p s (s.hostWrite addr width v) := by
  unfold State.hostWrite
  split
  · exact carried_recordRefused p s
  · simp only [hb, if_true, Bool.and_true]
    split
    · exact carried_setOvr p s
    · split
      · exact carried_setOvr p s
      · exact Carried.refl p s

/-- An input other than the release of reset, arriving while BUSY = 1. -/
theorem carried_arrive (hb : s.busy = true) (i : Input) (hr : ∀ b, i ≠ .resetRelease b) :
    Carried p s (s.arrive i) := by
  cases i with
  | hostRead addr width =>
    simp only [State.arrive]
    split
    · exact Carried.refl p s
    · exact carried_hostRead p s addr width
  | hostWrite addr width v =>
    simp only [State.arrive]
    split
    · exact Carried.refl p s
    · exact carried_hostWrite p s hb addr width v
  | irqLine level =>
    simp only [State.arrive]
    split
    · exact Carried.refl p s
    · exact carried_setLine p s level
  | completion m =>
    simp only [State.arrive]
    split
    · exact carried_chipTakesMode p s m
    · exact Carried.refl p s
  | chipReg pg off v => exact carried_storeReg p s _ off v
  | chipRx bytes => exact carried_setRxq p s _
  | chipTx count => exact carried_setTxq p s _
  | chipPower => exact carried_chipPowered p s
  | resetAssert => exact carried_assertReset p s
  | resetRelease b => exact absurd rfl (hr b)

end Sys2Proof.Machine
end

