-- ==== Sys2Proof/Laws/Frames.lean ====
section
/-! SUPPORT. What every part of a command carries over, however it ends, and from these the frame of every command:
`permOf` says, for each of the 23, what it may change. -/

namespace Sys2Proof.Machine

/-- The state a part of a command ends in, however it ends. -/
def endState {α : Type} : EStateM.Result Stop State α → State
  | .ok _ s => s
  | .error _ s => s

@[simp] theorem endState_ok {α : Type} (a : α) (s : State) : endState (.ok a s : EStateM.Result Stop State α) = s := rfl
@[simp] theorem endState_error {α : Type} (e : Stop) (s : State) :
    endState (.error e s : EStateM.Result Stop State α) = s := rfl

/-- A part of a command carries over, from every state with BUSY = 1, what `p` does not permit it to change. -/
def Carries {α : Type} (p : Perm) (c : Cmd α) : Prop := ∀ s, s.busy = true → Carried p s (endState (c s))

section
variable {α β : Type} {p : Perm}

theorem carries_pure (a : α) : Carries p (pure a) := fun s _ => Carried.refl p s

theorem carries_bind (hp : p.status = false) {c : Cmd α} {f : α → Cmd β} (hc : Carries p c) (hf : ∀ a, Carries p (f a)) :
    Carries p (c >>= f) := by
  intro s hs
  have h := hc s hs
  simp only [bind, EStateM.bind]
  split
  · next a t heq =>
    rw [heq] at h
    exact h.trans (hf a t ((h.busy hp).trans hs))
  · next e t heq =>
    rw [heq] at h
    exact h

theorem carries_change {f : State → State} (h : ∀ s, Carried p s (f s)) : Carries p (change f) := fun s _ => h s

theorem carries_getParams : Carries p getParams := fun s _ => Carried.refl p s

theorem carries_raiseError (e : Error) : Carries p (raiseError e : Cmd α) := fun s _ => Carried.refl p s

/-- What arrives at a boundary leaves the running command's own state alone. -/
theorem carried_arriveAll (hp : p.status = false) (l : List Input) (s : State) (hs : s.busy = true) :
    Carried p s (endState (s.arriveAll l)) := by
  induction l generalizing s with
  | nil => exact Carried.refl p s
  | cons i l ih =>
    cases i
    case resetAssert => exact { Carried.refl p s with inReset := fun _ => rfl }
    case resetRelease b => exact ih s hs
    all_goals
      refine Carried.trans (carried_arrive p s hs _ ?_) (ih _ ?_)
      · intro b hb
        cases hb
      · rw [(carried_arrive p s hs _ (by intro b hb; cases hb)).busy hp, hs]

theorem carries_boundary (hp : p.status = false) : Carries p boundary := by
  intro s hs
  unfold boundary
  split
  · exact Carried.refl p s
  · next now later _ =>
    exact Carried.trans (t := { s with during := later }) { Carried.refl p s with } (carried_arriveAll hp now _ hs)

/-- What a good, a faulted and a never-ending transaction carry over. -/
theorem carries_transact (hp : p.status = false) {before : State → State} {good : List Byte → State → α × State}
    {lost : State → State} {failed : BusEvent} (hb : ∀ s, Carried p s (before s)) (hg : ∀ l s, Carried p s (good l s).2)
    (hf : ∀ s, Carried p s (lost s)) : Carries p (transact before good lost failed) := by
  unfold transact
  refine carries_bind hp (carries_boundary hp) fun _ s _ => ?_
  have h1 : Carried p s (before s).advance := (hb s).trans (carried_advance p _)
  have h2 := h1.trans (carried_nextAnswer p _)
  dsimp only
  split
  · exact h2.trans (hg _ _)
  · exact ((h2.trans (hf _)).trans (carried_logged p _ _)).trans (carried_dropPage p _)
  · exact h2.trans (hf _)

theorem carries_busRead (hp : p.status = false) (a : Byte) : Carries p (busRead a) :=
  carries_transact hp (fun s => carried_pageDrawn p s a)
    (fun l s => ((carried_chipByte p s a l).trans (carried_logged p _ _)).trans (carried_monitorRead p _ a _))
    (fun s => carried_chipReadLost p s a 1)

theorem carries_busWrite (hp : p.status = false) (a v : Byte) : Carries p (busWrite a v) :=
  carries_transact hp (fun s => carried_monitorWrite p s a v)
    (fun _ s => (carried_chipWrite p s a v).trans (carried_logged p _ _))
    (fun s => (carried_chipWriteLost p s a).trans (carried_monitorLost p _ a))

theorem carries_busBurstRead (hp : p.status = false) (a : Byte) (n : Nat) : Carries p (busBurstRead a n) :=
  carries_transact hp (fun s => Carried.refl p s)
    (fun l s => ((carried_chipBytes p s a l n).trans (carried_chipBurstRead p _ a n)).trans (carried_logged p _ _))
    (fun s => (carried_chipReadLost p s a n).trans (carried_chipBurstRead p _ a n))

theorem carries_busBurstWrite (hp : p.status = false) (a : Byte) (bs : List Byte) : Carries p (busBurstWrite a bs) := by
  refine carries_transact hp (fun s => ?_)
    (fun _ s => (carried_chipBurst p s a bs).trans (carried_logged p _ _))
    (fun s => carried_chipBurstLost p s a)
  split
  · exact Carried.refl p s
  · exact carried_monitorWrite p s _ _

theorem carries_callCap (hp : p.status = false) (ht : p.tcxo = true) (c : Cap) : Carries p (callCap c) :=
  carries_bind hp (carries_boundary hp) fun _ => carries_change fun s =>
    Carried.trans (t := s.advance.logged (.cap c)) ((carried_advance p s).trans (carried_logged p _ _))
      { Carried.refl p _ with tcxo := fun h => by simp [ht] at h }

theorem carries_delay (hp : p.status = false) (t : Nat) : Carries p (delay t) :=
  carries_bind hp (carries_boundary hp) fun _ => carries_change fun s =>
    Carried.trans (t := s.advance.logged (.delay t (t + Config.drawTime s.draws)))
      ((carried_advance p s).trans (carried_logged p _ _)) { Carried.refl p _ with draws := Nat.le_succ _ }

theorem carries_switchPage (hp : p.status = false) (pg : Page) : Carries p (switchPage pg) := by
  intro s hs
  unfold switchPage
  split
  · exact Carried.refl p s
  · refine (carries_bind hp (carries_busRead hp _) fun v => carries_bind hp (carries_busWrite hp _ _) fun _ =>
      carries_bind hp (carries_busRead hp _) fun r => ?_) s hs
    split
    · exact carries_change fun u => { Carried.refl p u with }
    · exact carries_bind hp (carries_change fun u => (carried_unverified p u _).trans (carried_dropPage p _))
        fun _ => carries_raiseError _

theorem carries_pagedRead (hp : p.status = false) (r : RegAt) : Carries p (pagedRead r) :=
  carries_bind hp (carries_switchPage hp _) fun _ => carries_busRead hp _

theorem carries_pagedWrite (hp : p.status = false) (r : RegAt) (v : Byte) : Carries p (pagedWrite r v) := by
  refine carries_bind hp (carries_switchPage hp _) fun _ => carries_bind hp (carries_busWrite hp _ _) fun _ =>
    carries_bind hp (carries_change fun s => ?_) fun _ => carries_bind hp (carries_busRead hp _) fun got => ?_
  · split
    · exact carried_dropPage p s
    · exact Carried.refl p s
  · split
    · exact carries_change fun s => carried_writeVerified p s _ _
    · exact carries_bind hp (carries_change fun s => (carried_unverified p s _).trans (carried_clearFailed p _ _ _ _))
        fun _ => carries_raiseError _

theorem carries_readBuffer (b : Buf) (off len : Nat) : Carries p (readBuffer b off len) := by
  intro s _
  unfold readBuffer
  split
  · exact Carried.refl p s
  · exact carried_recordUnwritten p s

end

/-- The block writes RBUF only where `p` lets it. -/
theorem carried_storeRbuf (p : Perm) (s : State) (off : Nat) (bs : List Byte) (hlo : p.lo ≤ rbufBase + off)
    (hhi : rbufBase + off + bs.length ≤ p.hi) : Carried p s (s.storeRbuf off bs) :=
  { Carried.refl p s with
    memSame := fun h => by
      have : bs = [] := List.eq_nil_of_length_eq_zero (by omega)
      subst this
      rfl
    memOut := fun a h => Memory.read_writeList_outside bs s.mem _ a (by omega)
    listed := fun a h => by
      by_cases hin : rbufBase + off ≤ a ∧ a < rbufBase + off + bs.length
      · have := Memory.read_writeList_inside bs s.mem (rbufBase + off) (a - (rbufBase + off)) (by omega)
        rw [show rbufBase + off + (a - (rbufBase + off)) = a by omega] at this
        simp [this]
      · rw [State.storeRbuf_mem, Memory.read_writeList_outside _ _ _ _ hin]
        exact h
    memWf := fun h => Memory.wf_writeList h _ _ }

theorem drawList_length (s : State) (n : Nat) : (s.drawList n).1.length = n := by
  induction n generalizing s with
  | zero => rfl
  | succ n ih => simp [State.drawList, ih]

theorem chipBytes_length (s : State) (a : Byte) (forced : List Byte) (n : Nat) :
    (s.chipBytes a forced n).1.length = n := by
  induction n generalizing s forced with
  | zero => rfl
  | succ n ih => simp [State.chipBytes, ih]

/-- A burst read that ends well returns as many bytes as were asked for. -/
theorem busBurstRead_length {a : Byte} {n : Nat} {s t : State} {bs : List Byte}
    (h : busBurstRead a n s = .ok bs t) : bs.length = n := by
  simp only [busBurstRead, transact, bind, EStateM.bind] at h
  split at h
  · simp only [id_eq] at h
    split at h
    · cases h
      exact chipBytes_length _ _ _ _
    · cases h
    · cases h
  · cases h

section
variable {p : Perm}

theorem carries_burstIntoRbuf (hp : p.status = false) (a : Byte) (off n : Nat) (hlo : p.lo ≤ rbufBase + off)
    (hhi : rbufBase + off + n ≤ p.hi) : Carries p (burstIntoRbuf a off n) := by
  intro s hs
  have h := carries_busBurstRead hp a n s hs
  unfold burstIntoRbuf
  split
  · next bs s1 heq =>
    rw [heq] at h
    exact h.trans (carried_storeRbuf p _ _ _ hlo (by rw [busBurstRead_length heq]; exact hhi))
  · next e s1 heq =>
    rw [heq] at h
    exact (h.trans (carried_drawList p _ n)).trans
      (carried_storeRbuf p _ _ _ hlo (by rw [drawList_length]; exact hhi))
  all_goals
    next s1 heq =>
    rw [heq] at h
    exact h

theorem carries_modeStep {α : Type} {c : Cmd α} (k : BitVec 4) (hc : Carries p c) : Carries p (modeStep k c) := by
  intro s hs
  have h := hc s hs
  unfold modeStep
  split <;> next heq =>
    rw [heq] at h
    first
    | exact h
    | exact h.trans (carried_setChipMode p _ _)
    | (simp only [endState_error] at h ⊢
       split
       · exact h
       · exact h.trans (carried_setChipMode p _ _))

theorem carries_thenDropPage {c : Cmd Unit} (hc : Carries p c) : Carries p (thenDropPage c) := by
  intro s hs
  have h := hc s hs
  unfold thenDropPage
  split <;> next heq =>
    rw [heq] at h
    first
    | exact h
    | exact h.trans (carried_dropPage p _)

theorem carries_setField (hp : p.status = false) (f : Field) (x : Byte) : Carries p (setField f x) :=
  carries_bind hp carries_getParams fun _ => carries_bind hp (carries_pagedRead hp _) fun _ => carries_pagedWrite hp _ _

theorem carries_setModeField (hp : p.status = false) (m : Mode) : Carries p (setModeField m) :=
  carries_bind hp carries_getParams fun _ => carries_setField hp _ _

theorem carries_wakeSeq (hp : p.status = false) (ht : p.tcxo = true) : Carries p wakeSeq :=
  carries_bind hp (carries_change fun s => carried_dropPage p s) fun _ =>
  carries_bind hp carries_getParams fun _ =>
  carries_bind hp (carries_modeStep 1 (carries_pagedWrite hp _ _)) fun _ =>
  carries_bind hp (carries_modeStep 2 (carries_pagedWrite hp _ _)) fun _ =>
  carries_bind hp (carries_callCap hp ht _) fun _ =>
  carries_bind hp (carries_delay hp _) fun _ =>
  carries_bind hp (carries_modeStep 4 (carries_setModeField hp _)) fun _ =>
  carries_bind hp (carries_delay hp _) fun _ =>
  carries_bind hp (carries_modeStep 5 (carries_setModeField hp _)) fun _ =>
  carries_bind hp (carries_delay hp _) fun _ =>
  carries_bind hp (carries_modeStep 6 (carries_setModeField hp _)) fun _ =>
  carries_delay hp _

theorem carries_sleepGuardStep (hp : p.status = false) : Carries p sleepGuardStep := by
  refine carries_bind hp carries_getParams fun prm => ?_
  split
  · exact carries_pure _
  · refine carries_bind hp (carries_modeStep 0 (carries_pagedRead hp _)) fun v => ?_
    split
    · exact carries_pure _
    · exact carries_raiseError _

theorem carries_sleepSeq (hp : p.status = false) (ht : p.tcxo = true) (m : Mode) : Carries p (sleepSeq m) :=
  carries_bind hp (carries_sleepGuardStep hp) fun _ => carries_thenDropPage <|
  carries_bind hp carries_getParams fun _ =>
  carries_bind hp (carries_modeStep 1 (carries_setModeField hp _)) fun _ =>
  carries_bind hp (carries_delay hp _) fun _ =>
  carries_bind hp (carries_modeStep 2 (carries_setModeField hp _)) fun _ =>
  carries_bind hp (carries_delay hp _) fun _ =>
  carries_bind hp (carries_callCap hp ht _) fun _ =>
  carries_modeStep 4 (carries_setModeField hp _)

theorem carries_clearIrq (hp : p.status = false) : Carries p clearIrq :=
  carries_bind hp carries_getParams fun _ => carries_pagedWrite hp _ _

theorem carries_drainFrame (hp : p.status = false) (hlo : p.lo ≤ 0x100) (hhi : 0x200 ≤ p.hi) : Carries p drainFrame := by
  refine carries_bind hp carries_getParams fun _ => carries_bind hp (carries_pagedRead hp _) fun n => ?_
  split
  · exact carries_pure _
  · next k hk =>
    have := n.isLt
    refine carries_bind hp (carries_burstIntoRbuf hp _ _ _ ?_ ?_) fun _ => carries_pure _
    all_goals
      simp only [rbufBase, bufBase]
      omega

theorem carries_plhdReadFrom (hp : p.status = false) (rs : List RegAt) (i : Nat) (hlo : p.lo ≤ 0x100)
    (hhi : 0x100 + i + rs.length ≤ p.hi) : Carries p (plhdReadFrom i rs) := by
  induction rs generalizing i with
  | nil => exact carries_pure _
  | cons r rs ih =>
    simp only [List.length_cons] at hhi
    refine carries_bind hp (carries_pagedRead hp _) fun x => carries_bind hp (carries_change fun s => ?_) fun _ =>
      ih (i + 1) (by omega)
    exact carried_storeRbuf p s i [x] (by simp only [rbufBase, bufBase]; omega)
      (by simp only [rbufBase, bufBase, List.length_singleton]; omega)

theorem plhdMap_length (q : Params) (sel : PlhdSel) : (plhdMap q sel).length = plhdCount sel := by
  cases sel
  · simp [plhdMap, plhdCount]
  · rfl

theorem carries_plhdRead (hp : p.status = false) (sel : PlhdSel) (hlo : p.lo ≤ 0x100)
    (hhi : 0x100 + plhdCount sel ≤ p.hi) : Carries p (plhdRead sel) :=
  carries_bind hp carries_getParams fun q => carries_plhdReadFrom hp _ 0 hlo (by rw [plhdMap_length]; omega)

theorem carries_resetActions (hp : p.status = false) (l : List ResetAction) : Carries p (resetActions l) := by
  induction l with
  | nil => exact carries_pure _
  | cons a l ih =>
    refine carries_bind hp ?_ fun _ => ih
    cases a with
    | setMode m => exact carries_setModeField hp m
    | write w => exact carries_pagedWrite hp _ _

theorem carries_modeReset (hp : p.status = false) : Carries p modeReset :=
  carries_bind hp carries_getParams fun _ => carries_thenDropPage (carries_modeStep 1 (carries_resetActions hp _))

theorem carries_readAll (hp : p.status = false) (rs : List RegAt) : Carries p (readAll rs) := by
  induction rs with
  | nil => exact carries_pure _
  | cons r rs ih => exact carries_bind hp (carries_pagedRead hp r) fun _ => carries_bind hp ih fun _ => carries_pure _

theorem carries_linkMetrics (hp : p.status = false) : Carries p linkMetrics :=
  carries_bind hp carries_getParams fun _ => carries_bind hp (carries_readAll hp _) fun _ => carries_pure _

theorem carries_runHandler (hp : p.status = false) (hlo : p.lo ≤ 0x100) (hhi : 0x200 ≤ p.hi) (h : Handler) :
    Carries p (runHandler h) := by
  cases h with
  | plhd =>
    refine carries_bind hp carries_getParams fun q => carries_bind hp (carries_plhdRead hp _ hlo ?_) fun _ =>
      carries_bind hp (carries_clearIrq hp) fun _ => carries_bind hp (carries_modeReset hp) fun _ => carries_pure _
    cases q.plhdLen <;> simp only [plhdCount] <;> omega
  | rxDone =>
    exact carries_bind hp (carries_linkMetrics hp) fun _ => carries_bind hp (carries_drainFrame hp hlo hhi) fun _ =>
      carries_bind hp (carries_clearIrq hp) fun _ => carries_pure _
  | crcErr => exact carries_bind hp (carries_clearIrq hp) fun _ => carries_pure _
  | rxTo => exact carries_bind hp (carries_clearIrq hp) fun _ => carries_pure _
  | txDone => exact carries_bind hp (carries_clearIrq hp) fun _ => carries_pure _
  | none => exact carries_pure _

end

/-! ## Commands -/

/-- What each command may change (the "State written" line of its rule); BUSY, ERR, STEP and CAUSE besides. -/
def permOf : Instr → Perm
  | .nop => {}
  | .crcCcitt _ _ _ => { result := true }
  | .crcIbm _ _ _ => { result := true }
  | .regRead _ _ => { result := true }
  | .regWrite _ _ _ => {}
  | .fifoWrite _ _ _ => {}
  | .fifoRead _ off len => { lo := 0x100 + off.toNat, hi := 0x100 + off.toNat + len.toNat }
  | .pageSync => {}
  | .wakeDeep => { tcxo := true }
  | .wakeSleep => { tcxo := true }
  | .sleep => { tcxo := true }
  | .deepSleep => { tcxo := true }
  | .setMode _ => {}
  | .getMode => { result := true }
  | .setTxsub _ => {}
  | .setRxsub _ => {}
  | .send _ => {}
  | .receive => { result := true, lo := 0x100, hi := 0x200 }
  | .recvPlhd sel => { result := true, lo := 0x100, hi := 0x100 + plhdCount sel }
  | .clrIrq => {}
  | .dispatch =>
    { result := true, mailbox := true, rxFlag := true, txFlag := true, pend := true, lo := 0x100, hi := 0x200 }
  | .setRxflag _ => { rxFlag := true }
  | .setTxflag _ => { txFlag := true }

theorem carries_setResult {p : Perm} (hr : p.result = true) (v : Half) : Carries p (change fun s => s.setResult v) :=
  carries_change fun s => { Carried.refl p s with result := fun h => by simp [hr] at h }

theorem carries_crcCommand {p : Perm} (hp : p.status = false) (hr : p.result = true) (crc : List Byte → Half) (buf : Buf)
    (off len : Byte) : Carries p (crcCommand crc buf off len) :=
  carries_bind hp (carries_readBuffer _ _ _) fun _ => carries_setResult hr _

theorem carries_fifoWriteCommand {p : Perm} (hp : p.status = false) (faddr off len : Byte) :
    Carries p (fifoWriteCommand faddr off len) := by
  refine carries_bind hp (carries_readBuffer _ _ _) fun d => ?_
  split
  · exact carries_pure _
  · exact carries_busBurstWrite hp _ _

theorem carries_fifoReadCommand {p : Perm} (hp : p.status = false) (faddr off len : Byte)
    (hlo : p.lo ≤ 0x100 + off.toNat) (hhi : 0x100 + off.toNat + len.toNat ≤ p.hi) :
    Carries p (fifoReadCommand faddr off len) := by
  unfold fifoReadCommand
  split
  · exact carries_pure _
  · next n hn =>
    refine carries_burstIntoRbuf hp _ _ _ ?_ ?_
    all_goals
      simp only [rbufBase, bufBase]
      omega

theorem carries_sendCommand {p : Perm} (hp : p.status = false) (len : Byte) : Carries p (sendCommand len) :=
  carries_bind hp (carries_readBuffer _ _ _) fun _ => carries_bind hp carries_getParams fun _ =>
  carries_bind hp (carries_pagedWrite hp _ _) fun _ =>
  carries_bind hp (carries_modeStep 2 (carries_setModeField hp _)) fun _ => carries_busBurstWrite hp _ _

theorem carried_deliver {p : Perm} (hr : p.result = true) (hm : p.mailbox = true) (hx : p.rxFlag = true)
    (ht : p.txFlag = true) (s : State) (status : Byte) (d : Delivery) : Carried p s (s.deliver status d) := by
  obtain ⟨tag, len, flag, metrics⟩ := d
  cases metrics <;> cases flag <;>
    exact { Carried.refl p s with
      result := fun h => by simp [hr] at h
      tag := fun h => by simp [hm] at h
      len := fun h => by simp [hm] at h
      rssi := fun h => by simp [hm] at h
      snr := fun h => by simp [hm] at h
      rxFlag := fun h => by simp [hx] at h
      txFlag := fun h => by simp [ht] at h }

theorem carries_dispatchCommand : Carries (permOf .dispatch) dispatchCommand :=
  carries_bind rfl (carries_change fun s => { Carried.refl _ s with pend := fun h => nomatch h }) fun _ =>
  carries_bind rfl carries_getParams fun _ => carries_bind rfl (carries_pagedRead rfl _) fun status =>
  carries_bind rfl (carries_runHandler rfl (Nat.le_refl _) (Nat.le_refl _) _) fun d =>
  carries_change fun s => carried_deliver rfl rfl rfl rfl s status d

/-- A command's end carries over all but the status. -/
theorem carried_closeCommand {p : Perm} (hp : p.status = false) (s : State) (hs : s.busy = true) {f : State → State}
    (hf : ∀ u, Carried { p with status := true } u (f u)) : Carried { p with status := true } s (s.closeCommand f) := by
  have h := (carries_boundary hp s hs).status_of
  have he : ∀ u : State, Carried { p with status := true } u u.endCommand := fun u =>
    { Carried.refl _ u with
      busy := fun h => nomatch h
      err := fun h => nomatch h
      stepIx := fun h => nomatch h
      cause := fun h => nomatch h }
  unfold State.closeCommand
  split
  · next heq =>
    rw [heq] at h
    exact (h.trans (hf _)).trans (he _)
  · next heq =>
    rw [heq] at h
    exact h.trans { Carried.refl _ _ with }

theorem carried_report (p : Perm) (s : State) (e : Error) : Carried { p with status := true } s (s.report e) := by
  cases e <;> exact
    { Carried.refl _ s with
      busy := fun h => nomatch h
      err := fun h => nomatch h
      stepIx := fun h => nomatch h
      cause := fun h => nomatch h }

/-- From its start to its end, a command carries over what its parts carry over. -/
theorem runCommand_carried {p : Perm} (hp : p.status = false) {c : Cmd Unit} (hc : Carries p c) {s t : State}
    (h : runCommand c s = .next t) : Carried { p with status := true } s t := by
  cases h
  have hb : Carried { p with status := true } s s.beginCommand :=
    { Carried.refl _ s with
      busy := fun h => nomatch h
      err := fun h => nomatch h
      stepIx := fun h => nomatch h
      cause := fun h => nomatch h }
  have h1 := hc s.beginCommand rfl
  have hbusy := h1.busy hp
  refine hb.trans ?_
  unfold commandResult
  split <;> next heq =>
    rw [heq] at h1 hbusy
    first
    | exact h1.status_of
    | exact h1.status_of.trans (carried_closeCommand hp _ hbusy fun u => Carried.refl _ u)
    | exact h1.status_of.trans (carried_closeCommand hp _ hbusy fun u => carried_report p u _)
    | exact h1.status_of.trans { Carried.refl _ _ with }

/-- What each command runs between its start and its end. -/
def commandOf : Instr → Cmd Unit
  | .nop => pure ()
  | .crcCcitt buf off len => crcCommand crcCcitt buf off len
  | .crcIbm buf off len => crcCommand crcIbm buf off len
  | .regRead page addr => regReadCommand page addr
  | .regWrite page addr value => pagedWrite ⟨page, addr⟩ value
  | .fifoWrite faddr off len => fifoWriteCommand faddr off len
  | .fifoRead faddr off len => fifoReadCommand faddr off len
  | .pageSync => change State.dropPage
  | .wakeDeep => wakeSeq
  | .wakeSleep => wakeSeq
  | .sleep => sleepSeq .sleep
  | .deepSleep => sleepSeq .deepSleep
  | .setMode m => modeStep 1 (setModeField m)
  | .getMode => getModeCommand
  | .setTxsub sub => setTxsubCommand sub
  | .setRxsub sub => setRxsubCommand sub
  | .send len => sendCommand len
  | .receive => receiveCommand
  | .recvPlhd sel => recvPlhdCommand sel
  | .clrIrq => clearIrq
  | .dispatch => dispatchCommand
  | .setRxflag f => change fun u => u.applyFlag (.rx f)
  | .setTxflag f => change fun u => u.applyFlag (.tx f)

theorem exec_eq_run (i : Instr) (s : State) : exec i s = runCommand (commandOf i) s := by cases i <;> rfl

theorem permOf_status (i : Instr) : (permOf i).status = false := by cases i <;> rfl

theorem carries_commandOf (i : Instr) : Carries (permOf i) (commandOf i) := by
  cases i with
  | nop => exact carries_pure ()
  | crcCcitt buf off len => exact carries_crcCommand rfl rfl _ _ _ _
  | crcIbm buf off len => exact carries_crcCommand rfl rfl _ _ _ _
  | regRead page addr => exact carries_bind rfl (carries_pagedRead rfl _) fun _ => carries_setResult rfl _
  | regWrite page addr value => exact carries_pagedWrite rfl _ _
  | fifoWrite faddr off len => exact carries_fifoWriteCommand rfl _ _ _
  | fifoRead faddr off len => exact carries_fifoReadCommand rfl _ _ _ (Nat.le_refl _) (Nat.le_refl _)
  | pageSync => exact carries_change fun s => carried_dropPage _ s
  | wakeDeep => exact carries_wakeSeq rfl rfl
  | wakeSleep => exact carries_wakeSeq rfl rfl
  | sleep => exact carries_sleepSeq rfl rfl _
  | deepSleep => exact carries_sleepSeq rfl rfl _
  | setMode m => exact carries_modeStep 1 (carries_setModeField rfl _)
  | getMode =>
    exact carries_bind rfl carries_getParams fun _ => carries_bind rfl (carries_pagedRead rfl _) fun _ =>
      carries_setResult rfl _
  | setTxsub sub => exact carries_bind rfl carries_getParams fun _ => carries_setField rfl _ _
  | setRxsub sub => exact carries_bind rfl carries_getParams fun _ => carries_setField rfl _ _
  | send len => exact carries_sendCommand rfl _
  | receive =>
    exact carries_bind rfl (carries_drainFrame rfl (Nat.le_refl _) (Nat.le_refl _)) fun _ =>
      carries_bind rfl (carries_clearIrq rfl) fun _ => carries_setResult rfl _
  | recvPlhd sel =>
    exact carries_bind rfl (carries_plhdRead rfl sel (Nat.le_refl _) (Nat.le_refl _)) fun _ =>
      carries_bind rfl (carries_clearIrq rfl) fun _ => carries_setResult rfl _
  | clrIrq => exact carries_clearIrq rfl
  | dispatch => exact carries_dispatchCommand
  | setRxflag f =>
    exact carries_change fun s => { Carried.refl (permOf (.setRxflag f)) s with rxFlag := fun h => nomatch h }
  | setTxflag f =>
    exact carries_change fun s => { Carried.refl (permOf (.setTxflag f)) s with txFlag := fun h => nomatch h }

/-- What every command carries over, in every state and however it ends. -/
theorem exec_carried (i : Instr) {s t : State} (h : exec i s = .next t) :
    Carried { permOf i with status := true } s t :=
  runCommand_carried (permOf_status i) (carries_commandOf i) (exec_eq_run i s ▸ h)

/-- How a command ends, as STATUS shows it: reset abandoned it or a transaction never ended (BUSY stays 1), or it ended
without an error, or it raised one. -/
theorem runCommand_status {p : Perm} (hp : p.status = false) {c : Cmd Unit} (hc : Carries p c) {s t : State}
    (h : runCommand c s = .next t) :
    (t.busy = true ∧ t.err = .ok ∧ t.stepIx = 0 ∧ t.cause = .none) ∨ t.endedOk
      ∨ ∃ e u, c s.beginCommand = .error (.raised e) u ∧ t.busy = false ∧ t.seq = none
        ∧ t.err = (s.beginCommand.report e).err ∧ t.stepIx = (s.beginCommand.report e).stepIx
        ∧ t.cause = (s.beginCommand.report e).cause := by
  cases h
  have h1 := hc s.beginCommand rfl
  have close : ∀ u : State, Carried p s.beginCommand u → ∀ f : State → State,
      (u.closeCommand f).busy = true ∧ (u.closeCommand f).err = .ok ∧ (u.closeCommand f).stepIx = 0
          ∧ (u.closeCommand f).cause = .none
        ∨ ∃ w, Carried p s.beginCommand w ∧ u.closeCommand f = (f w).endCommand := by
    intro u hu f
    have h2 := carries_boundary hp u ((hu.busy hp).trans rfl)
    unfold State.closeCommand
    split
    · next heq =>
      rw [heq] at h2
      exact .inr ⟨_, hu.trans h2, rfl⟩
    · next heq =>
      rw [heq] at h2
      have h3 := hu.trans h2
      exact .inl ⟨(h3.busy hp).trans rfl, (h3.err hp).trans rfl, (h3.stepIx hp).trans rfl, (h3.cause hp).trans rfl⟩
  have ok : ∀ u : State, Carried p s.beginCommand u →
      ((u.closeCommand id).busy = true ∧ (u.closeCommand id).err = .ok ∧ (u.closeCommand id).stepIx = 0
        ∧ (u.closeCommand id).cause = .none) ∨ (u.closeCommand id).endedOk := by
    intro u hu
    refine (close u hu id).imp_right ?_
    rintro ⟨w, hw, heq⟩
    rw [heq]
    exact ⟨rfl, rfl, (hw.err hp).trans rfl, (hw.stepIx hp).trans rfl, (hw.cause hp).trans rfl⟩
  have rep : ∀ w : State, Carried p s.beginCommand w → ∀ e : Error,
      (w.report e).endCommand.busy = false ∧ (w.report e).endCommand.seq = none
        ∧ (w.report e).endCommand.err = (s.beginCommand.report e).err
        ∧ (w.report e).endCommand.stepIx = (s.beginCommand.report e).stepIx
        ∧ (w.report e).endCommand.cause = (s.beginCommand.report e).cause := by
    intro w hw e
    cases e with
    | bus => exact ⟨rfl, rfl, rfl, hw.stepIx hp, hw.cause hp⟩
    | verify _ => exact ⟨rfl, rfl, rfl, hw.stepIx hp, hw.cause hp⟩
    | mode _ _ => exact ⟨rfl, rfl, rfl, rfl, rfl⟩
  unfold commandResult
  split <;> next heq =>
    rw [heq] at h1
    first
    | exact (ok _ h1).imp_right .inl
    | exact .inl ⟨(h1.busy hp).trans rfl, (h1.err hp).trans rfl, (h1.stepIx hp).trans rfl, (h1.cause hp).trans rfl⟩
    | (rcases close _ h1 (fun u => u.report _) with h | ⟨w, hw, h2⟩
       · exact .inl h
       · refine .inr (.inr ⟨_, _, heq, ?_⟩)
         simp only [endState_error] at h2
         rw [h2]
         exact rep w hw _)

/-- DISPATCH reaches its commit or changes nothing it delivers: what it did before the commit is carried over without
permission to touch RESULT, the mailbox or the flags. -/
theorem dispatch_ends (s : State) (hs : s.busy = true) :
    (∃ d status u0 u, Carried { permOf .dispatch with result := false, mailbox := false, rxFlag := false, txFlag := false } s u
        ∧ runHandler (selectHandler s.params status) u0 = .ok d u ∧ dispatchCommand s = .ok () (u.deliver status d))
      ∨ ∃ e u, Carried { permOf .dispatch with result := false, mailbox := false, rxFlag := false, txFlag := false } s u
        ∧ dispatchCommand s = .error e u := by
  have h0 : Carried { permOf .dispatch with result := false, mailbox := false, rxFlag := false, txFlag := false } s
      { s with irqPend := false } := { Carried.refl _ s with pend := fun h => nomatch h }
  have h1 := carries_pagedRead (p := { permOf .dispatch with
    result := false, mailbox := false, rxFlag := false, txFlag := false }) rfl s.params.irqReg { s with irqPend := false } hs
  simp only [dispatchCommand, bind, EStateM.bind, change, getParams]
  split
  · next status u0 heq =>
    simp only [heq, endState_ok] at h1
    have h2 := carries_runHandler (p := { permOf .dispatch with
      result := false, mailbox := false, rxFlag := false, txFlag := false }) rfl (Nat.le_refl _) (Nat.le_refl _)
      (selectHandler s.params status) u0 ((h1.busy rfl).trans hs)
    split
    · next d u heq2 =>
      rw [heq2] at h2
      exact .inl ⟨d, status, u0, u, (h0.trans h1).trans h2, heq2, rfl⟩
    · next e u heq2 =>
      rw [heq2] at h2
      exact .inr ⟨e, u, (h0.trans h1).trans h2, rfl⟩
  · next e u heq =>
    simp only [heq, endState_error] at h1
    exact .inr ⟨e, u, h0.trans h1, rfl⟩

/-- Every command answers a next state: none stops the machine (60_exceptions.md R205). -/
theorem exec_next (i : Instr) (s : State) : ∃ t, exec i s = .next t := by
  cases i <;> exact ⟨_, rfl⟩

end Sys2Proof.Machine
end

