-- ==== Sys2Proof/Laws/Errors.lean ====
section
/-! SUPPORT. Which errors every part of a command can raise (60_exceptions.md R201, R202, R204). -/

namespace Sys2Proof.Machine

/-- A part of a command raises, if anything, an error of which `E` holds. -/
def RaisesOnly {α : Type} (E : Error → Prop) (c : Cmd α) : Prop := ∀ s e u, c s = .error (.raised e) u → E e

/-- The errors of a transaction or of a verified write, outside a mode sequence. -/
def Error.isPlain (e : Error) : Prop := e = .bus ∨ ∃ r, e = .verify r

/-- The errors of a step of a mode sequence, by the step's number. -/
def Error.isStep (ks : List (BitVec 4)) (e : Error) : Prop := ∃ k ∈ ks, e = .mode k .bus ∨ e = .mode k .verify

section
variable {α β : Type} {E F : Error → Prop}

theorem RaisesOnly.mono {c : Cmd α} (h : RaisesOnly E c) (hi : ∀ e, E e → F e) : RaisesOnly F c :=
  fun s e u hc => hi e (h s e u hc)

theorem raises_pure (a : α) : RaisesOnly E (pure a) := fun _ _ _ h => nomatch h

theorem raises_bind {c : Cmd α} {f : α → Cmd β} (hc : RaisesOnly E c) (hf : ∀ a, RaisesOnly E (f a)) :
    RaisesOnly E (c >>= f) := by
  intro s e u h
  simp only [bind, EStateM.bind] at h
  split at h
  · exact hf _ _ _ _ h
  · next heq =>
    cases h
    exact hc _ _ _ heq

theorem raises_change (f : State → State) : RaisesOnly E (change f) := fun _ _ _ h => nomatch h

theorem raises_getParams : RaisesOnly E getParams := fun _ _ _ h => nomatch h

theorem raises_raiseError {e : Error} (h : E e) : RaisesOnly E (raiseError e : Cmd α) := by
  intro s e' u he
  cases he
  exact h

theorem arriveAll_error {l : List Input} {s u : State} {e : Stop} (h : s.arriveAll l = .error e u) : e = .abandoned := by
  induction l generalizing s with
  | nil => cases h
  | cons i l ih =>
    cases i
    case resetAssert =>
      cases h
      rfl
    all_goals exact ih h

theorem boundary_error {s u : State} {e : Stop} (h : boundary s = .error e u) : e = .abandoned := by
  unfold boundary at h
  split at h
  · cases h
  · exact arriveAll_error h

theorem raises_boundary : RaisesOnly E boundary := fun _ _ _ h => nomatch boundary_error h

theorem raises_transact {before : State → State} {good : List Byte → State → α × State} {lost : State → State} {failed : BusEvent} (h : E .bus) :
    RaisesOnly E (transact before good lost failed) := by
  refine raises_bind raises_boundary fun _ s e u he => ?_
  dsimp only at he
  split at he
  · cases he
  · cases he
    exact h
  · cases he

theorem raises_busRead (h : E .bus) (a : Byte) : RaisesOnly E (busRead a) := raises_transact h

theorem raises_busWrite (h : E .bus) (a v : Byte) : RaisesOnly E (busWrite a v) := raises_transact h

theorem raises_busBurstRead (h : E .bus) (a : Byte) (n : Nat) : RaisesOnly E (busBurstRead a n) := raises_transact h

theorem raises_busBurstWrite (h : E .bus) (a : Byte) (bs : List Byte) : RaisesOnly E (busBurstWrite a bs) :=
  raises_transact h

theorem raises_callCap (c : Cap) : RaisesOnly E (callCap c) := raises_bind raises_boundary fun _ => raises_change _

theorem raises_delay (t : Nat) : RaisesOnly E (delay t) := raises_bind raises_boundary fun _ => raises_change _

theorem raises_readBuffer (b : Buf) (off len : Nat) : RaisesOnly E (readBuffer b off len) := by
  intro s e u h
  unfold readBuffer at h
  split at h <;> cases h

theorem raises_burstIntoRbuf (h : E .bus) (a : Byte) (off n : Nat) : RaisesOnly E (burstIntoRbuf a off n) := by
  intro s e u he
  unfold burstIntoRbuf at he
  split at he
  · cases he
  · next heq =>
    cases he
    exact raises_busBurstRead h a n _ _ _ heq
  all_goals cases he

end

section
variable {α : Type}

theorem raises_switchPage (pg : Page) : RaisesOnly Error.isPlain (switchPage pg) := by
  intro s e u h
  unfold switchPage at h
  split at h
  · cases h
  · refine (raises_bind (raises_busRead (.inl rfl) _) fun v => raises_bind (raises_busWrite (.inl rfl) _ _) fun _ =>
      raises_bind (raises_busRead (.inl rfl) _) fun r => ?_) s e u h
    split
    · exact raises_change _
    · exact raises_bind (raises_change _) fun _ => raises_raiseError (.inr ⟨_, rfl⟩)

theorem raises_pagedRead (r : RegAt) : RaisesOnly Error.isPlain (pagedRead r) :=
  raises_bind (raises_switchPage _) fun _ => raises_busRead (.inl rfl) _

theorem raises_pagedWrite (r : RegAt) (v : Byte) : RaisesOnly Error.isPlain (pagedWrite r v) := by
  refine raises_bind (raises_switchPage _) fun _ => raises_bind (raises_busWrite (.inl rfl) _ _) fun _ =>
    raises_bind (raises_change _) fun _ => raises_bind (raises_busRead (.inl rfl) _) fun got => ?_
  split
  · exact raises_change _
  · exact raises_bind (raises_change _) fun _ => raises_raiseError (.inr ⟨_, rfl⟩)

/-- A step turns its plain errors into its own (60_exceptions.md R204). -/
theorem raises_modeStep {c : Cmd α} (k : BitVec 4) (hc : RaisesOnly Error.isPlain c) :
    RaisesOnly (Error.isStep [k]) (modeStep k c) := by
  intro s e u h
  unfold modeStep at h
  split at h
  case h_1 => cases h
  case h_2 =>
    cases h
    exact ⟨k, List.mem_singleton.2 rfl, .inl rfl⟩
  case h_3 =>
    cases h
    exact ⟨k, List.mem_singleton.2 rfl, .inr rfl⟩
  case h_4 heq =>
    cases h
    rcases hc _ _ _ heq with h | ⟨r, h⟩ <;> cases h
  all_goals cases h

theorem raises_thenDropPage {E : Error → Prop} {c : Cmd Unit} (hc : RaisesOnly E c) : RaisesOnly E (thenDropPage c) := by
  intro s e u h
  unfold thenDropPage at h
  split at h
  case h_5 heq =>
    cases h
    exact hc _ _ _ heq
  all_goals cases h

theorem raises_setField (f : Field) (x : Byte) : RaisesOnly Error.isPlain (setField f x) :=
  raises_bind raises_getParams fun _ => raises_bind (raises_pagedRead _) fun _ => raises_pagedWrite _ _

theorem raises_setModeField (m : Mode) : RaisesOnly Error.isPlain (setModeField m) :=
  raises_bind raises_getParams fun _ => raises_setField _ _

theorem Error.isStep.mono {ks ls : List (BitVec 4)} (h : ∀ k ∈ ks, k ∈ ls) (e : Error) (he : e.isStep ks) : e.isStep ls :=
  let ⟨k, hk, he⟩ := he
  ⟨k, h k hk, he⟩

theorem raises_wakeSeq : RaisesOnly (Error.isStep [1, 2, 4, 5, 6]) wakeSeq := by
  have step : ∀ {c : Cmd Unit} (k : BitVec 4), k ∈ ([1, 2, 4, 5, 6] : List (BitVec 4)) → RaisesOnly Error.isPlain c →
      RaisesOnly (Error.isStep [1, 2, 4, 5, 6]) (modeStep k c) := fun k hk hc =>
    (raises_modeStep k hc).mono (Error.isStep.mono (by simpa using hk))
  exact raises_bind (raises_change _) fun _ => raises_bind raises_getParams fun _ =>
    raises_bind (step 1 (by decide) (raises_pagedWrite _ _)) fun _ =>
    raises_bind (step 2 (by decide) (raises_pagedWrite _ _)) fun _ =>
    raises_bind (raises_callCap _) fun _ => raises_bind (raises_delay _) fun _ =>
    raises_bind (step 4 (by decide) (raises_setModeField _)) fun _ => raises_bind (raises_delay _) fun _ =>
    raises_bind (step 5 (by decide) (raises_setModeField _)) fun _ => raises_bind (raises_delay _) fun _ =>
    raises_bind (step 6 (by decide) (raises_setModeField _)) fun _ => raises_delay _

theorem raises_sleepSeq (m : Mode) :
    RaisesOnly (fun e => e.isStep [0, 1, 2, 4] ∨ e = .mode 0 .wrongMode) (sleepSeq m) := by
  have step : ∀ {α : Type} {c : Cmd α} (k : BitVec 4), k ∈ ([0, 1, 2, 4] : List (BitVec 4)) → RaisesOnly Error.isPlain c →
      RaisesOnly (fun e => e.isStep [0, 1, 2, 4] ∨ e = .mode 0 .wrongMode) (modeStep k c) := fun k hk hc =>
    (raises_modeStep k hc).mono fun e he => .inl (Error.isStep.mono (by simpa using hk) e he)
  refine raises_bind (raises_bind raises_getParams fun p => ?_) fun _ => raises_thenDropPage ?_
  · split
    · exact raises_pure _
    · refine raises_bind (step 0 (by decide) (raises_pagedRead _)) fun v => ?_
      split
      · exact raises_pure _
      · exact raises_raiseError (.inr rfl)
  · exact raises_bind raises_getParams fun _ => raises_bind (step 1 (by decide) (raises_setModeField _)) fun _ =>
      raises_bind (raises_delay _) fun _ => raises_bind (step 2 (by decide) (raises_setModeField _)) fun _ =>
      raises_bind (raises_delay _) fun _ => raises_bind (raises_callCap _) fun _ =>
      step 4 (by decide) (raises_setModeField _)

theorem raises_clearIrq : RaisesOnly Error.isPlain clearIrq :=
  raises_bind raises_getParams fun _ => raises_pagedWrite _ _

theorem raises_drainFrame : RaisesOnly Error.isPlain drainFrame := by
  refine raises_bind raises_getParams fun _ => raises_bind (raises_pagedRead _) fun n => ?_
  split
  · exact raises_pure _
  · exact raises_bind (raises_burstIntoRbuf (.inl rfl) _ _ _) fun _ => raises_pure _

theorem raises_plhdReadFrom (rs : List RegAt) (i : Nat) : RaisesOnly Error.isPlain (plhdReadFrom i rs) := by
  induction rs generalizing i with
  | nil => exact raises_pure _
  | cons r rs ih => exact raises_bind (raises_pagedRead _) fun _ => raises_bind (raises_change _) fun _ => ih _

theorem raises_plhdRead (sel : PlhdSel) : RaisesOnly Error.isPlain (plhdRead sel) :=
  raises_bind raises_getParams fun _ => raises_plhdReadFrom _ _

theorem raises_resetActions (l : List ResetAction) : RaisesOnly Error.isPlain (resetActions l) := by
  induction l with
  | nil => exact raises_pure _
  | cons a l ih =>
    refine raises_bind ?_ fun _ => ih
    cases a with
    | setMode m => exact raises_setModeField m
    | write w => exact raises_pagedWrite _ _

theorem raises_modeReset : RaisesOnly (Error.isStep [1]) modeReset :=
  raises_bind raises_getParams fun _ => raises_thenDropPage (raises_modeStep 1 (raises_resetActions _))

theorem raises_readAll (rs : List RegAt) : RaisesOnly Error.isPlain (readAll rs) := by
  induction rs with
  | nil => exact raises_pure _
  | cons r rs ih => exact raises_bind (raises_pagedRead r) fun _ => raises_bind ih fun _ => raises_pure _

theorem raises_runHandler (h : Handler) : RaisesOnly (fun e => e.isPlain ∨ e.isStep [1]) (runHandler h) := by
  have plain : ∀ {α : Type} {c : Cmd α}, RaisesOnly Error.isPlain c →
      RaisesOnly (fun e => e.isPlain ∨ e.isStep [1]) c := fun hc => hc.mono fun _ => .inl
  cases h with
  | plhd =>
    exact raises_bind raises_getParams fun _ => raises_bind (plain (raises_plhdRead _)) fun _ =>
      raises_bind (plain raises_clearIrq) fun _ =>
      raises_bind (raises_modeReset.mono fun _ => .inr) fun _ => raises_pure _
  | rxDone =>
    exact raises_bind (raises_bind raises_getParams fun _ => raises_bind (plain (raises_readAll _)) fun _ => raises_pure _)
      fun _ => raises_bind (plain raises_drainFrame) fun _ => raises_bind (plain raises_clearIrq) fun _ => raises_pure _
  | crcErr => exact raises_bind (plain raises_clearIrq) fun _ => raises_pure _
  | rxTo => exact raises_bind (plain raises_clearIrq) fun _ => raises_pure _
  | txDone => exact raises_bind (plain raises_clearIrq) fun _ => raises_pure _
  | none => exact raises_pure _

theorem raises_dispatchCommand : RaisesOnly (fun e => e.isPlain ∨ e.isStep [1]) dispatchCommand :=
  raises_bind (raises_change _) fun _ => raises_bind raises_getParams fun _ =>
  raises_bind ((raises_pagedRead _).mono fun _ => .inl) fun _ => raises_bind (raises_runHandler _) fun _ => raises_change _

theorem raises_sendCommand (len : Byte) : RaisesOnly (fun e => e.isPlain ∨ e.isStep [2]) (sendCommand len) :=
  raises_bind (raises_readBuffer _ _ _) fun _ => raises_bind raises_getParams fun _ =>
  raises_bind ((raises_pagedWrite _ _).mono fun _ => .inl) fun _ =>
  raises_bind ((raises_modeStep 2 (raises_setModeField _)).mono fun _ => .inr) fun _ =>
  raises_busBurstWrite (.inl (.inl rfl)) _ _

end

end Sys2Proof.Machine
end

