-- ==== Sys2Proof/Laws/Outputs.lean ====
section
/-! SUPPORT. What the block puts on its ports: what leaves the outputs, the page cache and the coming answers alone (`Kept`),
that nothing follows a bus fault (`FaultLast`), and which capability calls and delays a part of a command issues (`Ports`). -/

namespace Sys2Proof.Machine

/-- The outputs, the page cache, the position, what is still to come and the answers already fixed are as before. -/
structure Kept (s t : State) : Prop where
  log     : t.log = s.log
  pcache  : t.pcache = s.pcache
  params  : t.params = s.params
  seq     : t.seq = s.seq
  during  : t.during = s.during
  inputs  : t.inputs = s.inputs
  answers : t.chip.answers = s.chip.answers

theorem Kept.refl (s : State) : Kept s s := ⟨rfl, rfl, rfl, rfl, rfl, rfl, rfl⟩

theorem Kept.trans {s t u : State} (a : Kept s t) (b : Kept t u) : Kept s u where
  log := b.log.trans a.log
  pcache := b.pcache.trans a.pcache
  params := b.params.trans a.params
  seq := b.seq.trans a.seq
  during := b.during.trans a.during
  inputs := b.inputs.trans a.inputs
  answers := b.answers.trans a.answers

variable (s : State)

theorem kept_drawByte : Kept s s.drawByte.2 := ⟨rfl, rfl, rfl, rfl, rfl, rfl, rfl⟩

theorem kept_setRegs (m : Memory) : Kept s (s.setRegs m) := ⟨rfl, rfl, rfl, rfl, rfl, rfl, rfl⟩

theorem kept_setLine (level : Bool) : Kept s (s.setLine level) := by
  unfold State.setLine
  split <;> exact ⟨rfl, rfl, rfl, rfl, rfl, rfl, rfl⟩

theorem kept_storeReg (pg : Page) (a v : Byte) : Kept s (s.storeReg pg a v) := by
  unfold State.storeReg
  split
  · exact (kept_setRegs s _).trans (kept_setLine _ _)
  · exact kept_setRegs s _

theorem kept_forgetReg (a : Byte) : Kept s (s.forgetReg a) := kept_setRegs s _

theorem kept_unverified (a : Byte) : Kept s (s.unverified a) := by
  unfold State.unverified
  split
  · exact Kept.refl s
  · exact kept_forgetReg s a

theorem kept_regOrDraw (r : RegAt) : Kept s (s.regOrDraw r).2 := by
  unfold State.regOrDraw
  split
  · exact Kept.refl s
  · exact kept_drawByte s

theorem kept_irqCleared : Kept s s.irqCleared := by
  obtain ⟨b, n, -, -, -, h⟩ := irqCleared_cases s
  have hu : Kept s (({ s with draws := n }).setRegs
      (s.chip.regs.write (regKey s.params s.params.irqReg.page s.params.irqReg.addr) b)) :=
    ⟨rfl, rfl, rfl, rfl, rfl, rfl, rfl⟩
  rcases h with h | ⟨-, h⟩
  · exact h ▸ hu.trans (kept_setLine _ _)
  · exact h ▸ hu

theorem kept_drawBit : Kept s s.drawBit.2 := ⟨rfl, rfl, rfl, rfl, rfl, rfl, rfl⟩

theorem kept_writeVerified (a v : Byte) : Kept s (s.writeVerified a v) := by
  unfold State.writeVerified
  split
  · exact Kept.refl s
  · split
    · split
      · exact kept_irqCleared s
      · exact Kept.refl s
    · split
      · dsimp only
        split
        · exact (kept_drawBit s).trans (kept_irqCleared _)
        · exact kept_drawBit s
      · exact Kept.refl s

theorem kept_clearFailed (a v got : Byte) : Kept s (s.clearFailed a v got) := by
  unfold State.clearFailed
  split
  · have h := (kept_setRegs s (s.chip.regs.write (regKey s.params s.params.irqReg.page a) got)).trans
      (kept_setLine _ _ : Kept _ (State.oracleLine _))
    exact h.trans ⟨rfl, rfl, rfl, rfl, rfl, rfl, rfl⟩
  · exact Kept.refl s

theorem kept_txqDrawn : Kept s s.txqDrawn := ⟨rfl, rfl, rfl, rfl, rfl, rfl, rfl⟩

theorem kept_rxqDrawn (n : Nat) : Kept s (s.rxqDrawn n) := ⟨rfl, rfl, rfl, rfl, rfl, rfl, rfl⟩

theorem kept_setTxq (q : List Byte) : Kept s (s.setTxq q) := ⟨rfl, rfl, rfl, rfl, rfl, rfl, rfl⟩

theorem kept_setRxq (q : List Byte) : Kept s (s.setRxq q) := ⟨rfl, rfl, rfl, rfl, rfl, rfl, rfl⟩

theorem kept_chipWrite (a v : Byte) : Kept s (s.chipWrite a v) := by
  unfold State.chipWrite
  split
  · exact kept_setTxq s _
  · split
    · exact kept_storeReg s 0 a v
    · split
      · exact kept_forgetReg s a
      · split
        · exact Kept.refl s
        · exact kept_storeReg s _ a v

theorem kept_consumed (a : Byte) : Kept s (s.consumed a) := by
  unfold State.consumed
  split
  · exact kept_setRxq s _
  · exact Kept.refl s

theorem kept_oracleByte (a : Byte) : Kept s (s.oracleByte a).2 := by
  unfold State.oracleByte
  split
  · exact Kept.refl s
  · split
    · exact kept_regOrDraw s _
    · exact kept_drawByte s

theorem kept_chipByte (a : Byte) (forced : List Byte) : Kept s (s.chipByte a forced).2 := by
  have h : Kept s (if s.chip.oracle then s.oracleByte a else s.drawByte).2 := by
    split
    · exact kept_oracleByte s a
    · exact kept_drawByte s
  exact h.trans (kept_consumed _ a)

theorem kept_chipBytes (a : Byte) (forced : List Byte) (n : Nat) : Kept s (s.chipBytes a forced n).2 := by
  induction n generalizing s forced with
  | zero => exact Kept.refl s
  | succ n ih => exact (kept_chipByte s a forced).trans (ih _ _)

theorem kept_setChipMode (m : Option Mode) : Kept s (s.setChipMode m) := ⟨rfl, rfl, rfl, rfl, rfl, rfl, rfl⟩

theorem kept_chipTakesMode (m : Mode) : Kept s (s.chipTakesMode m) :=
  ((kept_regOrDraw s _).trans (kept_storeReg _ _ _ _)).trans (kept_setChipMode _ _)

theorem kept_pageDrawn (a : Byte) : Kept s (s.pageDrawn a) := by
  unfold State.pageDrawn
  split <;> exact ⟨rfl, rfl, rfl, rfl, rfl, rfl, rfl⟩

theorem kept_monitorWrite (a v : Byte) : Kept s (s.monitorWrite a v) := by
  unfold State.monitorWrite
  dsimp only
  refine (kept_pageDrawn s a).trans ?_
  split
  · refine Kept.trans ?_ (kept_setChipMode _ _)
    split <;> exact ⟨rfl, rfl, rfl, rfl, rfl, rfl, rfl⟩
  · exact Kept.refl _

theorem kept_monitorRead (a r : Byte) : Kept s (s.monitorRead a r) := by
  unfold State.monitorRead
  split
  · exact kept_setChipMode s _
  · exact Kept.refl s

theorem kept_monitorLost (a : Byte) : Kept s (s.monitorLost a) := by
  unfold State.monitorLost
  split
  · exact kept_setChipMode s _
  · exact Kept.refl s

theorem kept_burstHidesMode (a : Byte) : Kept s (s.burstHidesMode a) := by
  unfold State.burstHidesMode
  split
  · exact kept_setChipMode s _
  · exact Kept.refl s

theorem kept_forgetFrom (a : Byte) : Kept s (s.forgetFrom a) := kept_setRegs s _

theorem kept_burstDisturbs (a : Byte) : Kept s (s.burstDisturbs a) := by
  unfold State.burstDisturbs
  split
  · exact kept_burstHidesMode s a
  · exact (kept_burstHidesMode s a).trans (kept_forgetFrom _ a)

theorem kept_foldl_chipWrite (a : Byte) (bs : List Byte) : Kept s (bs.foldl (fun u b => u.chipWrite a b) s) := by
  induction bs generalizing s with
  | nil => exact Kept.refl s
  | cons b bs ih => exact (kept_chipWrite s a b).trans (ih _)

theorem kept_chipBurst (a : Byte) (bs : List Byte) : Kept s (s.chipBurst a bs) := by
  unfold State.chipBurst
  split
  · exact kept_setTxq s _
  · dsimp only
    split
    · exact (kept_burstDisturbs s a).trans (kept_foldl_chipWrite _ a bs)
    · split
      · exact (kept_burstDisturbs s a).trans (kept_txqDrawn _)
      · exact kept_burstDisturbs s a

theorem kept_chipBurstLost (a : Byte) : Kept s (s.chipBurstLost a) := by
  have h := (kept_burstHidesMode s a).trans (kept_forgetFrom _ a)
  unfold State.chipBurstLost
  split
  · exact kept_txqDrawn s
  · dsimp only
    split
    · exact h.trans (kept_txqDrawn _)
    · exact h

theorem kept_chipWriteLost (a : Byte) : Kept s (s.chipWriteLost a) := by
  unfold State.chipWriteLost
  split
  · exact kept_txqDrawn s
  · exact kept_forgetReg s a

theorem kept_chipReadLost (a : Byte) (n : Nat) : Kept s (s.chipReadLost a n) := by
  unfold State.chipReadLost
  split
  · exact kept_rxqDrawn s n
  · exact Kept.refl s

theorem kept_chipBurstRead (a : Byte) (n : Nat) : Kept s (s.chipBurstRead a n) := by
  unfold State.chipBurstRead
  split
  · exact Kept.refl s
  · dsimp only
    split
    · exact (kept_burstDisturbs s a).trans (kept_rxqDrawn _ n)
    · exact kept_burstDisturbs s a

theorem kept_drawList (n : Nat) : Kept s (s.drawList n).2 := by
  induction n generalizing s with
  | zero => exact Kept.refl s
  | succ n ih => exact (kept_drawByte s).trans (ih _)

theorem kept_storeRbuf (off : Nat) (bs : List Byte) : Kept s (s.storeRbuf off bs) := ⟨rfl, rfl, rfl, rfl, rfl, rfl, rfl⟩

theorem kept_chipPowered : Kept s s.chipPowered :=
  Kept.trans (t := { s with chip := { s.chip with regs := [], txq := [], rxq := [] } })
    ⟨rfl, rfl, rfl, rfl, rfl, rfl, rfl⟩ (kept_chipTakesMode _ _)

theorem kept_hostByte (off : Nat) : Kept s (s.hostByte off).2 := by
  unfold State.hostByte
  split
  · exact kept_drawByte s
  · split
    · exact Kept.refl s
    · exact kept_drawByte s

theorem kept_hostBytes (off n : Nat) : Kept s (s.hostBytes off n).2 := by
  induction n generalizing s off with
  | zero => exact Kept.refl s
  | succ n ih => exact (kept_hostByte s off).trans (ih _ _)

/-- An input but for the release of reset leaves the outputs and the page cache alone, whenever it arrives. -/
theorem kept_arrive (i : Input) (hr : ∀ b, i ≠ .resetRelease b) : Kept s (s.arrive i) := by
  have k : ∀ t : State, t.log = s.log → t.pcache = s.pcache → t.params = s.params → t.seq = s.seq →
      t.during = s.during → t.inputs = s.inputs → t.chip = s.chip → Kept s t :=
    fun t a b c d e f g => ⟨a, b, c, d, e, f, by rw [g]⟩
  cases i with
  | hostRead addr width =>
    simp only [State.arrive]
    split
    · exact Kept.refl s
    · unfold State.hostRead
      split
      · exact k _ rfl rfl rfl rfl rfl rfl rfl
      · split
        · exact (kept_hostBytes s _ _).trans ⟨rfl, rfl, rfl, rfl, rfl, rfl, rfl⟩
        · split <;> exact k _ rfl rfl rfl rfl rfl rfl rfl
  | hostWrite addr width v =>
    simp only [State.arrive]
    split
    · exact Kept.refl s
    · unfold State.hostWrite
      split
      · exact k _ rfl rfl rfl rfl rfl rfl rfl
      · split
        · split <;> exact k _ rfl rfl rfl rfl rfl rfl rfl
        · split <;> exact k _ rfl rfl rfl rfl rfl rfl rfl
  | irqLine level =>
    simp only [State.arrive]
    split
    · exact Kept.refl s
    · exact kept_setLine s level
  | completion m =>
    simp only [State.arrive]
    split
    · exact kept_chipTakesMode s m
    · exact Kept.refl s
  | chipReg pg off v => exact kept_storeReg s _ off v
  | chipRx bytes => exact kept_setRxq s _
  | chipTx count => exact kept_setTxq s _
  | chipPower => exact kept_chipPowered s
  | resetAssert => exact ⟨rfl, rfl, rfl, rfl, rfl, rfl, rfl⟩
  | resetRelease b => exact absurd rfl (hr b)

/-- What arrives at a boundary issues nothing and does not touch the page cache. -/
theorem boundary_outputs : (endState (boundary s)).log = s.log ∧ (endState (boundary s)).pcache = s.pcache
    ∧ (endState (boundary s)).params = s.params := by
  have all : ∀ (l : List Input) (s : State), (endState (s.arriveAll l)).log = s.log
      ∧ (endState (s.arriveAll l)).pcache = s.pcache ∧ (endState (s.arriveAll l)).params = s.params := by
    intro l
    induction l with
    | nil => exact fun s => ⟨rfl, rfl, rfl⟩
    | cons i l ih =>
      intro s
      cases i
      case resetAssert => exact ⟨rfl, rfl, rfl⟩
      case resetRelease b => exact ih s
      all_goals
        refine ⟨(ih _).1.trans (kept_arrive s _ ?_).log, (ih _).2.1.trans (kept_arrive s _ ?_).pcache,
          (ih _).2.2.trans (kept_arrive s _ ?_).params⟩ <;> (intro b hb; cases hb)
  unfold boundary
  split
  · exact ⟨rfl, rfl, rfl⟩
  · exact all _ _

/-- The end of a command issues nothing and does not touch the page cache. -/
theorem commandResult_outputs (r : EStateM.Result Stop State Unit) :
    (commandResult r).log = (endState r).log ∧ (commandResult r).pcache = (endState r).pcache := by
  have close : ∀ (u : State) (f : State → State), (∀ w : State, (f w).log = w.log ∧ (f w).pcache = w.pcache) →
      (u.closeCommand f).log = u.log ∧ (u.closeCommand f).pcache = u.pcache := by
    intro u f hf
    have h := boundary_outputs u
    unfold State.closeCommand
    split <;> next heq =>
      rw [heq] at h
      first
      | exact ⟨(hf _).1.trans h.1, (hf _).2.trans h.2.1⟩
      | exact ⟨h.1, h.2.1⟩
  unfold commandResult
  split
  · exact close _ _ fun _ => ⟨rfl, rfl⟩
  · exact close _ _ fun u => by rename_i e _; cases e <;> exact ⟨rfl, rfl⟩
  · exact close _ _ fun _ => ⟨rfl, rfl⟩
  · exact ⟨rfl, rfl⟩
  · exact ⟨rfl, rfl⟩

/-- The outputs and the page cache a command leaves are those its last action left. -/
theorem exec_outputs {i : Instr} {s t : State} (h : exec i s = .next t) :
    t.log = (endState (commandOf i s.beginCommand)).log ∧ t.pcache = (endState (commandOf i s.beginCommand)).pcache := by
  have hrun := exec_eq_run i s ▸ h
  cases hrun
  exact commandResult_outputs _

/-! ## Nothing follows a bus fault -/

/-- The errors that report a bus fault. -/
def Error.isBus (e : Error) : Prop := e = .bus ∨ ∃ k, e = .mode k .bus

/-- The outputs `evs` end in a bus fault, their only one. -/
def EndsInFault (evs : List BusEvent) : Prop :=
  ∃ pre e, evs = pre ++ [e] ∧ e.isFault = true ∧ ∀ x ∈ pre, x.isFault = false

/-- How a part of a command relates its outputs and its end: a fault is its last output, leaves the page unknown and raises
the error that reports it; without one no such error is raised. -/
def FaultLast {α : Type} (c : Cmd α) : Prop :=
  ∀ s, ∃ evs, (endState (c s)).log = s.log ++ evs
    ∧ ((∀ x ∈ evs, x.isFault = false) ∧ (∀ e u, c s = .error (.raised e) u → ¬ e.isBus)
      ∨ EndsInFault evs ∧ ∃ e u, c s = .error (.raised e) u ∧ e.isBus ∧ u.pcache = none)

/-- A part that issues nothing and raises no bus error. -/
theorem faultLast_silent {α : Type} {c : Cmd α} (h : ∀ s, (endState (c s)).log = s.log)
    (hr : RaisesOnly (fun e => ¬ e.isBus) c) : FaultLast c :=
  fun s => ⟨[], by simp [h s], .inl ⟨fun _ h => (List.not_mem_nil h).elim, fun e u he => hr s e u he⟩⟩

theorem faultLast_bind {α β : Type} {c : Cmd α} {f : α → Cmd β} (hc : FaultLast c) (hf : ∀ a, FaultLast (f a)) :
    FaultLast (c >>= f) := by
  intro s
  obtain ⟨evs, hlog, h⟩ := hc s
  cases heq : c s with
  | ok a t =>
    rw [heq] at hlog h
    obtain ⟨evs2, hlog2, h2⟩ := hf a t
    have hb : (c >>= f) s = f a t := by simp only [bind, EStateM.bind, heq]
    rcases h with ⟨hno, _⟩ | ⟨_, e, u, he, _⟩
    · refine ⟨evs ++ evs2, by rw [hb, hlog2, endState_ok] at *; rw [hlog, List.append_assoc], ?_⟩
      rw [hb]
      rcases h2 with ⟨hno2, hr⟩ | ⟨⟨pre, e, rfl, hf, hpre⟩, hend⟩
      · exact .inl ⟨fun x hx => (List.mem_append.1 hx).elim (hno x) (hno2 x), hr⟩
      · exact .inr ⟨⟨evs ++ pre, e, by rw [List.append_assoc], hf,
          fun x hx => (List.mem_append.1 hx).elim (hno x) (hpre x)⟩, hend⟩
    · cases he
  | error e t =>
    rw [heq] at hlog h
    have hb : (c >>= f) s = .error e t := by simp only [bind, EStateM.bind, heq]
    refine ⟨evs, by rw [hb]; exact hlog, ?_⟩
    rw [hb]
    rcases h with ⟨hno, hr⟩ | ⟨hend, e', u, he, hb', hp⟩
    · exact .inl ⟨hno, fun e' u he => hr e' u (by cases he; rfl)⟩
    · exact .inr ⟨hend, e', u, by cases he; rfl, hb', hp⟩

theorem faultLast_pure {α : Type} (a : α) : FaultLast (pure a : Cmd α) := faultLast_silent (fun _ => rfl) (raises_pure a)

theorem faultLast_getParams : FaultLast getParams := faultLast_silent (fun _ => rfl) raises_getParams

theorem faultLast_change {f : State → State} (h : ∀ s, (f s).log = s.log) : FaultLast (change f) :=
  faultLast_silent h (raises_change f)

theorem faultLast_raiseError {α : Type} {e : Error} (h : ¬ e.isBus) : FaultLast (raiseError e : Cmd α) :=
  faultLast_silent (fun _ => rfl) (raises_raiseError h)

theorem faultLast_boundary : FaultLast boundary := faultLast_silent (fun s => (boundary_outputs s).1) raises_boundary

theorem faultLast_readBuffer (b : Buf) (off len : Nat) : FaultLast (readBuffer b off len) :=
  faultLast_silent (fun s => by unfold readBuffer; split <;> rfl) (raises_readBuffer b off len)

theorem nextAnswer_log : s.nextAnswer.2.log = s.log ∧ s.nextAnswer.2.params = s.params := by
  unfold State.nextAnswer
  dsimp only
  split
  · exact ⟨rfl, rfl⟩
  · exact ⟨rfl, rfl⟩
  · exact ⟨rfl, rfl⟩
  · split <;> exact ⟨rfl, rfl⟩

/-- A transaction logs one output, faulted exactly when it raises the bus error. -/
theorem faultLast_transact {α : Type} {before : State → State} {good : List Byte → State → α × State}
    {lost : State → State} {failed : BusEvent} (hb : ∀ s, (before s).log = s.log)
    (hg : ∀ l s, ∃ e, (good l s).2.log = s.log ++ [e] ∧ e.isFault = false)
    (hf : ∀ s, Kept s (lost s)) (hn : failed.isFault = true) : FaultLast (transact before good lost failed) := by
  refine faultLast_bind faultLast_boundary fun _ s => ?_
  have h1 : (before s).advance.nextAnswer.2.log = s.log := (nextAnswer_log _).1.trans (hb s)
  dsimp only
  split
  · obtain ⟨e, he, hn⟩ := hg (before s).advance.nextAnswer.1.2 (before s).advance.nextAnswer.2
    refine ⟨[e], by rw [endState_ok, he, h1], .inl ⟨?_, fun _ _ h => nomatch h⟩⟩
    simpa using hn
  · refine ⟨[failed], by rw [endState_error, State.dropPage_log, State.logged_log, (hf _).log, h1],
      .inr ⟨⟨[], failed, rfl, hn, ?_⟩, _, _, rfl, .inl rfl, rfl⟩⟩
    exact fun _ h => (List.not_mem_nil h).elim
  · refine ⟨[], by rw [endState_error, (hf _).log, h1, List.append_nil], .inl ⟨?_, fun _ _ h => nomatch h⟩⟩
    exact fun _ h => (List.not_mem_nil h).elim

theorem faultLast_busRead (a : Byte) : FaultLast (busRead a) :=
  faultLast_transact (fun s => (kept_pageDrawn s a).log)
    (fun l s => ⟨_, (kept_monitorRead _ a _).log.trans (by rw [State.logged_log, (kept_chipByte s a l).log]), rfl⟩)
    (fun s => kept_chipReadLost s a 1) rfl

theorem faultLast_busWrite (a v : Byte) : FaultLast (busWrite a v) :=
  faultLast_transact (fun s => (kept_monitorWrite s a v).log)
    (fun _ s => ⟨.write a v true, by rw [State.logged_log, (kept_chipWrite s a v).log], rfl⟩)
    (fun s => (kept_chipWriteLost s a).trans (kept_monitorLost _ a)) rfl

theorem faultLast_busBurstRead (a : Byte) (n : Nat) : FaultLast (busBurstRead a n) :=
  faultLast_transact (fun _ => rfl)
    (fun l s => ⟨_, by
      rw [State.logged_log, ((kept_chipBytes s a l n).trans (kept_chipBurstRead _ a n)).log], rfl⟩)
    (fun s => (kept_chipReadLost s a n).trans (kept_chipBurstRead _ a n)) rfl

theorem faultLast_busBurstWrite (a : Byte) (bs : List Byte) : FaultLast (busBurstWrite a bs) :=
  faultLast_transact (fun s => by split; exacts [rfl, (kept_monitorWrite s _ _).log])
    (fun _ s => ⟨.burstWrite a bs true, by rw [State.logged_log, (kept_chipBurst s a bs).log], rfl⟩)
    (fun s => kept_chipBurstLost s a) rfl

/-- A capability call or a delay logs one output that is no transaction. -/
theorem faultLast_port {f : State → State} (hf : ∀ s, ∃ e, (f s).log = s.log ++ [e] ∧ e.isFault = false) :
    FaultLast (boundary >>= fun _ => change f) := by
  refine faultLast_bind faultLast_boundary fun _ s => ?_
  obtain ⟨e, he, hn⟩ := hf s
  refine ⟨[e], he, .inl ⟨?_, fun _ _ h => nomatch h⟩⟩
  simpa using hn

theorem faultLast_callCap (c : Cap) : FaultLast (callCap c) := faultLast_port fun _ => ⟨.cap c, rfl, rfl⟩

theorem faultLast_delay (t : Nat) : FaultLast (delay t) := faultLast_port fun _ => ⟨_, rfl, rfl⟩

theorem faultLast_switchPage (pg : Page) : FaultLast (switchPage pg) := by
  intro s
  unfold switchPage
  split
  · exact ⟨[], by simp, .inl ⟨fun _ h => (List.not_mem_nil h).elim, fun _ _ h => nomatch h⟩⟩
  · refine (faultLast_bind (faultLast_busRead _) fun v => faultLast_bind (faultLast_busWrite _ _) fun _ =>
      faultLast_bind (faultLast_busRead _) fun r => ?_) s
    split
    · exact faultLast_change fun _ => rfl
    · refine faultLast_bind (faultLast_change fun u => (kept_unverified u _).log) fun _ => faultLast_raiseError ?_
      rintro (h | ⟨k, h⟩) <;> cases h

theorem faultLast_pagedRead (r : RegAt) : FaultLast (pagedRead r) :=
  faultLast_bind (faultLast_switchPage _) fun _ => faultLast_busRead _

theorem faultLast_pagedWrite (r : RegAt) (v : Byte) : FaultLast (pagedWrite r v) := by
  refine faultLast_bind (faultLast_switchPage _) fun _ => faultLast_bind (faultLast_busWrite _ _) fun _ =>
    faultLast_bind (faultLast_change fun s => ?_) fun _ => faultLast_bind (faultLast_busRead _) fun got => ?_
  · split <;> rfl
  · split
    · exact faultLast_change fun s => (kept_writeVerified s _ _).log
    · refine faultLast_bind (faultLast_change fun s => ((kept_unverified s _).trans (kept_clearFailed _ _ _ _)).log) fun _ => faultLast_raiseError ?_
      rintro (h | ⟨k, h⟩) <;> cases h

theorem faultLast_burstIntoRbuf (a : Byte) (off n : Nat) : FaultLast (burstIntoRbuf a off n) := by
  intro s
  obtain ⟨evs, hlog, h⟩ := faultLast_busBurstRead a n s
  refine ⟨evs, ?_, ?_⟩
  · unfold burstIntoRbuf
    split <;> next heq =>
      rw [heq] at hlog
      first
      | exact hlog
      | exact ((kept_drawList _ n).trans (kept_storeRbuf _ _ _)).log.trans hlog
  · rcases h with ⟨hno, hr⟩ | ⟨hend, e, u, he, hbus, hp⟩
    · refine .inl ⟨hno, fun e u he => ?_⟩
      unfold burstIntoRbuf at he
      split at he
      · cases he
      · next heq =>
        cases he
        exact hr _ _ heq
      all_goals cases he
    · refine .inr ⟨hend, e, _, by unfold burstIntoRbuf; rw [he], hbus, ?_⟩
      exact ((kept_drawList u n).trans (kept_storeRbuf _ _ _)).pcache.trans hp

theorem faultLast_modeStep {α : Type} {c : Cmd α} (k : BitVec 4) (hc : FaultLast c) : FaultLast (modeStep k c) := by
  intro s
  obtain ⟨evs, hlog, h⟩ := hc s
  refine ⟨evs, ?_, ?_⟩
  · unfold modeStep
    split <;> next heq =>
      rw [heq] at hlog
      first
      | exact hlog
      | (simp only [endState_error] at hlog ⊢
         split <;> exact hlog)
  · rcases h with ⟨hno, hr⟩ | ⟨hend, e, u, he, hbus, hp⟩
    · refine .inl ⟨hno, fun e u he => ?_⟩
      unfold modeStep at he
      split at he
      case h_2 heq => exact absurd (.inl rfl) (hr _ _ heq)
      case h_3 heq =>
        cases he
        rintro (h | ⟨k, h⟩) <;> cases h
      case h_4 heq =>
        cases he
        exact hr _ _ heq
      all_goals cases he
    · rcases hbus with rfl | ⟨j, rfl⟩
      · exact .inr ⟨hend, .mode k .bus, u.setChipMode none, by unfold modeStep; rw [he], .inr ⟨k, rfl⟩, hp⟩
      · exact .inr ⟨hend, .mode j .bus, u, by unfold modeStep; rw [he], .inr ⟨j, rfl⟩, hp⟩

theorem faultLast_thenDropPage {c : Cmd Unit} (hc : FaultLast c) : FaultLast (thenDropPage c) := by
  intro s
  obtain ⟨evs, hlog, h⟩ := hc s
  refine ⟨evs, ?_, ?_⟩
  · unfold thenDropPage
    split <;> next heq =>
      rw [heq] at hlog
      exact hlog
  · rcases h with ⟨hno, hr⟩ | ⟨hend, e, u, he, hbus, hp⟩
    · refine .inl ⟨hno, fun e u he => ?_⟩
      unfold thenDropPage at he
      split at he
      case h_5 heq =>
        cases he
        exact hr _ _ heq
      all_goals cases he
    · exact .inr ⟨hend, e, u.dropPage, by unfold thenDropPage; rw [he], hbus, rfl⟩

theorem faultLast_setModeField (m : Mode) : FaultLast (setModeField m) :=
  faultLast_bind faultLast_getParams fun _ => faultLast_bind faultLast_getParams fun _ =>
  faultLast_bind (faultLast_pagedRead _) fun _ => faultLast_pagedWrite _ _

theorem faultLast_setField (f : Field) (x : Byte) : FaultLast (setField f x) :=
  faultLast_bind faultLast_getParams fun _ => faultLast_bind (faultLast_pagedRead _) fun _ => faultLast_pagedWrite _ _

theorem faultLast_clearIrq : FaultLast clearIrq := faultLast_bind faultLast_getParams fun _ => faultLast_pagedWrite _ _

theorem faultLast_drainFrame : FaultLast drainFrame := by
  refine faultLast_bind faultLast_getParams fun _ => faultLast_bind (faultLast_pagedRead _) fun n => ?_
  split
  · exact faultLast_pure _
  · exact faultLast_bind (faultLast_burstIntoRbuf _ _ _) fun _ => faultLast_pure _

theorem faultLast_plhdReadFrom (rs : List RegAt) (i : Nat) : FaultLast (plhdReadFrom i rs) := by
  induction rs generalizing i with
  | nil => exact faultLast_pure _
  | cons r rs ih =>
    exact faultLast_bind (faultLast_pagedRead _) fun _ => faultLast_bind (faultLast_change fun _ => rfl) fun _ => ih _

theorem faultLast_resetActions (l : List ResetAction) : FaultLast (resetActions l) := by
  induction l with
  | nil => exact faultLast_pure _
  | cons a l ih =>
    refine faultLast_bind ?_ fun _ => ih
    cases a with
    | setMode m => exact faultLast_setModeField m
    | write w => exact faultLast_pagedWrite _ _

theorem faultLast_readAll (rs : List RegAt) : FaultLast (readAll rs) := by
  induction rs with
  | nil => exact faultLast_pure _
  | cons r rs ih =>
    exact faultLast_bind (faultLast_pagedRead r) fun _ => faultLast_bind ih fun _ => faultLast_pure _

/-! ## Capability calls and delays -/

/-- A part of a command issues the calls `caps` and the delays `delays` (functions of the parameters), in order, as far as it
gets, all of them where it ends well; and no delay is shorter than its minimum. -/
def Ports {α : Type} (c : Cmd α) (caps : Params → List Cap) (delays : Params → List Nat) : Prop :=
  ∀ s, ∃ evs, (endState (c s)).log = s.log ++ evs ∧ (endState (c s)).params = s.params
    ∧ (∀ lo lasted, .delay lo lasted ∈ evs → lo ≤ lasted)
    ∧ evs.filterMap BusEvent.cap? <+: caps s.params ∧ evs.filterMap BusEvent.delay? <+: delays s.params
    ∧ ((∃ a t, c s = .ok a t) →
      evs.filterMap BusEvent.cap? = caps s.params ∧ evs.filterMap BusEvent.delay? = delays s.params)

/-- No call and no delay. -/
def NoPorts {α : Type} (c : Cmd α) : Prop := Ports c (fun _ => []) (fun _ => [])

section
variable {α β : Type}

theorem ports_silent {c : Cmd α} (h : ∀ s, (endState (c s)).log = s.log ∧ (endState (c s)).params = s.params) :
    NoPorts c := fun s =>
  ⟨[], by rw [(h s).1, List.append_nil], (h s).2, fun _ _ h => (List.not_mem_nil h).elim, List.prefix_rfl,
    List.prefix_rfl, fun _ => ⟨rfl, rfl⟩⟩

theorem ports_bind {c : Cmd α} {f : α → Cmd β} {k1 k2 : Params → List Cap} {d1 d2 : Params → List Nat}
    (hc : Ports c k1 d1) (hf : ∀ a, Ports (f a) k2 d2) :
    Ports (c >>= f) (fun p => k1 p ++ k2 p) (fun p => d1 p ++ d2 p) := by
  intro s
  obtain ⟨evs, hlog, hp, hd, hk, hdl, hok⟩ := hc s
  cases heq : c s with
  | ok a t =>
    rw [heq, endState_ok] at hlog hp
    obtain ⟨evs2, hlog2, hp2, hd2, hk2, hdl2, hok2⟩ := hf a t
    have hb : (c >>= f) s = f a t := by simp only [bind, EStateM.bind, heq]
    rw [hp] at hk2 hdl2 hok2 hp2
    obtain ⟨ek, ed⟩ := hok ⟨a, t, heq⟩
    refine ⟨evs ++ evs2, by rw [hb, hlog2, hlog, List.append_assoc], by rw [hb, hp2],
      fun lo la h => (List.mem_append.1 h).elim (hd lo la) (hd2 lo la), ?_, ?_, ?_⟩
    · rw [List.filterMap_append, ek]
      exact (List.prefix_append_right_inj _).2 hk2
    · rw [List.filterMap_append, ed]
      exact (List.prefix_append_right_inj _).2 hdl2
    · rw [hb]
      intro h
      obtain ⟨ek2, ed2⟩ := hok2 h
      rw [List.filterMap_append, List.filterMap_append, ek, ed, ek2, ed2]
      exact ⟨rfl, rfl⟩
  | error e t =>
    rw [heq] at hlog hp
    have hb : (c >>= f) s = .error e t := by simp only [bind, EStateM.bind, heq]
    refine ⟨evs, by rw [hb]; exact hlog, by rw [hb]; exact hp, hd, hk.trans (List.prefix_append _ _),
      hdl.trans (List.prefix_append _ _), ?_⟩
    rw [hb]
    rintro ⟨_, _, h⟩
    cases h

theorem noPorts_bind {c : Cmd α} {f : α → Cmd β} (hc : NoPorts c) (hf : ∀ a, NoPorts (f a)) : NoPorts (c >>= f) :=
  ports_bind hc hf

theorem noPorts_pure (a : α) : NoPorts (pure a : Cmd α) := ports_silent fun _ => ⟨rfl, rfl⟩

theorem noPorts_getParams : NoPorts getParams := ports_silent fun _ => ⟨rfl, rfl⟩

theorem noPorts_change {f : State → State} (h : ∀ s, (f s).log = s.log ∧ (f s).params = s.params) :
    NoPorts (change f) := ports_silent h

theorem noPorts_raiseError (e : Error) : NoPorts (raiseError e : Cmd α) := ports_silent fun _ => ⟨rfl, rfl⟩

theorem noPorts_boundary : NoPorts boundary :=
  ports_silent fun s => ⟨(boundary_outputs s).1, (boundary_outputs s).2.2⟩

theorem noPorts_readBuffer (b : Buf) (off len : Nat) : NoPorts (readBuffer b off len) :=
  ports_silent fun s => by unfold readBuffer; split <;> exact ⟨rfl, rfl⟩

/-- A transaction logs one output, a transaction. -/
theorem noPorts_transact {before : State → State} {good : List Byte → State → α × State} {lost : State → State}
    {failed : BusEvent} (hb : ∀ s, (before s).log = s.log ∧ (before s).params = s.params)
    (hg : ∀ l s, (∃ e, (good l s).2.log = s.log ++ [e] ∧ e.isTransaction = true) ∧ (good l s).2.params = s.params)
    (hf : ∀ s, Kept s (lost s)) (hn : failed.isTransaction = true) : NoPorts (transact before good lost failed) := by
  refine noPorts_bind noPorts_boundary fun _ s => ?_
  have h1 : (before s).advance.nextAnswer.2.log = s.log := (nextAnswer_log _).1.trans (hb s).1
  have h2 : (before s).advance.nextAnswer.2.params = s.params := (nextAnswer_log _).2.trans (hb s).2
  have one : ∀ e : BusEvent, e.isTransaction = true → [e].filterMap BusEvent.cap? = [] ∧ [e].filterMap BusEvent.delay? = []
      ∧ ∀ lo la, .delay lo la ∈ [e] → lo ≤ la := by
    intro e he
    cases e with
    | cap c => cases he
    | delay a b => cases he
    | read _ _ => exact ⟨rfl, rfl, fun _ _ h => nomatch List.mem_singleton.1 h⟩
    | write _ _ _ => exact ⟨rfl, rfl, fun _ _ h => nomatch List.mem_singleton.1 h⟩
    | burstRead _ _ _ => exact ⟨rfl, rfl, fun _ _ h => nomatch List.mem_singleton.1 h⟩
    | burstWrite _ _ _ => exact ⟨rfl, rfl, fun _ _ h => nomatch List.mem_singleton.1 h⟩
  dsimp only
  split
  · obtain ⟨⟨e, he, hn⟩, hp⟩ := hg (before s).advance.nextAnswer.1.2 (before s).advance.nextAnswer.2
    obtain ⟨a, b, c⟩ := one e hn
    exact ⟨[e], by rw [endState_ok, he, h1], hp.trans h2, c, by rw [a], by rw [b], fun _ => ⟨a, b⟩⟩
  · obtain ⟨a, b, c⟩ := one failed hn
    exact ⟨[failed], by rw [endState_error, State.dropPage_log, State.logged_log, (hf _).log, h1],
      (hf _).params.trans h2, c, by rw [a], by rw [b], fun _ => ⟨a, b⟩⟩
  · exact ⟨[], by rw [endState_error, (hf _).log, h1, List.append_nil], (hf _).params.trans h2, fun _ _ h => (List.not_mem_nil h).elim, List.prefix_rfl,
      List.prefix_rfl, fun _ => ⟨rfl, rfl⟩⟩

theorem noPorts_busRead (a : Byte) : NoPorts (busRead a) :=
  noPorts_transact (fun s => ⟨(kept_pageDrawn s a).log, (kept_pageDrawn s a).params⟩)
    (fun l s => ⟨⟨_, (kept_monitorRead _ a _).log.trans (by rw [State.logged_log, (kept_chipByte s a l).log]), rfl⟩,
      (kept_monitorRead _ a _).params.trans (by rw [State.logged_params, (kept_chipByte s a l).params])⟩)
    (fun s => kept_chipReadLost s a 1) rfl

theorem noPorts_busWrite (a v : Byte) : NoPorts (busWrite a v) :=
  noPorts_transact (fun s => ⟨(kept_monitorWrite s a v).log, (kept_monitorWrite s a v).params⟩)
    (fun _ s => ⟨⟨.write a v true, by rw [State.logged_log, (kept_chipWrite s a v).log], rfl⟩,
      (kept_chipWrite s a v).params⟩)
    (fun s => (kept_chipWriteLost s a).trans (kept_monitorLost _ a)) rfl

theorem noPorts_busBurstRead (a : Byte) (n : Nat) : NoPorts (busBurstRead a n) :=
  noPorts_transact (fun _ => ⟨rfl, rfl⟩)
    (fun l s => ⟨⟨_, by rw [State.logged_log, ((kept_chipBytes s a l n).trans (kept_chipBurstRead _ a n)).log], rfl⟩,
      ((kept_chipBytes s a l n).trans (kept_chipBurstRead _ a n)).params⟩)
    (fun s => (kept_chipReadLost s a n).trans (kept_chipBurstRead _ a n)) rfl

theorem noPorts_busBurstWrite (a : Byte) (bs : List Byte) : NoPorts (busBurstWrite a bs) :=
  noPorts_transact
    (fun s => by
      split
      exacts [⟨rfl, rfl⟩, ⟨(kept_monitorWrite s _ _).log, (kept_monitorWrite s _ _).params⟩])
    (fun _ s => ⟨⟨.burstWrite a bs true, by rw [State.logged_log, (kept_chipBurst s a bs).log], rfl⟩,
      (kept_chipBurst s a bs).params⟩)
    (fun s => kept_chipBurstLost s a) rfl

theorem ports_callCap (c : Cap) : Ports (callCap c) (fun _ => [c]) (fun _ => []) := by
  refine ports_bind (k1 := fun _ => []) (d1 := fun _ => []) (k2 := fun _ => [c]) (d2 := fun _ => []) noPorts_boundary
    fun _ s => ?_
  refine ⟨[.cap c], rfl, rfl, fun lo la h => ?_, List.prefix_rfl, List.prefix_rfl, fun _ => ⟨rfl, rfl⟩⟩
  cases List.mem_singleton.1 h

/-- A delay lasts its minimum and a free time more (70_reset_and_hazards.md R244). -/
theorem ports_delay (t : Nat) : Ports (delay t) (fun _ => []) (fun _ => [t]) := by
  refine ports_bind (k1 := fun _ => []) (d1 := fun _ => []) (k2 := fun _ => []) (d2 := fun _ => [t]) noPorts_boundary
    fun _ s => ?_
  refine ⟨[.delay t (t + Config.drawTime s.draws)], rfl, rfl, fun lo la h => ?_, List.prefix_rfl, List.prefix_rfl,
    fun _ => ⟨rfl, rfl⟩⟩
  cases List.mem_singleton.1 h
  exact Nat.le_add_right _ _

/-- `getParams` hands on the parameters the state has. -/
theorem ports_getParams_bind {f : Params → Cmd β} {k : Params → List Cap} {d : Params → List Nat}
    (hf : ∀ p, Ports (f p) (fun _ => k p) (fun _ => d p)) : Ports (getParams >>= f) k d := fun s => hf s.params s

theorem noPorts_switchPage (pg : Page) : NoPorts (switchPage pg) := by
  intro s
  unfold switchPage
  split
  · exact noPorts_pure () s
  · refine (noPorts_bind (noPorts_busRead _) fun v => noPorts_bind (noPorts_busWrite _ _) fun _ =>
      noPorts_bind (noPorts_busRead _) fun r => ?_) s
    split
    · exact noPorts_change fun _ => ⟨rfl, rfl⟩
    · exact noPorts_bind (noPorts_change fun u => ⟨(kept_unverified u _).log, (kept_unverified u _).params⟩)
        fun _ => noPorts_raiseError _

theorem noPorts_pagedRead (r : RegAt) : NoPorts (pagedRead r) :=
  noPorts_bind (noPorts_switchPage _) fun _ => noPorts_busRead _

theorem noPorts_pagedWrite (r : RegAt) (v : Byte) : NoPorts (pagedWrite r v) := by
  refine noPorts_bind (noPorts_switchPage _) fun _ => noPorts_bind (noPorts_busWrite _ _) fun _ =>
    noPorts_bind (noPorts_change fun s => ?_) fun _ => noPorts_bind (noPorts_busRead _) fun got => ?_
  · split <;> exact ⟨rfl, rfl⟩
  · split
    · exact noPorts_change fun s => ⟨(kept_writeVerified s _ _).log, (kept_writeVerified s _ _).params⟩
    · have k (s : State) (v' got : Byte) := (kept_unverified s r.addr).trans (kept_clearFailed _ r.addr v' got)
      exact noPorts_bind (noPorts_change fun s => ⟨(k s _ _).log, (k s _ _).params⟩) fun _ => noPorts_raiseError _

theorem noPorts_burstIntoRbuf (a : Byte) (off n : Nat) : NoPorts (burstIntoRbuf a off n) := by
  intro s
  obtain ⟨evs, hlog, hp, hd, hk, hdl, hok⟩ := noPorts_busBurstRead a n s
  refine ⟨evs, ?_, ?_, hd, hk, hdl, ?_⟩
  · unfold burstIntoRbuf
    split <;> next heq =>
      rw [heq] at hlog
      first
      | exact hlog
      | exact ((kept_drawList _ n).trans (kept_storeRbuf _ _ _)).log.trans hlog
  · unfold burstIntoRbuf
    split <;> next heq =>
      rw [heq] at hp
      first
      | exact hp
      | exact ((kept_drawList _ n).trans (kept_storeRbuf _ _ _)).params.trans hp
  · rintro ⟨_, t, h⟩
    unfold burstIntoRbuf at h
    split at h
    · next heq => exact hok ⟨_, _, heq⟩
    all_goals cases h

theorem ports_modeStep {c : Cmd α} {k : Params → List Cap} {d : Params → List Nat} (n : BitVec 4) (hc : Ports c k d) :
    Ports (modeStep n c) k d := by
  intro s
  obtain ⟨evs, hlog, hp, hd, hk, hdl, hok⟩ := hc s
  refine ⟨evs, ?_, ?_, hd, hk, hdl, ?_⟩
  · unfold modeStep
    split <;> next heq =>
      rw [heq] at hlog
      first
      | exact hlog
      | (simp only [endState_error] at hlog ⊢
         split <;> exact hlog)
  · unfold modeStep
    split <;> next heq =>
      rw [heq] at hp
      first
      | exact hp
      | (simp only [endState_error] at hp ⊢
         split <;> exact hp)
  · rintro ⟨_, t, h⟩
    unfold modeStep at h
    split at h
    · next heq => exact hok ⟨_, _, heq⟩
    all_goals cases h

theorem ports_thenDropPage {c : Cmd Unit} {k : Params → List Cap} {d : Params → List Nat} (hc : Ports c k d) :
    Ports (thenDropPage c) k d := by
  intro s
  obtain ⟨evs, hlog, hp, hd, hk, hdl, hok⟩ := hc s
  refine ⟨evs, ?_, ?_, hd, hk, hdl, ?_⟩
  · unfold thenDropPage
    split <;> next heq =>
      rw [heq] at hlog
      exact hlog
  · unfold thenDropPage
    split <;> next heq =>
      rw [heq] at hp
      exact hp
  · rintro ⟨_, t, h⟩
    unfold thenDropPage at h
    split at h
    · next heq => exact hok ⟨_, _, heq⟩
    all_goals cases h

theorem noPorts_setField (f : Field) (x : Byte) : NoPorts (setField f x) :=
  noPorts_bind noPorts_getParams fun _ => noPorts_bind (noPorts_pagedRead _) fun _ => noPorts_pagedWrite _ _

theorem noPorts_setModeField (m : Mode) : NoPorts (setModeField m) :=
  noPorts_bind noPorts_getParams fun _ => noPorts_setField _ _

theorem noPorts_clearIrq : NoPorts clearIrq := noPorts_bind noPorts_getParams fun _ => noPorts_pagedWrite _ _

theorem noPorts_drainFrame : NoPorts drainFrame := by
  refine noPorts_bind noPorts_getParams fun _ => noPorts_bind (noPorts_pagedRead _) fun n => ?_
  split
  · exact noPorts_pure _
  · exact noPorts_bind (noPorts_burstIntoRbuf _ _ _) fun _ => noPorts_pure _

theorem noPorts_plhdReadFrom (rs : List RegAt) (i : Nat) : NoPorts (plhdReadFrom i rs) := by
  induction rs generalizing i with
  | nil => exact noPorts_pure _
  | cons r rs ih =>
    exact noPorts_bind (noPorts_pagedRead _) fun _ => noPorts_bind (noPorts_change fun _ => ⟨rfl, rfl⟩) fun _ => ih _

theorem noPorts_resetActions (l : List ResetAction) : NoPorts (resetActions l) := by
  induction l with
  | nil => exact noPorts_pure _
  | cons a l ih =>
    refine noPorts_bind ?_ fun _ => ih
    cases a with
    | setMode m => exact noPorts_setModeField m
    | write w => exact noPorts_pagedWrite _ _

theorem noPorts_readAll (rs : List RegAt) : NoPorts (readAll rs) := by
  induction rs with
  | nil => exact noPorts_pure _
  | cons r rs ih => exact noPorts_bind (noPorts_pagedRead r) fun _ => noPorts_bind ih fun _ => noPorts_pure _

end

end Sys2Proof.Machine
end

