-- ==== Sys2Proof/Laws/Registers.lean ====
section
/-! SUPPORT. Where a chip register stands, what it holds after a write, and which registers, FIFO bytes and page each operation
on the chip leaves alone, on any page and whether or not the test double answers. -/

namespace Sys2Proof.Machine

/-! ## Register keys -/

theorem regKey_eq_iff (p : Params) (pg pg' : Page) (a a' : Byte) :
    regKey p pg' a' = regKey p pg a ↔ a' = a ∧ (a = p.sysctlAddr ∨ pg' = pg) := by
  have h1 := pg.isLt
  have h2 := pg'.isLt
  have h3 := a.isLt
  have h4 := a'.isLt
  have h5 := p.sysctlAddr.isLt
  have ea : a' = a ↔ a'.toNat = a.toNat := BitVec.toNat_inj.symm
  have es : a = p.sysctlAddr ↔ a.toNat = p.sysctlAddr.toNat := BitVec.toNat_inj.symm
  have es' : a' = p.sysctlAddr ↔ a'.toNat = p.sysctlAddr.toNat := BitVec.toNat_inj.symm
  have ep : pg' = pg ↔ pg'.toNat = pg.toNat := BitVec.toNat_inj.symm
  unfold regKey
  simp only [ea, es, es', ep]
  split <;> split <;> omega

section
variable (s : State)

theorem regValue_setRegs_write (pg pg' : Page) (a a' v : Byte) :
    (s.setRegs (s.chip.regs.write (regKey s.params pg a) v)).regValue pg' a' =
      if a' = a ∧ (a = s.params.sysctlAddr ∨ pg' = pg) then some v else s.regValue pg' a' := by
  unfold State.regValue State.setRegs
  rw [Memory.read_write]
  simp only [regKey_eq_iff]

theorem regs_setLine (level : Bool) : (s.setLine level).chip.regs = s.chip.regs := by
  unfold State.setLine
  dsimp only
  split <;> rfl

theorem params_setLine (level : Bool) : (s.setLine level).params = s.params := (kept_setLine s level).params

/-- What the registers hold after one of them takes a byte. -/
theorem regValue_storeReg (pg pg' : Page) (a a' v : Byte) :
    (s.storeReg pg a v).regValue pg' a' =
      if a' = a ∧ (a = s.params.sysctlAddr ∨ pg' = pg) then some v else s.regValue pg' a' := by
  have h : (s.storeReg pg a v).regValue pg' a' =
      (s.setRegs (s.chip.regs.write (regKey s.params pg a) v)).regValue pg' a' := by
    unfold State.storeReg
    dsimp only
    split
    · unfold State.regValue State.oracleLine
      rw [regs_setLine, params_setLine]
    · rfl
  rw [h, regValue_setRegs_write]

theorem chipPage_eq (pg : Page) : s.chipPage = (s.regValue pg s.params.sysctlAddr).map (pageField s.params) := by
  unfold State.chipPage State.regValue regKey
  rw [if_pos rfl]

theorem sysctl_known (pg : Page) (h : s.chipPage ≠ none) : ∃ v, s.regValue pg s.params.sysctlAddr = some v := by
  rw [chipPage_eq s pg] at h
  cases hv : s.regValue pg s.params.sysctlAddr with
  | none => rw [hv] at h; exact absurd rfl h
  | some v => exact ⟨v, rfl⟩

end

/-! ## What each operation leaves alone -/

section
variable (s : State)

theorem advance_nextAnswer_chip : s.advance.nextAnswer.2.chip.regs = s.chip.regs
    ∧ s.advance.nextAnswer.2.chip.txq = s.chip.txq ∧ s.advance.nextAnswer.2.params = s.params
    ∧ s.advance.nextAnswer.2.during = s.during ∧ s.advance.nextAnswer.2.pcache = s.pcache := by
  unfold State.nextAnswer
  dsimp only
  split
  · exact ⟨rfl, rfl, rfl, rfl, rfl⟩
  · exact ⟨rfl, rfl, rfl, rfl, rfl⟩
  · exact ⟨rfl, rfl, rfl, rfl, rfl⟩
  · split <;> exact ⟨rfl, rfl, rfl, rfl, rfl⟩

theorem regs_consumed (a : Byte) : (s.consumed a).chip.regs = s.chip.regs := by
  unfold State.consumed
  split <;> rfl

theorem regs_chipByte (a : Byte) (l : List Byte) : (s.chipByte a l).2.chip.regs = s.chip.regs := by
  have h : (if s.chip.oracle then s.oracleByte a else s.drawByte).2.chip.regs = s.chip.regs := by
    split
    · unfold State.oracleByte
      split
      · rfl
      · split
        · rw [regOrDraw_chip]
        · rfl
    · rfl
  exact (regs_consumed _ a).trans h

theorem regs_chipBytes (a : Byte) (l : List Byte) (n : Nat) : (s.chipBytes a l n).2.chip.regs = s.chip.regs := by
  induction n generalizing s l with
  | zero => rfl
  | succ n ih => exact (ih _ _).trans (regs_chipByte _ _ _)

/-- A page that is known is drawn by nothing, and no other offset draws one. -/
theorem pageDrawn_known {a : Byte} (h : s.chipPage ≠ none) : s.pageDrawn a = s := if_neg fun hc => h hc.2.2

theorem pageDrawn_sysctl {a : Byte} (h : a = s.params.sysctlAddr) : s.pageDrawn a = s := if_neg fun hc => hc.2.1 h

/-- Drawing the page gives the system-control register a value, and leaves every other register. -/
theorem read_pageDrawn (pg : Page) (a : Byte) {b : Byte} (h : b ≠ s.params.sysctlAddr) :
    (s.pageDrawn a).chip.regs.read (regKey s.params pg b) = s.chip.regs.read (regKey s.params pg b) := by
  unfold State.pageDrawn
  split
  · rw [State.setRegs_chip, Memory.read_write, if_neg]
    intro he
    exact h ((regKey_eq_iff _ _ _ _ _).1 he).1
  · rfl

/-- At the mode-control register's offset the page is known once it has been drawn. -/
theorem chipPage_pageDrawn (h : s.params.modectlAddr ≠ s.params.sysctlAddr) :
    ∃ q, (s.pageDrawn s.params.modectlAddr).chipPage = some q := by
  cases hc : s.chipPage with
  | some q => exact ⟨q, by rw [pageDrawn_known s (by simp [hc]), hc]⟩
  | none =>
    refine ⟨pageField s.params s.drawByte.1, ?_⟩
    unfold State.pageDrawn
    rw [if_pos ⟨rfl, h, hc⟩]
    dsimp only
    rw [chipPage_eq _ 0]
    exact congrArg _ ((regValue_setRegs_write s.drawByte.2 0 0 s.params.sysctlAddr s.params.sysctlAddr _).trans
      (if_pos ⟨rfl, .inl rfl⟩))

/-- Once the page has been drawn, an access at the same offset that meets the same page draws none. -/
theorem pageDrawn_again {t : State} {a : Byte} (hp : t.params = s.params) (hg : t.chipPage = (s.pageDrawn a).chipPage) :
    t.pageDrawn a = t := by
  refine if_neg ?_
  rw [hp, hg]
  rintro ⟨rfl, hn, h⟩
  obtain ⟨q, hq⟩ := chipPage_pageDrawn s hn
  rw [hq] at h
  cases h

theorem regs_monitorLost (a : Byte) : (s.monitorLost a).chip = s.chip := by
  unfold State.monitorLost
  split <;> rfl

/-- Forgetting an offset leaves every other offset. -/
theorem read_forgetReg (pg : Page) {a b : Byte} (h : b ≠ a) :
    (s.forgetReg b).chip.regs.read (regKey s.params pg a) = s.chip.regs.read (regKey s.params pg a) := by
  have ne : ∀ q, (regKey s.params pg a == regKey s.params q b) = false := by
    intro q
    rw [beq_eq_false_iff_ne]
    intro he
    exact h ((regKey_eq_iff s.params q pg b a).1 he).1.symm
  unfold State.forgetReg State.setRegs
  dsimp only
  rw [Memory.read_forget, if_neg]
  split
  · rw [ne]
    decide
  · simp only [ne, List.any_cons, List.any_nil, Bool.or_self]
    decide

theorem read_unverified (pg : Page) {a b : Byte} (h : b ≠ a) :
    (s.unverified b).chip.regs.read (regKey s.params pg a) = s.chip.regs.read (regKey s.params pg a) := by
  unfold State.unverified
  split
  · rfl
  · exact read_forgetReg s pg h

theorem read_storeReg (pg q : Page) {a b : Byte} (v : Byte) (h : b ≠ a) :
    (s.storeReg q b v).chip.regs.read (regKey s.params pg a) = s.chip.regs.read (regKey s.params pg a) := by
  have := regValue_storeReg s q pg b a v
  rw [if_neg (by rintro ⟨h1, _⟩; exact h h1.symm)] at this
  unfold State.regValue at this
  rw [(kept_storeReg s q b v).params] at this
  exact this

theorem read_irqCleared (pg : Page) {a : Byte} (h : a ≠ s.params.irqReg.addr) :
    s.irqCleared.chip.regs.read (regKey s.params pg a) = s.chip.regs.read (regKey s.params pg a) := by
  obtain ⟨b, n, -, -, -, hc⟩ := irqCleared_cases s
  have hr : s.irqCleared.chip.regs
      = s.chip.regs.write (regKey s.params s.params.irqReg.page s.params.irqReg.addr) b := by
    rcases hc with hc | ⟨-, hc⟩
    · rw [hc, regs_setLine]
      rfl
    · rw [hc]
      rfl
  rw [hr, Memory.read_write, if_neg]
  intro he
  exact h ((regKey_eq_iff _ _ _ _ _).1 he).1

/-- A verified write leaves every register but, where it may be the clear, the IRQ-status register. -/
theorem read_writeVerified (pg : Page) {a b : Byte} (v : Byte)
    (hi : a = s.params.irqReg.addr → b ≠ s.params.irqClr.addr) :
    (s.writeVerified b v).chip.regs.read (regKey s.params pg a) = s.chip.regs.read (regKey s.params pg a) := by
  unfold State.writeVerified
  split
  · rfl
  · split
    · split
      · next q _ hc => exact read_irqCleared s pg fun he => hi he (by rw [← hc])
      · rfl
    · split
      · next hc =>
        have hb : b = s.params.irqClr.addr := congrArg RegWrite.addr hc
        dsimp only
        split
        · exact read_irqCleared s.drawBit.2 pg fun he => hi he hb
        · rfl
      · rfl

/-- A clear that failed leaves every other offset. -/
theorem read_clearFailed (pg : Page) {a b : Byte} (v got : Byte) (h : b ≠ a) :
    (s.clearFailed b v got).chip.regs.read (regKey s.params pg a) = s.chip.regs.read (regKey s.params pg a) := by
  unfold State.clearFailed
  split
  · change (State.oracleLine _).chip.regs.read _ = _
    unfold State.oracleLine
    rw [regs_setLine, State.setRegs_chip, Memory.read_write, if_neg]
    intro he
    exact h ((regKey_eq_iff _ _ _ _ _).1 he).1.symm
  · rfl

/-- A write leaves every other offset. -/
theorem read_chipWrite (pg : Page) {a b : Byte} (v : Byte) (h : b ≠ a) :
    (s.chipWrite b v).chip.regs.read (regKey s.params pg a) = s.chip.regs.read (regKey s.params pg a) := by
  unfold State.chipWrite
  split
  · rfl
  · split
    · exact read_storeReg s pg 0 v h
    · split
      · exact read_forgetReg s pg h
      · split
        · rfl
        · exact read_storeReg s pg _ v h

/-- A write that did not end good leaves every other offset. -/
theorem read_chipWriteLost (pg : Page) {a b : Byte} (h : b ≠ a) :
    (s.chipWriteLost b).chip.regs.read (regKey s.params pg a) = s.chip.regs.read (regKey s.params pg a) := by
  unfold State.chipWriteLost
  split
  · rfl
  · exact read_forgetReg s pg h

/-- What a write that did not end good leaves of the transmit FIFO, where it was not made at FIFO_ADDR. -/
theorem txq_chipWriteLost {a : Byte} (h : a ≠ s.params.fifoAddr) : (s.chipWriteLost a).chip.txq = s.chip.txq := by
  unfold State.chipWriteLost
  rw [if_neg h]
  rfl

/-! The receive FIFO: writes, good or not, leave it alone. -/

theorem rxq_setLine (level : Bool) : (s.setLine level).chip.rxq = s.chip.rxq := by
  unfold State.setLine
  dsimp only
  split <;> rfl

theorem rxq_storeReg (pg : Page) (a v : Byte) : (s.storeReg pg a v).chip.rxq = s.chip.rxq := by
  unfold State.storeReg
  dsimp only
  split
  · exact rxq_setLine _ _
  · rfl

theorem queues_irqCleared : s.irqCleared.chip.txq = s.chip.txq ∧ s.irqCleared.chip.rxq = s.chip.rxq := by
  have h (u : State) (l : Bool) : (u.setLine l).chip.txq = u.chip.txq ∧ (u.setLine l).chip.rxq = u.chip.rxq := by
    unfold State.setLine
    dsimp only
    split <;> exact ⟨rfl, rfl⟩
  obtain ⟨b, n, -, -, -, hc | ⟨-, hc⟩⟩ := irqCleared_cases s <;> rw [hc]
  · exact h _ _
  · exact ⟨rfl, rfl⟩

theorem queues_writeVerified (a v : Byte) :
    (s.writeVerified a v).chip.txq = s.chip.txq ∧ (s.writeVerified a v).chip.rxq = s.chip.rxq := by
  unfold State.writeVerified
  split
  · exact ⟨rfl, rfl⟩
  · split
    · split
      · exact queues_irqCleared s
      · exact ⟨rfl, rfl⟩
    · split
      · dsimp only
        split
        · exact queues_irqCleared s.drawBit.2
        · exact ⟨rfl, rfl⟩
      · exact ⟨rfl, rfl⟩

theorem queues_clearFailed (a v got : Byte) :
    (s.clearFailed a v got).chip.txq = s.chip.txq ∧ (s.clearFailed a v got).chip.rxq = s.chip.rxq := by
  unfold State.clearFailed
  split
  · change (State.oracleLine _).chip.txq = _ ∧ (State.oracleLine _).chip.rxq = _
    unfold State.oracleLine State.setLine
    dsimp only
    split <;> exact ⟨rfl, rfl⟩
  · exact ⟨rfl, rfl⟩

theorem rxq_chipWrite (a v : Byte) : (s.chipWrite a v).chip.rxq = s.chip.rxq := by
  unfold State.chipWrite
  split
  · rfl
  · split
    · exact rxq_storeReg s 0 a v
    · split
      · rfl
      · split
        · rfl
        · exact rxq_storeReg s _ a v

theorem rxq_chipWriteLost (a : Byte) : (s.chipWriteLost a).chip.rxq = s.chip.rxq := by
  unfold State.chipWriteLost
  split <;> rfl

theorem rxq_unverified (a : Byte) : (s.unverified a).chip.rxq = s.chip.rxq := by
  unfold State.unverified
  split <;> rfl

/-- A read that did not end good takes at most what it asked for, and nothing where it was not made at FIFO_ADDR (log 30). -/
theorem rxq_chipReadLost (a : Byte) (n : Nat) :
    ∃ k, k ≤ n ∧ (s.chipReadLost a n).chip.rxq = (if a = s.params.fifoAddr then s.chip.rxq.drop k else s.chip.rxq) := by
  refine ⟨min n (Config.drawCount s.draws), Nat.min_le_left _ _, ?_⟩
  unfold State.chipReadLost
  split <;> rfl

/-- A write of the system-control register sets the chip's page. -/
theorem chipPage_chipWrite_sysctl (h : s.params.sysctlAddr ≠ s.params.fifoAddr) (v : Byte) :
    (s.chipWrite s.params.sysctlAddr v).chipPage = some (pageField s.params v) := by
  unfold State.chipWrite
  rw [if_neg h, if_pos rfl, chipPage_eq _ 0, (kept_storeReg s 0 s.params.sysctlAddr v).params, regValue_storeReg,
    if_pos ⟨rfl, .inl rfl⟩]
  rfl

/-- The chip's page is the system-control register's: what leaves that register leaves the page. -/
theorem chipPage_of_read {s t : State} (hp : t.params = s.params)
    (h : t.chip.regs.read (regKey s.params 0 s.params.sysctlAddr) = s.chip.regs.read (regKey s.params 0 s.params.sysctlAddr)) :
    t.chipPage = s.chipPage := by
  rw [chipPage_eq t 0, chipPage_eq s 0, hp]
  unfold State.regValue
  rw [hp, h]

theorem chipPage_of_regs {s t : State} (hp : t.params = s.params) (h : t.chip.regs = s.chip.regs) :
    t.chipPage = s.chipPage := chipPage_of_read hp (by rw [h])

/-- A write at another offset leaves the chip's page. -/
theorem chipPage_chipWrite {a : Byte} (h : a ≠ s.params.sysctlAddr) (v : Byte) : (s.chipWrite a v).chipPage = s.chipPage :=
  chipPage_of_read (kept_chipWrite s a v).params (read_chipWrite s 0 v h)

theorem chipPage_unverified {a : Byte} (h : a ≠ s.params.sysctlAddr) : (s.unverified a).chipPage = s.chipPage :=
  chipPage_of_read (kept_unverified s a).params (read_unverified s 0 h)

theorem chipPage_clearFailed {a : Byte} (h : a ≠ s.params.sysctlAddr) (v got : Byte) :
    (s.clearFailed a v got).chipPage = s.chipPage :=
  chipPage_of_read (kept_clearFailed s a v got).params (read_clearFailed s 0 v got h)

/-- The system-control register is not the IRQ-status register, whatever is cleared (log 3). -/
theorem chipPage_writeVerified (h : s.params.wf = true) (a v : Byte) : (s.writeVerified a v).chipPage = s.chipPage :=
  chipPage_of_read (kept_writeVerified s a v).params
    (read_writeVerified s 0 v fun he => absurd he.symm (Params.plain_of_wf h).2.2.2.1.2)

end

end Sys2Proof.Machine
end

