-- ==== Sys2Proof/Laws/Quiet.lean ====
section
/-! SUPPORT. A command while nothing else acts: the boundary does nothing, and where the coming answers are fixed each part of a
command is one equation with what its next state holds. Proofs chain these and `exec_ok` or `exec_raised`. -/

namespace Sys2Proof.Machine

section
variable {α β : Type} {s t u : State}

theorem bind_ok {c : Cmd α} {f : α → Cmd β} {a : α} (h : c s = .ok a t) : (c >>= f) s = f a t := by
  simp only [bind, EStateM.bind, h]

theorem bind_error {c : Cmd α} {f : α → Cmd β} {e : Stop} (h : c s = .error e t) : (c >>= f) s = .error e t := by
  simp only [bind, EStateM.bind, h]

theorem getParams_bind (f : Params → Cmd β) : (getParams >>= f) s = f s.params s := rfl

theorem change_bind (g : State → State) (f : Unit → Cmd β) : (change g >>= f) s = f () (g s) := rfl

theorem boundary_quiet (h : s.during = []) : boundary s = .ok () s := by
  simp only [boundary, h]

theorem closeCommand_quiet (h : s.during = []) (f : State → State) : s.closeCommand f = (f s).endCommand := by
  simp only [State.closeCommand, boundary_quiet h]

/-- A command that runs to its end without an error. -/
theorem exec_ok {i : Instr} (h : commandOf i s.beginCommand = .ok () u) (hq : u.during = []) :
    exec i s = .next u.endCommand ∧ u.endCommand.endedOk := by
  have hc := carries_commandOf i s.beginCommand rfl
  rw [h, endState_ok] at hc
  have hp := permOf_status i
  refine ⟨?_, rfl, rfl, (hc.err hp).trans rfl, (hc.stepIx hp).trans rfl, (hc.cause hp).trans rfl⟩
  simp only [exec_eq_run, runCommand, h, commandResult, closeCommand_quiet hq, id]

/-- A command that raises an error. -/
theorem exec_raised {i : Instr} {e : Error} (h : commandOf i s.beginCommand = .error (.raised e) u) (hq : u.during = []) :
    exec i s = .next (u.report e).endCommand
      ∧ (u.report e).endCommand.endedAs (s.beginCommand.report e).err (s.beginCommand.report e).stepIx
        (s.beginCommand.report e).cause := by
  have hc := carries_commandOf i s.beginCommand rfl
  rw [h, endState_error] at hc
  have hp := permOf_status i
  constructor
  · simp only [exec_eq_run, runCommand, h, commandResult, closeCommand_quiet hq]
  · cases e with
    | bus => exact ⟨rfl, rfl, rfl, (hc.stepIx hp).trans rfl, (hc.cause hp).trans rfl⟩
    | verify _ => exact ⟨rfl, rfl, rfl, (hc.stepIx hp).trans rfl, (hc.cause hp).trans rfl⟩
    | mode _ _ => exact ⟨rfl, rfl, rfl, rfl, rfl⟩

end

/-! ## The ghosts and the transmit FIFO under the chip's own operations -/

/-- CHIPMODE, the fault set and the transmit FIFO are as before. -/
structure SameGhosts (s t : State) : Prop where
  chipMode : t.chipMode = s.chipMode
  faults   : t.faults = s.faults
  txq      : t.chip.txq = s.chip.txq

theorem SameGhosts.refl (s : State) : SameGhosts s s := ⟨rfl, rfl, rfl⟩

theorem SameGhosts.trans {s t u : State} (a : SameGhosts s t) (b : SameGhosts t u) : SameGhosts s u :=
  ⟨b.chipMode.trans a.chipMode, b.faults.trans a.faults, b.txq.trans a.txq⟩

section
variable (s : State)

theorem sameGhosts_setLine (level : Bool) : SameGhosts s (s.setLine level) := by
  unfold State.setLine
  dsimp only
  split <;> exact ⟨rfl, rfl, rfl⟩

theorem sameGhosts_setRegs (m : Memory) : SameGhosts s (s.setRegs m) := ⟨rfl, rfl, rfl⟩

theorem sameGhosts_storeReg (pg : Page) (a v : Byte) : SameGhosts s (s.storeReg pg a v) := by
  have h := sameGhosts_setRegs s (s.chip.regs.write (regKey s.params pg a) v)
  unfold State.storeReg
  dsimp only
  split
  · exact h.trans (sameGhosts_setLine _ _)
  · exact h

theorem sameGhosts_forgetReg (a : Byte) : SameGhosts s (s.forgetReg a) := ⟨rfl, rfl, rfl⟩

theorem sameGhosts_unverified (a : Byte) : SameGhosts s (s.unverified a) := by
  unfold State.unverified
  split
  · exact .refl s
  · exact sameGhosts_forgetReg s a

theorem sameGhosts_regOrDraw (r : RegAt) : SameGhosts s (s.regOrDraw r).2 := by
  unfold State.regOrDraw
  split <;> exact ⟨rfl, rfl, rfl⟩

theorem sameGhosts_irqCleared : SameGhosts s s.irqCleared := by
  obtain ⟨b, n, -, -, -, h⟩ := irqCleared_cases s
  have hu : SameGhosts s (({ s with draws := n }).setRegs
      (s.chip.regs.write (regKey s.params s.params.irqReg.page s.params.irqReg.addr) b)) := ⟨rfl, rfl, rfl⟩
  rcases h with h | ⟨-, h⟩
  · exact h ▸ hu.trans (sameGhosts_setLine _ _)
  · exact h ▸ hu

theorem sameGhosts_writeVerified (a v : Byte) : SameGhosts s (s.writeVerified a v) := by
  unfold State.writeVerified
  split
  · exact .refl s
  · split
    · split
      · exact sameGhosts_irqCleared s
      · exact .refl s
    · split
      · dsimp only
        split
        · exact SameGhosts.trans (t := s.drawBit.2) ⟨rfl, rfl, rfl⟩ (sameGhosts_irqCleared _)
        · exact ⟨rfl, rfl, rfl⟩
      · exact .refl s

theorem sameGhosts_clearFailed (a v got : Byte) : SameGhosts s (s.clearFailed a v got) := by
  unfold State.clearFailed
  split
  · have h := (sameGhosts_setRegs s (s.chip.regs.write (regKey s.params s.params.irqReg.page a) got)).trans
      (sameGhosts_setLine _ _ : SameGhosts _ (State.oracleLine _))
    exact h.trans ⟨rfl, rfl, rfl⟩
  · exact .refl s

theorem sameGhosts_chipWrite {a : Byte} (h : a ≠ s.params.fifoAddr) (v : Byte) : SameGhosts s (s.chipWrite a v) := by
  unfold State.chipWrite
  rw [if_neg h]
  split
  · exact sameGhosts_storeReg s _ _ _
  · split
    · exact sameGhosts_forgetReg s a
    · split
      · exact .refl s
      · exact sameGhosts_storeReg s _ _ _

/-- Whatever the offset, a write that reaches the chip touches neither CHIPMODE nor the fault set. -/
theorem chipWrite_ghosts (a v : Byte) : (s.chipWrite a v).chipMode = s.chipMode ∧ (s.chipWrite a v).faults = s.faults := by
  by_cases h : a = s.params.fifoAddr
  · unfold State.chipWrite
    rw [if_pos h]
    exact ⟨rfl, rfl⟩
  · exact ⟨(sameGhosts_chipWrite s h v).chipMode, (sameGhosts_chipWrite s h v).faults⟩

theorem sameGhosts_consumed (a : Byte) : SameGhosts s (s.consumed a) := by
  unfold State.consumed
  split <;> exact ⟨rfl, rfl, rfl⟩

theorem sameGhosts_oracleByte (a : Byte) : SameGhosts s (s.oracleByte a).2 := by
  unfold State.oracleByte
  split
  · exact .refl s
  · split
    · exact sameGhosts_regOrDraw s _
    · exact ⟨rfl, rfl, rfl⟩

theorem sameGhosts_chipByte (a : Byte) (l : List Byte) : SameGhosts s (s.chipByte a l).2 := by
  have h : SameGhosts s (if s.chip.oracle then s.oracleByte a else s.drawByte).2 := by
    split
    · exact sameGhosts_oracleByte s a
    · exact ⟨rfl, rfl, rfl⟩
  exact h.trans (sameGhosts_consumed _ a)

theorem sameGhosts_chipBytes (a : Byte) (l : List Byte) (n : Nat) : SameGhosts s (s.chipBytes a l n).2 := by
  induction n generalizing s l with
  | zero => exact .refl s
  | succ n ih => exact (sameGhosts_chipByte s a l).trans (ih _ _)

/-- Reads answered or drawn leave the receive FIFO as it is; only `consumed` takes from it. -/
theorem oracleByte_rxq (a : Byte) : (s.oracleByte a).2.chip.rxq = s.chip.rxq := by
  unfold State.oracleByte
  split
  · rfl
  · split
    · rw [regOrDraw_chip]
    · rfl

theorem chipByte_rxq (a : Byte) (l : List Byte) :
    (s.chipByte a l).2.chip.rxq = if a = s.params.fifoAddr then s.chip.rxq.tail else s.chip.rxq := by
  have h : (if s.chip.oracle then s.oracleByte a else s.drawByte).2.chip.rxq = s.chip.rxq
      ∧ (if s.chip.oracle then s.oracleByte a else s.drawByte).2.params = s.params := by
    split
    · exact ⟨oracleByte_rxq s a, (kept_oracleByte s a).params⟩
    · exact ⟨rfl, rfl⟩
  unfold State.chipByte State.consumed
  dsimp only
  rw [h.2]
  split
  · rw [State.setRxq_chip, h.1]
  · exact h.1

/-- A burst read at FIFO_ADDR takes its bytes out of the receive FIFO, whoever answers (20_memory.md R59, D12). -/
theorem chipBytes_consumes {a : Byte} (ha : a = s.params.fifoAddr) (l : List Byte) (n : Nat) :
    (s.chipBytes a l n).2.chip.rxq = s.chip.rxq.drop n := by
  induction n generalizing s l with
  | zero => rfl
  | succ n ih =>
    have h := ih (s := (s.chipByte a l).2) (ha.trans (by rw [(kept_chipByte s a l).params])) l.tail
    rw [State.chipBytes]
    rw [h, chipByte_rxq, if_pos ha, List.drop_tail]

/-- The bytes a burst returns are the fixed ones. -/
theorem chipBytes_forced (a : Byte) (l : List Byte) : (s.chipBytes a l l.length).1 = l := by
  induction l generalizing s with
  | nil => rfl
  | cons b l ih =>
    simp only [List.length_cons, State.chipBytes, List.tail_cons, ih]
    rfl

/-! ## The monitor -/

theorem sameGhosts_pageDrawn (a : Byte) : SameGhosts s (s.pageDrawn a) := by
  unfold State.pageDrawn
  split <;> exact ⟨rfl, rfl, rfl⟩

/-- The page a mode write is judged on is the one it draws. -/
theorem monitorWrite_pageDrawn (a v : Byte) : (s.pageDrawn a).monitorWrite a v = s.monitorWrite a v := by
  have h := pageDrawn_again s (a := a) (kept_pageDrawn s a).params rfl
  simp only [State.monitorWrite, h, (kept_pageDrawn s a).params]

/-- Of the chip a mode write's judgement touches the page it draws alone. -/
theorem chip_monitorWrite (a v : Byte) : (s.monitorWrite a v).chip = (s.pageDrawn a).chip := by
  unfold State.monitorWrite
  dsimp only
  split
  · split <;> rfl
  · rfl

theorem chip_monitorRead (a v : Byte) : (s.monitorRead a v).chip = s.chip := by
  unfold State.monitorRead
  split <;> rfl

theorem monitorRead_faults (a v : Byte) : (s.monitorRead a v).faults = s.faults := by
  unfold State.monitorRead
  split <;> rfl

/-- What a read tells CHIPMODE depends on the chip's page and the parameters alone. -/
theorem monitorRead_congr {s t : State} {a v : Byte} (hp : t.params = s.params) (hg : t.chipPage = s.chipPage)
    (hm : t.chipMode = s.chipMode) : (t.monitorRead a v).chipMode = (s.monitorRead a v).chipMode := by
  have ha : t.modeAccess a = s.modeAccess a := by
    unfold State.modeAccess
    rw [hp, hg]
  unfold State.monitorRead
  rw [ha, hp]
  split
  · rfl
  · exact hm

/-- A read-back right after the write of the same register, which moved no page, says what a read in its place says. -/
theorem monitorRead_afterWrite {s t : State} {a v g : Byte} (hp : t.params = s.params)
    (hg : t.chipPage = (s.pageDrawn a).chipPage) (hm : t.chipMode = (s.monitorWrite a v).chipMode) :
    (t.monitorRead a g).chipMode = ((s.pageDrawn a).monitorRead a g).chipMode := by
  have hd := (kept_pageDrawn s a).params
  have ha : t.modeAccess a = (s.pageDrawn a).modeAccess a := by
    unfold State.modeAccess
    rw [hp, hg, hd]
  unfold State.monitorWrite at hm
  unfold State.monitorRead
  rw [ha, hp, hd]
  split <;> next he =>
    simp only [he] at hm
    first
    | exact hm
    | rfl

/-- The system-control register is not the mode-control register. -/
theorem modeAccess_sysctl {a : Byte} (h : a = s.params.sysctlAddr) : s.modeAccess a = false := by
  simp [State.modeAccess, h]

theorem monitorWrite_sysctl {s : State} {a v : Byte} (h : a = s.params.sysctlAddr) : s.monitorWrite a v = s := by
  simp [State.monitorWrite, pageDrawn_sysctl s h, modeAccess_sysctl s h]

theorem monitorRead_sysctl {s : State} {a v : Byte} (h : a = s.params.sysctlAddr) : s.monitorRead a v = s := by
  simp [State.monitorRead, modeAccess_sysctl s h]

/-- On a known page an access is one to the mode-control register exactly where page and offset are its own. -/
theorem modeAccess_onPage {s : State} {q : Page} (h : s.chipPage = some q) (hp : s.params.wf = true) (a : Byte) :
    s.modeAccess a = decide ((⟨q, a⟩ : RegAt) = modectl s.params) := by
  have hne : s.params.modectlAddr ≠ s.params.sysctlAddr := (Params.plain_of_wf hp).1.2
  rw [Bool.eq_iff_iff]
  simp only [State.modeAccess, h, modectl, RegAt.mk.injEq, Bool.and_eq_true, beq_iff_eq, bne_iff_ne, Option.some.injEq,
    decide_eq_true_eq]
  constructor
  · rintro ⟨⟨h1, -⟩, h2⟩
    exact ⟨h2, h1⟩
  · rintro ⟨h1, rfl⟩
    exact ⟨⟨rfl, hne⟩, h1⟩

/-- On a known page: what a read tells CHIPMODE, and which write records a fault. -/
theorem monitor_onPage {s : State} {r : RegAt} (h : s.chipPage = some r.page) (hp : s.params.wf = true) :
    (∀ x, (s.monitorRead r.addr x).chipMode = if r = modectl s.params then decodeMode s.params x else s.chipMode)
    ∧ ∀ v, (s.monitorWrite r.addr v).faults =
      if r = modectl s.params ∧ legal s.chipMode (decodeMode s.params v) = false
        then { s.faults with illegalTransition := true } else s.faults := by
  have ha := modeAccess_onPage h hp r.addr
  have hd : s.pageDrawn r.addr = s := pageDrawn_known s (by simp [h])
  by_cases hr : r = modectl s.params
  · rw [decide_eq_true hr] at ha
    constructor
    · intro x
      rw [if_pos hr]
      simp only [State.monitorRead, ha, if_true, State.setChipMode_chipMode]
    · intro v
      simp only [State.monitorWrite, hd, ha]
      cases hl : legal s.chipMode (decodeMode s.params v) <;> simp [hr]
  · rw [decide_eq_false hr] at ha
    constructor
    · intro x
      rw [if_neg hr]
      simp [State.monitorRead, ha]
    · intro v
      rw [if_neg (fun h => hr h.1)]
      simp [State.monitorWrite, hd, ha]

/-- The same at the mode-control register's offset, whatever the known page. -/
theorem monitor_atModectl {s : State} {q : Page} (h : s.chipPage = some q) (hp : s.params.wf = true) :
    (∀ x, (s.monitorRead s.params.modectlAddr x).chipMode =
      if q = s.params.modectlPage then decodeMode s.params x else s.chipMode)
    ∧ ∀ v, (s.monitorWrite s.params.modectlAddr v).faults =
      if q = s.params.modectlPage ∧ legal s.chipMode (decodeMode s.params v) = false
        then { s.faults with illegalTransition := true } else s.faults := by
  simpa only [modectl, RegAt.mk.injEq, and_true] using monitor_onPage (r := ⟨q, s.params.modectlAddr⟩) h hp

/-! ## Transactions with a fixed answer -/

theorem nextAnswer_force {bs : List Byte} {rest : List Answer} (h : s.chip.answers = .force bs :: rest) :
    s.nextAnswer = ((.done, bs), { s with chip := { s.chip with answers := rest } }) := by
  simp only [State.nextAnswer, h, List.tail_cons, List.head?_cons, Option.getD_some]

theorem nextAnswer_fault {rest : List Answer} (h : s.chip.answers = .fault :: rest) :
    s.nextAnswer = ((.fault, []), { s with chip := { s.chip with answers := rest } }) := by
  simp only [State.nextAnswer, h, List.tail_cons, List.head?_cons, Option.getD_some]

theorem nextAnswer_oracle (h : s.underOracle) : s.nextAnswer = ((.done, []), s) := by
  have hc : ({ s.chip with answers := [] } : Chip) = s.chip := by rw [← h.2]
  have hs : ({ s with chip := { s.chip with answers := [] } } : State) = s := congrArg (fun c => { s with chip := c }) hc
  simp only [State.nextAnswer, h.1, h.2, List.tail_nil, List.head?_nil, Option.getD_none, if_true]
  rw [← h.1, hs]

end

section
variable {α : Type} {s v : State} {bs : List Byte} {before : State → State} {good : List Byte → State → α × State}
  {lost : State → State} {failed : BusEvent}

theorem transact_good (hq : s.during = []) (h : (before s).advance.nextAnswer = ((.done, bs), v)) :
    transact before good lost failed s = .ok (good bs v).1 (good bs v).2 := by
  simp only [transact, bind, EStateM.bind, boundary_quiet hq, h]

theorem transact_fault (hq : s.during = []) (h : (before s).advance.nextAnswer = ((.fault, bs), v)) :
    transact before good lost failed s = .error (.raised .bus) ((lost v).logged failed).dropPage := by
  simp only [transact, bind, EStateM.bind, boundary_quiet hq, h]

end

/-- A part of a command ran while nothing else acted: it issued `evs`, and `rest` are the answers still fixed. -/
structure Quietly (rest : List Answer) (evs : List BusEvent) (s t : State) : Prop where
  during  : t.during = []
  answers : t.chip.answers = rest
  log     : t.log = s.log ++ evs
  carried : Carried {} s t

theorem Quietly.trans {r1 r2 : List Answer} {e1 e2 : List BusEvent} {s t u : State} (a : Quietly r1 e1 s t)
    (b : Quietly r2 e2 t u) : Quietly r2 (e1 ++ e2) s u :=
  ⟨b.during, b.answers, by rw [b.log, a.log, List.append_assoc], a.carried.trans b.carried⟩

theorem Quietly.params {r : List Answer} {e : List BusEvent} {s t : State} (h : Quietly r e s t) : t.params = s.params :=
  h.carried.params

theorem Quietly.busy {r : List Answer} {e : List BusEvent} {s t : State} (h : Quietly r e s t) : t.busy = s.busy :=
  h.carried.busy rfl

section
variable {s : State} {rest : List Answer}

/-- A change that puts nothing on the bus. -/
theorem Quietly.of_eq {t : State} (hq : s.during = []) (ha : s.chip.answers = rest) (hd : t.during = s.during)
    (hc : t.chip = s.chip) (hl : t.log = s.log) (h : Carried {} s t) : Quietly rest [] s t :=
  ⟨hd.trans hq, by rw [hc, ha], by rw [hl, List.append_nil], h⟩

/-- A good read returns the fixed byte. -/
theorem busRead_forced (hb : s.busy = true) (hq : s.during = []) {x : Byte} {bs : List Byte}
    (ha : s.chip.answers = .force (x :: bs) :: rest) (a : Byte) :
    ∃ u, busRead a s = .ok x u ∧ Quietly rest [.read a (some x)] s u ∧ u.pcache = s.pcache ∧ u.faults = s.faults
      ∧ u.chipMode = ((s.pageDrawn a).monitorRead a x).chipMode ∧ u.chipPage = (s.pageDrawn a).chipPage := by
  have hd := kept_pageDrawn s a
  have hdg := sameGhosts_pageDrawn s a
  have h := transact_good (α := Byte) (before := fun s => s.pageDrawn a) (lost := fun s => s.chipReadLost a 1) (failed := .read a none)
    (good := fun forced s =>
      let d := s.chipByte a forced
      (d.1, (d.2.logged (.read a (some d.1))).monitorRead a d.1)) hq
    (nextAnswer_force (s.pageDrawn a).advance (hd.answers.trans ha))
  set v : State := { (s.pageDrawn a).advance with chip := { (s.pageDrawn a).advance.chip with answers := rest } }
  have hc := carries_busRead (p := {}) rfl a s hb
  have hk : Kept v (v.chipByte a (x :: bs)).2 := kept_chipByte v a _
  have hg := sameGhosts_chipByte v a (x :: bs)
  have hx : (v.chipByte a (x :: bs)).1 = x := rfl
  have hp : (v.chipByte a (x :: bs)).2.params = (s.pageDrawn a).params := hk.params
  have hpg : (v.chipByte a (x :: bs)).2.chipPage = (s.pageDrawn a).chipPage :=
    (chipPage_of_regs hk.params (regs_chipByte v a _)).trans rfl
  change busRead a s = _ at h
  rw [h, endState_ok] at hc
  have hm := kept_monitorRead ((v.chipByte a (x :: bs)).2.logged (.read a (some x))) a x
  refine ⟨_, h, ⟨hm.during.trans (hk.during.trans (hd.during.trans hq)), hm.answers.trans hk.answers, hm.log.trans ?_, hc⟩,
    hm.pcache.trans (hk.pcache.trans hd.pcache), (monitorRead_faults _ a x).trans (hg.faults.trans hdg.faults), ?_, ?_⟩
  · rw [State.logged_log, hk.log]
    exact congrArg (· ++ _) hd.log
  · exact monitorRead_congr hp hpg hg.chipMode
  · exact (chipPage_of_regs hm.params (by rw [chip_monitorRead])).trans hpg

/-- A good write. -/
theorem busWrite_forced (hb : s.busy = true) (hq : s.during = []) {bs : List Byte}
    (ha : s.chip.answers = .force bs :: rest) (a v : Byte) :
    ∃ u, busWrite a v s = .ok () u ∧ Quietly rest [.write a v true] s u ∧ u.pcache = s.pcache
      ∧ u.faults = (s.monitorWrite a v).faults ∧ u.chipMode = (s.monitorWrite a v).chipMode
      ∧ (a ≠ s.params.sysctlAddr → u.chipPage = (s.pageDrawn a).chipPage)
      ∧ (a = s.params.sysctlAddr → a ≠ s.params.fifoAddr → u.chipPage = some (pageField s.params v)) := by
  have hk := kept_monitorWrite s a v
  have h := transact_good (α := Unit) (before := fun s => s.monitorWrite a v)
    (lost := fun s => (s.chipWriteLost a).monitorLost a) (failed := .write a v false)
    (good := fun _ s => ((), (s.chipWrite a v).logged (.write a v true))) hq
    (nextAnswer_force (s.monitorWrite a v).advance (hk.answers.trans ha))
  set w : State := { (s.monitorWrite a v).advance with
    chip := { (s.monitorWrite a v).advance.chip with answers := rest } } with hw
  have hc := carries_busWrite (p := {}) rfl a v s hb
  change busWrite a v s = _ at h
  rw [h, endState_ok] at hc
  have h2 := kept_chipWrite w a v
  have hwp : w.params = s.params := hk.params
  have hwg : w.chipPage = (s.pageDrawn a).chipPage := chipPage_of_regs (hwp.trans (kept_pageDrawn s a).params.symm) (by
    rw [hw]
    change (s.monitorWrite a v).chip.regs = _
    rw [chip_monitorWrite])
  refine ⟨_, h, ⟨h2.during.trans (hk.during.trans hq), h2.answers, ?_, hc⟩, h2.pcache.trans hk.pcache,
    (chipWrite_ghosts w a v).2, (chipWrite_ghosts w a v).1, fun hs => ?_, fun hs hf => ?_⟩
  · rw [State.logged_log, h2.log]
    exact congrArg (· ++ _) hk.log
  · exact (chipPage_chipWrite w (by rwa [hwp]) v).trans hwg
  · have h := chipPage_chipWrite_sysctl w (by rw [hwp, ← hs]; exact hf) v
    rw [hwp, ← hs] at h
    exact h

/-! ## The page switch and the paged accesses -/

/-- The state `w` from which a paged access of page `pg` begins, as the monitor sees it: nothing moved but, where the page was
not cached or not known, the chip's page. -/
structure Switched (s : State) (pg : Page) (w : State) : Prop where
  params   : w.params = s.params
  chipMode : w.chipMode = s.chipMode
  faults   : w.faults = s.faults
  cached   : s.cached pg → s.chipPage ≠ none → w.chipPage = s.chipPage
  switched : s.params.wf = true → ¬ s.cached pg → w.chipPage = some pg

/-- Where the page cache is right about the chip, the access reaches the page it names. -/
theorem Switched.page {pg : Page} {w : State} (h : Switched s pg w) (hp : s.params.wf = true) (hc : s.pageCoherent) :
    w.chipPage = some pg := by
  by_cases hs : s.cached pg
  · have hk := hc pg hs.2
    exact (h.cached hs (by simp [hk])).trans hk
  · exact h.switched hp hs

/-- The same where the access of a register itself begins: at the mode-control register's offset the page is known. -/
structure Reached (s : State) (r : RegAt) (w : State) : Prop extends Switched s r.page w where
  drawn : w.pageDrawn r.addr = w

theorem Switched.reach {r : RegAt} {w : State} (h : Switched s r.page w) : Reached s r (w.pageDrawn r.addr) where
  params := (kept_pageDrawn w r.addr).params.trans h.params
  chipMode := (sameGhosts_pageDrawn w r.addr).chipMode.trans h.chipMode
  faults := (sameGhosts_pageDrawn w r.addr).faults.trans h.faults
  cached hs hn := by
    have hk := h.cached hs hn
    rw [pageDrawn_known w (by rwa [hk]), hk]
  switched hp hs := by
    have hk := h.switched hp hs
    rw [pageDrawn_known w (by simp [hk]), hk]
  drawn := pageDrawn_again w (kept_pageDrawn w r.addr).params rfl

/-- An access at the mode-control register's offset is on a known page. -/
theorem Reached.known {r : RegAt} {w : State} (h : Reached s r w) (hp : s.params.wf = true) (ha : r.addr = s.params.modectlAddr) :
    ∃ q, w.chipPage = some q := by
  have hk := chipPage_pageDrawn w (by rw [h.params]; exact (Params.plain_of_wf hp).1.2)
  rw [h.params, ← ha, h.drawn] at hk
  exact hk

/-- A read of the mode-control register re-synchronises CHIPMODE, and no other read touches it. -/
theorem Switched.read {r : RegAt} {w : State} (h : Switched s r.page w) (hp : s.params.wf = true) (hc : s.pageCoherent)
    (x : Byte) : (w.monitorRead r.addr x).chipMode = if r = modectl s.params then decodeMode s.params x else s.chipMode := by
  rw [← h.params, ← h.chipMode]
  exact (monitor_onPage (h.page hp hc) (h.params ▸ hp)).1 x

/-- A write of the mode-control register is judged, and no other write. -/
theorem Switched.write {r : RegAt} {w : State} (h : Switched s r.page w) (hp : s.params.wf = true) (hc : s.pageCoherent)
    (v : Byte) : (w.monitorWrite r.addr v).faults =
      if r = modectl s.params ∧ legal s.chipMode (decodeMode s.params v) = false
        then { s.faults with illegalTransition := true } else s.faults := by
  rw [← h.params, ← h.chipMode, ← h.faults]
  exact (monitor_onPage (h.page hp hc) (h.params ▸ hp)).2 v

theorem switchPage_cached {pg : Page} (h : s.cached pg) : switchPage pg s = .ok () s := by
  simp only [switchPage, h.1, h.2, beq_self_eq_true, Bool.and_self, if_true]

theorem switchPage_uncached {pg : Page} (h : ¬ s.cached pg) :
    switchPage pg s = (do
      let v ← busRead s.params.sysctlAddr
      busWrite s.params.sysctlAddr (setPageField s.params v pg)
      let r ← busRead s.params.sysctlAddr
      if r = setPageField s.params v pg then change fun u => u.setPage pg
      else do
        change fun u => (u.unverified u.params.sysctlAddr).dropPage
        raiseError (.verify none) : Cmd Unit) s := by
  have hne : ¬ (s.params.pageCacheEnable && s.pcache == some pg) = true := by
    rw [Bool.and_eq_true, beq_iff_eq]
    exact h
  unfold switchPage
  rw [if_neg hne]

/-- The outputs of a page switch that is not saved by the page cache. -/
def switchEvents (p : Params) (v r : Byte) (pg : Page) : List BusEvent :=
  [.read p.sysctlAddr (some v), .write p.sysctlAddr (setPageField p v pg) true, .read p.sysctlAddr (some r)]

/-- A page switch up to its comparison. -/
theorem switchPage_reads (hb : s.busy = true) (hq : s.during = []) {pg : Page} {v r : Byte} (hn : ¬ s.cached pg)
    (ha : s.chip.answers = .force [v] :: .force [] :: .force [r] :: rest) :
    ∃ u, switchPage pg s = ((if r = setPageField s.params v pg then change fun u => u.setPage pg
        else do
          change fun u => (u.unverified u.params.sysctlAddr).dropPage
          raiseError (.verify none)) : Cmd Unit) u
      ∧ Quietly rest (switchEvents s.params v r pg) s u ∧ u.faults = s.faults ∧ u.chipMode = s.chipMode
      ∧ (s.params.sysctlAddr ≠ s.params.fifoAddr → u.chipPage = some pg) := by
  obtain ⟨u1, h1, q1, -, f1, m1, g1⟩ := busRead_forced hb hq ha s.params.sysctlAddr
  obtain ⟨u2, h2, q2, -, f2, m2, -, g2⟩ := busWrite_forced (q1.busy.trans hb) q1.during q1.answers s.params.sysctlAddr
    (setPageField s.params v pg)
  obtain ⟨u3, h3, q3, -, f3, m3, g3⟩ := busRead_forced (q2.busy.trans (q1.busy.trans hb)) q2.during q2.answers
    s.params.sysctlAddr
  have hp1 := q1.params
  have hp2 := q2.params.trans hp1
  rw [monitorWrite_sysctl (by rw [hp1])] at f2 m2
  rw [pageDrawn_sysctl s rfl, monitorRead_sysctl rfl] at m1
  rw [pageDrawn_sysctl u2 (by rw [hp2])] at m3 g3
  rw [monitorRead_sysctl (by rw [hp2])] at m3
  refine ⟨u3, ?_, (q1.trans q2).trans q3, f3.trans (f2.trans f1), m3.trans (m2.trans m1), fun hne => ?_⟩
  · rw [switchPage_uncached hn, bind_ok h1, bind_ok h2, bind_ok h3]
  · rw [hp1] at g2
    rw [g3, g2 rfl hne, pageField_setPageField]

/-- What a page switch puts on the bus and which answers it takes: none where the page is cached. -/
inductive SwitchAnswers (s : State) (pg : Page) : List Answer → List BusEvent → Prop
  | cached : s.cached pg → SwitchAnswers s pg [] []
  | switched (v : Byte) : ¬ s.cached pg →
      SwitchAnswers s pg [.force [v], .force [], .force [setPageField s.params v pg]]
        (switchEvents s.params v (setPageField s.params v pg) pg)

theorem SwitchAnswers.of_switchesTo {pg : Page} {v : Byte} {ans : List (List Byte)} {sw : List BusEvent}
    (h : s.switchesTo pg v ans sw) : SwitchAnswers s pg (ans.map .force) sw := by
  rcases h with ⟨hc, rfl, rfl⟩ | ⟨hc, rfl, rfl⟩
  · exact .cached hc
  · exact .switched v hc

theorem switchPage_forced (hb : s.busy = true) (hq : s.during = []) {pg : Page} {ans : List Answer} {sw : List BusEvent}
    (hs : SwitchAnswers s pg ans sw) (ha : s.chip.answers = ans ++ rest) :
    ∃ u, switchPage pg s = .ok () u ∧ Quietly rest sw s u ∧ u.pcache = some pg ∧ Switched s pg u := by
  cases hs with
  | cached h =>
    exact ⟨s, switchPage_cached h, .of_eq hq ha rfl rfl rfl (.refl _ s), h.2, rfl, rfl, rfl, fun _ _ => rfl,
      fun _ hc => absurd h hc⟩
  | switched v h =>
    obtain ⟨u, h1, q, hf, hm, hg⟩ := switchPage_reads hb hq h ha
    rw [if_pos rfl] at h1
    exact ⟨_, h1, ⟨q.during, q.answers, q.log, q.carried.trans { Carried.refl _ u with }⟩, rfl, q.params, hm, hf,
      fun hc => absurd hc h, fun hw _ => hg (Params.sysctl_ne_fifo hw)⟩

theorem switchPage_mismatch (hb : s.busy = true) (hq : s.during = []) {pg : Page} {v r : Byte} (hn : ¬ s.cached pg)
    (hr : r ≠ setPageField s.params v pg) (ha : s.chip.answers = .force [v] :: .force [] :: .force [r] :: rest) :
    ∃ u, switchPage pg s = .error (.raised (.verify none)) u ∧ Quietly rest (switchEvents s.params v r pg) s u
      ∧ u.pcache = none := by
  obtain ⟨u, h1, q, -⟩ := switchPage_reads hb hq hn ha
  rw [if_neg hr] at h1
  have hk := kept_unverified u u.params.sysctlAddr
  exact ⟨_, h1, ⟨hk.during.trans q.during, hk.answers.trans q.answers, hk.log.trans q.log,
    q.carried.trans ((carried_unverified _ _ _).trans (carried_dropPage _ _))⟩, rfl⟩

theorem pagedRead_forced (hb : s.busy = true) (hq : s.during = []) {r : RegAt} {x : Byte} {ans : List Answer}
    {sw : List BusEvent} (hs : SwitchAnswers s r.page ans sw) (ha : s.chip.answers = ans ++ .force [x] :: rest) :
    ∃ w u, pagedRead r s = .ok x u ∧ Quietly rest (sw ++ [.read r.addr (some x)]) s u ∧ u.pcache = some r.page
      ∧ u.faults = s.faults ∧ Reached s r w ∧ u.chipMode = (w.monitorRead r.addr x).chipMode
      ∧ u.chipPage = w.chipPage := by
  obtain ⟨w, h1, q1, p1, hw⟩ := switchPage_forced hb hq hs ha
  obtain ⟨u, h2, q2, p2, f2, m2, g2⟩ := busRead_forced (q1.busy.trans hb) q1.during q1.answers r.addr
  exact ⟨_, u, (bind_ok h1).trans h2, q1.trans q2, p2.trans p1, f2.trans hw.faults, hw.reach, m2, g2⟩

/-- A verified write up to its comparison. -/
theorem pagedWrite_reads (hb : s.busy = true) (hq : s.during = []) {r : RegAt} {v g : Byte} {ans : List Answer}
    {sw : List BusEvent} (hs : SwitchAnswers s r.page ans sw)
    (ha : s.chip.answers = ans ++ .force [] :: .force [g] :: rest) :
    ∃ w u, pagedWrite r v s = ((if g = v then change fun s => s.writeVerified r.addr v
        else do
          change fun s => (s.unverified r.addr).clearFailed r.addr v g
          raiseError (.verify (some r))) : Cmd Unit) u
      ∧ Quietly rest (sw ++ [.write r.addr v true, .read r.addr (some g)]) s u
      ∧ u.pcache = (if r.addr = s.params.sysctlAddr then none else some r.page)
      ∧ Reached s r w ∧ u.faults = (w.monitorWrite r.addr v).faults
      ∧ u.chipMode = (w.monitorRead r.addr g).chipMode ∧ (r.addr ≠ s.params.sysctlAddr → u.chipPage = w.chipPage) := by
  obtain ⟨w, h1, q1, p1, hw⟩ := switchPage_forced hb hq hs ha
  obtain ⟨u2, h2, q2, p2, f2, m2, g2, -⟩ := busWrite_forced (q1.busy.trans hb) q1.during q1.answers r.addr v
  have hp2 : u2.params = s.params := q2.params.trans q1.params
  set u2' := if r.addr = u2.params.sysctlAddr then u2.dropPage else u2 with hu2'
  have q2' : Quietly (.force [g] :: rest) [] u2 u2' := by
    rw [hu2']
    split
    · exact .of_eq q2.during q2.answers rfl rfl rfl (carried_dropPage _ _)
    · exact .of_eq q2.during q2.answers rfl rfl rfl (.refl _ _)
  have e2' : u2'.faults = u2.faults ∧ u2'.chipMode = u2.chipMode ∧ u2'.chipPage = u2.chipPage := by
    rw [hu2']
    split <;> exact ⟨rfl, rfl, rfl⟩
  obtain ⟨u3, h3, q3, p3, f3, m3, g3⟩ := busRead_forced (q2'.busy.trans (q2.busy.trans (q1.busy.trans hb))) q2'.during
    q2'.answers r.addr
  rw [q1.params] at g2
  have k2 : r.addr ≠ s.params.sysctlAddr → (u2'.pageDrawn r.addr).chipPage = (w.pageDrawn r.addr).chipPage
      ∧ u2'.pageDrawn r.addr = u2' := by
    intro hs
    have hg2 : u2'.chipPage = (w.pageDrawn r.addr).chipPage := e2'.2.2.trans (g2 hs)
    have hd : u2'.pageDrawn r.addr = u2' := pageDrawn_again w (q2'.params.trans q2.params) hg2
    exact ⟨by rw [hd, hg2], hd⟩
  have hfw : u3.faults = ((w.pageDrawn r.addr).monitorWrite r.addr v).faults := by
    rw [monitorWrite_pageDrawn]
    exact f3.trans (e2'.1.trans f2)
  refine ⟨_, u3, ?_, ?_, ?_, hw.reach, hfw, ?_, fun hs => g3.trans (k2 hs).1⟩
  · unfold pagedWrite
    rw [bind_ok h1, bind_ok h2, change_bind, bind_ok h3]
  · have q := ((q1.trans q2).trans q2').trans q3
    simpa only [List.append_assoc, List.append_nil, List.cons_append, List.nil_append] using q
  · rw [p3, hu2', hp2]
    split
    · rfl
    · exact p2.trans p1
  · rw [m3]
    by_cases hs : r.addr = s.params.sysctlAddr
    · have hsw : r.addr = w.params.sysctlAddr := by rw [hw.params, hs]
      have hsu : r.addr = u2'.params.sysctlAddr := by rw [q2'.params, hp2, hs]
      rw [pageDrawn_sysctl _ hsw, pageDrawn_sysctl _ hsu, monitorRead_sysctl hsu, monitorRead_sysctl hsw, e2'.2.1, m2,
        monitorWrite_sysctl hsw]
    · rw [(k2 hs).2]
      exact monitorRead_afterWrite (q2'.params.trans q2.params) (e2'.2.2.trans (g2 hs)) (e2'.2.1.trans m2)

theorem pagedWrite_forced (hb : s.busy = true) (hq : s.during = []) {r : RegAt} {v : Byte} {ans : List Answer}
    {sw : List BusEvent} (hs : SwitchAnswers s r.page ans sw)
    (ha : s.chip.answers = ans ++ .force [] :: .force [v] :: rest) :
    ∃ w u : State, pagedWrite r v s = .ok () (u.writeVerified r.addr v)
      ∧ Quietly rest (sw ++ [.write r.addr v true, .read r.addr (some v)]) s (u.writeVerified r.addr v)
      ∧ (u.writeVerified r.addr v).pcache = (if r.addr = s.params.sysctlAddr then none else some r.page)
      ∧ Reached s r w ∧ (u.writeVerified r.addr v).faults = (w.monitorWrite r.addr v).faults
      ∧ (u.writeVerified r.addr v).chipMode = (w.monitorRead r.addr v).chipMode
      ∧ u.params = s.params ∧ (r.addr ≠ s.params.sysctlAddr → u.chipPage = w.chipPage) := by
  obtain ⟨w, u, h, q, hp, hw, hf, hm, hg⟩ := pagedWrite_reads hb hq hs ha
  rw [if_pos rfl] at h
  have hk := kept_writeVerified u r.addr v
  have hgh := sameGhosts_writeVerified u r.addr v
  exact ⟨w, u, h, ⟨hk.during.trans q.during, hk.answers.trans q.answers, hk.log.trans q.log,
    q.carried.trans (carried_writeVerified _ _ _ _)⟩, hk.pcache.trans hp, hw, hgh.faults.trans hf, hgh.chipMode.trans hm,
    q.params, hg⟩

theorem pagedWrite_mismatch (hb : s.busy = true) (hq : s.during = []) {r : RegAt} {v g : Byte} {ans : List Answer}
    {sw : List BusEvent} (hg : g ≠ v) (hs : SwitchAnswers s r.page ans sw)
    (ha : s.chip.answers = ans ++ .force [] :: .force [g] :: rest) :
    ∃ w u, pagedWrite r v s = .error (.raised (.verify (some r))) u
      ∧ Quietly rest (sw ++ [.write r.addr v true, .read r.addr (some g)]) s u
      ∧ u.pcache = (if r.addr = s.params.sysctlAddr then none else some r.page)
      ∧ Reached s r w ∧ u.faults = (w.monitorWrite r.addr v).faults
      ∧ u.chipMode = (w.monitorRead r.addr g).chipMode ∧ (r.addr ≠ s.params.sysctlAddr → u.chipPage = w.chipPage) := by
  obtain ⟨w, u, h, q, hp, hw, hf, hm, hpg⟩ := pagedWrite_reads (v := v) hb hq hs ha
  rw [if_neg hg] at h
  have hk := (kept_unverified u r.addr).trans (kept_clearFailed _ r.addr v g)
  have hgh := (sameGhosts_unverified u r.addr).trans (sameGhosts_clearFailed _ r.addr v g)
  refine ⟨w, _, h, ⟨hk.during.trans q.during, hk.answers.trans q.answers, hk.log.trans q.log,
    q.carried.trans ((carried_unverified _ _ _).trans (carried_clearFailed _ _ _ _ _))⟩, hk.pcache.trans hp, hw,
    hgh.faults.trans hf, hgh.chipMode.trans hm, fun hs => ?_⟩
  have hs' : r.addr ≠ u.params.sysctlAddr := by rwa [q.params]
  have hs2 : r.addr ≠ (u.unverified r.addr).params.sysctlAddr := by rwa [(kept_unverified u r.addr).params]
  exact (chipPage_clearFailed _ hs2 v g).trans ((chipPage_unverified u hs').trans (hpg hs))

/-! ## Mode steps -/

theorem modeStep_ok {α : Type} {c : Cmd α} {a : α} {u : State} (k : BitVec 4) (h : c s = .ok a u) :
    modeStep k c s = .ok a u := by
  simp only [modeStep, h]

theorem modeStep_verify {α : Type} {c : Cmd α} {r : Option RegAt} {u : State} (k : BitVec 4)
    (h : c s = .error (.raised (.verify r)) u) :
    modeStep k c s = .error (.raised (.mode k .verify)) (if r = some (modectl u.params) ∧ u.chipPage = some u.params.modectlPage then u else u.setChipMode none) := by
  simp only [modeStep, h]

theorem thenDropPage_ok {c : Cmd Unit} {u : State} (h : c s = .ok () u) : thenDropPage c s = .ok () u.dropPage := by
  simp only [thenDropPage, h]

/-- An update of a field of the mode-control register up to its comparison. -/
theorem setField_reads (hb : s.busy = true) (hq : s.during = []) (f : Field) (x : Byte) {v : Byte} {ans : List Answer}
    {sw : List BusEvent} (hs : SwitchAnswers s s.params.modectlPage ans sw)
    (ha : s.chip.answers = ans ++ .force [v] :: rest) :
    ∃ w u, setField f x s = pagedWrite (modectl s.params) (setFieldValue s.params f v x) u
      ∧ Quietly rest (sw ++ [.read s.params.modectlAddr (some v)]) s u ∧ u.pcache = some s.params.modectlPage
      ∧ u.faults = s.faults ∧ Reached s (modectl s.params) w
      ∧ u.chipMode = (w.monitorRead s.params.modectlAddr v).chipMode ∧ u.chipPage = w.chipPage := by
  obtain ⟨w, u, h, q, hp, hf, hw, hm, hg⟩ := pagedRead_forced (r := modectl s.params) hb hq hs ha
  refine ⟨w, u, ?_, q, hp, hf, hw, hm, hg⟩
  unfold setField
  rw [getParams_bind, bind_ok h]

/-! ## Buffers and bursts -/

theorem readBuffer_listed {b : Buf} {off : Nat} {d : List Byte}
    (h : ∀ k (hk : k < d.length), s.mem.read (bufBase b + off + k) = some d[k]) :
    readBuffer b off d.length s = .ok d s := by
  simp only [readBuffer, (Memory.readRange_eq_some s.mem (bufBase b + off) d).2 h]

theorem readBuffer_unwritten {b : Buf} {off n : Nat} (h : ∃ k, k < n ∧ s.mem.read (bufBase b + off + k) = none) :
    readBuffer b off n s = .error .unwritten s.recordUnwritten := by
  simp only [readBuffer, (Memory.readRange_eq_none s.mem (bufBase b + off) n).2 h]

/-- A good burst write: the FIFO appends the bytes. -/
theorem busBurstWrite_forced (hb : s.busy = true) (hq : s.during = []) {l : List Byte}
    (ha : s.chip.answers = .force l :: rest) (a : Byte) (bs : List Byte) :
    ∃ u, busBurstWrite a bs s = .ok () u ∧ Quietly rest [.burstWrite a bs true] s u ∧ u.pcache = s.pcache
      ∧ (a = s.params.fifoAddr → u.chip.txq = s.chip.txq ++ bs ∧ u.faults = s.faults ∧ u.chipMode = s.chipMode) := by
  set b : State → State := fun s => if a = s.params.fifoAddr then s else s.monitorWrite a (bs.headD 0)
  have hk : Kept s (b s) := by
    simp only [b]
    split
    · exact .refl s
    · exact kept_monitorWrite _ _ _
  have h := transact_good (α := Unit) (before := b)
    (lost := fun s => s.chipBurstLost a) (failed := .burstWrite a bs false)
    (good := fun _ s => ((), (s.chipBurst a bs).logged (.burstWrite a bs true))) hq
    (nextAnswer_force (b s).advance (hk.answers.trans ha))
  set w : State := { (b s).advance with chip := { (b s).advance.chip with answers := rest } } with hw
  have hc := carries_busBurstWrite (p := {}) rfl a bs s hb
  change busBurstWrite a bs s = _ at h
  rw [h, endState_ok] at hc
  have h2 := kept_chipBurst w a bs
  refine ⟨_, h, ⟨h2.during.trans (hk.during.trans hq), h2.answers, ?_, hc⟩, h2.pcache.trans hk.pcache, ?_⟩
  · rw [State.logged_log, h2.log]
    exact congrArg (· ++ _) hk.log
  · intro ha
    have hbs : b s = s := if_pos ha
    have hcb : w.chipBurst a bs = w.setTxq (w.chip.txq ++ bs) := by
      unfold State.chipBurst
      rw [if_pos (by rw [hw, hbs]; exact ha)]
    rw [State.logged_chip, State.logged_faults, State.logged_chipMode, hcb, hw, hbs]
    exact ⟨rfl, rfl, rfl⟩

/-- A good burst read returns the fixed bytes. -/
theorem busBurstRead_forced (hb : s.busy = true) (hq : s.during = []) {bs : List Byte}
    (ha : s.chip.answers = .force bs :: rest) (a : Byte) :
    ∃ u, busBurstRead a bs.length s = .ok bs u ∧ Quietly rest [.burstRead a bs.length (some bs)] s u
      ∧ u.pcache = s.pcache
      ∧ (a = s.params.fifoAddr → u.chip.rxq = s.chip.rxq.drop bs.length ∧ u.faults = s.faults
        ∧ u.chipMode = s.chipMode) := by
  have h := transact_good (α := List Byte) (before := id) (lost := fun s => (s.chipReadLost a bs.length).chipBurstRead a bs.length)
    (failed := .burstRead a bs.length none)
    (good := fun forced s =>
      let d := s.chipBytes a forced bs.length
      (d.1, (d.2.chipBurstRead a bs.length).logged (.burstRead a bs.length (some d.1)))) hq (nextAnswer_force s.advance ha)
  set v : State := { s.advance with chip := { s.advance.chip with answers := rest } }
  have hc := carries_busBurstRead (p := {}) rfl a bs.length s hb
  change busBurstRead a bs.length s = _ at h
  rw [h, endState_ok] at hc
  have hk := (kept_chipBytes v a bs bs.length).trans (kept_chipBurstRead _ a bs.length)
  simp only [chipBytes_forced] at h hc
  refine ⟨_, h, ⟨hk.during.trans hq, hk.answers, ?_, hc⟩, hk.pcache, fun ha => ?_⟩
  · rw [State.logged_log, hk.log]
    rfl
  · have hb := chipBytes_consumes v ha bs bs.length
    have hg := sameGhosts_chipBytes v a bs bs.length
    have hr : ((v.chipBytes a bs bs.length).2.chipBurstRead a bs.length) = (v.chipBytes a bs bs.length).2 := by
      unfold State.chipBurstRead
      rw [if_pos (by rw [(kept_chipBytes v a bs _).params]; exact ha)]
    rw [State.logged_chip, State.logged_faults, State.logged_chipMode, hr]
    exact ⟨hb, hg.faults, hg.chipMode⟩

end

end Sys2Proof.Machine
end

