-- ==== Sys2Proof/Laws/Bench.lean ====
section
/-! SUPPORT. The commands on the test double of 20_memory.md R58: what a register holds after a write, and, for each shared
procedure, the next state it runs to from every state of `State.OnBench`. -/

namespace Sys2Proof.Machine

/-! ## Runs on the test double -/

/-- A command is running, the test double answers, and nothing arrives. -/
structure Ready (s : State) : Prop where
  busy : s.busy = true
  oracle : s.underOracle
  quiet : s.during = []

/-- A part of a command ran on the test double: of its outputs, those of page switches apart, `accesses` are left, and of the
chip's registers (the system-control register apart) it wrote at most those of `writes`. -/
structure Ran (p : Perm) (writes : List RegAt) (accesses : List BusEvent) (s t : State) : Prop where
  ready   : Ready t
  carried : Carried p s t
  log     : ∃ evs, t.log = s.log ++ evs ∧ evs.filter (BusEvent.isAccess s.params) = accesses
  regs    : ∀ pg a, a ≠ s.params.sysctlAddr → (⟨pg, a⟩ : RegAt) ∉ writes → t.regValue pg a = s.regValue pg a

theorem Ran.params {p : Perm} {w : List RegAt} {e : List BusEvent} {s t : State} (h : Ran p w e s t) : t.params = s.params :=
  h.carried.params

/-- What carries over everything carries over what `p` asks. -/
theorem Carried.weaken {p : Perm} {s t : State} (h : Carried {} s t) : Carried p s t :=
  { h with
    busy := fun _ => h.busy rfl
    err := fun _ => h.err rfl
    stepIx := fun _ => h.stepIx rfl
    cause := fun _ => h.cause rfl
    result := fun _ => h.result rfl
    tcxo := fun _ => h.tcxo rfl
    tag := fun _ => h.tag rfl
    len := fun _ => h.len rfl
    rssi := fun _ => h.rssi rfl
    snr := fun _ => h.snr rfl
    rxFlag := fun _ => h.rxFlag rfl
    txFlag := fun _ => h.txFlag rfl
    pend := fun _ => h.pend rfl
    memSame := fun _ => h.memSame (Nat.le_refl _)
    memOut := fun a _ => by rw [h.memSame (Nat.le_refl _)] }

theorem Ran.weaken {p : Perm} {w : List RegAt} {e : List BusEvent} {s t : State} (h : Ran {} w e s t) : Ran p w e s t :=
  { h with carried := h.carried.weaken }

theorem Ran.trans {p : Perm} {w1 w2 : List RegAt} {e1 e2 : List BusEvent} {s t u : State} (a : Ran p w1 e1 s t)
    (b : Ran p w2 e2 t u) : Ran p (w1 ++ w2) (e1 ++ e2) s u where
  ready := b.ready
  carried := a.carried.trans b.carried
  log := by
    obtain ⟨l1, h1, f1⟩ := a.log
    obtain ⟨l2, h2, f2⟩ := b.log
    rw [a.params] at f2
    exact ⟨l1 ++ l2, by rw [h2, h1, List.append_assoc], by rw [List.filter_append, f1, f2]⟩
  regs pg r hr hw := by
    rw [List.mem_append, not_or] at hw
    rw [b.regs pg r (by rw [a.params]; exact hr) hw.2, a.regs pg r hr hw.1]

/-- The chip's FIFO queues are as before. -/
def SameQueues (s t : State) : Prop := t.chip.txq = s.chip.txq ∧ t.chip.rxq = s.chip.rxq

theorem SameQueues.trans {s t u : State} (a : SameQueues s t) (b : SameQueues t u) : SameQueues s u :=
  ⟨b.1.trans a.1, b.2.trans a.2⟩

theorem sameQueues_setLine (s : State) (level : Bool) : SameQueues s (s.setLine level) := by
  unfold State.setLine
  dsimp only
  split <;> exact ⟨rfl, rfl⟩

section
variable {s : State}

theorem transact_oracle {α : Type} {before : State → State} {good : List Byte → State → α × State} {lost : State → State}
    {failed : BusEvent} (h : Ready s) (hk : (before s).chip = s.chip) :
    transact before good lost failed s = .ok (good [] (before s).advance).1 (good [] (before s).advance).2 := by
  have ho : (before s).advance.underOracle := by
    unfold State.underOracle
    rw [State.advance_chip, hk]
    exact h.oracle
  exact transact_good h.quiet (nextAnswer_oracle _ ho)

/-- A read of a register whose byte is known. -/
theorem busRead_oracle (h : Ready s) {pg : Page} (hp : s.chipPage = some pg) {a x : Byte} (ha : a ≠ s.params.fifoAddr)
    (hx : s.regValue pg a = some x) :
    busRead a s = .ok x ((s.advance.logged (.read a (some x))).monitorRead a x) := by
  have ho : s.advance.chip.oracle = true := h.oracle.1
  have hb : s.advance.chipByte a [] = (x, s.advance) := by
    have hp' : s.advance.chipPage = some pg := hp
    have hx' : s.advance.regValue pg a = some x := hx
    have ha' : a ≠ s.advance.params.fifoAddr := ha
    simp only [State.chipByte, ho, if_true, State.oracleByte, if_neg ha', hp', State.regOrDraw, hx', State.consumed]
    rfl
  have hd : s.pageDrawn a = s := pageDrawn_known s (by simp [hp])
  unfold busRead
  rw [transact_oracle (before := fun s => s.pageDrawn a) h (congrArg State.chip hd), hd]
  simp only [hb]

/-- What a good single-byte write does on the test double. -/
theorem chipWrite_oracle (ho : s.chip.oracle = true) {pg : Page} (hp : s.chipPage = some pg) {a : Byte}
    (ha : a ≠ s.params.fifoAddr) (v : Byte) :
    s.chipWrite a v = s.storeReg (if a = s.params.sysctlAddr then 0 else pg) a v := by
  unfold State.chipWrite
  rw [if_neg ha]
  split
  · rfl
  · rw [hp]
    simp only [ho, Bool.not_true, Bool.false_and, Bool.false_eq_true, if_false]

theorem sameQueues_storeReg (s : State) (pg : Page) (a v : Byte) : SameQueues s (s.storeReg pg a v) := by
  unfold State.storeReg
  dsimp only
  split
  · exact SameQueues.trans (t := s.setRegs _) ⟨rfl, rfl⟩ (sameQueues_setLine _ _)
  · exact ⟨rfl, rfl⟩

theorem oracle_storeReg (s : State) (pg : Page) (a v : Byte) : (s.storeReg pg a v).chip.oracle = s.chip.oracle :=
  (carried_storeReg {} s pg a v).oracle

/-- On a known page a mode write's judgement leaves the chip. -/
theorem chip_monitorWrite_known {pg : Page} (hp : s.chipPage = some pg) (a v : Byte) : (s.monitorWrite a v).chip = s.chip := by
  rw [chip_monitorWrite, pageDrawn_known s (by simp [hp])]

theorem busWrite_oracle (h : Ready s) {pg : Page} (hp : s.chipPage = some pg) {a : Byte} (ha : a ≠ s.params.fifoAddr)
    (v : Byte) :
    busWrite a v s = .ok ()
      (((s.monitorWrite a v).advance.storeReg (if a = s.params.sysctlAddr then 0 else pg) a v).logged (.write a v true)) := by
  have hc := chip_monitorWrite_known hp a v
  refine (transact_oracle (before := fun s => s.monitorWrite a v) h hc).trans ?_
  have hpar : (s.monitorWrite a v).params = s.params := (kept_monitorWrite s a v).params
  have h1 := chipWrite_oracle (s := (s.monitorWrite a v).advance) (pg := pg) (a := a)
    (by rw [State.advance_chip, hc]; exact h.oracle.1)
    (by
      unfold State.chipPage
      rw [State.advance_chip, State.advance_params, hc, hpar]
      exact hp)
    (by rw [State.advance_params, hpar]; exact ha) v
  rw [State.advance_params, hpar] at h1
  rw [h1]

end

/-! ## The parts, each as a run -/

section
variable {s : State}

/-- A read of a known register. -/
theorem busRead_ran (h : Ready s) {pg : Page} (hp : s.chipPage = some pg) {a x : Byte} (ha : a ≠ s.params.fifoAddr)
    (hx : s.regValue pg a = some x) :
    ∃ u, busRead a s = .ok x u ∧ Ran {} [] (if a = s.params.sysctlAddr then [] else [.read a (some x)]) s u ∧ SameQueues s u
      ∧ u.pcache = s.pcache ∧ u.chip = s.chip
      ∧ u.faults = s.faults
      ∧ u.chipMode = (s.monitorRead a x).chipMode := by
  have he := busRead_oracle h hp ha hx
  have hc := carries_busRead (p := {}) rfl a s h.busy
  rw [he, endState_ok] at hc
  have hm := kept_monitorRead (s.advance.logged (.read a (some x))) a x
  have hchip : ((s.advance.logged (.read a (some x))).monitorRead a x).chip = s.chip := chip_monitorRead _ _ _
  refine ⟨_, he, ⟨⟨(hc.busy rfl).trans h.busy, ?_, hm.during.trans h.quiet⟩, hc, ⟨[.read a (some x)], hm.log, ?_⟩, ?_⟩, ?_,
    hm.pcache, hchip, ?_, ?_⟩
  · unfold State.underOracle
    rw [hchip]
    exact h.oracle
  · by_cases hs : a = s.params.sysctlAddr <;> simp [BusEvent.isAccess, hs]
  · intro pg a _ _
    unfold State.regValue
    rw [hchip, hc.params]
  · unfold SameQueues
    rw [hchip]
    exact ⟨rfl, rfl⟩
  · exact monitorRead_faults _ a x
  · exact monitorRead_congr rfl rfl rfl

/-- A write of a register; the access it is, if it is not the system-control register. -/
theorem busWrite_ran (h : Ready s) {pg : Page} (hp : s.chipPage = some pg) {a : Byte} (ha : a ≠ s.params.fifoAddr)
    (v : Byte) :
    ∃ u, busWrite a v s = .ok () u
      ∧ Ran {} [⟨pg, a⟩] (if a = s.params.sysctlAddr then [] else [.write a v true]) s u ∧ SameQueues s u ∧ u.pcache = s.pcache
      ∧ u.faults = (s.monitorWrite a v).faults ∧ u.chipMode = (s.monitorWrite a v).chipMode
      ∧ (∀ q, u.regValue q a = if a = s.params.sysctlAddr ∨ q = pg then some v else s.regValue q a)
      ∧ (a ≠ s.params.sysctlAddr → u.chipPage = s.chipPage) := by
  have he := busWrite_oracle h hp ha v
  have hc := carries_busWrite (p := {}) rfl a v s h.busy
  rw [he, endState_ok] at hc
  have hk := kept_monitorWrite s a v
  have hch := chip_monitorWrite_known hp a v
  have hst := kept_storeReg (s.monitorWrite a v).advance (if a = s.params.sysctlAddr then 0 else pg) a v
  have hg := sameGhosts_storeReg (s.monitorWrite a v).advance (if a = s.params.sysctlAddr then 0 else pg) a v
  have hqs := sameQueues_storeReg (s.monitorWrite a v).advance (if a = s.params.sysctlAddr then 0 else pg) a v
  have hrv := regValue_storeReg (s.monitorWrite a v).advance (if a = s.params.sysctlAddr then 0 else pg)
  have hpre : ∀ q r, (s.monitorWrite a v).advance.regValue q r = s.regValue q r := by
    intro q r
    unfold State.regValue
    rw [State.advance_chip, State.advance_params, hch, hk.params]
  simp only [hpre, State.advance_params, hk.params] at hrv
  have hreg : ∀ q r, ((((s.monitorWrite a v).advance.storeReg (if a = s.params.sysctlAddr then 0 else pg) a v).logged
      (.write a v true)).regValue q r) = if r = a ∧ (a = s.params.sysctlAddr ∨ q = pg) then some v else s.regValue q r := by
    intro q r
    refine (hrv q a r v).trans ?_
    by_cases hs : a = s.params.sysctlAddr
    · simp only [hs, true_or, and_true]
    · simp only [hs, if_false]
  refine ⟨_, he, ⟨⟨(hc.busy rfl).trans h.busy, ⟨?_, ?_⟩, hst.during.trans (hk.during.trans h.quiet)⟩, hc,
    ⟨[.write a v true], ?_, ?_⟩, ?_⟩, ?_, hst.pcache.trans hk.pcache, hg.faults, hg.chipMode, ?_, ?_⟩
  · rw [State.logged_chip, oracle_storeReg, State.advance_chip, hch]
    exact h.oracle.1
  · rw [State.logged_chip, hst.answers, State.advance_chip, hch]
    exact h.oracle.2
  · rw [State.logged_log, hst.log]
    exact congrArg (· ++ _) hk.log
  · simp only [List.filter_cons, BusEvent.isAccess, List.filter_nil, bne_iff_ne]
    by_cases hs : a = s.params.sysctlAddr <;> simp [hs]
  · intro q r hr hw
    rw [hreg]
    rw [if_neg]
    rintro ⟨rfl, hs | rfl⟩
    · exact hr hs
    · exact hw (List.mem_singleton.2 rfl)
  · have h1 : SameQueues s (s.monitorWrite a v).advance := by
      unfold SameQueues
      rw [State.advance_chip, hch]
      exact ⟨rfl, rfl⟩
    exact h1.trans hqs
  · intro q
    rw [hreg]
    simp only [true_and]
  · intro hs
    rw [chipPage_eq _ pg, chipPage_eq s pg, hc.params, hreg, if_neg]
    rintro ⟨h1, _⟩
    exact hs h1.symm

end

/-- A state of the bench while a command runs: the page cache right, the chip's page known, the parameters sensible. -/
structure Bench (s : State) : Prop extends Ready s where
  params : s.params.wf = true
  page : s.chipPage ≠ none
  coherent : s.pageCoherent

theorem bench_begin {s : State} (h : s.OnBench) : Bench s.beginCommand :=
  { busy := rfl, oracle := h.oracle, quiet := h.quiet, params := h.params, page := h.page, coherent := h.coherent }

section
variable {s : State}

/-- The page switch on the bench: it always succeeds, whatever page is cached. -/
theorem switchPage_bench (h : Bench s) (pg : Page) :
    ∃ u, switchPage pg s = .ok () u ∧ Ran {} [] [] s u ∧ Bench u ∧ SameQueues s u ∧ u.pcache = some pg ∧ u.chipPage = some pg
      ∧ u.faults = s.faults ∧ u.chipMode = s.chipMode
      ∧ (s.cached pg → u = s)
      ∧ (∀ v q, s.regValue q s.params.sysctlAddr = some v → ∃ v', u.regValue q s.params.sysctlAddr = some v'
          ∧ (s.cached pg → v' = v) ∧ (¬ s.cached pg → v' = setPageField s.params v pg)) := by
  by_cases hc : s.cached pg
  · exact ⟨s, switchPage_cached hc, ⟨h.toReady, .refl _ s, ⟨[], by simp, rfl⟩, fun _ _ _ _ => rfl⟩, h, ⟨rfl, rfl⟩, hc.2,
      h.coherent pg hc.2, rfl, rfl, fun _ => rfl, fun v q hv => ⟨v, hv, fun _ => rfl, fun hn => absurd hc hn⟩⟩
  · obtain ⟨q0, hq0⟩ := Option.ne_none_iff_exists'.1 h.page
    obtain ⟨v, hv⟩ := sysctl_known s q0 h.page
    have hne := Params.sysctl_ne_fifo h.params
    obtain ⟨u1, h1, r1, s1, p1, c1, f1, m1⟩ := busRead_ran h.toReady hq0 hne hv
    have hp1 : u1.params = s.params := r1.params
    have hq1 : u1.chipPage = some q0 := by rw [← hq0]; unfold State.chipPage; rw [c1, hp1]
    obtain ⟨u2, h2, r2, s2, p2, f2, m2, g2, -⟩ := busWrite_ran r1.ready hq1 (a := s.params.sysctlAddr)
      (by rw [hp1]; exact hne) (setPageField s.params v pg)
    have hp2 : u2.params = s.params := r2.params.trans hp1
    simp only [hp1, true_or, if_true] at g2
    have hq2 : u2.chipPage = some pg := by
      rw [chipPage_eq u2 q0, hp2, g2]
      exact congrArg some (pageField_setPageField _ _ _)
    obtain ⟨u3, h3, r3, s3, p3, c3, f3, m3⟩ := busRead_ran r2.ready hq2 (a := s.params.sysctlAddr)
      (by rw [hp2]; exact hne) (g2 pg)
    have hp3 : u3.params = s.params := r3.params.trans hp2
    have hq3 : u3.chipPage = some pg := by rw [← hq2]; unfold State.chipPage; rw [c3, r3.params]
    have hrun : switchPage pg s = .ok () (u3.setPage pg) := by
      rw [switchPage_uncached hc, bind_ok h1, bind_ok h2, bind_ok h3, if_pos rfl]
      rfl
    rw [monitorWrite_sysctl (by rw [hp1])] at f2 m2
    rw [monitorRead_sysctl rfl] at m1
    rw [monitorRead_sysctl (by rw [hp2])] at m3
    have r := (r1.trans r2).trans r3
    simp only [hp1, hp2, if_true, List.append_nil, List.nil_append] at r
    refine ⟨_, hrun, ⟨⟨r.ready.busy, r.ready.oracle, r.ready.quiet⟩, r.carried.trans { Carried.refl _ u3 with }, r.log, ?_⟩,
      { busy := r.ready.busy, oracle := r.ready.oracle, quiet := r.ready.quiet, params := by rw [State.setPage_params, hp3]; exact h.params, page := ?_, coherent := ?_ },
      (s1.trans s2).trans s3, rfl, hq3, f3.trans (f2.trans f1), m3.trans (m2.trans m1), fun hc' => absurd hc' hc, ?_⟩
    · intro q a ha _
      refine (r.regs q a ha ?_)
      rw [List.mem_singleton]
      intro he
      cases he
      exact ha rfl
    · rw [show (u3.setPage pg).chipPage = some pg from hq3]
      simp
    · intro p hp
      cases hp
      exact hq3
    · intro v' q hv'
      refine ⟨setPageField s.params v pg, ?_, fun hc' => absurd hc' hc, fun _ => ?_⟩
      · rw [← g2 q]
        unfold State.regValue State.setPage
        dsimp only
        rw [c3, r3.params]
      · have : s.regValue q0 s.params.sysctlAddr = s.regValue q s.params.sysctlAddr := by
          unfold State.regValue regKey
          rw [if_pos rfl, if_pos rfl]
        rw [this, hv'] at hv
        cases hv
        rfl

/-- A paged read on the bench of a plain register whose byte is known. -/
theorem pagedRead_bench (h : Bench s) {r : RegAt} (hr : r.plain s.params) {x : Byte} (hx : s.regValue r.page r.addr = some x) :
    ∃ u, pagedRead r s = .ok x u ∧ Ran {} [] [.read r.addr (some x)] s u ∧ Bench u ∧ SameQueues s u ∧ u.pcache = some r.page ∧ u.faults = s.faults
      ∧ u.chipMode = (if r = modectl s.params then decodeMode s.params x else s.chipMode) := by
  obtain ⟨u1, h1, r1, b1, s1, p1, q1, f1, m1, -⟩ := switchPage_bench h r.page
  have hp1 := r1.params
  obtain ⟨u2, h2, r2, s2, p2, c2, f2, m2⟩ := busRead_ran b1.toReady q1 (a := r.addr) (by rw [hp1]; exact hr.1)
    ((r1.regs r.page r.addr hr.2 (by simp)).trans hx)
  have hq2 : u2.chipPage = u1.chipPage := by unfold State.chipPage; rw [c2, r2.params]
  refine ⟨u2, (bind_ok h1).trans h2, by simpa [hp1, hr.2] using r1.trans r2,
    { toReady := r2.ready, params := by rw [r2.params]; exact b1.params, page := by rw [hq2]; exact b1.page, coherent := ?_ },
    s1.trans s2, p2.trans p1, f2.trans f1, ?_⟩
  · intro p hp
    rw [hq2]
    exact b1.coherent p (p2.symm.trans hp)
  · rw [m2, (monitor_onPage q1 (hp1 ▸ h.params)).1, hp1, m1]

/-- A verified write on the bench of a plain register. -/
theorem pagedWrite_bench (h : Bench s) {r : RegAt} (hr : r.plain s.params) (v : Byte) :
    ∃ u, pagedWrite r v s = .ok () u ∧ Ran {} [r] [.write r.addr v true, .read r.addr (some v)] s u ∧ Bench u ∧ SameQueues s u
      ∧ u.pcache = some r.page ∧ u.regValue r.page r.addr = some v
      ∧ u.faults = (if r = modectl s.params ∧ legal s.chipMode (decodeMode s.params v) = false
          then { s.faults with illegalTransition := true } else s.faults)
      ∧ u.chipMode = (if r = modectl s.params then decodeMode s.params v else s.chipMode) := by
  obtain ⟨u1, h1, r1, b1, s1, p1, q1, f1, m1, -⟩ := switchPage_bench h r.page
  have hp1 := r1.params
  obtain ⟨u2, h2, r2, s2, p2, f2, m2, g2, k2⟩ := busWrite_ran b1.toReady q1 (a := r.addr) (by rw [hp1]; exact hr.1) v
  have hp2 : u2.params = s.params := r2.params.trans hp1
  rw [hp1] at k2
  have hd1 : u1.pageDrawn r.addr = u1 := pageDrawn_known u1 (by simp [q1])
  have hv2 : u2.regValue r.page r.addr = some v := by rw [g2]; simp
  obtain ⟨u3, h3, r3, s3, p3, c3, f3, m3⟩ := busRead_ran r2.ready ((k2 hr.2).trans q1) (a := r.addr)
    (by rw [hp2]; exact hr.1) hv2
  have hq3 : u3.chipPage = some r.page := by
    rw [← q1, ← k2 hr.2]
    unfold State.chipPage
    rw [c3, r3.params]
  have hver : u3.writeVerified r.addr v = u3 := by
    unfold State.writeVerified
    rw [if_pos r3.ready.oracle.1]
  have hrun : pagedWrite r v s = .ok () u3 := by
    unfold pagedWrite
    rw [bind_ok h1, bind_ok h2, change_bind, if_neg (by rw [hp2]; exact hr.2), bind_ok h3, if_pos rfl]
    exact congrArg _ hver
  have hran := (r1.trans r2).trans r3
  simp only [hp1, hp2, if_neg hr.2, List.append_nil, List.nil_append, List.cons_append] at hran
  refine ⟨u3, hrun, hran,
    { toReady := r3.ready, params := by rw [r3.params, hp2]; exact h.params, page := by rw [hq3]; simp, coherent := ?_ },
    (s1.trans s2).trans s3, p3.trans (p2.trans p1), ?_, ?_, ?_⟩
  · intro p hp
    rw [p3, p2, p1] at hp
    cases hp
    exact hq3
  · rw [← hv2]
    unfold State.regValue
    rw [c3, r3.params]
  · rw [f3, f2, (monitor_onPage q1 (hp1 ▸ h.params)).2, hp1, m1, f1]
  · have hm3 : (u2.monitorRead r.addr v).chipMode = (u1.monitorRead r.addr v).chipMode :=
      (monitorRead_afterWrite r2.params ((k2 hr.2).trans (congrArg State.chipPage hd1.symm)) m2).trans (by rw [hd1])
    rw [m3, hm3, (monitor_onPage q1 (hp1 ▸ h.params)).1, hp1, m1]

/-- What an update of the mode-control register from `v` to `v2` puts on the bus, the page switches apart. -/
def updateOf (p : Params) (v v2 : Byte) : List BusEvent :=
  [.read p.modectlAddr (some v), .write p.modectlAddr v2 true, .read p.modectlAddr (some v2)]

/-- An update of a field of the mode-control register on the bench. -/
theorem setField_bench (h : Bench s) {f : Field} {x v : Byte}
    (hv : s.regValue s.params.modectlPage s.params.modectlAddr = some v) :
    let v2 := setFieldValue s.params f v x
    ∃ u, setField f x s = .ok () u ∧ Ran {} [modectl s.params] (updateOf s.params v v2) s u ∧ Bench u
      ∧ SameQueues s u ∧ u.pcache = some s.params.modectlPage
      ∧ u.regValue s.params.modectlPage s.params.modectlAddr = some v2 ∧ u.chipMode = decodeMode s.params v2
      ∧ u.faults = (if legal (decodeMode s.params v) (decodeMode s.params v2) then s.faults
        else { s.faults with illegalTransition := true }) := by
  intro v2
  have hpl := (Params.plain_of_wf h.params).1
  obtain ⟨u1, h1, r1, b1, s1, p1, f1, m1⟩ := pagedRead_bench h (r := modectl s.params) hpl hv
  have hp1 := r1.params
  obtain ⟨u2, h2, r2, b2, s2, p2, g2, f2, m2⟩ := pagedWrite_bench b1 (r := modectl s.params) (by rw [hp1]; exact hpl) v2
  rw [if_pos rfl] at m1
  refine ⟨u2, ?_, by simpa [modectl, updateOf] using r1.trans r2, b2, s1.trans s2, p2, g2, ?_, ?_⟩
  · unfold setField
    rw [getParams_bind, bind_ok h1]
    exact h2
  · rw [m2, hp1, if_pos rfl]
  · rw [f2, hp1, m1, f1]
    cases hl : legal (decodeMode s.params v) (decodeMode s.params v2) <;> simp

/-- The mode field written on the bench. -/
theorem setModeField_bench (h : Bench s) (m : Mode) {v : Byte}
    (hv : s.regValue s.params.modectlPage s.params.modectlAddr = some v) :
    let v2 := setFieldValue s.params .mode v (modeCodeOf s.params m)
    ∃ u, setModeField m s = .ok () u ∧ Ran {} [modectl s.params] (updateOf s.params v v2) s u ∧ Bench u
      ∧ SameQueues s u ∧ u.pcache = some s.params.modectlPage
      ∧ u.regValue s.params.modectlPage s.params.modectlAddr = some v2 ∧ u.chipMode = some m
      ∧ u.faults = (if legal (decodeMode s.params v) (some m) then s.faults
        else { s.faults with illegalTransition := true }) := by
  intro v2
  have hd : decodeMode s.params v2 = some m := decodeMode_setMode h.params v m
  obtain ⟨u, h1, r, b, q, p, g, hm, hf⟩ := setField_bench h (f := .mode) (x := modeCodeOf s.params m) hv
  exact ⟨u, h1, r, b, q, p, g, hm.trans hd, hf.trans (by rw [hd])⟩

/-- A change of the block that issues at most one access and touches neither the chip nor the page cache. -/
theorem local_bench (h : Bench s) {p : Perm} {u : State} {evs : List BusEvent} (hl : u.log = s.log ++ evs)
    (he : ∀ e ∈ evs, e.isAccess s.params = true) (hc : u.chip = s.chip) (hd : u.during = s.during) (hp : u.pcache = s.pcache)
    (hst : p.status = false) (hca : Carried p s u) :
    Ran p [] evs s u ∧ Bench u ∧ SameQueues s u ∧ ∀ pg a, u.regValue pg a = s.regValue pg a := by
  have hq : u.chipPage = s.chipPage := by unfold State.chipPage; rw [hc, hca.params]
  have hr : ∀ pg a, u.regValue pg a = s.regValue pg a := by
    intro pg a
    unfold State.regValue
    rw [hc, hca.params]
  have ho : u.underOracle := by
    unfold State.underOracle
    rw [hc]
    exact h.oracle
  have hready : Ready u := ⟨(hca.busy hst).trans h.busy, ho, hd.trans h.quiet⟩
  refine ⟨⟨hready, hca, ⟨evs, hl, List.filter_eq_self.2 he⟩, fun pg a _ _ => hr pg a⟩, ?_, ?_, hr⟩
  · refine { toReady := hready, params := ?_, page := ?_, coherent := ?_ }
    · rw [hca.params]
      exact h.params
    · rw [hq]
      exact h.page
    · intro p hp'
      rw [hq]
      exact h.coherent p (hp.symm.trans hp')
  · unfold SameQueues
    rw [hc]
    exact ⟨rfl, rfl⟩

/-- A capability call on the bench. -/
theorem callCap_bench (h : Bench s) (c : Cap) :
    ∃ u, callCap c s = .ok () u ∧ Ran { tcxo := true } [] [.cap c] s u ∧ Bench u ∧ SameQueues s u ∧ u.pcache = s.pcache
      ∧ (∀ pg a, u.regValue pg a = s.regValue pg a) ∧ u.tcxo = (c == .enableTcxo) ∧ u.faults = s.faults
      ∧ u.chipMode = s.chipMode := by
  have he : callCap c s = .ok () { (s.advance.logged (.cap c)) with tcxo := c == .enableTcxo } := bind_ok (boundary_quiet h.quiet)
  have hc := carries_callCap (p := { tcxo := true }) rfl rfl c s h.busy
  rw [he, endState_ok] at hc
  obtain ⟨r, b, q, g⟩ := local_bench h (u := { (s.advance.logged (.cap c)) with tcxo := c == .enableTcxo }) (evs := [.cap c])
    rfl (by simp [BusEvent.isAccess]) rfl rfl rfl rfl hc
  exact ⟨_, he, r, b, q, rfl, g, rfl, rfl, rfl⟩

/-- A settle delay on the bench: it lasts at least its minimum. -/
theorem delay_bench (h : Bench s) (t : Nat) :
    ∃ u d, delay t s = .ok () u ∧ t ≤ d ∧ Ran {} [] [.delay t d] s u ∧ Bench u ∧ SameQueues s u ∧ u.pcache = s.pcache
      ∧ (∀ pg a, u.regValue pg a = s.regValue pg a) ∧ u.faults = s.faults ∧ u.chipMode = s.chipMode := by
  have he : delay t s = .ok () { (s.advance.logged (.delay t (t + Config.drawTime s.draws))) with draws := s.draws + 1 } :=
    bind_ok (boundary_quiet h.quiet)
  have hc := carries_delay (p := {}) rfl t s h.busy
  rw [he, endState_ok] at hc
  obtain ⟨r, b, q, g⟩ := local_bench h
    (u := { (s.advance.logged (.delay t (t + Config.drawTime s.draws))) with draws := s.draws + 1 })
    (evs := [.delay t (t + Config.drawTime s.draws)]) rfl (by simp [BusEvent.isAccess]) rfl rfl rfl rfl hc
  exact ⟨_, _, he, Nat.le_add_right _ _, r, b, q, rfl, g, rfl, rfl⟩

/-- Forgetting the cached page keeps the bench. -/
theorem dropPage_bench (h : Bench s) : Ran {} [] [] s s.dropPage ∧ Bench s.dropPage := by
  refine ⟨⟨⟨h.busy, h.oracle, h.quiet⟩, carried_dropPage _ s, ⟨[], (List.append_nil _).symm, rfl⟩, fun _ _ _ _ => rfl⟩, ?_⟩
  refine { busy := h.busy, oracle := h.oracle, quiet := h.quiet, params := h.params, page := h.page, coherent := ?_ }
  intro p hp
  cases hp

/-- The burst of a frame into the FIFO on the bench. -/
theorem busBurstWrite_bench (h : Bench s) (bs : List Byte) :
    ∃ u, busBurstWrite s.params.fifoAddr bs s = .ok () u ∧ Ran {} [] [.burstWrite s.params.fifoAddr bs true] s u ∧ Bench u
      ∧ u.chip.txq = s.chip.txq ++ bs ∧ u.chip.rxq = s.chip.rxq ∧ u.pcache = s.pcache
      ∧ (∀ pg a, u.regValue pg a = s.regValue pg a) ∧ u.faults = s.faults ∧ u.chipMode = s.chipMode := by
  have he : busBurstWrite s.params.fifoAddr bs s = .ok ()
      ({ s.advance with chip := { s.chip with txq := s.chip.txq ++ bs } }.logged (.burstWrite s.params.fifoAddr bs true)) := by
    refine (transact_oracle
      (before := fun u => if s.params.fifoAddr = u.params.fifoAddr then u
        else u.monitorWrite s.params.fifoAddr (bs.headD 0)) h.toReady (by rw [if_pos rfl])).trans ?_
    rw [if_pos rfl]
    unfold State.chipBurst
    rw [if_pos (by rfl)]
    rfl
  have hc := carries_busBurstWrite (p := {}) rfl s.params.fifoAddr bs s h.busy
  rw [he, endState_ok] at hc
  have hr : Ready ({ s.advance with chip := { s.chip with txq := s.chip.txq ++ bs } }.logged
      (.burstWrite s.params.fifoAddr bs true)) := ⟨h.busy, h.oracle, h.quiet⟩
  exact ⟨_, he, ⟨hr, hc, ⟨[_], rfl, rfl⟩, fun _ _ _ _ => rfl⟩,
    { toReady := hr, params := h.params, page := h.page, coherent := h.coherent }, rfl, rfl, rfl, fun _ _ => rfl, rfl, rfl⟩

/-- The bytes a burst takes from the test double's receive FIFO. -/
theorem chipBytes_oracle (ho : s.chip.oracle = true) (bs more : List Byte) (hq : s.chip.rxq = bs ++ more) :
    s.chipBytes s.params.fifoAddr [] bs.length = (bs, s.setRxq more) := by
  induction bs generalizing s with
  | nil =>
    rw [List.nil_append] at hq
    rw [← hq]
    rfl
  | cons b bs ih =>
    have h1 : s.chipByte s.params.fifoAddr [] = (b, s.setRxq (bs ++ more)) := by
      simp only [State.chipByte, State.oracleByte, State.consumed, ho, if_true, hq, List.cons_append, List.headD_cons,
        List.headD_nil, List.tail_cons]
    have h2 := ih (s := s.setRxq (bs ++ more)) ho rfl
    unfold State.chipBytes
    rw [State.setRxq_params] at h2
    simp only [List.length_cons, h1, List.tail_nil, h2]
    rfl

/-- A burst from the FIFO into RBUF on the bench. -/
theorem burstIntoRbuf_bench (h : Bench s) (off : Nat) {bs more : List Byte} (hq : s.chip.rxq = bs ++ more) {p : Perm}
    (hp : p.status = false) (hlo : p.lo ≤ rbufBase + off) (hhi : rbufBase + off + bs.length ≤ p.hi) :
    ∃ u, burstIntoRbuf s.params.fifoAddr off bs.length s = .ok () u
      ∧ Ran p [] [.burstRead s.params.fifoAddr bs.length (some bs)] s u ∧ Bench u ∧ u.chip.rxq = more
      ∧ u.chip.txq = s.chip.txq ∧ u.pcache = s.pcache ∧ u.mem = s.mem.writeList (rbufBase + off) bs
      ∧ (∀ pg a, u.regValue pg a = s.regValue pg a) ∧ u.faults = s.faults ∧ u.chipMode = s.chipMode := by
  have he : busBurstRead s.params.fifoAddr bs.length s = .ok bs
      ({ s.advance with chip := { s.chip with rxq := more } }.logged (.burstRead s.params.fifoAddr bs.length (some bs))) := by
    refine (transact_oracle (before := id) h.toReady rfl).trans ?_
    have hb := chipBytes_oracle (s := s.advance) h.oracle.1 bs more hq
    rw [State.advance_params] at hb
    simp only [id, hb]
    unfold State.chipBurstRead
    rw [if_pos (by rfl)]
    rfl
  have hi : burstIntoRbuf s.params.fifoAddr off bs.length s = .ok ()
      (({ s.advance with chip := { s.chip with rxq := more } }.logged
        (.burstRead s.params.fifoAddr bs.length (some bs))).storeRbuf off bs) := by
    unfold burstIntoRbuf
    rw [he]
  have hc := carries_burstIntoRbuf hp s.params.fifoAddr off bs.length hlo hhi s h.busy
  rw [hi, endState_ok] at hc
  have hr : Ready (({ s.advance with chip := { s.chip with rxq := more } }.logged
      (.burstRead s.params.fifoAddr bs.length (some bs))).storeRbuf off bs) := ⟨h.busy, h.oracle, h.quiet⟩
  exact ⟨_, hi, ⟨hr, hc, ⟨[_], rfl, rfl⟩, fun _ _ _ _ => rfl⟩,
    { toReady := hr, params := h.params, page := h.page, coherent := h.coherent }, rfl, rfl, rfl, rfl, fun _ _ => rfl, rfl, rfl⟩

/-- The clear on the bench. -/
theorem clearIrq_bench (h : Bench s) :
    let c := s.params.irqClr
    ∃ u, clearIrq s = .ok () u ∧ Ran {} [⟨c.page, c.addr⟩] [.write c.addr c.value true, .read c.addr (some c.value)] s u ∧ Bench u ∧ SameQueues s u
      ∧ u.pcache = some c.page ∧ u.regValue c.page c.addr = some c.value
      ∧ ((⟨c.page, c.addr⟩ : RegAt) ≠ modectl s.params → u.faults = s.faults ∧ u.chipMode = s.chipMode) := by
  intro c
  obtain ⟨u, h1, r, b, q, p, g, f, m⟩ := pagedWrite_bench h (Params.plain_of_wf h.params).2.2.2.2.1 c.value
  refine ⟨u, h1, r, b, q, p, g, fun hne => ⟨?_, ?_⟩⟩
  · rw [f, if_neg (fun h => hne h.1)]
  · rw [m, if_neg hne]

/-- The received frame on the bench: length, then as many bytes as it says, into RBUF from index 0 on. -/
theorem drainFrame_bench (h : Bench s) {n : Byte} {bs more : List Byte}
    (hn : s.regValue s.params.rxlen.page s.params.rxlen.addr = some n) (hq : s.chip.rxq = bs ++ more)
    (hl : bs.length = n.toNat) :
    ∃ u, drainFrame s = .ok n u
      ∧ Ran { lo := 0x100, hi := 0x200 } []
        (.read s.params.rxlen.addr (some n) :: if n = 0 then [] else [.burstRead s.params.fifoAddr n.toNat (some bs)]) s u
      ∧ Bench u ∧ u.chip.rxq = more ∧ u.chip.txq = s.chip.txq ∧ u.mem = s.mem.writeList 0x100 bs := by
  obtain ⟨u1, h1, r1, b1, s1, p1, f1, m1⟩ := pagedRead_bench h (Params.plain_of_wf h.params).2.2.1 hn
  have hm1 : u1.mem = s.mem := r1.carried.memSame (Nat.le_refl _)
  by_cases h0 : n = 0
  · subst h0
    have : bs = [] := List.length_eq_zero_iff.1 hl
    subst this
    refine ⟨u1, ?_, by simpa using r1.weaken, b1, s1.2.trans hq, s1.1, hm1⟩
    unfold drainFrame
    rw [getParams_bind, bind_ok h1]
    rfl
  · have hpos : n.toNat ≠ 0 := fun hz => h0 (BitVec.eq_of_toNat_eq (by simpa using hz))
    obtain ⟨k, hk⟩ : ∃ k, n.toNat = k + 1 := ⟨n.toNat - 1, by omega⟩
    have hlt := n.isLt
    obtain ⟨u2, h2, r2, b2, q2, t2, p2, e2, -⟩ := burstIntoRbuf_bench (p := { lo := 0x100, hi := 0x200 }) b1 0
      (s1.2.trans hq) rfl (Nat.le_refl _) (by simp only [rbufBase, bufBase]; omega)
    rw [r1.params, hl, hk] at h2
    have r := r1.weaken.trans r2
    rw [r1.params] at r
    refine ⟨u2, ?_, by rw [if_neg h0, ← hl]; exact r, b2, q2, t2.trans s1.1, by rw [e2, hm1]; rfl⟩
    unfold drainFrame
    rw [getParams_bind, bind_ok h1]
    simp only [hk]
    rw [bind_ok h2]
    rfl

/-- The bytes of a PLHD map on the bench, in buffer order. -/
theorem plhdReadFrom_bench (rs : List RegAt) (i : Nat) (h : Bench s) {bs : List Byte} {p : Perm} (hp : p.status = false)
    (hlo : p.lo ≤ 0x100 + i) (hhi : 0x100 + i + rs.length ≤ p.hi) (hr : ∀ r ∈ rs, r.plain s.params)
    (hv : rs.map (fun r => s.regValue r.page r.addr) = bs.map some) :
    ∃ u, plhdReadFrom i rs s = .ok () u ∧ Ran p [] (readsOf rs bs) s u ∧ Bench u ∧ SameQueues s u
      ∧ u.mem = s.mem.writeList (0x100 + i) bs := by
  induction rs generalizing s i bs with
  | nil =>
    have : bs = [] := by simpa using hv.symm
    subst this
    exact ⟨s, rfl, ⟨h.toReady, .refl _ s, ⟨[], by simp, rfl⟩, fun _ _ _ _ => rfl⟩, h, ⟨rfl, rfl⟩, rfl⟩
  | cons r rs ih =>
    cases bs with
    | nil => simp at hv
    | cons b bs =>
      simp only [List.map_cons, List.cons.injEq] at hv
      obtain ⟨u1, h1, r1, b1, s1, p1, -⟩ := pagedRead_bench h (hr r List.mem_cons_self) hv.1
      have hm1 : u1.mem = s.mem := r1.carried.memSame (Nat.le_refl _)
      obtain ⟨r2, b2, s2, g2⟩ := local_bench b1 (p := p) (u := u1.storeRbuf i [b]) (evs := []) (by simp) (by simp) rfl rfl rfl
        hp (carried_storeRbuf p u1 i [b] (by simpa [rbufBase, bufBase] using hlo)
          (by simp only [rbufBase, bufBase, List.length_cons, List.length_nil] at *; omega))
      have hpar : (u1.storeRbuf i [b]).params = s.params := r1.params
      obtain ⟨u3, h3, r3, b3, s3, m3⟩ := ih (i + 1) b2 (bs := bs) (by omega)
        (by simp only [List.length_cons] at hhi; omega)
        (fun r' hr' => by rw [hpar]; exact hr r' (List.mem_cons_of_mem _ hr'))
        (by
          rw [← hv.2]
          refine List.map_congr_left fun r' hr' => ?_
          rw [g2, r1.regs _ _ (hr r' (List.mem_cons_of_mem _ hr')).2 (by simp)])
      refine ⟨u3, ?_, by simpa [readsOf] using (r1.weaken.trans r2).trans r3, b3, (s1.trans s2).trans s3, ?_⟩
      · unfold plhdReadFrom
        rw [bind_ok h1, change_bind]
        exact h3
      · rw [m3]
        change (u1.mem.writeList (0x100 + i) [b]).writeList _ _ = _
        rw [hm1]
        rfl

/-- The metric registers on the bench, in order. -/
theorem readAll_bench (rs : List RegAt) (h : Bench s) {ys : List Byte} (hr : ∀ r ∈ rs, r.plain s.params)
    (hv : rs.map (fun r => s.regValue r.page r.addr) = ys.map some) :
    ∃ u, readAll rs s = .ok ys u ∧ Ran {} [] (readsOf rs ys) s u ∧ Bench u ∧ SameQueues s u := by
  induction rs generalizing s ys with
  | nil =>
    have : ys = [] := by simpa using hv.symm
    subst this
    exact ⟨s, rfl, ⟨h.toReady, .refl _ s, ⟨[], by simp, rfl⟩, fun _ _ _ _ => rfl⟩, h, ⟨rfl, rfl⟩⟩
  | cons r rs ih =>
    cases ys with
    | nil => simp at hv
    | cons y ys =>
      simp only [List.map_cons, List.cons.injEq] at hv
      obtain ⟨u1, h1, r1, b1, s1, p1, -⟩ := pagedRead_bench h (hr r List.mem_cons_self) hv.1
      obtain ⟨u2, h2, r2, b2, s2⟩ := ih b1 (ys := ys)
        (fun r' hr' => by rw [r1.params]; exact hr r' (List.mem_cons_of_mem _ hr'))
        (by
          rw [← hv.2]
          exact List.map_congr_left fun r' hr' => r1.regs _ _ (hr r' (List.mem_cons_of_mem _ hr')).2 (by simp))
      refine ⟨u2, ?_, by simpa [readsOf] using r1.trans r2, b2, s1.trans s2⟩
      unfold readAll
      rw [bind_ok h1, bind_ok h2]
      rfl

/-- Every step is an access. -/
theorem steps_accesses (p : Params) (evs : List BusEvent) :
    (evs.filter (BusEvent.isAccess p)).filter (BusEvent.isStep p) = evs.filter (BusEvent.isStep p) := by
  rw [List.filter_filter]
  refine List.filter_congr fun e _ => ?_
  cases e <;> simp [BusEvent.isStep, BusEvent.isAccess]

/-- The end of a command on the bench: the outputs, the accesses and the steps among them. -/
theorem exec_bench {i : Instr} {w : List RegAt} {e : List BusEvent} {p : Perm} {u : State}
    (h : commandOf i s.beginCommand = .ok () u) (hr : Ran p w e s.beginCommand u) :
    exec i s = .next u.endCommand ∧ u.endCommand.endedOk ∧ (∃ evs, u.endCommand.log = s.log ++ evs
      ∧ evs.filter (BusEvent.isAccess s.params) = e ∧ evs.filter (BusEvent.isStep s.params) = e.filter (BusEvent.isStep s.params)) := by
  obtain ⟨h1, h2⟩ := exec_ok h hr.ready.quiet
  obtain ⟨evs, hl, hf⟩ := hr.log
  exact ⟨h1, h2, evs, hl, hf, (steps_accesses _ evs).symm.trans (congrArg _ hf)⟩

end

end Sys2Proof.Machine
end

