-- ==== Sys2Proof/Laws/Induction.lean ====
section
/-! SUPPORT. Induction over what a command is made of, done once: a property of parts of commands that the shared procedures have
and that sequencing, a mode step and the dropping of the page keep, holds of every command. -/

namespace Sys2Proof.Machine

/-- A property of parts of commands, for the parameters `p`, that the shared procedures have: reads and writes of the
registers `rd` and `w` name, burst writes and burst reads at the offsets `bw` and `br` name. -/
structure Closed (P : (α : Type) → Cmd α → Prop) (p : Params) (rd w : RegAt → Prop) (bw br : Byte → Prop) : Prop where
  pure : ∀ {α : Type} (a : α), P α (pure a)
  bind : ∀ {α β : Type} {c : Cmd α} {f : α → Cmd β}, P α c → (∀ a, P β (f a)) → P β (c >>= f)
  params : ∀ {β : Type} {f : Params → Cmd β}, P β (f p) → P β (getParams >>= f)
  raise : ∀ {α : Type} (e : Error), P α (raiseError e)
  dropPage : P Unit (change State.dropPage)
  setResult : ∀ v, P Unit (change fun s => s.setResult v)
  storeRbuf : ∀ i x, P Unit (change fun s => s.storeRbuf i [x])
  clearPend : P Unit (change fun s => { s with irqPend := false })
  deliver : ∀ st d, P Unit (change fun s => s.deliver st d)
  applyFlag : ∀ f, P Unit (change fun s => s.applyFlag f)
  readBuffer : ∀ buf off len, P (List Byte) (readBuffer buf off len)
  pagedRead : ∀ r, rd r → P Byte (pagedRead r)
  pagedWrite : ∀ r v, w r → P Unit (pagedWrite r v)
  burstWrite : ∀ a l, bw a → P Unit (busBurstWrite a l)
  burstRead : ∀ a off n, br a → P Unit (burstIntoRbuf a off (n + 1))
  callCap : ∀ c, P Unit (callCap c)
  delay : ∀ t, P Unit (delay t)
  modeStep : ∀ {α : Type} {c : Cmd α} (k : BitVec 4), P α c → P α (modeStep k c)
  thenDropPage : ∀ {c : Cmd Unit}, P Unit c → P Unit (thenDropPage c)

section
variable {P : (α : Type) → Cmd α → Prop} {p : Params} {rd w : RegAt → Prop} {bw br : Byte → Prop}
  (h : Closed P p rd w bw br)
include h

theorem Closed.setField (hr : rd (modectl p)) (hm : w (modectl p)) (f : Field) (x : Byte) : P Unit (setField f x) :=
  h.params (h.bind (h.pagedRead _ hr) fun _ => h.pagedWrite _ _ hm)

theorem Closed.setModeField (hr : rd (modectl p)) (hm : w (modectl p)) (m : Mode) : P Unit (setModeField m) :=
  h.params (h.setField hr hm _ _)

theorem Closed.wakeSeq (hr : rd (modectl p)) (hm : w (modectl p)) (h0 : w ⟨p.xtalTrim0.page, p.xtalTrim0.addr⟩)
    (h1 : w ⟨p.xtalTrim1.page, p.xtalTrim1.addr⟩) : P Unit wakeSeq :=
  h.bind h.dropPage fun _ => h.params <| h.bind (h.modeStep 1 (h.pagedWrite _ _ h0)) fun _ =>
    h.bind (h.modeStep 2 (h.pagedWrite _ _ h1)) fun _ => h.bind (h.callCap _) fun _ => h.bind (h.delay _) fun _ =>
    h.bind (h.modeStep 4 (h.setModeField hr hm _)) fun _ => h.bind (h.delay _) fun _ =>
    h.bind (h.modeStep 5 (h.setModeField hr hm _)) fun _ => h.bind (h.delay _) fun _ =>
    h.bind (h.modeStep 6 (h.setModeField hr hm _)) fun _ => h.delay _

theorem Closed.sleepSeq (hr : rd (modectl p)) (hm : w (modectl p)) (m : Mode) : P Unit (sleepSeq m) := by
  refine h.bind (h.params ?_) fun _ => h.thenDropPage <| h.params <| h.bind (h.modeStep 1 (h.setModeField hr hm _)) fun _ =>
    h.bind (h.delay _) fun _ => h.bind (h.modeStep 2 (h.setModeField hr hm _)) fun _ => h.bind (h.delay _) fun _ =>
    h.bind (h.callCap _) fun _ => h.modeStep 4 (h.setModeField hr hm _)
  split
  · exact h.pure ()
  · refine h.bind (h.modeStep 0 (h.pagedRead _ hr)) fun v => ?_
    split
    · exact h.pure ()
    · exact h.raise _

theorem Closed.clearIrq (hc : w ⟨p.irqClr.page, p.irqClr.addr⟩) : P Unit clearIrq := h.params (h.pagedWrite _ _ hc)

theorem Closed.drainFrame (hr : rd p.rxlen) (hb : br p.fifoAddr) : P Byte drainFrame := by
  refine h.params (h.bind (h.pagedRead _ hr) fun n => ?_)
  split
  · exact h.pure n
  · exact h.bind (h.burstRead _ _ _ hb) fun _ => h.pure n

theorem Closed.plhdReadFrom (rs : List RegAt) (hr : ∀ r ∈ rs, rd r) (i : Nat) : P Unit (plhdReadFrom i rs) := by
  induction rs generalizing i with
  | nil => exact h.pure ()
  | cons r rs ih =>
    exact h.bind (h.pagedRead r (hr r List.mem_cons_self)) fun x => h.bind (h.storeRbuf i x) fun _ =>
      ih (fun q hq => hr q (List.mem_cons_of_mem _ hq)) (i + 1)

theorem Closed.resetActions (l : List ResetAction) (hr : rd (modectl p)) (hl : ∀ r ∈ resetWrites p l, w r) : P Unit (resetActions l) := by
  induction l with
  | nil => exact h.pure ()
  | cons a l ih =>
    cases a with
    | setMode m =>
      exact h.bind (h.setModeField hr (hl _ List.mem_cons_self) m) fun _ => ih fun r hr => hl r (List.mem_cons_of_mem _ hr)
    | write x =>
      exact h.bind (h.pagedWrite _ _ (hl _ List.mem_cons_self)) fun _ => ih fun r hr => hl r (List.mem_cons_of_mem _ hr)

theorem Closed.readAll (rs : List RegAt) (hr : ∀ r ∈ rs, rd r) : P (List Byte) (readAll rs) := by
  induction rs with
  | nil => exact h.pure []
  | cons r rs ih =>
    exact h.bind (h.pagedRead r (hr r List.mem_cons_self)) fun _ =>
      h.bind (ih fun q hq => hr q (List.mem_cons_of_mem _ hq)) fun _ => h.pure _

theorem Closed.runHandler (hr : ∀ r ∈ dispatchReads p, rd r) (hc : w ⟨p.irqClr.page, p.irqClr.addr⟩) (hb : br p.fifoAddr)
    (hl : ∀ r ∈ resetWrites p p.modeReset, w r) (x : Handler) : P Delivery (runHandler x) := by
  have hn : ∀ tag f, P Delivery (handleNoPayload tag f) := fun _ _ => h.bind (h.clearIrq hc) fun _ => h.pure _
  cases x with
  | plhd =>
    exact h.params <| h.bind (h.params (h.plhdReadFrom _ (fun r m => hr r (by simp [dispatchReads, m])) _)) fun _ =>
      h.bind (h.clearIrq hc) fun _ => h.bind (h.params (h.thenDropPage (h.modeStep 1 (h.resetActions _
        (hr _ (by simp [dispatchReads])) hl)))) fun _ => h.pure _
  | rxDone =>
    exact h.bind (h.params (h.bind (h.readAll _ fun r m => hr r (by simp [dispatchReads, m])) fun _ => h.pure _)) fun _ =>
      h.bind (h.drainFrame (hr _ (by simp [dispatchReads])) hb) fun _ => h.bind (h.clearIrq hc) fun _ => h.pure _
  | crcErr => exact hn _ _
  | rxTo => exact hn _ _
  | txDone => exact hn _ _
  | none => exact h.pure _

end

/-- The induction: a closed property holds of every command whose reads, writes and bursts it allows. -/
theorem Closed.commandOf {P : (α : Type) → Cmd α → Prop} {p : Params} {rd w : RegAt → Prop} {bw br : Byte → Prop}
    (h : Closed P p rd w bw br) (i : Instr) (hr : ∀ r ∈ i.reads p, rd r) (hw : ∀ r ∈ i.writes p, w r)
    (hbw : ∀ a, i.burstWriteAt p = some a → bw a) (hbr : ∀ a, i.burstReadAt p = some a → br a) : P Unit (commandOf i) := by
  cases i with
  | nop => exact h.pure ()
  | crcCcitt buf off len => exact h.bind (h.readBuffer _ _ _) fun _ => h.setResult _
  | crcIbm buf off len => exact h.bind (h.readBuffer _ _ _) fun _ => h.setResult _
  | regRead pg a => exact h.bind (h.pagedRead _ (hr _ List.mem_cons_self)) fun _ => h.setResult _
  | regWrite pg a v => exact h.pagedWrite _ _ (hw _ List.mem_cons_self)
  | fifoWrite fa off len =>
    refine h.bind (h.readBuffer _ _ _) fun d => ?_
    split
    · exact h.pure ()
    · exact h.burstWrite _ _ (hbw _ rfl)
  | fifoRead fa off len =>
    simp only [Machine.commandOf, fifoReadCommand]
    split
    · exact h.pure ()
    · exact h.burstRead _ _ _ (hbr _ rfl)
  | pageSync => exact h.dropPage
  | wakeDeep =>
    exact h.wakeSeq (hr _ List.mem_cons_self) (hw _ (by simp [Instr.writes])) (hw _ (by simp [Instr.writes]))
      (hw _ (by simp [Instr.writes]))
  | wakeSleep =>
    exact h.wakeSeq (hr _ List.mem_cons_self) (hw _ (by simp [Instr.writes])) (hw _ (by simp [Instr.writes]))
      (hw _ (by simp [Instr.writes]))
  | sleep => exact h.sleepSeq (hr _ List.mem_cons_self) (hw _ List.mem_cons_self) _
  | deepSleep => exact h.sleepSeq (hr _ List.mem_cons_self) (hw _ List.mem_cons_self) _
  | setMode m => exact h.modeStep 1 (h.setModeField (hr _ List.mem_cons_self) (hw _ List.mem_cons_self) _)
  | getMode => exact h.params (h.bind (h.pagedRead _ (hr _ List.mem_cons_self)) fun _ => h.setResult _)
  | setTxsub sub => exact h.params (h.setField (hr _ List.mem_cons_self) (hw _ List.mem_cons_self) _ _)
  | setRxsub sub => exact h.params (h.setField (hr _ List.mem_cons_self) (hw _ List.mem_cons_self) _ _)
  | send len =>
    exact h.bind (h.readBuffer _ _ _) fun _ => h.params <| h.bind (h.pagedWrite _ _ (hw _ List.mem_cons_self)) fun _ =>
      h.bind (h.modeStep 2 (h.setModeField (hr _ List.mem_cons_self) (hw _ (List.mem_cons_of_mem _ List.mem_cons_self)) _)) fun _ =>
      h.burstWrite _ _ (hbw _ rfl)
  | receive =>
    exact h.bind (h.drainFrame (hr _ List.mem_cons_self) (hbr _ rfl)) fun _ => h.bind (h.clearIrq (hw _ List.mem_cons_self)) fun _ => h.setResult _
  | recvPlhd sel =>
    exact h.bind (h.params (h.plhdReadFrom _ hr _)) fun _ => h.bind (h.clearIrq (hw _ List.mem_cons_self)) fun _ => h.setResult _
  | clrIrq => exact h.clearIrq (hw _ List.mem_cons_self)
  | dispatch =>
    exact h.bind h.clearPend fun _ => h.params <| h.bind (h.pagedRead _ (hr _ List.mem_cons_self)) fun _ =>
      h.bind (h.runHandler hr (hw _ List.mem_cons_self) (hbr _ rfl) (fun r hr => hw r (List.mem_cons_of_mem _ hr)) _) fun _ =>
      h.deliver _ _
  | setRxflag f => exact h.applyFlag _
  | setTxflag f => exact h.applyFlag _

end Sys2Proof.Machine
end

