-- ==== Sys2Proof/Laws/Hang.lean ====
section
/-! SUPPORT. A transaction that never completes (93 I26; log 11): what a command leaves where its first transaction is one, and
that a running command never loses its position. -/

namespace Sys2Proof.Machine

/-- What a first transaction that never completes leaves: no output, the page cache, a position and everything a command
carries over. -/
structure Stalled (s t : State) : Prop where
  log     : t.log = s.log
  pcache  : t.pcache = s.pcache
  seq     : s.seq ≠ none → t.seq ≠ none
  carried : Carried {} s t

/-- With nothing arriving, a part of a command never gets past its first transaction where that one never completes. -/
def Hangs {α : Type} (c : Cmd α) : Prop := ∀ s, s.busy = true → s.quiet → (∃ rest, s.chip.answers = .hang :: rest) →
  ∃ t, c s = .error .hung t ∧ Stalled s t

section
variable {α β : Type}

theorem nextAnswer_hang {s : State} {rest : List Answer} (h : s.chip.answers = .hang :: rest) :
    s.nextAnswer = ((.hang, []), { s with chip := { s.chip with answers := rest } }) := by
  simp only [State.nextAnswer, h, List.tail_cons, List.head?_cons, Option.getD_some]

/-- The transaction itself: what it does as it is issued and what it leaves are carried over, with the port as it was. -/
theorem hangs_transact {before : State → State} {good : List Byte → State → α × State} {lost : State → State}
    {failed : BusEvent} (hc : Carries {} (transact before good lost failed)) (hb : ∀ s, Kept s (before s))
    (hl : ∀ s, Kept s (lost s)) : Hangs (transact before good lost failed) := by
  intro s hbusy hq ⟨rest, ha⟩
  have hn := nextAnswer_hang (s := (before s).advance) (rest := rest) (by rw [State.advance_chip, (hb s).answers, ha])
  have he : transact before good lost failed s = .error .hung (lost (before s).advance.nextAnswer.2) := by
    simp only [transact, bind, EStateM.bind, boundary_quiet hq, hn]
  have h1 := hc s hbusy
  rw [he, endState_error] at h1
  rw [hn] at he h1
  have hk := hl { (before s).advance with chip := { (before s).advance.chip with answers := rest } }
  refine ⟨_, he, hk.log.trans (hb s).log, hk.pcache.trans (hb s).pcache, fun hs => ?_, h1⟩
  rw [hk.seq]
  simpa [State.advance, (hb s).seq] using hs

theorem hangs_busRead (a : Byte) : Hangs (busRead a) :=
  hangs_transact (carries_busRead rfl a) (fun s => kept_pageDrawn s a) fun s => kept_chipReadLost s a 1

theorem hangs_busWrite (a v : Byte) : Hangs (busWrite a v) :=
  hangs_transact (carries_busWrite rfl a v) (fun s => kept_monitorWrite s a v)
    fun s => (kept_chipWriteLost s a).trans (kept_monitorLost _ a)

theorem hangs_busBurstWrite (a : Byte) (bs : List Byte) : Hangs (busBurstWrite a bs) :=
  hangs_transact (carries_busBurstWrite rfl a bs)
    (fun s => by
      split
      · exact Kept.refl s
      · exact kept_monitorWrite s a _)
    fun s => kept_chipBurstLost s a

theorem hangs_busBurstRead (a : Byte) (n : Nat) : Hangs (busBurstRead a n) :=
  hangs_transact (carries_busBurstRead rfl a n) Kept.refl
    fun s => (kept_chipReadLost s a n).trans (kept_chipBurstRead _ a n)

theorem hangs_burstIntoRbuf (a : Byte) (off n : Nat) : Hangs (burstIntoRbuf a off n) := by
  intro s hb hq ha
  obtain ⟨t, h, st⟩ := hangs_busBurstRead a n s hb hq ha
  exact ⟨t, by simp only [burstIntoRbuf, h], st⟩

theorem hangs_bind {c : Cmd α} (hc : Hangs c) (f : α → Cmd β) : Hangs (c >>= f) := by
  intro s hb hq ha
  obtain ⟨t, h, st⟩ := hc s hb hq ha
  exact ⟨t, bind_error h, st⟩

theorem hangs_getParams {f : Params → Cmd β} (h : ∀ p, Hangs (f p)) : Hangs (getParams >>= f) :=
  fun s hb hq ha => h s.params s hb hq ha

theorem hangs_modeStep {c : Cmd α} (k : BitVec 4) (hc : Hangs c) : Hangs (modeStep k c) := by
  intro s hb hq ha
  obtain ⟨t, h, st⟩ := hc s hb hq ha
  exact ⟨t, by simp only [modeStep, h], st⟩

theorem hangs_thenDropPage {c : Cmd Unit} (hc : Hangs c) : Hangs (thenDropPage c) := by
  intro s hb hq ha
  obtain ⟨t, h, st⟩ := hc s hb hq ha
  exact ⟨t, by simp only [thenDropPage, h], st⟩

/-- A paged access: where its page is not cached the switch's first read is the first transaction. -/
theorem hangs_switched {pg : Page} {f : Unit → Cmd β} (hf : Hangs (f ())) : Hangs (switchPage pg >>= f) := by
  intro s hb hq ha
  by_cases h : s.cached pg
  · rw [bind_ok (switchPage_cached h)]
    exact hf s hb hq ha
  · obtain ⟨t, ht, st⟩ := hangs_busRead s.params.sysctlAddr s hb hq ha
    exact ⟨t, bind_error ((switchPage_uncached h).trans (bind_error ht)), st⟩

theorem hangs_pagedRead (r : RegAt) : Hangs (pagedRead r) := hangs_switched (hangs_busRead _)

theorem hangs_pagedWrite (r : RegAt) (v : Byte) : Hangs (pagedWrite r v) :=
  hangs_switched (hangs_bind (hangs_busWrite _ _) _)

theorem hangs_setField (f : Field) (x : Byte) : Hangs (setField f x) :=
  hangs_getParams fun _ => hangs_bind (hangs_pagedRead _) _

theorem hangs_setModeField (m : Mode) : Hangs (setModeField m) := hangs_getParams fun _ => hangs_setField _ _

theorem hangs_sleepSeq (m : Mode) : Hangs (sleepSeq m) := by
  intro s hb hq ha
  cases hg : s.params.sleepGuard with
  | unguarded =>
    have h0 : sleepGuardStep s = .ok () s := by
      simp only [sleepGuardStep, getParams_bind, hg]
      rfl
    unfold sleepSeq
    rw [bind_ok h0]
    exact hangs_thenDropPage (hangs_getParams fun _ => hangs_bind (hangs_modeStep 1 (hangs_setModeField _)) _) s hb hq ha
  | reject =>
    obtain ⟨t, ht, st⟩ := hangs_modeStep 0 (hangs_pagedRead (modectl s.params)) s hb hq ha
    refine ⟨t, bind_error ?_, st⟩
    simp only [sleepGuardStep, getParams_bind, hg]
    exact bind_error ht

theorem hangs_clearIrq : Hangs clearIrq := hangs_getParams fun _ => hangs_pagedWrite _ _

theorem hangs_drainFrame : Hangs drainFrame := hangs_getParams fun _ => hangs_bind (hangs_pagedRead _) _

/-- A PLHD read has a first byte, whatever its length. -/
theorem hangs_plhdRead (sel : PlhdSel) : Hangs (plhdRead sel) := by
  refine hangs_getParams fun p => ?_
  have hl := plhdMap_length p sel
  cases h : plhdMap p sel with
  | nil =>
    rw [h] at hl
    cases sel <;> simp [plhdCount] at hl
  | cons r rs => exact hangs_bind (hangs_pagedRead r) _

/-- A command that stalls in its first transaction ends the step there. -/
theorem exec_hung {i : Instr} {s u : State} (h : commandOf i s.beginCommand = .error .hung u) : exec i s = .next u := by
  simp only [exec_eq_run, runCommand, h, commandResult]

end

/-! ## The position of a running command -/

/-- A part of a command keeps a position, however it ends, and the parameters. -/
def Positioned (p : Params) (α : Type) (c : Cmd α) : Prop := ∀ s, s.params = p → s.seq ≠ none →
  (endState (c s)).params = p ∧ (endState (c s)).seq ≠ none

section
variable {α β : Type} {p : Params}

/-- A part that ends with the parameters and the position it began with. -/
theorem positioned_of {c : Cmd α} (h : ∀ s, (endState (c s)).params = s.params ∧ (endState (c s)).seq = s.seq) :
    Positioned p α c := fun s hp hs => ⟨(h s).1.trans hp, (h s).2.symm ▸ hs⟩

theorem positioned_change {f : State → State} (h : ∀ s, (f s).params = s.params ∧ (f s).seq = s.seq) :
    Positioned p Unit (change f) := positioned_of h

theorem positioned_kept {f : State → State} (h : ∀ s, Kept s (f s)) : Positioned p Unit (change f) :=
  positioned_of fun s => ⟨(h s).params, (h s).seq⟩

/-- A part that ends where another does, with the same position. -/
theorem Positioned.of_end {c : Cmd α} {d : Cmd β} (hc : Positioned p α c)
    (h : ∀ s, (endState (d s)).params = (endState (c s)).params ∧ (endState (d s)).seq = (endState (c s)).seq) :
    Positioned p β d := fun s hp hs => by
  rw [(h s).1, (h s).2]
  exact hc s hp hs

theorem positioned_bind {c : Cmd α} {f : α → Cmd β} (hc : Positioned p α c) (hf : ∀ a, Positioned p β (f a)) :
    Positioned p β (c >>= f) := by
  intro s hp hs
  have h := hc s hp hs
  simp only [bind, EStateM.bind]
  split <;> next heq => rw [heq] at h; first | exact hf _ _ h.1 h.2 | exact h

theorem positioned_raise (e : Error) : Positioned p α (raiseError e) := positioned_of fun _ => ⟨rfl, rfl⟩

theorem arriveAll_position (l : List Input) (s : State) :
    (endState (s.arriveAll l)).params = s.params ∧ (endState (s.arriveAll l)).seq = s.seq := by
  induction l generalizing s with
  | nil => exact ⟨rfl, rfl⟩
  | cons i l ih =>
    cases i
    case resetAssert => exact ⟨rfl, rfl⟩
    case resetRelease b => exact ih s
    all_goals
      exact ⟨(ih _).1.trans (kept_arrive s _ (by intro b hb; cases hb)).params,
        (ih _).2.trans (kept_arrive s _ (by intro b hb; cases hb)).seq⟩

theorem positioned_boundary : Positioned p Unit boundary := positioned_of fun s => by
  unfold boundary
  split
  · exact ⟨rfl, rfl⟩
  · exact arriveAll_position _ _

theorem nextAnswer_position (s : State) : s.nextAnswer.2.params = s.params ∧ s.nextAnswer.2.seq = s.seq := by
  unfold State.nextAnswer
  dsimp only
  split
  · exact ⟨rfl, rfl⟩
  · exact ⟨rfl, rfl⟩
  · exact ⟨rfl, rfl⟩
  · split <;> exact ⟨rfl, rfl⟩

/-- One transaction, however it ends: issuing it moves the position on. -/
theorem positioned_transact {before : State → State} {good : List Byte → State → α × State} {lost : State → State}
    {failed : BusEvent} (hb : ∀ s, Kept s (before s))
    (hg : ∀ l s, (good l s).2.params = s.params ∧ (good l s).2.seq = s.seq) (hl : ∀ s, Kept s (lost s)) :
    Positioned p α (transact before good lost failed) := by
  refine positioned_bind positioned_boundary fun _ s hp hs => ?_
  obtain ⟨h1, h2⟩ := nextAnswer_position (before s).advance
  have hp' : (before s).advance.nextAnswer.2.params = p := by rw [h1, State.advance_params, (hb s).params, hp]
  have hs' : (before s).advance.nextAnswer.2.seq ≠ none := by
    rw [h2]
    simpa [State.advance, (hb s).seq] using hs
  dsimp only
  split
  · exact ⟨(hg _ _).1.trans hp', (hg _ _).2.symm ▸ hs'⟩
  · exact ⟨(hl _).params.trans hp', (hl _).seq.symm ▸ hs'⟩
  · exact ⟨(hl _).params.trans hp', (hl _).seq.symm ▸ hs'⟩

theorem positioned_busRead (a : Byte) : Positioned p Byte (busRead a) :=
  positioned_transact (fun s => kept_pageDrawn s a)
    (fun l s => ⟨(kept_monitorRead _ a _).params.trans (kept_chipByte s a l).params,
      (kept_monitorRead _ a _).seq.trans (kept_chipByte s a l).seq⟩)
    fun s => kept_chipReadLost s a 1

theorem positioned_busWrite (a v : Byte) : Positioned p Unit (busWrite a v) :=
  positioned_transact (fun s => kept_monitorWrite s a v)
    (fun _ s => ⟨(kept_chipWrite s a v).params, (kept_chipWrite s a v).seq⟩)
    fun s => (kept_chipWriteLost s a).trans (kept_monitorLost _ a)

theorem positioned_busBurstWrite (a : Byte) (bs : List Byte) : Positioned p Unit (busBurstWrite a bs) :=
  positioned_transact
    (fun s => by
      split
      · exact Kept.refl s
      · exact kept_monitorWrite s a _)
    (fun _ s => ⟨(kept_chipBurst s a bs).params, (kept_chipBurst s a bs).seq⟩) fun s => kept_chipBurstLost s a

theorem positioned_busBurstRead (a : Byte) (n : Nat) : Positioned p (List Byte) (busBurstRead a n) :=
  positioned_transact Kept.refl
    (fun l s => ⟨((kept_chipBytes s a l n).trans (kept_chipBurstRead _ a n)).params,
      ((kept_chipBytes s a l n).trans (kept_chipBurstRead _ a n)).seq⟩)
    fun s => (kept_chipReadLost s a n).trans (kept_chipBurstRead _ a n)

theorem positioned_burstIntoRbuf (a : Byte) (off n : Nat) : Positioned p Unit (burstIntoRbuf a off n) := by
  refine (positioned_busBurstRead a n).of_end fun s => ?_
  unfold burstIntoRbuf
  split <;> next heq =>
    rw [heq]
    first
    | exact ⟨rfl, rfl⟩
    | exact ⟨(kept_drawList _ n).params, (kept_drawList _ n).seq⟩

theorem positioned_switchPage (pg : Page) : Positioned p Unit (switchPage pg) := by
  intro s hp hs
  unfold switchPage
  split
  · exact ⟨hp, hs⟩
  · refine (positioned_bind (positioned_busRead _) fun v => positioned_bind (positioned_busWrite _ _) fun _ =>
      positioned_bind (positioned_busRead _) fun r => ?_) s hp hs
    split
    · exact positioned_change fun _ => ⟨rfl, rfl⟩
    · exact positioned_bind (positioned_change fun u => ⟨(kept_unverified u _).params, (kept_unverified u _).seq⟩) fun _ =>
        positioned_raise _

theorem positioned_pagedRead (r : RegAt) : Positioned p Byte (pagedRead r) :=
  positioned_bind (positioned_switchPage _) fun _ => positioned_busRead _

theorem positioned_pagedWrite (r : RegAt) (v : Byte) : Positioned p Unit (pagedWrite r v) := by
  refine positioned_bind (positioned_switchPage _) fun _ => positioned_bind (positioned_busWrite _ _) fun _ =>
    positioned_bind (positioned_change fun s => ?_) fun _ => positioned_bind (positioned_busRead _) fun got => ?_
  · split <;> exact ⟨rfl, rfl⟩
  · split
    · exact positioned_kept fun s => kept_writeVerified s r.addr v
    · exact positioned_bind (positioned_kept fun s => (kept_unverified s _).trans (kept_clearFailed _ _ _ _)) fun _ =>
        positioned_raise _

theorem positioned_modeStep {c : Cmd α} (k : BitVec 4) (hc : Positioned p α c) : Positioned p α (modeStep k c) := by
  refine hc.of_end fun s => ?_
  unfold modeStep
  split <;> next heq =>
    rw [heq]
    first
    | exact ⟨rfl, rfl⟩
    | (simp only [endState_error]; split <;> exact ⟨rfl, rfl⟩)

theorem positioned_thenDropPage {c : Cmd Unit} (hc : Positioned p Unit c) : Positioned p Unit (thenDropPage c) := by
  refine hc.of_end fun s => ?_
  unfold thenDropPage
  split <;> next heq =>
    rw [heq]
    exact ⟨rfl, rfl⟩

/-- Every command keeps its position until its end takes it. -/
theorem positioned_commandOf (i : Instr) : Positioned p Unit (commandOf i) := by
  have port {f : State → State} (h : ∀ s, (f s).params = s.params ∧ (s.seq ≠ none → (f s).seq ≠ none)) :
      Positioned p Unit (boundary >>= fun _ => change f) :=
    positioned_bind positioned_boundary fun _ s hp hs => ⟨(h s).1.trans hp, (h s).2 hs⟩
  refine Closed.commandOf (P := Positioned p) (p := p) (rd := fun _ => True) (w := fun _ => True) (bw := fun _ => True)
    (br := fun _ => True)
    { pure := fun _ => positioned_of fun _ => ⟨rfl, rfl⟩
      bind := positioned_bind
      params := fun h s hp hs => by
        rw [getParams_bind, hp]
        exact h s hp hs
      raise := positioned_raise
      dropPage := positioned_change fun _ => ⟨rfl, rfl⟩
      setResult := fun _ => positioned_change fun _ => ⟨rfl, rfl⟩
      storeRbuf := fun _ _ => positioned_change fun _ => ⟨rfl, rfl⟩
      clearPend := positioned_change fun _ => ⟨rfl, rfl⟩
      deliver := fun st d => positioned_change fun s => by
        obtain ⟨tag, len, flag, metrics⟩ := d
        cases metrics <;> cases flag <;> exact ⟨rfl, rfl⟩
      applyFlag := fun f => positioned_change fun _ => by cases f <;> exact ⟨rfl, rfl⟩
      readBuffer := fun buf off len => positioned_of fun s => by
        unfold readBuffer
        split <;> exact ⟨rfl, rfl⟩
      pagedRead := fun r _ => positioned_pagedRead r
      pagedWrite := fun r v _ => positioned_pagedWrite r v
      burstWrite := fun a l _ => positioned_busBurstWrite a l
      burstRead := fun a off n _ => positioned_burstIntoRbuf a off (n + 1)
      callCap := fun _ => port fun s => ⟨rfl, fun hs => by simpa [State.advance, State.logged] using hs⟩
      delay := fun _ => port fun s => ⟨rfl, fun hs => by simpa [State.advance, State.logged] using hs⟩
      modeStep := positioned_modeStep
      thenDropPage := positioned_thenDropPage } i ?_ ?_ ?_ ?_ <;> intros <;> trivial

end

end Sys2Proof.Machine
end

