-- ==== Sys2Proof/Laws/HostPort.lean ====
section
/-! SUPPORT. The host port (20_memory.md R50-R53), case by case: which accesses are admitted, and what each kind of access does to
the state it meets. -/

namespace Sys2Proof.Machine

section
variable {s : State}

/-- A step on an input that starts no command. -/
theorem step_input {i : Input} {rest : List Input} (h : s.inputs = i :: rest)
    (hw : ({ s with inputs := rest } : State).startWord i = none) :
    step s = .next (({ s with inputs := rest } : State).arrive i) := by
  unfold step
  rw [h]
  dsimp only
  rw [hw]

/-- An access the contract admits, at its offset. -/
theorem admits_some {off width : Nat} (h : width = 1 ∧ off < 0x200 ∨ width = 4 ∧ off % 4 = 0 ∧ off < 0x400) :
    s.admits (s.params.tcbBase + off) width = some off := by
  unfold State.admits hostOffset
  rw [if_pos (Nat.le_add_right _ _)]
  simp only [Nat.add_sub_cancel_left]
  rw [if_pos]
  simp only [admitted, Bool.or_eq_true, Bool.and_eq_true, beq_iff_eq, decide_eq_true_eq]
  omega

/-- An access outside the contract. -/
theorem admits_none {addr width : Nat}
    (h : ¬ (s.params.tcbBase ≤ addr ∧ (width = 1 ∧ addr - s.params.tcbBase < 0x200
      ∨ width = 4 ∧ (addr - s.params.tcbBase) % 4 = 0 ∧ addr - s.params.tcbBase < 0x400))) :
    s.admits addr width = none := by
  unfold State.admits hostOffset
  split
  · next off hoff =>
    split at hoff
    · cases hoff
      rw [if_neg]
      simp only [admitted, Bool.or_eq_true, Bool.and_eq_true, beq_iff_eq, decide_eq_true_eq]
      omega
    · cases hoff
  · rfl

variable {addr width off : Nat} {v : Word}

theorem arrive_hostWrite (h : s.inReset = false) : s.arrive (.hostWrite addr width v) = s.hostWrite addr width v := by
  simp only [State.arrive, h, Bool.false_eq_true, if_false]

theorem arrive_hostRead (h : s.inReset = false) : s.arrive (.hostRead addr width) = s.hostRead addr width := by
  simp only [State.arrive, h, Bool.false_eq_true, if_false]

/-- While reset is asserted host accesses do nothing. -/
theorem arrive_hostWrite_reset (h : s.inReset = true) : s.arrive (.hostWrite addr width v) = s := by
  simp only [State.arrive, h, if_true]

theorem arrive_hostRead_reset (h : s.inReset = true) : s.arrive (.hostRead addr width) = s := by
  simp only [State.arrive, h, if_true]

theorem mayComplete_iff : s.mayComplete = true ↔ ∀ m, s.knownMode = some m → m = .tx ∨ m = .rx := by
  unfold State.mayComplete
  rcases s.knownMode with _ | m
  · simp
  · cases m <;> simp

/-- A completion event of a chip that may be in Tx or Rx. -/
theorem arrive_completion {m : Mode} (h : ∀ m0, s.knownMode = some m0 → m0 = .tx ∨ m0 = .rx) (hm : m ∈ s.params.postEventModes) :
    s.arrive (.completion m) = s.chipTakesMode m := if_pos ⟨mayComplete_iff.2 h, hm⟩

/-- No event wakes the chip or leaves Standby, and one into a mode the parameter does not list is ignored. -/
theorem arrive_completion_ignored {m : Mode}
    (h : m ∉ s.params.postEventModes ∨ ∃ m0, s.knownMode = some m0 ∧ m0 ≠ .tx ∧ m0 ≠ .rx) : s.arrive (.completion m) = s := by
  refine if_neg ?_
  rintro ⟨hc, hm⟩
  rcases h with h | ⟨m0, hk, h1, h2⟩
  · exact h hm
  · rcases mayComplete_iff.1 hc m0 hk with rfl | rfl
    · exact h1 rfl
    · exact h2 rfl

theorem hostWrite_refused (h : s.admits addr width = none) : s.hostWrite addr width v = s.recordRefused := by
  simp only [State.hostWrite, h]

theorem hostRead_refused (h : s.admits addr width = none) : s.hostRead addr width = s.recordRefused := by
  simp only [State.hostRead, h]

theorem hostWrite_tbuf (h : s.admits addr width = some off) (ho : off < 0x100) (hb : s.busy = false) :
    s.hostWrite addr width v = { s with mem := s.mem.writeList off (bytesOfNat width v.toNat) } := by
  simp only [State.hostWrite, h, if_pos ho, hb, Bool.false_eq_true, if_false]

/-- A write of TBUF or CMD while BUSY = 1. -/
theorem hostWrite_busy (h : s.admits addr width = some off) (ho : off < 0x100 ∨ off = 0x200) (hb : s.busy = true) :
    s.hostWrite addr width v = s.setOvr := by
  simp only [State.hostWrite, h, hb, if_true, Bool.and_true, decide_eq_true_eq]
  rcases ho with ho | ho
  · rw [if_pos ho]
  · rw [if_neg (by omega), if_pos ho]

/-- A write that meets BUSY = 1, or that is not of CMD, starts no command. -/
theorem startWord_none (h : s.busy = true ∨ s.inReset = true ∨ s.admits addr width ≠ some 0x200) :
    s.startWord (.hostWrite addr width v) = none := by
  simp only [State.startWord]
  rw [if_neg]
  simp only [Bool.and_eq_true, Bool.not_eq_true', beq_iff_eq]
  rintro ⟨⟨h1, h2⟩, h3⟩
  rcases h with h | h | h
  · rw [h2] at h
    cases h
  · rw [h1] at h
    cases h
  · exact h h3

/-- A read of a buffer byte or word changes the data returned and the count of free values only. -/
theorem hostBytes_draws (off n : Nat) : ∃ d, (s.hostBytes off n).2 = { s with draws := d } := by
  induction n generalizing s off with
  | zero => exact ⟨s.draws, rfl⟩
  | succ n ih =>
    have h1 : ∃ d, (s.hostByte off).2 = { s with draws := d } := by
      unfold State.hostByte
      split
      · exact ⟨_, rfl⟩
      · split
        · exact ⟨s.draws, rfl⟩
        · exact ⟨_, rfl⟩
    obtain ⟨d1, h1⟩ := h1
    obtain ⟨d2, h2⟩ := ih (s := (s.hostByte off).2) (off + 1)
    refine ⟨d2, ?_⟩
    change ((s.hostByte off).2.hostBytes (off + 1) n).2 = _
    rw [h2, h1]

/-- Listed bytes of TBUF, and of RBUF while BUSY = 0, are what the host reads. -/
theorem hostBytes_listed {off : Nat} {bs : List Byte} (ho : off + bs.length ≤ 0x100 ∨ s.busy = false)
    (h : ∀ k (hk : k < bs.length), s.mem.read (off + k) = some bs[k]) : s.hostBytes off bs.length = (bs, s) := by
  induction bs generalizing off with
  | nil => rfl
  | cons b bs ih =>
    simp only [List.length_cons] at ho
    have h0 : s.hostByte off = (b, s) := by
      have hn : ¬ (s.busy && decide (0x100 ≤ off)) = true := by
        rw [Bool.and_eq_true, decide_eq_true_eq]
        rintro ⟨h1, h2⟩
        rcases ho with ho | ho
        · omega
        · rw [h1] at ho
          cases ho
      have := h 0 (by simp)
      simp only [Nat.add_zero, List.getElem_cons_zero] at this
      unfold State.hostByte
      rw [if_neg hn, this]
    have h1 := ih (off := off + 1) (ho.imp_left (by omega)) fun k hk => by
      have := h (k + 1) (by simpa using hk)
      rw [show off + 1 + k = off + (k + 1) by omega, this]
      rfl
    simp only [List.length_cons, State.hostBytes, h0, h1]

/-- An admitted read changes the data returned and the count of free values only. -/
theorem hostRead_admitted (h : s.admits addr width = some off) :
    ∃ w d, s.hostRead addr width = { s with rdata := w, draws := d } := by
  simp only [State.hostRead, h]
  split
  · obtain ⟨d, hd⟩ := hostBytes_draws (s := s) off width
    exact ⟨_, d, by rw [hd]; rfl⟩
  · split
    · exact ⟨_, _, rfl⟩
    · exact ⟨_, s.draws, rfl⟩

/-- A read of a host register that is no draw. -/
theorem hostRead_register (h : s.admits addr width = some off) (ho : 0x200 ≤ off)
    (hd : s.busy = false ∨ drawnWhileBusy off = false) : s.hostRead addr width = s.setRdata (s.regWord off) := by
  simp only [State.hostRead, h]
  rw [if_neg (by omega), if_neg]
  simp only [Bool.and_eq_true]
  rintro ⟨h1, h2⟩
  rcases hd with hd | hd
  · rw [h1] at hd
    cases hd
  · rw [h2] at hd
    cases hd

end

/-! ## Little-endian words -/

theorem bytesOfNat_length (n v : Nat) : (bytesOfNat n v).length = n := by
  induction n generalizing v with
  | zero => rfl
  | succ n ih => simp only [bytesOfNat, List.length_cons, ih]

theorem wordOfBytes_bytesOfNat (n v : Nat) (h : v < 256 ^ n) : wordOfBytes (bytesOfNat n v) = v := by
  induction n generalizing v with
  | zero =>
    rw [Nat.pow_zero] at h
    rw [bytesOfNat, wordOfBytes]
    omega
  | succ n ih =>
    rw [Nat.pow_succ] at h
    rw [bytesOfNat, wordOfBytes, ih _ (by omega), BitVec.toNat_ofNat]
    omega

end Sys2Proof.Machine
end

