-- ==== Sys2Proof/Laws/Line.lean ====
section
/-! SUPPORT. The chip's IRQ line and the edge detector while a command runs off the test double and nothing else acts: only a clear
that has read back moves the line, and nothing sets IRQ_PEND (10_state.md R34; 43_frame_fifo.md R163; 70_reset_and_hazards.md
R250). -/

namespace Sys2Proof.Machine

/-- The line, its last sample and IRQ_PEND are as before, and the test double still does not answer. -/
structure Still (s t : State) : Prop where
  line   : t.chip.irqLine = s.chip.irqLine
  prev   : t.irqPrev = s.irqPrev
  pend   : t.irqPend = s.irqPend
  oracle : t.chip.oracle = false

theorem Still.trans {s t u : State} (a : Still s t) (b : Still t u) : Still s u :=
  ⟨b.line.trans a.line, b.prev.trans a.prev, b.pend.trans a.pend, b.oracle⟩

section
variable {s : State} (ho : s.chip.oracle = false)
include ho

theorem still_refl : Still s s := ⟨rfl, rfl, rfl, ho⟩

/-- A change of the chip's registers or FIFOs, of the ghosts or of the position. -/
theorem still_of {t : State} (hl : t.chip.irqLine = s.chip.irqLine) (hp : t.irqPrev = s.irqPrev) (hi : t.irqPend = s.irqPend)
    (hc : t.chip.oracle = s.chip.oracle) : Still s t := ⟨hl, hp, hi, hc.trans ho⟩

theorem still_storeReg (pg : Page) (a v : Byte) : Still s (s.storeReg pg a v) := by
  unfold State.storeReg
  rw [if_neg (by rw [ho]; decide)]
  exact ⟨rfl, rfl, rfl, ho⟩

theorem still_unverified (a : Byte) : Still s (s.unverified a) := by
  unfold State.unverified
  rw [if_neg (by rw [ho]; decide)]
  exact ⟨rfl, rfl, rfl, ho⟩

theorem still_clearFailed (a v got : Byte) : Still s (s.clearFailed a v got) := by
  unfold State.clearFailed
  rw [ho]
  exact ⟨rfl, rfl, rfl, ho⟩

theorem still_chipWrite (a v : Byte) : Still s (s.chipWrite a v) := by
  unfold State.chipWrite
  split
  · exact ⟨rfl, rfl, rfl, ho⟩
  · split
    · exact still_storeReg ho 0 a v
    · split
      · exact ⟨rfl, rfl, rfl, ho⟩
      · split
        · exact still_refl ho
        · exact still_storeReg ho _ a v

theorem still_chipByte (a : Byte) (l : List Byte) : Still s (s.chipByte a l).2 := by
  unfold State.chipByte State.consumed
  rw [ho]
  simp only [Bool.false_eq_true, if_false]
  split <;> exact ⟨rfl, rfl, rfl, ho⟩

theorem still_chipBytes (a : Byte) (l : List Byte) (n : Nat) : Still s (s.chipBytes a l n).2 := by
  induction n generalizing s l with
  | zero => exact still_refl ho
  | succ n ih =>
    have h := still_chipByte ho a l
    exact h.trans (ih h.oracle _)

theorem still_pageDrawn (a : Byte) : Still s (s.pageDrawn a) := by
  unfold State.pageDrawn
  split <;> exact ⟨rfl, rfl, rfl, ho⟩

theorem still_monitorWrite (a v : Byte) : Still s (s.monitorWrite a v) := by
  have h := still_pageDrawn ho a
  unfold State.monitorWrite
  dsimp only
  split
  · split <;> exact h.trans ⟨rfl, rfl, rfl, h.oracle⟩
  · exact h

theorem still_monitorRead (a v : Byte) : Still s (s.monitorRead a v) := by
  unfold State.monitorRead
  split <;> exact ⟨rfl, rfl, rfl, ho⟩

theorem still_monitorLost (a : Byte) : Still s (s.monitorLost a) := by
  unfold State.monitorLost
  split <;> exact ⟨rfl, rfl, rfl, ho⟩

theorem still_burstDisturbs (a : Byte) : Still s (s.burstDisturbs a) := by
  unfold State.burstDisturbs State.burstHidesMode
  split <;> split <;> exact ⟨rfl, rfl, rfl, ho⟩

theorem still_chipBurst (a : Byte) (bs : List Byte) : Still s (s.chipBurst a bs) := by
  have h := still_burstDisturbs ho a
  unfold State.chipBurst
  rw [ho]
  split
  · exact ⟨rfl, rfl, rfl, ho⟩
  · simp only [Bool.false_eq_true, if_false]
    split
    · exact h.trans ⟨rfl, rfl, rfl, h.oracle⟩
    · exact h

theorem still_chipBurstLost (a : Byte) : Still s (s.chipBurstLost a) := by
  unfold State.chipBurstLost State.burstHidesMode
  dsimp only
  repeat' split
  all_goals exact ⟨rfl, rfl, rfl, ho⟩

theorem still_chipWriteLost (a : Byte) : Still s (s.chipWriteLost a) := by
  unfold State.chipWriteLost
  split <;> exact ⟨rfl, rfl, rfl, ho⟩

theorem still_chipReadLost (a : Byte) (n : Nat) : Still s (s.chipReadLost a n) := by
  unfold State.chipReadLost
  split <;> exact ⟨rfl, rfl, rfl, ho⟩

theorem still_chipBurstRead (a : Byte) (n : Nat) : Still s (s.chipBurstRead a n) := by
  have h := still_burstDisturbs ho a
  unfold State.chipBurstRead
  split
  · exact still_refl ho
  · dsimp only
    split
    · exact h.trans ⟨rfl, rfl, rfl, h.oracle⟩
    · exact h

theorem still_drawList (n : Nat) : Still s (s.drawList n).2 := by
  induction n generalizing s with
  | zero => exact still_refl ho
  | succ n ih => exact Still.trans (t := s.drawByte.2) ⟨rfl, rfl, rfl, ho⟩ (ih ho)

theorem still_advance_nextAnswer : Still s s.advance.nextAnswer.2 := by
  unfold State.nextAnswer
  dsimp only
  split
  · exact ⟨rfl, rfl, rfl, ho⟩
  · exact ⟨rfl, rfl, rfl, ho⟩
  · exact ⟨rfl, rfl, rfl, ho⟩
  · split <;> exact ⟨rfl, rfl, rfl, ho⟩

/-- The clear takes the line to its inactive level or leaves it, and is no edge. -/
theorem irqCleared_line : (s.irqCleared.chip.irqLine = !activeLevel s.params.irqActive
      ∨ s.irqCleared.chip.irqLine = s.chip.irqLine ∧ s.irqCleared.irqPrev = s.irqPrev)
    ∧ s.irqCleared.irqPend = s.irqPend ∧ s.irqCleared.chip.oracle = false := by
  obtain ⟨b, n, -, -, -, h | ⟨-, h⟩⟩ := irqCleared_cases s <;> rw [h]
  · refine ⟨.inl ?_, ?_, ?_⟩ <;> unfold State.setLine <;> dsimp only <;> split
    any_goals rfl
    any_goals exact ho
    simp
  · exact ⟨.inr ⟨rfl, rfl⟩, rfl, ho⟩

/-- A verified write that is not the clear leaves the line; none is an edge. -/
theorem writeVerified_line (a v : Byte) :
    (a ≠ s.params.irqClr.addr ∨ v ≠ s.params.irqClr.value → Still s (s.writeVerified a v))
      ∧ (s.writeVerified a v).irqPend = s.irqPend ∧ (s.writeVerified a v).chip.oracle = false := by
  have hc := irqCleared_line ho
  have hd := irqCleared_line (s := s.drawBit.2) ho
  unfold State.writeVerified
  rw [if_neg (by rw [ho]; decide)]
  split
  · split
    · next h =>
      refine ⟨fun hn => ?_, hc.2⟩
      rw [← h] at hn
      simp at hn
    · exact ⟨fun _ => still_refl ho, rfl, ho⟩
  · split
    · next h =>
      have ha : a = s.params.irqClr.addr := congrArg RegWrite.addr h
      have hv : v = s.params.irqClr.value := congrArg RegWrite.value h
      refine ⟨fun hn => hn.elim (absurd ha) (absurd hv), ?_⟩
      dsimp only
      split
      · exact hd.2
      · exact ⟨rfl, ho⟩
    · exact ⟨fun _ => still_refl ho, rfl, ho⟩

end

/-! ## Commands -/

/-- A clear that has read back, among the outputs. -/
def clearPair (p : Params) : List BusEvent :=
  [.write p.irqClr.addr p.irqClr.value true, .read p.irqClr.addr (some p.irqClr.value)]

/-- What a part of a command leaves of the line off the test double, while nothing arrives: IRQ_PEND is not set, and without a
clear that has read back among its outputs the line and its sample are as before. -/
def LineKept (p : Params) (α : Type) (c : Cmd α) : Prop :=
  ∀ s, s.params = p → s.during = [] → s.chip.oracle = false →
    ∃ evs, (endState (c s)).log = s.log ++ evs ∧ (endState (c s)).params = p ∧ (endState (c s)).during = []
      ∧ (endState (c s)).chip.oracle = false ∧ (s.irqPend = false → (endState (c s)).irqPend = false)
      ∧ (¬ clearPair p <:+: evs →
        (endState (c s)).chip.irqLine = s.chip.irqLine ∧ (endState (c s)).irqPrev = s.irqPrev)

section
variable {p : Params} {α β : Type}

theorem lineKept_still {c : Cmd α} (h : ∀ s, s.chip.oracle = false → s.during = [] →
    Still s (endState (c s)) ∧ (endState (c s)).params = s.params ∧ (endState (c s)).during = s.during
      ∧ ∃ evs, (endState (c s)).log = s.log ++ evs) : LineKept p α c := by
  intro s hp hq ho
  obtain ⟨st, h1, h2, evs, h3⟩ := h s ho hq
  exact ⟨evs, h3, h1.trans hp, h2.trans hq, st.oracle, fun h => st.pend.trans h, fun _ => ⟨st.line, st.prev⟩⟩

theorem lineKept_bind {c : Cmd α} {f : α → Cmd β} (hc : LineKept p α c) (hf : ∀ a, LineKept p β (f a)) :
    LineKept p β (c >>= f) := by
  intro s hp hq ho
  obtain ⟨e1, l1, p1, q1, o1, i1, k1⟩ := hc s hp hq ho
  cases h : c s with
  | error e t =>
    rw [h] at l1 p1 q1 o1 i1 k1
    rw [bind_error h]
    exact ⟨e1, l1, p1, q1, o1, i1, k1⟩
  | ok a t =>
    rw [h] at l1 p1 q1 o1 i1 k1
    rw [bind_ok h]
    obtain ⟨e2, l2, p2, q2, o2, i2, k2⟩ := hf a t p1 q1 o1
    refine ⟨e1 ++ e2, by rw [l2]; simp only [endState_ok] at l1; rw [l1, List.append_assoc], p2, q2, o2, fun h => i2 (i1 h),
      fun hn => ?_⟩
    have h1 := k1 fun hi => hn (hi.trans (List.prefix_append e1 e2).isInfix)
    have h2 := k2 fun hi => hn (hi.trans (List.suffix_append e1 e2).isInfix)
    exact ⟨h2.1.trans h1.1, h2.2.trans h1.2⟩

theorem lineKept_change {f : State → State} (h : ∀ s, s.chip.oracle = false → Still s (f s) ∧ Kept s (f s)) :
    LineKept p Unit (change f) :=
  lineKept_still fun s ho _ => ⟨(h s ho).1, (h s ho).2.params, (h s ho).2.during, [], by
    rw [List.append_nil]
    exact (h s ho).2.log⟩

theorem lineKept_quiet {c : Cmd α} (h : ∀ s, endState (c s) = s) : LineKept p α c :=
  lineKept_still fun s ho _ => by
    rw [h s]
    exact ⟨still_refl ho, rfl, rfl, [], (List.append_nil _).symm⟩

/-- One transaction, however it ends. -/
theorem lineKept_transact {before : State → State} {good : List Byte → State → α × State} {lost : State → State}
    {failed : BusEvent} (hb : ∀ s, s.chip.oracle = false → Still s (before s) ∧ Kept s (before s))
    (hg : ∀ l s, s.chip.oracle = false → Still s (good l s).2 ∧ (good l s).2.params = s.params
      ∧ (good l s).2.during = s.during ∧ ∃ e, (good l s).2.log = s.log ++ [e])
    (hl : ∀ s, s.chip.oracle = false → Still s (lost s) ∧ Kept s (lost s)) :
    LineKept p α (transact before good lost failed) := by
  refine lineKept_still fun s ho hq => ?_
  obtain ⟨b, kb⟩ := hb s ho
  have n := b.trans (still_advance_nextAnswer b.oracle)
  have kn : (before s).advance.nextAnswer.2.log = s.log ∧ (before s).advance.nextAnswer.2.params = s.params
      ∧ (before s).advance.nextAnswer.2.during = s.during :=
    ⟨(nextAnswer_log _).1.trans kb.log, (nextAnswer_log _).2.trans kb.params,
      (advance_nextAnswer_chip _).2.2.2.1.trans kb.during⟩
  simp only [transact, bind, EStateM.bind, boundary_quiet hq]
  split
  · obtain ⟨g, pg, dg, e, lg⟩ := hg (before s).advance.nextAnswer.1.2 (before s).advance.nextAnswer.2 n.oracle
    exact ⟨n.trans g, pg.trans kn.2.1, dg.trans kn.2.2, [e], by rw [endState_ok, lg, kn.1]⟩
  · obtain ⟨l, kl⟩ := hl (before s).advance.nextAnswer.2 n.oracle
    exact ⟨(n.trans l).trans ⟨rfl, rfl, rfl, l.oracle⟩, kl.params.trans kn.2.1, kl.during.trans kn.2.2, [failed], by
      rw [endState_error, State.dropPage_log, State.logged_log, kl.log, kn.1]⟩
  · obtain ⟨l, kl⟩ := hl (before s).advance.nextAnswer.2 n.oracle
    exact ⟨n.trans l, kl.params.trans kn.2.1, kl.during.trans kn.2.2, [], by
      rw [endState_error, kl.log, kn.1, List.append_nil]⟩

theorem lineKept_busRead (a : Byte) : LineKept p Byte (busRead a) :=
  lineKept_transact (fun s ho => ⟨still_pageDrawn ho a, kept_pageDrawn s a⟩)
    (fun l s ho => by
      have h := still_chipByte ho a l
      have k := kept_chipByte s a l
      have m := kept_monitorRead ((s.chipByte a l).2.logged (.read a (some (s.chipByte a l).1))) a (s.chipByte a l).1
      have hl : Still s ((s.chipByte a l).2.logged (.read a (some (s.chipByte a l).1))) :=
        h.trans ⟨rfl, rfl, rfl, h.oracle⟩
      exact ⟨hl.trans (still_monitorRead hl.oracle a (s.chipByte a l).1), m.params.trans k.params,
        m.during.trans k.during, .read a (some (s.chipByte a l).1), m.log.trans (by rw [State.logged_log, k.log])⟩)
    (fun s ho => ⟨still_chipReadLost ho a 1, kept_chipReadLost s a 1⟩)

theorem lineKept_busWrite (a v : Byte) : LineKept p Unit (busWrite a v) :=
  lineKept_transact (fun s ho => ⟨still_monitorWrite ho a v, kept_monitorWrite s a v⟩)
    (fun _ s ho => by
      have h := still_chipWrite ho a v
      have k := kept_chipWrite s a v
      exact ⟨h.trans ⟨rfl, rfl, rfl, h.oracle⟩, k.params, k.during, _, by rw [State.logged_log, k.log]⟩)
    (fun s ho => by
      have h := still_chipWriteLost ho a
      exact ⟨h.trans (still_monitorLost h.oracle a), (kept_chipWriteLost s a).trans (kept_monitorLost _ a)⟩)

theorem lineKept_busBurstWrite (a : Byte) (bs : List Byte) : LineKept p Unit (busBurstWrite a bs) :=
  lineKept_transact
    (fun s ho => by
      split
      · exact ⟨still_refl ho, Kept.refl s⟩
      · exact ⟨still_monitorWrite ho a _, kept_monitorWrite s a _⟩)
    (fun _ s ho => by
      have h := still_chipBurst ho a bs
      have k := kept_chipBurst s a bs
      exact ⟨h.trans ⟨rfl, rfl, rfl, h.oracle⟩, k.params, k.during, _, by rw [State.logged_log, k.log]⟩)
    (fun s ho => ⟨still_chipBurstLost ho a, kept_chipBurstLost s a⟩)

theorem lineKept_busBurstRead (a : Byte) (n : Nat) : LineKept p (List Byte) (busBurstRead a n) :=
  lineKept_transact (fun s ho => ⟨still_refl ho, Kept.refl s⟩)
    (fun l s ho => by
      have h1 := still_chipBytes ho a l n
      have h := h1.trans (still_chipBurstRead h1.oracle a n)
      have k := (kept_chipBytes s a l n).trans (kept_chipBurstRead _ a n)
      exact ⟨h.trans ⟨rfl, rfl, rfl, h.oracle⟩, k.params, k.during, _, by rw [State.logged_log, k.log]⟩)
    (fun s ho => by
      have h := still_chipReadLost ho a n
      exact ⟨h.trans (still_chipBurstRead h.oracle a n), (kept_chipReadLost s a n).trans (kept_chipBurstRead _ a n)⟩)

/-- A part whose end is that of another, but for changes that leave the line and what `Kept` names. -/
theorem LineKept.of_end {c : Cmd α} {d : Cmd β} (hc : LineKept p α c)
    (h : ∀ s, ∃ f : State → State, endState (d s) = f (endState (c s))
      ∧ ∀ u, u.chip.oracle = false → Still u (f u) ∧ (f u).log = u.log ∧ (f u).params = u.params
        ∧ (f u).during = u.during) : LineKept p β d := by
  intro s hp hq ho
  obtain ⟨e, l, p1, q, o, i, k⟩ := hc s hp hq ho
  obtain ⟨f, hf, hk⟩ := h s
  obtain ⟨st, kl, kp, kd⟩ := hk _ o
  rw [hf]
  exact ⟨e, kl.trans l, kp.trans p1, kd.trans q, st.oracle, fun h => st.pend.trans (i h), fun hn =>
    ⟨st.line.trans (k hn).1, st.prev.trans (k hn).2⟩⟩

theorem lineKept_burstIntoRbuf (a : Byte) (off n : Nat) : LineKept p Unit (burstIntoRbuf a off n) := by
  refine (lineKept_busBurstRead a n).of_end fun s => ?_
  unfold burstIntoRbuf
  split <;> next heq =>
    rw [heq]
    first
    | exact ⟨id, rfl, fun u ho => ⟨still_refl ho, rfl, rfl, rfl⟩⟩
    | exact ⟨fun u => u.storeRbuf off _, rfl, fun u ho => ⟨⟨rfl, rfl, rfl, ho⟩, rfl, rfl, rfl⟩⟩
    | exact ⟨fun u => (u.drawList n).2.storeRbuf off (u.drawList n).1, rfl, fun u ho =>
        ⟨(still_drawList ho n).trans ⟨rfl, rfl, rfl, (still_drawList ho n).oracle⟩, (kept_drawList u n).log,
          (kept_drawList u n).params, (kept_drawList u n).during⟩⟩

theorem lineKept_modeStep {c : Cmd α} (k : BitVec 4) (hc : LineKept p α c) : LineKept p α (modeStep k c) := by
  refine hc.of_end fun s => ?_
  have hm (m : Option Mode) : ∀ u : State, u.chip.oracle = false → Still u (u.setChipMode m) ∧
      (u.setChipMode m).log = u.log ∧ (u.setChipMode m).params = u.params ∧ (u.setChipMode m).during = u.during :=
    fun u ho => ⟨⟨rfl, rfl, rfl, ho⟩, rfl, rfl, rfl⟩
  have hi : ∀ u : State, u.chip.oracle = false → Still u (id u) ∧ (id u).log = u.log ∧ (id u).params = u.params
      ∧ (id u).during = u.during := fun u ho => ⟨still_refl ho, rfl, rfl, rfl⟩
  unfold modeStep
  split <;> next heq =>
    rw [heq]
    first
    | exact ⟨id, rfl, hi⟩
    | exact ⟨_, rfl, hm none⟩
    | (simp only [endState_error]
       split
       · exact ⟨id, rfl, hi⟩
       · exact ⟨_, rfl, hm none⟩)

theorem lineKept_thenDropPage {c : Cmd Unit} (hc : LineKept p Unit c) : LineKept p Unit (thenDropPage c) := by
  refine hc.of_end fun s => ?_
  unfold thenDropPage
  split <;> next heq =>
    rw [heq]
    first
    | exact ⟨id, rfl, fun u ho => ⟨still_refl ho, rfl, rfl, rfl⟩⟩
    | exact ⟨State.dropPage, rfl, fun u ho => ⟨⟨rfl, rfl, rfl, ho⟩, rfl, rfl, rfl⟩⟩

theorem lineKept_raise (e : Error) : LineKept p α (raiseError e) := lineKept_quiet fun _ => rfl

theorem lineKept_switchPage (pg : Page) : LineKept p Unit (switchPage pg) := by
  intro s hp hq ho
  by_cases hc : s.cached pg
  · rw [switchPage_cached hc]
    exact lineKept_quiet (c := (pure () : Cmd Unit)) (fun _ => rfl) s hp hq ho
  · rw [switchPage_uncached hc]
    refine (lineKept_bind (lineKept_busRead _) fun v => lineKept_bind (lineKept_busWrite _ _) fun _ =>
      lineKept_bind (lineKept_busRead _) fun r => ?_ : LineKept p Unit _) s hp hq ho
    split
    · exact lineKept_still fun u ho _ => ⟨⟨rfl, rfl, rfl, ho⟩, rfl, rfl, [], (List.append_nil _).symm⟩
    · refine lineKept_bind (lineKept_still fun u ho _ => ?_) fun _ => lineKept_raise _
      have h := still_unverified ho u.params.sysctlAddr
      have k := kept_unverified u u.params.sysctlAddr
      exact ⟨h.trans ⟨rfl, rfl, rfl, h.oracle⟩, k.params, k.during, [], k.log.trans (List.append_nil _).symm⟩

theorem lineKept_pagedRead (r : RegAt) : LineKept p Byte (pagedRead r) :=
  lineKept_bind (lineKept_switchPage _) fun _ => lineKept_busRead _

/-- The one output of a transaction that ended well. -/
theorem transact_ok_log {before : State → State} {good : List Byte → State → α × State} {lost : State → State}
    {failed : BusEvent} {s t : State} {x : α} (hq : s.during = []) (hb : (before s).log = s.log)
    (h : transact before good lost failed s = .ok x t) {e : α → BusEvent}
    (hg : ∀ l u, (good l u).2.log = u.log ++ [e (good l u).1]) : t.log = s.log ++ [e x] := by
  simp only [transact, bind, EStateM.bind, boundary_quiet hq] at h
  split at h
  · cases h
    rw [hg, (nextAnswer_log _).1]
    exact congrArg (· ++ _) hb
  · cases h
  · cases h

theorem busRead_ok_log {a x : Byte} {s t : State} (hq : s.during = []) (h : busRead a s = .ok x t) :
    t.log = s.log ++ [.read a (some x)] :=
  transact_ok_log (before := fun s => s.pageDrawn a) hq (kept_pageDrawn s a).log h (e := fun x => .read a (some x)) fun l u =>
    (kept_monitorRead _ a _).log.trans (by rw [State.logged_log, (kept_chipByte u a l).log])

theorem busWrite_ok_log {a v : Byte} {s t : State} (hq : s.during = []) (h : busWrite a v s = .ok () t) :
    t.log = s.log ++ [.write a v true] :=
  transact_ok_log hq (kept_monitorWrite s a v).log h (e := fun _ => .write a v true) fun _ u => by
    rw [State.logged_log, (kept_chipWrite u a v).log]

/-- A verified write: the line moves only where it was the clear and has read back. -/
theorem lineKept_pagedWrite (r : RegAt) (v : Byte) : LineKept p Unit (pagedWrite r v) := by
  unfold pagedWrite
  refine lineKept_bind (lineKept_switchPage _) fun _ => ?_
  have drop : LineKept p Unit (change fun s => if r.addr = s.params.sysctlAddr then s.dropPage else s) :=
    lineKept_still fun u ho _ => by
      change Still u (if r.addr = u.params.sysctlAddr then u.dropPage else u) ∧ _
      simp only [change, endState_ok]
      split <;> exact ⟨⟨rfl, rfl, rfl, ho⟩, rfl, rfl, [], (List.append_nil _).symm⟩
  have fail : ∀ got, LineKept p Unit (do
      change fun s => (s.unverified r.addr).clearFailed r.addr v got
      raiseError (.verify (some r))) := fun got => by
    refine lineKept_bind (lineKept_change fun u ho => ?_) fun _ => lineKept_raise _
    have h := still_unverified ho r.addr
    exact ⟨h.trans (still_clearFailed h.oracle _ _ _), (kept_unverified u _).trans (kept_clearFailed _ _ _ _)⟩
  by_cases hc : r.addr = p.irqClr.addr ∧ v = p.irqClr.value
  · intro s hp hq ho
    obtain ⟨e1, l1, p1, q1, o1, i1, k1⟩ := lineKept_busWrite (p := p) r.addr v s hp hq ho
    cases h1 : busWrite r.addr v s with
    | error e t =>
      rw [h1] at l1 p1 q1 o1 i1 k1
      rw [bind_error h1]
      exact ⟨e1, l1, p1, q1, o1, i1, k1⟩
    | ok x t =>
      have w1 := busWrite_ok_log hq h1
      rw [h1] at l1 p1 q1 o1 i1 k1
      rw [bind_ok h1, change_bind]
      simp only [endState_ok] at l1 p1 q1 o1 i1 k1
      set t' := if r.addr = t.params.sysctlAddr then t.dropPage else t with ht'
      have d : t'.log = t.log ∧ t'.params = t.params ∧ t'.during = t.during ∧ t'.chip = t.chip
          ∧ t'.irqPend = t.irqPend ∧ t'.irqPrev = t.irqPrev := by
        rw [ht']
        split <;> exact ⟨rfl, rfl, rfl, rfl, rfl, rfl⟩
      obtain ⟨e2, l2, p2, q2, o2, i2, k2⟩ := lineKept_busRead (p := p) r.addr t' (d.2.1.trans p1) (d.2.2.1.trans q1)
        (by rw [d.2.2.2.1]; exact o1)
      have he1 : e1 = [.write r.addr v true] := List.append_cancel_left (l1.symm.trans w1)
      have hi1 : ¬ clearPair p <:+: e1 := by
        rw [he1]
        intro hi
        have := hi.length_le
        simp [clearPair] at this
      have s1 := k1 hi1
      cases h2 : busRead r.addr t' with
      | error e u =>
        rw [h2] at l2 p2 q2 o2 i2 k2
        rw [bind_error h2]
        simp only [endState_error] at l2 p2 q2 o2 i2 k2 ⊢
        refine ⟨e1 ++ e2, by rw [l2, d.1, l1, List.append_assoc], p2, q2, o2,
          fun h => i2 (d.2.2.2.2.1.trans (i1 h)), fun hn => ?_⟩
        have s2 := k2 fun hi => hn (hi.trans (List.suffix_append e1 e2).isInfix)
        exact ⟨s2.1.trans ((congrArg Chip.irqLine d.2.2.2.1).trans s1.1), s2.2.trans (d.2.2.2.2.2.trans s1.2)⟩
      | ok got u =>
        have w2 := busRead_ok_log (d.2.2.1.trans q1) h2
        rw [h2] at l2 p2 q2 o2 i2 k2
        rw [bind_ok h2]
        simp only [endState_ok] at l2 p2 q2 o2 i2 k2
        have he2 : e2 = [.read r.addr (some got)] := List.append_cancel_left (l2.symm.trans w2)
        have s2 := k2 (by
          rw [he2]
          intro hi
          have := hi.length_le
          simp [clearPair] at this)
        have hlog : u.log = s.log ++ (e1 ++ e2) := by rw [l2, d.1, l1, List.append_assoc]
        have hpend : s.irqPend = false → u.irqPend = false := fun h => i2 (d.2.2.2.2.1.trans (i1 h))
        have hline : u.chip.irqLine = s.chip.irqLine ∧ u.irqPrev = s.irqPrev :=
          ⟨s2.1.trans ((congrArg Chip.irqLine d.2.2.2.1).trans s1.1), s2.2.trans (d.2.2.2.2.2.trans s1.2)⟩
        by_cases hg : got = v
        · rw [if_pos hg]
          have k := kept_writeVerified u r.addr v
          have w := writeVerified_line o2 r.addr v
          refine ⟨e1 ++ e2, k.log.trans hlog, k.params.trans p2, k.during.trans q2, w.2.2, fun h => w.2.1.trans (hpend h),
            fun hn => absurd ?_ hn⟩
          rw [he1, he2, hg, hc.1, hc.2]
          exact List.infix_rfl
        · rw [if_neg hg]
          obtain ⟨e3, l3, p3, q3, o3, i3, k3⟩ := fail got u p2 q2 o2
          refine ⟨e1 ++ e2 ++ e3, by rw [l3, hlog, List.append_assoc], p3, q3, o3, fun h => i3 (hpend h), fun hn => ?_⟩
          have s3 := k3 fun hi => hn (hi.trans (List.suffix_append _ e3).isInfix)
          exact ⟨s3.1.trans hline.1, s3.2.trans hline.2⟩
  · refine lineKept_bind (lineKept_busWrite _ _) fun _ => lineKept_bind drop fun _ =>
      lineKept_bind (lineKept_busRead _) fun got => ?_
    split
    · intro s hp hq ho
      have k := kept_writeVerified s r.addr v
      have w := writeVerified_line ho r.addr v
      rw [hp] at w
      have st := w.1 (by
        by_cases h : r.addr = p.irqClr.addr
        · exact .inr fun h2 => hc ⟨h, h2⟩
        · exact .inl h)
      exact ⟨[], k.log.trans (List.append_nil _).symm, k.params.trans hp, k.during.trans hq, st.oracle,
        fun h => st.pend.trans h, fun _ => ⟨st.line, st.prev⟩⟩
    · exact fail got

/-- Every command keeps the line so. -/
theorem lineKept_commandOf (i : Instr) : LineKept p Unit (commandOf i) := by
  have hs {f : State → State} (h : ∀ s, (f s).chip = s.chip ∧ (f s).irqPrev = s.irqPrev ∧ (f s).irqPend = s.irqPend
      ∧ (f s).params = s.params ∧ (f s).during = s.during ∧ (f s).log = s.log) : LineKept p Unit (change f) :=
    lineKept_still fun s ho _ => by
      obtain ⟨hc, hp, hi, hpa, hd, hl⟩ := h s
      exact ⟨⟨congrArg Chip.irqLine hc, hp, hi, (congrArg Chip.oracle hc).trans ho⟩, hpa, hd, [],
        hl.trans (List.append_nil _).symm⟩
  have port {f : State → State} (h : ∀ s, (f s).chip = s.chip ∧ (f s).irqPrev = s.irqPrev ∧ (f s).irqPend = s.irqPend
      ∧ (f s).params = s.params ∧ (f s).during = s.during ∧ ∃ e, (f s).log = s.log ++ [e]) :
      LineKept p Unit (boundary >>= fun _ => change f) :=
    lineKept_still fun s ho hq => by
      obtain ⟨hc, hp, hi, hpa, hd, e, hl⟩ := h s
      rw [bind_ok (boundary_quiet hq)]
      exact ⟨⟨congrArg Chip.irqLine hc, hp, hi, (congrArg Chip.oracle hc).trans ho⟩, hpa, hd, [e], hl⟩
  refine Closed.commandOf (P := fun α c => LineKept p α c) (p := p) (rd := fun _ => True) (w := fun _ => True)
    (bw := fun _ => True) (br := fun _ => True)
    { pure := fun a => lineKept_quiet fun _ => rfl
      bind := lineKept_bind
      params := fun h s hp hq ho => by
        rw [getParams_bind, hp]
        exact h s hp hq ho
      raise := lineKept_raise
      dropPage := hs fun _ => ⟨rfl, rfl, rfl, rfl, rfl, rfl⟩
      setResult := fun _ => hs fun _ => ⟨rfl, rfl, rfl, rfl, rfl, rfl⟩
      storeRbuf := fun _ _ => hs fun _ => ⟨rfl, rfl, rfl, rfl, rfl, rfl⟩
      clearPend := fun s hp hq ho =>
        ⟨[], (List.append_nil _).symm, hp, hq, ho, fun _ => rfl, fun _ => ⟨rfl, rfl⟩⟩
      deliver := fun st d => hs fun s => by
        obtain ⟨tag, len, flag, metrics⟩ := d
        cases metrics <;> cases flag <;> exact ⟨rfl, rfl, rfl, rfl, rfl, rfl⟩
      applyFlag := fun f => hs fun _ => by cases f <;> exact ⟨rfl, rfl, rfl, rfl, rfl, rfl⟩
      readBuffer := fun buf off len => lineKept_still fun s ho _ => by
        unfold readBuffer
        split <;> exact ⟨⟨rfl, rfl, rfl, ho⟩, rfl, rfl, [], (List.append_nil _).symm⟩
      pagedRead := fun r _ => lineKept_pagedRead r
      pagedWrite := fun r v _ => lineKept_pagedWrite r v
      burstWrite := fun a l _ => lineKept_busBurstWrite a l
      burstRead := fun a off n _ => lineKept_burstIntoRbuf a off (n + 1)
      callCap := fun _ => port fun _ => ⟨rfl, rfl, rfl, rfl, rfl, _, rfl⟩
      delay := fun _ => port fun _ => ⟨rfl, rfl, rfl, rfl, rfl, _, rfl⟩
      modeStep := lineKept_modeStep
      thenDropPage := lineKept_thenDropPage } i ?_ ?_ ?_ ?_ <;> intros <;> trivial

end

end Sys2Proof.Machine
end

