-- ==== Sys2Proof/Laws/PerInstr.lean ====
section
/-! SUPPORT. Statements proved command by command. `OpcodeField`: the opcode byte names the row, and only the row (30_encoding.md
R71, R73, R81). -/

namespace Sys2Proof.Laws.OpcodeField

/-- Two commands have the same opcode byte exactly when they are of the same row of the opcode table, whatever their operands
(30_encoding.md R81: no word matches two rows). -/
def Statement (i : Instr) : Prop := ∀ j : Instr, opcOf (encode j) = opcOf (encode i) ↔ j.ctorIdx = i.ctorIdx

theorem packWord_toNat (opc a b c : Nat) (ho : opc < 256) (ha : a < 256) (hb : b < 256) (hc : c < 256) :
    (packWord opc a b c).toNat = opc * 2 ^ 24 + a * 2 ^ 16 + b * 2 ^ 8 + c := by
  simp only [packWord, BitVec.toNat_ofNat]; omega

theorem opcOf_toNat (w : Word) : (opcOf w).toNat = w.toNat / 2 ^ 24 := by
  have := w.isLt
  simp only [opcOf, BitVec.extractLsb'_toNat, Nat.shiftRight_eq_div_pow]; omega

/-- The opcode byte of a packed word, its fields being bytes. -/
theorem opcOf_packWord (opc a b c : Nat) (ho : opc < 256) (ha : a < 256) (hb : b < 256) (hc : c < 256) :
    opcOf (packWord opc a b c) = BitVec.ofNat 8 opc := by
  apply BitVec.eq_of_toNat_eq
  rw [opcOf_toNat, packWord_toNat opc a b c ho ha hb hc, BitVec.toNat_ofNat]
  omega

theorem buf_lt (b : Buf) : b.number < 256 := by cases b <;> decide
theorem mode_lt (m : Mode) : m.number < 256 := by cases m <;> decide
theorem txSub_lt (s : TxSub) : s.number < 256 := by cases s <;> decide
theorem rxSub_lt (s : RxSub) : s.number < 256 := by cases s <;> decide
theorem sel_lt (s : PlhdSel) : s.number < 256 := by cases s <;> decide
theorem flag_lt (f : Flag) : f.code < 256 := by cases f <;> decide
theorem page_lt (p : Page) : p.toNat < 256 := Nat.lt_of_lt_of_le p.isLt (by decide)

/-- The opcode of each row (30_encoding.md R73). -/
theorem opcOf_encode (i : Instr) : opcOf (encode i) =
    [0x00#8, 0x10, 0x11, 0x20, 0x21, 0x22, 0x23, 0x24, 0x30, 0x31, 0x32, 0x33, 0x34, 0x35, 0x36, 0x37, 0x40, 0x41, 0x42, 0x43,
      0x50, 0x51, 0x52].getD i.ctorIdx 0 := by
  cases i <;>
    exact opcOf_packWord _ _ _ _ (by decide)
      (by first | decide | exact buf_lt _ | exact page_lt _ | exact BitVec.isLt _)
      (by first | decide | exact BitVec.isLt _)
      (by first
        | decide | exact mode_lt _ | exact txSub_lt _ | exact rxSub_lt _ | exact sel_lt _ | exact flag_lt _
        | exact BitVec.isLt _)

/-- The 23 opcodes are different. -/
theorem opcodes_differ : ∀ m n : Fin 23,
    [0x00#8, 0x10, 0x11, 0x20, 0x21, 0x22, 0x23, 0x24, 0x30, 0x31, 0x32, 0x33, 0x34, 0x35, 0x36, 0x37, 0x40, 0x41, 0x42, 0x43,
      0x50, 0x51, 0x52].getD m.val 0
      = [0x00#8, 0x10, 0x11, 0x20, 0x21, 0x22, 0x23, 0x24, 0x30, 0x31, 0x32, 0x33, 0x34, 0x35, 0x36, 0x37, 0x40, 0x41, 0x42,
        0x43, 0x50, 0x51, 0x52].getD n.val 0 → m = n := by decide

theorem ctorIdx_lt (i : Instr) : i.ctorIdx < 23 := by cases i <;> simp only [Instr.ctorIdx] <;> decide

theorem of_row (i : Instr) : Statement i := fun j => by
  rw [opcOf_encode, opcOf_encode]
  exact ⟨fun h => congrArg Fin.val (opcodes_differ ⟨j.ctorIdx, ctorIdx_lt j⟩ ⟨i.ctorIdx, ctorIdx_lt i⟩ h), fun h => by rw [h]⟩

theorem nop : Statement .nop := of_row _
theorem crcCcitt (buf : Buf) (off len : Byte) : Statement (.crcCcitt buf off len) := of_row _
theorem crcIbm (buf : Buf) (off len : Byte) : Statement (.crcIbm buf off len) := of_row _
theorem regRead (page : Page) (addr : Byte) : Statement (.regRead page addr) := of_row _
theorem regWrite (page : Page) (addr value : Byte) : Statement (.regWrite page addr value) := of_row _
theorem fifoWrite (faddr off len : Byte) : Statement (.fifoWrite faddr off len) := of_row _
theorem fifoRead (faddr off len : Byte) : Statement (.fifoRead faddr off len) := of_row _
theorem pageSync : Statement .pageSync := of_row _
theorem wakeDeep : Statement .wakeDeep := of_row _
theorem wakeSleep : Statement .wakeSleep := of_row _
theorem sleep : Statement .sleep := of_row _
theorem deepSleep : Statement .deepSleep := of_row _
theorem setMode (mode : Mode) : Statement (.setMode mode) := of_row _
theorem getMode : Statement .getMode := of_row _
theorem setTxsub (sub : TxSub) : Statement (.setTxsub sub) := of_row _
theorem setRxsub (sub : RxSub) : Statement (.setRxsub sub) := of_row _
theorem send (len : Byte) : Statement (.send len) := of_row _
theorem receive : Statement .receive := of_row _
theorem recvPlhd (sel : PlhdSel) : Statement (.recvPlhd sel) := of_row _
theorem clrIrq : Statement .clrIrq := of_row _
theorem dispatch : Statement .dispatch := of_row _
theorem setRxflag (flag : Flag) : Statement (.setRxflag flag) := of_row _
theorem setTxflag (flag : Flag) : Statement (.setTxflag flag) := of_row _

end Sys2Proof.Laws.OpcodeField
end

