-- ==== Sys2Proof/Tests/Slice0.lean ====
section
/-! SUPPORT. The model's own tests: ill-formed commands and parameters are refused; words written out from 30_encoding.md decode;
one step against the vectors of 95_test_vectors.md; and for every obligation with hypotheses a state that meets them. -/

namespace Sys2Proof.Tests

open Sys2Proof Sys2Proof.Machine

/-! ## WellFormed: an ill-formed term for each check (30_encoding.md R73, R75; 10_state.md R38) -/

theorem test_wf_refuses :
    [Instr.crcCcitt .tbuf 2 255, .crcIbm .rbuf 1 0xFF, .crcIbm .rbuf 255 2, .regWrite 0 0x01 0x55, .fifoWrite 1 0x80 0x81,
      .fifoRead 1 0xFF 2, .send 0].map (Instr.wf Params.ref) = [false, true, false, false, false, false, false] := by decide

theorem test_wf_admits_the_bounds :
    [Instr.crcCcitt .tbuf 1 255, .crcIbm .rbuf 255 1, .crcCcitt .tbuf 0x10 0, .regWrite 0 0x00 0x55, .fifoWrite 1 0x80 0x80,
      .fifoRead 1 0xFF 1, .send 1, .send 255].all (Instr.wf Params.ref) = true := by decide

theorem test_wf_send_max : (Instr.send 65).wf { Params.ref with maxPayload := 64 } = false
    ∧ (Instr.send 64).wf { Params.ref with maxPayload := 64 } = true := by decide

theorem test_params_ref_wf : Params.ref.wf = true := by decide

theorem test_params_ill_formed :
    (Params.codesOk { Params.ref with modeCode := #v[0, 1, 2, 3, 4, 5, 5] } = false)
      ∧ (Params.codesOk { Params.ref with rxsubCode := #v[0, 1, 4] } = false)
      ∧ (Params.fieldsOk { Params.ref with txsubPos := 2 } = false)
      ∧ (Params.addrsOk { Params.ref with irqClr := ⟨0, 0x01, 0⟩ } = false)
      ∧ (Params.regsOk { Params.ref with xtalTrim1 := ⟨3, 0x20, 0⟩ } = false) := by decide

/-! ## Decoding: one word per row, written out from the fields of 30_encoding.md R71 and R73 -/

theorem test_decode_crc_and_bus :
    [0x00000000, 0x10000003, 0x1101FF01, 0x20031000, 0x2101100A, 0x2201FF01, 0x23010000, 0x24000000].map
        (decode Params.ref) =
      [.ok .nop, .ok (.crcCcitt .tbuf 0 3), .ok (.crcIbm .rbuf 255 1), .ok (.regRead 3 0x10), .ok (.regWrite 1 0x10 10),
        .ok (.fifoWrite 1 255 1), .ok (.fifoRead 1 0 0), .ok .pageSync] := by decide

theorem test_decode_modes :
    [0x30000000, 0x31000000, 0x32000000, 0x33000000, 0x34000006, 0x35000000, 0x36000001, 0x37000002].map
        (decode Params.ref) =
      [.ok .wakeDeep, .ok .wakeSleep, .ok .sleep, .ok .deepSleep, .ok (.setMode .rx), .ok .getMode,
        .ok (.setTxsub .continuous), .ok (.setRxsub .continuous)] := by decide

theorem test_decode_frame_and_irq :
    [0x4000000A, 0x41000000, 0x42000001, 0x43000000, 0x50000000, 0x51000004, 0x52000001].map (decode Params.ref) =
      [.ok (.send 10), .ok .receive, .ok (.recvPlhd .sixteen), .ok .clrIrq, .ok .dispatch, .ok (.setRxflag .rxErr),
        .ok (.setTxflag .txDone)] := by decide

/-- The reserved opcodes at the ends of their ranges (R74; 95_test_vectors.md 2.6). -/
theorem test_decode_reserved :
    [0x01000000, 0x0F000000, 0x12000000, 0x1F000000, 0x25000000, 0x2F000000, 0x38000000, 0x3F000000, 0x44000000, 0x4F000000,
      0x53000000, 0xFF000000].map (decode Params.ref) = List.replicate 12 (.illegal .reservedOpcode) := by decide

/-- The illegal words of 95_test_vectors.md 2.1 to 2.6. -/
theorem test_decode_illegal :
    ([0x100002FF, 0x11020000, 0x10FF0001, 0x21000155, 0x20041000, 0x20001001, 0x2301FF02, 0x24000001, 0x30000100, 0x34000007,
      0x36000002, 0x37000003, 0x40000000, 0x40000100, 0x42000002, 0x51000006, 0x52010000, 0x00000001].map
        (decode Params.ref)).filter (fun d => d.toOption.isSome) = [] := by decide

/-- The host's numbering of a word (30_encoding.md R71: bits 31 to 24 are the opcode). -/
theorem test_decode_table_word : decodeTableWord 32 0x2101100A = some (.regWrite 1 0x10 10)
    ∧ decodeTableWord 8 0 = some .nop ∧ decodeTableWord 32 0x01000000 = none := by decide

/-- The pseudo-commands (30_encoding.md R84). -/
theorem test_pseudo : Pseudo.expand (.rxStart .continuous) = [.setRxsub .continuous, .setMode .rx]
    ∧ Pseudo.expand .clrFlags = [.setRxflag .idle, .setTxflag .idle] := by decide

/-! ## One step against 95_test_vectors.md -/

/-- A test double with these registers (page * 256 + offset, rising), a page cache, a memory, a receive FIFO and the answers
fixed beforehand (95_test_vectors.md "Conventions"). -/
def bench (regs : Memory) (pc : Option Page) (mem : Memory := []) (rxq : List Byte := []) (answers : List Answer := []) :
    State :=
  { State.resetWith Params.ref with
    chip := ⟨true, regs, [], rxq, false, answers⟩
    pcache := pc
    mem := mem
    chipMode := (regs.read 2).bind (decodeMode Params.ref) }

/-- The state after the host writes a word to CMD. -/
def after (s : State) (w : Word) : Option State :=
  match step { s with inputs := [cmdInput s.params w] } with
  | .next t => some t
  | .fault _ => none
  | .refused _ => none

/-- A good read and a good write in a trace. -/
def rd (a r : Byte) : BusEvent := .read a (some r)
def wr (a v : Byte) : BusEvent := .write a v true

/-- The number of transactions of a run. -/
def ntx (t : State) : Nat := (t.log.filter BusEvent.isTransaction).length

/-- The answers that let `n` transactions through and then fix the next. -/
def atTx (n : Nat) (x : Answer) : List Answer := List.replicate n .auto ++ [x]

def chars : Memory := Memory.writeList [] 0 [0x31, 0x32, 0x33, 0x34, 0x35, 0x36, 0x37, 0x38, 0x39]

/-- 95 section 2.1 and X2. -/
theorem test_crc_values :
    (crcCcitt [], crcCcitt [1, 2, 3], crcCcitt [0x80]) = (0xE2F0, 0x8FC2, 0xA2EB)
      ∧ (crcIbm [], crcIbm [1, 2, 3], crcIbm [0xFF, 0xFF]) = (0xFFFF, 0x821D, 0x0000) := by decide +kernel

/-- 95 section 2.1: bytes 2 to 5 of "123456789"; P1. -/
theorem test_crc_commands :
    (after (bench [] none chars) 0x10000204).map (fun t => (t.resultWord, t.statusWord, ntx t)) = some (0xF34A, 0, 0)
      ∧ (after (bench [] none chars) 0x11000009).map State.resultWord = some 0xAEE7
      ∧ (after (bench [] none chars) 0x10001000).map State.resultWord = some 0xE2F0 := by decide +kernel

/-- 95 section 2.1, row 7: RBUF unwritten. -/
theorem test_crc_unwritten : (after (bench [] none) 0x10010001).map (fun t => (t.faults, t.statusWord, t.resultWord)) =
    some (⟨false, true, false⟩, 0, 0) := by decide +kernel

/-- B1 and B3: the switch preserves the six other bits. -/
theorem test_reg_read :
    (after (bench [(0, 0xA4), (0x110, 0x0A)] none) 0x20011000).map
        (fun t => (t.resultWord, t.pcache, t.regValue 0 0, t.log)) =
      some (0x0A, some 1, some 0xA5, [rd 0 0xA4, wr 0 0xA5, rd 0 0xA5, rd 0x10 0x0A]) := by decide +kernel

/-- B6 and B7: a fault in the switch, and a switch that does not read back. -/
theorem test_reg_read_errors :
    (after (bench [(0, 0)] none [] [] (atTx 1 .fault)) 0x20011000).map (fun t => (t.statusWord, t.pcache, ntx t)) =
        some (0x10, none, 2)
      ∧ (after (bench [(0, 0)] none [] [] (atTx 2 (.force [0]))) 0x20011000).map (fun t => (t.statusWord, t.pcache, ntx t)) =
        some (0x20, none, 3) := by decide +kernel

/-- B2 and B4: a write of the system-control register drops the cached page. -/
theorem test_reg_write :
    (after (bench [(0, 1)] (some 1)) 0x2101100A).map (fun t => (t.log, t.pcache, t.statusWord)) =
        some ([wr 0x10 0x0A, rd 0x10 0x0A], some 1, 0)
      ∧ (after (bench [(0, 0xA4)] none) 0x210000A5).map (fun t => (t.log, t.pcache, t.statusWord)) =
        some ([rd 0 0xA4, wr 0 0xA4, rd 0 0xA4, wr 0 0xA5, rd 0 0xA5], none, 0) := by decide +kernel

/-- B5: a register that does not read back keeps the cached page. -/
theorem test_reg_write_verify :
    (after (bench [(0, 0)] (some 0) [] [] (atTx 1 (.force [0x54]))) 0x21004055).map (fun t => (t.statusWord, t.pcache)) =
      some (0x20, some 0) := by decide +kernel

/-- B11 and B12. -/
theorem test_fifo_write :
    (after (bench [(0, 0)] (some 0) [(0, 0xAA), (1, 0xBB), (2, 0xCC)]) 0x22010003).map
        (fun t => (t.chip.txq, t.log, t.pcache)) =
        some ([0xAA, 0xBB, 0xCC], [.burstWrite 1 [0xAA, 0xBB, 0xCC] true], some 0)
      ∧ (after (bench [(0, 0)] (some 0) [(0, 0xAA)]) 0x22010002).map (fun t => (t.faults.unwrittenRead, t.log)) =
        some (true, []) := by decide +kernel

/-- B14: the end of RBUF. -/
theorem test_fifo_read :
    (after (bench [(0, 0)] none [] [0x11, 0x22]) 0x2301FE02).map (fun t => (t.mem, t.chip.rxq, t.statusWord)) =
      some ([(0x1FE, 0x11), (0x1FF, 0x22)], [], 0) := by decide +kernel

/-- B17, first command. -/
theorem test_page_sync : (after (bench [(0, 0)] (some 0)) 0x24000000).map (fun t => (t.pcache, t.log)) = some (none, []) := by
  decide +kernel

/-- M1: the whole wake sequence. -/
theorem test_wake_deep :
    (after (bench [(0, 0), (2, 0)] none) 0x30000000).map (fun t => (t.statusWord, ntx t, t.pcache)) = some (0, 19, some 0)
      ∧ (after (bench [(0, 0), (2, 0)] none) 0x30000000).map (fun t => t.chip.regs) =
        some [(0, 0), (2, 4), (0x320, 0x5A), (0x321, 0x5A)]
      ∧ (after (bench [(0, 0), (2, 0)] none) 0x30000000).map
          (fun t => (t.log.filterMap BusEvent.cap?, t.log.filterMap BusEvent.delay?)) =
        some ([.enableTcxo], [10, 10, 2000, 10])
      ∧ (after (bench [(0, 0), (2, 0)] none) 0x30000000).map State.faults = some ⟨false, false, false⟩ := by decide +kernel

/-- M2: the read-back of the Standby2 write is wrong. -/
theorem test_wake_deep_verify :
    (after (bench [(0, 0), (2, 0)] none [] [] (atTx 15 (.force [2]))) 0x30000000).map
        (fun t => (t.statusWord, t.chipMode, ntx t, t.log.filterMap BusEvent.delay?)) =
      some (0x2530, some .standby1, 16, [10, 10]) := by decide +kernel

/-- M4 and M5: from Sleep, and from Standby3, where the first mode write is no legal transition. -/
theorem test_wake_sleep :
    (after (bench [(0, 0), (2, 1)] none) 0x31000000).map (fun t => (t.statusWord, t.regValue 0 2, t.faults)) =
        some (0, some 4, ⟨false, false, false⟩)
      ∧ (after (bench [(0, 0), (2, 4)] none) 0x31000000).map (fun t => (t.statusWord, t.regValue 0 2, t.faults)) =
        some (0, some 4, ⟨true, false, false⟩) := by decide +kernel

/-- M6. -/
theorem test_sleep :
    (after (bench [(0, 0), (2, 4)] (some 0)) 0x32000000).map
        (fun t => (t.regValue 0 2, t.pcache, t.log.filter BusEvent.isTransaction, t.log.filterMap BusEvent.cap?)) =
      some (some 1, none, [rd 2 4, rd 2 4, wr 2 3, rd 2 3, rd 2 3, wr 2 2, rd 2 2, rd 2 2, wr 2 1, rd 2 1],
        [.disableTcxo]) := by decide +kernel

/-- X3: the guard, and the unguarded block. -/
theorem test_sleep_guard :
    (after (bench [(0, 0), (2, 0)] (some 0)) 0x32000000).map (fun t => (t.statusWord, t.log, t.pcache)) =
        some (0x3030, [rd 2 0], some 0)
      ∧ (after { bench [(0, 0), (2, 0)] (some 0) with params := { Params.ref with sleepGuard := .unguarded } }
          0x32000000).map (fun t => (t.statusWord, t.regValue 0 2, t.faults.illegalTransition, ntx t)) =
        some (0, some 1, true, 9) := by decide +kernel

/-- M7. -/
theorem test_deep_sleep :
    (after (bench [(0, 0), (2, 4)] (some 0)) 0x33000000).map (fun t => (t.regValue 0 2, t.pcache, ntx t, t.statusWord)) =
      some (some 0, none, 10, 0) := by decide +kernel

/-- M13: performed and recorded. -/
theorem test_set_mode_illegal :
    (after (bench [(0, 0), (2, 0)] (some 0)) 0x34000005).map (fun t => (t.regValue 0 2, t.faults, t.statusWord)) =
      some (some 5, ⟨true, false, false⟩, 0) := by decide +kernel

/-- M14: the write faults. -/
theorem test_set_mode_fault :
    (after (bench [(0, 0), (2, 4)] (some 0) [] [] (atTx 1 .fault)) 0x34000005).map (fun t => (t.statusWord, t.pcache, ntx t)) =
      some (0x1130, none, 2) := by decide +kernel

/-- M17 and M18. -/
theorem test_get_mode :
    (after (bench [(0, 0), (2, 7)] (some 0)) 0x35000000).map (fun t => (t.resultWord, t.chipMode)) = some (0xFF, none)
      ∧ (after (bench [(0, 0), (2, 0xC5)] (some 0)) 0x35000000).map (fun t => (t.resultWord, t.log)) =
        some (5, [rd 2 0xC5]) := by decide +kernel

/-- M19 and M23: the sub-mode setters report plain errors. -/
theorem test_set_txsub :
    (after (bench [(0, 0), (2, 4)] (some 0)) 0x36000001).map (fun t => (t.regValue 0 2, ntx t)) = some (some 0x0C, 3)
      ∧ (after (bench [(0, 0), (2, 4)] (some 0) [] [] (atTx 2 .fault)) 0x36000001).map (fun t => (t.statusWord, t.pcache)) =
        some (0x10, none) := by decide +kernel

/-- M21 and M22: a reserved field value is overwritten. -/
theorem test_set_rxsub :
    (after (bench [(0, 0), (2, 4)] (some 0)) 0x37000001).map (fun t => t.regValue 0 2) = some (some 0x14)
      ∧ (after (bench [(0, 0), (2, 0x3C)] (some 0)) 0x37000000).map (fun t => t.regValue 0 2) = some (some 0x0C) := by decide +kernel

def nine : Memory := Memory.writeList [] 0 [0, 1, 2, 3, 4, 5, 6, 7, 8, 9]

/-- F1. -/
theorem test_send :
    (after (bench [(0, 1), (2, 4)] (some 1) nine) 0x4000000A).map (fun t => (t.log, t.chip.txq, t.pcache, t.statusWord)) =
      some ([wr 0x10 0x0A, rd 0x10 0x0A, rd 0 1, wr 0 0, rd 0 0, rd 2 4, wr 2 5, rd 2 5,
        .burstWrite 1 [0, 1, 2, 3, 4, 5, 6, 7, 8, 9] true], [0, 1, 2, 3, 4, 5, 6, 7, 8, 9], some 0, 0) := by decide +kernel

/-- F5: the mode write does not read back, after the length was written. -/
theorem test_send_verify :
    (after (bench [(0, 1), (2, 4)] (some 1) nine [] (atTx 7 (.force [4]))) 0x40000001).map
        (fun t => (t.statusWord, t.regValue 1 0x10, t.chip.txq, ntx t)) = some (0x2230, some 1, [], 8) := by decide +kernel

/-- F8. -/
theorem test_receive :
    (after (bench [(0, 1), (2, 6), (0x60, 8), (0x111, 5)] (some 1) [] [0xAA, 0xBB, 0xCC, 0xDD, 0xEE]) 0x41000000).map
        (fun t => (t.log, t.mem, t.resultWord, t.regValue 0 0x60)) =
      some ([rd 0x11 5, .burstRead 1 5 (some [0xAA, 0xBB, 0xCC, 0xDD, 0xEE]), rd 0 1, wr 0 0, rd 0 0, wr 0x60 0, rd 0x60 0],
        [(0x100, 0xAA), (0x101, 0xBB), (0x102, 0xCC), (0x103, 0xDD), (0x104, 0xEE)], 5, some 0) := by decide +kernel

/-- F9: length 0, no burst, the clear still runs. -/
theorem test_receive_none :
    (after (bench [(0, 1), (2, 6), (0x60, 8), (0x111, 0)] (some 1)) 0x41000000).map
        (fun t => (t.mem, t.resultWord, t.regValue 0 0x60, ntx t)) = some ([], 0, some 0, 6) := by decide +kernel

/-- The PLHD windows of X7, the system-control register 0, the IRQ-status register `st`, MODECTL `md`. -/
def windows (md st : Byte) : Memory :=
  [(0, 0), (2, md), (0x60, st), (0x6C, 0x1A), (0x6D, 0x1B), (0x6E, 0x1C), (0x6F, 0x1D), (0x70, 0x1E), (0x71, 0x1F),
    (0x111, 5), (0x276, 0x10), (0x277, 0x11), (0x278, 0x12), (0x279, 0x13), (0x27A, 0x14), (0x27B, 0x15), (0x27C, 0x16),
    (0x27D, 0x17), (0x27E, 0x18), (0x27F, 0x19)]

/-- F11: the byte map of X7. -/
theorem test_recv_plhd16 :
    (after (bench (windows 6 0x10) none) 0x42000001).map (fun t => (t.mem.map Prod.snd, t.resultWord, t.pcache, ntx t)) =
      some ([0x10, 0x11, 0x12, 0x13, 0x14, 0x15, 0x16, 0x17, 0x18, 0x19, 0x1A, 0x1B, 0x1C, 0x1D, 0x1E, 0x1F], 16, some 0,
        24) := by decide +kernel

/-- F12. -/
theorem test_recv_plhd8 :
    (after (bench (windows 6 0x10) none) 0x42000000).map (fun t => (t.mem.map Prod.snd, t.resultWord, ntx t)) =
      some ([0x10, 0x11, 0x12, 0x13, 0x14, 0x15, 0x16, 0x17], 8, 16) := by decide +kernel

/-- F14. -/
theorem test_clr_irq :
    (after { bench [(0, 0), (0x60, 1)] (some 0) with irqPend := true } 0x43000000).map
        (fun t => (t.log, t.regValue 0 0x60, t.irqPend)) = some ([wr 0x60 0, rd 0x60 0], some 0, true) := by decide +kernel

/-- The bench of 95 section 2.5: the IRQ line stands as the status byte says. -/
def irqBench (st : Byte) (answers : List Answer := []) : State :=
  let s := bench (windows 6 st) (some 0) [] [0xAA, 0xBB, 0xCC, 0xDD, 0xEE] answers
  { s with
    irqPrev := st &&& 0x1F != 0
    chip := { s.chip with irqLine := st &&& 0x1F != 0 } }

/-- What the rows of 95 section 2.5 give: RESULT, EVENT, FLAGS, RSSI and SNR; then the IRQ status, MODECTL and ntx. -/
def words (o : Option State) : Option (List Word) := o.map fun t => [t.resultWord, t.eventWord, t.flagsWord, t.rssi, t.snr]
def chipAfter (o : Option State) : Option (Option Byte × Option Byte × Nat) :=
  o.map fun t => (t.regValue 0 0x60, t.regValue 0 2, ntx t)

/-- 95 section 2.5, s = 0x10 and s = 0x0C. -/
theorem test_dispatch_payload :
    words (after (irqBench 0x10) 0x50000000) = some [0x10, 0x1001, 5, 0, 0]
      ∧ chipAfter (after (irqBench 0x10) 0x50000000) = some (some 0, some 4, 28)
      ∧ words (after (irqBench 0x0C) 0x50000000) = some [0x0C, 0x502, 2, 0xC2E40000, 0x40A00000]
      ∧ chipAfter (after (irqBench 0x0C) 0x50000000) = some (some 0, some 6, 11) := by decide +kernel

def accesses (o : Option State) : Option (List BusEvent) := o.map fun t => t.log.filter (BusEvent.isAccess t.params)

/-- 44 R183: the metric registers, then the received length, then the burst, then the clear. -/
theorem test_metrics_before_the_frame :
    accesses (after { irqBench 0x0C with params := { Params.ref with lmReads := [⟨2, 0x7F⟩, ⟨0, 0x6C⟩] } } 0x50000000) =
      some [rd 0x60 0x0C, rd 0x7F 0x19, rd 0x6C 0x1A, rd 0x11 5,
        .burstRead 1 5 (some [0xAA, 0xBB, 0xCC, 0xDD, 0xEE]), wr 0x60 0, rd 0x60 0] := by decide +kernel

/-- 95 section 2.5: s = 0x04, 0x03, 0x21, 0x20. -/
theorem test_dispatch_no_payload :
    words (after (irqBench 0x04) 0x50000000) = some [4, 3, 4, 0, 0]
      ∧ words (after (irqBench 0x03) 0x50000000) = some [3, 4, 3, 0, 0]
      ∧ words (after (irqBench 0x21) 0x50000000) = some [0x21, 5, 0x10, 0, 0]
      ∧ words (after (irqBench 0x20) 0x50000000) = some [0x20, 0, 0, 0, 0]
      ∧ chipAfter (after (irqBench 0x21) 0x50000000) = some (some 0, some 6, 3)
      ∧ chipAfter (after (irqBench 0x20) 0x50000000) = some (some 0x20, some 6, 1) := by decide +kernel

/-- 95 section 2.5, the error paths: the clear does not read back, and the line stays active without an edge; the mode reset
does not read back. -/
theorem test_dispatch_errors :
    (after { irqBench 0x01 (atTx 2 (.force [1])) with rxFlag := .rxDone, txFlag := .txDone } 0x50000000).map
        (fun t => ([t.statusWord, t.resultWord, t.eventWord, t.flagsWord], t.regValue 0 0x60, t.chip.irqLine)) =
        some ([0x20, 0, 0, 0x12], some 1, true)
      ∧ (after (irqBench 0x10 (atTx 27 (.force [6]))) 0x50000000).map
        (fun t => (t.statusWord, t.eventWord, t.pcache, t.mem.length)) = some (0x2130, 0, none, 16) := by decide +kernel

/-- 95 section 2.5, flags. -/
theorem test_set_flags :
    (after { bench [] none with rxFlag := .rxDone, txFlag := .txDone } 0x51000000).map State.flagsWord = some 0x10
      ∧ (after { bench [] none with rxFlag := .rxDone, txFlag := .txDone } 0x52000000).map State.flagsWord = some 0x02
      ∧ (after (bench [] none) 0x52000005).map State.flagsWord = some 0x50 := by decide +kernel

/-- 95 section 2.5: NOP clears the error of the command before it; an illegal word sets its own. -/
theorem test_nop :
    (after { bench [] none with err := .busError } 0x00000000).map State.statusWord = some 0
      ∧ (after (bench [] none) 0x00000001).map (fun t => (t.statusWord, t.cmd)) = some (0x40, 1) := by decide +kernel

/-- 95 section 2.6, last paragraph: a CMD write while BUSY = 1 changes nothing and sets OVR. -/
theorem test_busy_write :
    (after { bench [] none with busy := true } 0x51000005).map (fun t => (t.statusWord, t.cmd, t.flagsWord)) = some (5, 0, 0) := by
  decide +kernel

/-! ## Witnesses: for every obligation with hypotheses, states and operands that meet them -/

/-- What `State.OnBench` asks, as a check. -/
def benchOk (s : State) : Bool :=
  s.params.wf && s.chip.oracle && s.chip.answers.isEmpty && s.during.isEmpty && s.chipPage.isSome
    && (s.pcache == none || s.pcache == s.chipPage)

theorem onBench_of {s : State} (h : benchOk s = true) : s.OnBench := by
  simp only [benchOk, Bool.and_eq_true, Bool.or_eq_true, beq_iff_eq, List.isEmpty_iff, Option.isSome_iff_ne_none] at h
  obtain ⟨⟨⟨⟨⟨hp, ho⟩, ha⟩, hd⟩, hc⟩, hq⟩ := h
  refine ⟨hp, ⟨ho, ha⟩, hd, hc, fun p hp => ?_⟩
  rcases hq with hq | hq
  · rw [hq] at hp; cases hp
  · rw [← hq]; exact hp

/-- A block whose next transactions get these answers; nothing else is known of the chip. -/
def scripted (pc : Option Page) (answers : List (List Byte)) : State :=
  { State.resetWith Params.ref with
    chip := ⟨false, [], [], [], false, answers.map .force⟩
    pcache := pc }

/-- The same, the chip's system-control register holding `sys`. -/
def onPage (sys : Byte) (pc : Option Page) (answers : List (List Byte)) : State :=
  { scripted pc answers with chip := ⟨false, [(0, sys)], [], [], false, answers.map .force⟩ }

theorem onPage_coherent (answers : List (List Byte)) : (onPage 0 (some 0) answers).pageCoherent := by
  rintro p ⟨⟩
  rfl

theorem scripted_coherent (answers : List (List Byte)) : (scripted none answers).pageCoherent := nofun

/-- The bench of most witnesses: Rx, page 0, a frame of five bytes and a PLHD waiting, IRQ status `st`. -/
def waiting (st : Byte) : State := bench (windows 6 st) (some 0) nine [0xAA, 0xBB, 0xCC, 0xDD, 0xEE]

theorem waiting_onBench : ∀ st : Byte, (waiting st).OnBench := fun st => onBench_of (by
  revert st; decide +kernel)

/-! ### One step off the test double -/

/-- 20_memory.md R59, D12: a FIFO read consumes, the test double or not; 43_frame_fifo.md R163: after the clear no event bit
is set, off the test double too; 00_scope.md R12: the chip drains its transmit FIFO. -/
theorem test_fifo_read_consumes :
    (after { scripted (some 0) [[7]] with chip := ⟨false, [], [], [9, 8], false, [.force [7]]⟩ } 0x20000100).map
        (fun t => (t.resultWord, t.chip.rxq)) = some (7, [8])
      ∧ (after { scripted none [] with chip := ⟨false, [], [], [9, 8, 7], false, [.force [1, 2]]⟩ } 0x23010002).map
        (fun t => (t.mem, t.chip.rxq)) = some ([(0x100, 1), (0x101, 2)], [7]) := by decide +kernel

theorem test_clear_off_the_double :
    (after { scripted (some 0) [] with
        chip := ⟨false, [(0, 0), (0x60, 0xFF)], [], [], true, [.force [], .force [0]]⟩ } 0x43000000).map
      (fun t => (t.regValue 0 0x60, t.chip.irqLine, t.statusWord)) = some (some 0, false, 0) := by decide +kernel

/-- 70_reset_and_hazards.md R250: a clear that does not read back leaves the line active, so its level is no new edge. -/
theorem test_failed_clear_keeps_the_line :
    (after { scripted (some 0) [] with
        irqPrev := true, irqPend := true, during := [[], [], [], [.irqLine true]]
        chip := ⟨false, [(0, 0), (0x60, 1)], [], [], true, [.force [1], .force [], .force [1]]⟩ } 0x50000000).map
      (fun t => (t.statusWord, t.chip.irqLine, t.irqPrev)) = some (0x20, true, true) := by decide +kernel

/-- 20_memory.md R57: a transaction carries the offset alone. The burst at SYSCTL_ADDR moves the chip to page 0 behind the
cached page 1; then a write of (1, 0x02) reaches the mode-control register, and Tx from DeepSleep is no legal transition. -/
theorem test_stale_page_is_monitored :
    ((after { bench [(0, 1), (2, 0)] (some 1) [(0, 0)] with chipMode := some .deepSleep } 0x22000001).bind
        fun t => after { t with chipMode := some .deepSleep } 0x21010205).map
      (fun t => (t.chipMode, t.faults.illegalTransition, t.regValue 0 2, t.pcache)) =
      some (some .tx, true, some 5, some 1) := by decide +kernel

/-- 95_test_vectors.md P2: the chip returns to Standby3 by itself and MODECTL shows it; 60_exceptions.md R221: only a block
command wakes a chip in Sleep; 10_state.md R38, R44: after its own power cycle the MODE field holds the code of
CHIP_POR_MODE. -/
theorem test_chip_takes_a_mode :
    ((bench [(0, 0), (2, 0x15)] (some 0)).arrive (.completion .standby3)).regValue 0 2 = some 0x14
      ∧ ((bench [(0, 0), (2, 0x15)] (some 0)).arrive (.completion .standby3)).chipMode = some .standby3
      ∧ (bench [(0, 0), (2, 1)] (some 0)).arrive (.completion .rx) = bench [(0, 0), (2, 1)] (some 0)
      ∧ ∃ b, (bench [(0, 0), (2, 0x15)] (some 0)).chipPowered.regValue 0 2 = some b ∧ b &&& 7 = 0 := by
  have h : ∀ b : Byte, setFieldValue Params.ref .mode b 0 &&& 7 = 0 := by decide +kernel
  exact ⟨by decide +kernel, by decide +kernel, by decide +kernel, _, rfl, h _⟩

/-- 93 I26: a transaction that never ends leaves BUSY = 1; log 11: it records no output. -/
theorem test_hang : (after (bench [(0, 0)] (some 0) [] [] [.hang]) 0x20000100).map
    (fun t => (t.statusWord, t.log, t.seq, t.result)) = some (1, [], some 1, 0) := by decide +kernel

theorem test_chip_drains : (({ waiting 8 with chip := ⟨false, [], [1, 2, 3], [], false, []⟩ }).arrive (.chipTx 2)).chip.txq = [3]
    := rfl

/-! ### Encoding and the machine as a whole -/

theorem witness_DecodeOfEncode : ∀ i ∈ [Instr.crcCcitt .rbuf 255 1, .crcIbm .tbuf 1 255, .regRead 3 0xFF, .regWrite 3 0 0xFF,
    .fifoWrite 1 255 1, .fifoRead 0 0 255, .setMode .rx, .setTxsub .continuous, .setRxsub .continuous, .send 255, .send 1,
    .recvPlhd .sixteen, .setRxflag .plhdRxDone, .setTxflag .plhdRxDone], i.wf Params.ref = true := by decide

theorem witness_EncodeOfDecode : decode Params.ref 0x400000FF = .ok (.send 255) := by decide

/-- The host writes a word to CMD next. -/
def handed (s : State) (w : Word) : State := { s with inputs := [.hostWrite (cmdAddr s.params) 4 w] }

/-- A stalled first transaction of every command that has one, and a stalled later one; a block left stalled. -/
theorem witness_StepAnswersNext :
    (∀ i ∈ [Instr.regRead 0 1, .regWrite 0 2 3, .fifoWrite 1 0 9, .fifoRead 1 0 1, .wakeDeep, .wakeSleep, .sleep, .deepSleep,
        .setMode .tx, .getMode, .setTxsub .single, .setRxsub .single, .send 9, .receive, .recvPlhd .eight, .clrIrq, .dispatch],
      ∃ s : State, s.quiet ∧ s.chip.answers = .hang :: [] ∧ ¬ i.isLocal ∧ ∀ k, k < 9 → s.mem.read k ≠ none)
    ∧ (∃ s t : State, s.quiet ∧ exec .getMode s = .next t ∧ t.busy = true)
    ∧ ∃ s : State, s.busy = true ∧ ¬ s.releasing ∧ s.inputs ≠ [] := by
  refine ⟨fun i hi => ⟨bench [] none nine [] [.hang], rfl, rfl, ?_, by decide⟩,
    ⟨{ bench [(0, 0)] none with chip := ⟨false, [], [], [], false, [.force [0], .hang]⟩ }, _, rfl, rfl, by decide +kernel⟩,
    ⟨{ waiting 8 with busy := true, inputs := [.chipPower] }, rfl, ?_, nofun⟩⟩
  · fin_cases hi <;> simp [Instr.isLocal]
  · rintro ⟨_, _, h⟩
    cases h

theorem witness_StepRunsCommand : ∃ (s : State) (w : Word) (rest : List Input) (i : Instr),
    s.inputs = .hostWrite (cmdAddr s.params) 4 w :: rest ∧ s.busy = false ∧ s.inReset = false ∧ decode s.params w = .ok i :=
  ⟨handed (waiting 8) 0x50000000, 0x50000000, [], .dispatch, rfl, rfl, rfl, by decide⟩

theorem witness_IllegalWordSetsErrOnly : ∃ (s : State) (w : Word) (rest : List Input) (why : Illegal),
    s.inputs = .hostWrite (cmdAddr s.params) 4 w :: rest ∧ s.busy = false ∧ s.inReset = false
      ∧ decode s.params w = .illegal why ∧ s.quiet :=
  ⟨handed (waiting 8) 0x40000000, 0x40000000, [], .badOperand, rfl, rfl, rfl, by decide, rfl⟩

/-- The same word with a CMD write arriving before BUSY clears (the second clause; log 21). -/
theorem test_illegal_boundary :
    (after { bench [] none with during := [[cmdInput Params.ref 0]] } 0x40000000).map (fun t => (t.statusWord, t.cmd)) =
      some (0x44, 0x40000000) := by decide +kernel

theorem witness_ResetValues : ∃ (s : State) (told : Bool) (rest : List Input),
    s.inputs = .resetRelease told :: rest ∧ s.inReset = true ∧ s.result ≠ 0 :=
  ⟨{ waiting 8 with inputs := [.resetRelease true], inReset := true, result := 5 }, true, [], rfl, rfl, by decide⟩

theorem witness_ResetHoldsTheBlock :
    (∃ (s : State) (addr width : Nat) (v : Word), s.inReset = true ∧ s.inputs = [.hostWrite addr width v])
      ∧ (∃ (s : State) (addr width : Nat), s.inReset = true ∧ s.inputs = [.hostRead addr width])
      ∧ (∃ (i : Instr) (s t : State) (later : List (List Input)),
        s.during = [.resetAssert] :: later ∧ exec i s = .next t)
      ∧ ∃ (i : Instr) (s t u : State) (k : Nat) (later : List (List Input)) (evs : List BusEvent),
        s.during = List.replicate k [] ++ [.resetAssert] :: later ∧ exec i s = .next t
        ∧ exec i { s with during := [] } = .next u ∧ u.log = s.log ++ evs ∧ k = 1 ∧ evs.length = 2 :=
  ⟨⟨{ waiting 8 with inReset := true, inputs := [.hostWrite 0x200 4 0] }, 0x200, 4, 0, rfl, rfl⟩,
    ⟨{ waiting 8 with inReset := true, inputs := [.hostRead 0x204 4] }, 0x204, 4, rfl, rfl⟩,
    ⟨.clrIrq, { waiting 8 with during := [[.resetAssert]] }, _, [], rfl, rfl⟩,
    ⟨.clrIrq, { waiting 8 with during := [[], [.resetAssert]] }, _, _, 1, [], [wr 0x60 0, rd 0x60 0], rfl, rfl, rfl,
      by decide +kernel, rfl, rfl⟩⟩

theorem witness_StepKeepsInv : ∃ s t : State, s.Inv ∧ step s = .next t ∧ t.err = .modeError :=
  ⟨handed (bench [(0, 0), (2, 0)] (some 0) [(0x1FF, 7)]) 0x32000000, _,
    ⟨by decide, by decide, by
        intro a h
        by_contra hn
        exact h (if_neg (show ¬ 0x1FF = a by omega)), by decide, by decide, by decide, by decide⟩, rfl, by decide +kernel⟩

theorem witness_StepKeepsPageCoherence : ∃ s t : State, s.params.wf = true ∧ (s.busy = false → s.pageCoherent)
    ∧ (∀ x ∈ s.inputs ++ s.during.flatten, x ≠ .chipPower ∧ ∀ pg v, x ≠ .chipReg pg s.params.sysctlAddr v)
    ∧ (∀ addr width w rest i, s.inputs = .hostWrite addr width w :: rest → decode s.params w = .ok i →
      (∀ fa off len, i = .fifoWrite fa off len → fa = s.params.fifoAddr)
        ∧ ∀ fa off len, i = .fifoRead fa off len → fa = s.params.fifoAddr)
    ∧ step s = .next t ∧ t.busy = false ∧ t.pcache = some 1 :=
  ⟨handed (waiting 8) 0x20011000, _, by decide, fun _ => (waiting_onBench 8).coherent, by
      intro x hx
      cases List.mem_singleton.mp hx
      exact ⟨nofun, nofun⟩, by
      intro addr width w rest i h hd
      cases h
      cases hd.symm.trans (show decode Params.ref 0x20011000 = .ok (.regRead 1 0x10) by decide)
      exact ⟨nofun, nofun⟩, rfl, by decide +kernel, by decide +kernel⟩

theorem witness_StepKeepsSticky : ∃ s t : State, step s = .next t ∧ ¬ s.releasing ∧ s.ovr = true ∧ s.faults ≠ ⟨false, false, false⟩ :=
  ⟨{ handed (waiting 8) 0x50000000 with ovr := true, faults := ⟨true, true, true⟩ }, _, rfl, nofun, rfl, by decide⟩

/-! ### Frames -/

theorem witness_BlockFrame : ∃ (i : Instr) (s t : State), exec i s = .next t ∧ i.returnsValue = false ∧ i ≠ .dispatch
    ∧ (∀ f, i ≠ .setRxflag f) ∧ (∀ f, i ≠ .setTxflag f) ∧ i ≠ .wakeDeep ∧ i ≠ .wakeSleep ∧ i ≠ .sleep ∧ i ≠ .deepSleep
    ∧ s.irqPend = true ∧ s.ovr = true :=
  ⟨.send 10, { waiting 8 with irqPend := true, ovr := true }, _, rfl, rfl, nofun, nofun, nofun, nofun, nofun, nofun, nofun,
    rfl, rfl⟩

theorem receive_waiting : (commandResult (receiveCommand (waiting 8).beginCommand)).log = (waiting 8).log ++
    ([rd 0 0, wr 0 1, rd 0 1, rd 0x11 5, .burstRead 1 5 (some [0xAA, 0xBB, 0xCC, 0xDD, 0xEE]), rd 0 1, wr 0 0, rd 0 0,
      wr 0x60 0, rd 0x60 0]) := by decide +kernel

theorem witness_MemoryFrame :
    (∃ (i : Instr) (s t : State) (evs : List BusEvent), exec i s = .next t ∧ t.log = s.log ++ evs ∧ i.rbufRange = none)
      ∧ (∃ (i : Instr) (s t : State) (evs : List BusEvent), exec i s = .next t ∧ t.log = s.log ++ evs
        ∧ i.rbufRange = some (254, 2))
      ∧ (∃ (s t : State) (evs : List BusEvent), exec .receive s = .next t ∧ t.log = s.log ++ evs
        ∧ ∀ fa n got, .burstRead fa n got ∈ evs → ¬ (0x100 ≤ 0x105 ∧ 0x105 < 0x100 + n))
      ∧ ∃ (s t : State) (evs : List BusEvent), exec .dispatch s = .next t ∧ t.log = s.log ++ evs
        ∧ (∀ fa n got, .burstRead fa n got ∉ evs) ∧ ¬ 0x110 < 0x100 + plhdCount s.params.plhdLen :=
  ⟨⟨.nop, waiting 8, _, [], rfl, rfl, rfl⟩,
    ⟨.fifoRead 1 254 2, waiting 8, _, [.burstRead 1 2 (some [0xAA, 0xBB])], rfl, by decide +kernel, rfl⟩,
    ⟨waiting 8, _, _, rfl, receive_waiting, by
      intro fa n got h
      simp only [List.mem_cons, List.not_mem_nil, or_false, rd, wr, reduceCtorEq, false_or,
        BusEvent.burstRead.injEq] at h
      omega⟩,
    ⟨waiting 0x20, _, [rd 0x60 0x20], rfl, by decide +kernel, by simp [rd], by decide⟩⟩

/-- A state on the bench and one off it, for a command that writes a register and one that sends a burst; the register of the
second clause is another one of the page; the command of the third writes nothing at FIFO_ADDR, that of the fourth reads
nothing there. -/
theorem witness_ChipFrame :
    (∃ (i : Instr) (s t : State) (a : Byte), exec i s = .next t ∧ s.quiet ∧ s.params.wf = true
        ∧ (∀ a, i.burstWriteAt s.params = some a ∨ i.burstReadAt s.params = some a → a = s.params.fifoAddr)
        ∧ s.OnBench ∧ a ≠ s.params.sysctlAddr ∧ (⟨0, a⟩ : RegAt) ∉ i.writes s.params)
      ∧ (∃ (i : Instr) (s t : State) (a : Byte), exec i s = .next t ∧ s.quiet ∧ s.params.wf = true
        ∧ (∀ a, i.burstWriteAt s.params = some a ∨ i.burstReadAt s.params = some a → a = s.params.fifoAddr)
        ∧ a ≠ s.params.sysctlAddr ∧ (∀ r ∈ i.writes s.params, r.addr ≠ a)
        ∧ (a = s.params.irqReg.addr → ∀ r ∈ i.writes s.params, r.addr ≠ s.params.irqClr.addr))
      ∧ (∃ (i : Instr) (s t : State), exec i s = .next t ∧ s.quiet ∧ s.params.wf = true
        ∧ (∀ a, i.burstWriteAt s.params = some a ∨ i.burstReadAt s.params = some a → a = s.params.fifoAddr)
        ∧ i.burstWriteAt s.params = none ∧ ∀ r ∈ i.writes s.params, r.addr ≠ s.params.fifoAddr)
      ∧ ∃ (i : Instr) (s t : State), exec i s = .next t ∧ s.quiet ∧ s.params.wf = true
        ∧ (∀ a, i.burstWriteAt s.params = some a ∨ i.burstReadAt s.params = some a → a = s.params.fifoAddr)
        ∧ i.burstReadAt s.params = none ∧ ∀ r ∈ i.reads s.params ++ i.writes s.params, r.addr ≠ s.params.fifoAddr :=
  ⟨⟨.send 10, waiting 8, _, 0x60, rfl, rfl, by decide, (by rintro a (h | h) <;> cases h; rfl), waiting_onBench 8, by decide,
      by decide⟩,
    ⟨.setMode .tx, scripted (some 0) [[4], [], [5]], _, 0x60, rfl, rfl, by decide, (by rintro a (h | h) <;> cases h), by decide,
      by decide, fun _ => by decide⟩,
    ⟨.dispatch, waiting 8, _, rfl, rfl, by decide, (by rintro a (h | h) <;> cases h; rfl), rfl, by decide⟩,
    ⟨.send 10, waiting 8, _, rfl, rfl, by decide, (by rintro a (h | h) <;> cases h; rfl), rfl, by decide⟩⟩

theorem witness_NopOnlyEndsOk : ∃ s : State, s.quiet ∧ s.err = .busError := ⟨{ waiting 8 with err := .busError }, rfl, rfl⟩

theorem witness_SetFlags : ∃ s : State, s.quiet ∧ s.rxFlag = .rxDone := ⟨{ waiting 8 with rxFlag := .rxDone }, rfl, rfl⟩

theorem witness_PageSyncForgets : ∃ s : State, s.quiet ∧ s.pcache = some 0 := ⟨waiting 8, rfl, rfl⟩

/-- The bit-by-bit table of 95 X2, CCITT. -/
def x2Ccitt (n : Nat) : Half := [0x1D0F, 0x3A1E, 0x743C, 0xE878, 0xC0D1, 0x9183, 0x3327, 0x664E, 0xDCBD].getD n 0

/-- The bit-by-bit table of 95 X2, IBM. -/
def x2Ibm (n : Nat) : Half := [0xFFFF, 0x7FFB, 0xFFF6, 0x7FE9, 0xFFD2, 0x7FA1, 0xFF42, 0x7E81, 0x7D07].getD n 0

theorem witness_CrcCcittResult : ∃ (s : State) (buf : Buf) (off len : Byte) (d : List Byte) (c : Nat → Half),
    s.quiet ∧ d.length = len.toNat ∧ (∀ k (h : k < d.length), s.mem.read (bufBase buf + off.toNat + k) = some d[k])
    ∧ c 0 = 0x1D0F ∧ c (8 * len.toNat) = 0xDCBD
    ∧ ∀ k (h : k < d.length) i, i < 8 →
      c (8 * k + i + 1) =
        if (c (8 * k + i)).getLsbD 15 != d[k].getLsbD (7 - i) then (c (8 * k + i) <<< 1) ^^^ 0x1021 else c (8 * k + i) <<< 1 :=
  ⟨waiting 8, .tbuf, 1, 1, [1], x2Ccitt, rfl, rfl, by decide, rfl, rfl, by decide⟩

theorem witness_CrcIbmResult : ∃ (s : State) (buf : Buf) (off len : Byte) (d : List Byte) (c : Nat → Half),
    s.quiet ∧ d.length = len.toNat ∧ (∀ k (h : k < d.length), s.mem.read (bufBase buf + off.toNat + k) = some d[k])
    ∧ c 0 = 0xFFFF ∧ c (8 * len.toNat) = 0x7D07
    ∧ ∀ k (h : k < d.length) i, i < 8 →
      c (8 * k + i + 1) =
        if (c (8 * k + i)).getLsbD 15 != d[k].getLsbD (7 - i) then (c (8 * k + i) <<< 1) ^^^ 0x8005 else c (8 * k + i) <<< 1 :=
  ⟨waiting 8, .tbuf, 1, 1, [1], x2Ibm, rfl, rfl, by decide, rfl, rfl, by decide⟩

/-- The last byte of the range alone is unwritten, for each of the three shapes. -/
theorem witness_UnwrittenByteEndsCommand : ∀ (i : Instr) (base n : Nat),
    (i, base, n) ∈ [(Instr.crcCcitt .tbuf 5 6, 5, 6), (.crcIbm .rbuf 0 1, 0x100, 1), (.fifoWrite 1 9 2, 9, 2), (.send 11, 0, 11)] →
    ∃ s : State, s.quiet ∧ ((∃ buf off len, (i = .crcCcitt buf off len ∨ i = .crcIbm buf off len)
        ∧ base = bufBase buf + off.toNat ∧ n = len.toNat)
      ∨ (∃ fa off len, i = .fifoWrite fa off len ∧ base = off.toNat ∧ n = len.toNat)
      ∨ (∃ len, i = .send len ∧ base = 0 ∧ n = len.toNat)) ∧ ∃ k, k < n ∧ s.mem.read (base + k) = none := by
  intro i base n h
  refine ⟨waiting 8, rfl, ?_⟩
  fin_cases h
  · exact ⟨.inl ⟨.tbuf, 5, 6, .inl rfl, rfl, rfl⟩, 5, by decide, by decide⟩
  · exact ⟨.inl ⟨.rbuf, 0, 1, .inr rfl, rfl, rfl⟩, 0, by decide, by decide⟩
  · exact ⟨.inr (.inl ⟨1, 9, 2, rfl, rfl, rfl⟩), 1, by decide, by decide⟩
  · exact ⟨.inr (.inr ⟨11, rfl, rfl, rfl⟩), 10, by decide, by decide⟩

/-! ### The register bus -/

theorem witness_RegReadReturns :
    (∃ (s : State) (pg : Page) (x : Byte), s.quiet ∧ s.cached pg ∧ s.willAnswer [[x]] ∧ s.chip.rxq ≠ [])
      ∧ ∃ (s : State) (pg : Page) (v x : Byte), s.quiet ∧ ¬ s.cached pg
        ∧ s.willAnswer [[v], [], [setPageField s.params v pg], [x]] :=
  ⟨⟨{ scripted (some 3) [[7]] with chip := ⟨false, [], [], [1], false, [.force [7]]⟩ }, 3, 7, rfl, ⟨rfl, rfl⟩, ⟨[], rfl⟩, nofun⟩,
    ⟨scripted (some 0) [[0xA4], [], [0xA7], [7]], 3, 0xA4, 7, rfl, fun h => absurd h.2 (by decide), [], by decide⟩⟩

theorem witness_SwitchVerifyFails : ∃ (s : State) (pg : Page) (v r : Byte), s.quiet ∧ ¬ s.cached pg
    ∧ r ≠ setPageField s.params v pg ∧ s.willAnswer [[v], [], [r]] :=
  ⟨scripted none [[0xA4], [], [0xA4]], 1, 0xA4, 0xA4, rfl, fun h => absurd h.2 nofun, by decide, [], rfl⟩

theorem witness_RegWriteVerifies :
    (∃ (s : State) (pg : Page) (g : Byte), s.quiet ∧ s.cached pg ∧ s.willAnswer [[], [g]])
      ∧ ∃ (s : State) (pg : Page) (g v0 : Byte), s.quiet ∧ ¬ s.cached pg
        ∧ s.willAnswer [[v0], [], [setPageField s.params v0 pg], [], [g]] :=
  ⟨⟨scripted (some 3) [[], [7]], 3, 7, rfl, ⟨rfl, rfl⟩, [], rfl⟩,
    ⟨scripted none [[0xA4], [], [0xA5], [], [7]], 1, 7, 0xA4, rfl, fun h => absurd h.2 nofun, [], by decide⟩⟩

/-- A chip on the mode-control register's page, on another page behind a stale cache, and on a page that is not known; a
completion into every mode, of which some are in POST_EVENT_MODES and some are not, from a mode not known, from Rx and from
Sleep. -/
theorem witness_ChipModeMonitor :
    (∀ c ∈ [some (0 : Page), some 1, none], ∃ (s : State) (pg : Page) (g : Byte), s.params.wf = true ∧ s.quiet ∧ s.cached pg
        ∧ s.willAnswer [[], [g]] ∧ s.chipPage = c)
      ∧ (∀ c ∈ [some (0 : Page), some 1, none], ∃ (s : State) (pg : Page) (x : Byte), s.params.wf = true ∧ s.quiet
        ∧ s.cached pg ∧ s.willAnswer [[x]] ∧ s.chipPage = c)
      ∧ (∀ pg ∈ [(0 : Page), 1], ∃ (s : State) (v x : Byte), s.params.wf = true ∧ s.quiet ∧ ¬ s.cached pg
        ∧ s.willAnswer [[v], [], [setPageField s.params v pg], [x]])
      ∧ (∀ m : Mode, (∃ s : State, s.inputs = [.completion m] ∧ (m ∈ s.params.postEventModes ↔ m ∈ [.standby3, .tx, .rx])
          ∧ s.regValue s.params.modectlPage s.params.modectlAddr ≠ none)
        ∧ ∀ c ∈ [none, some .rx, some .sleep], (∃ s : State, s.inputs = [.completion m] ∧ s.knownMode = c)
          ∧ ∃ s : State, s.during = [[.completion m]] ∧ s.knownMode = c)
      ∧ (∀ told : Bool, ∃ s : State, s.inputs = [.resetRelease told] ∧ s.inReset = true)
      ∧ ∃ s : State, s.inputs = [.chipPower] := by
  refine ⟨fun c hc => ?_, fun c hc => ?_, fun pg hpg => ?_,
    fun m => ⟨⟨{ waiting 8 with inputs := [.completion m] }, rfl, by cases m <;> decide,
        by cases m <;> decide⟩, fun c hc => ?_⟩,
    fun told => ⟨{ waiting 8 with inputs := [.resetRelease told], inReset := true }, rfl, rfl⟩,
    ⟨{ waiting 8 with inputs := [.chipPower] }, rfl⟩⟩
  fin_cases hc
  · exact ⟨onPage 0 (some 0) [[], [4]], 0, 4, by decide, rfl, ⟨rfl, rfl⟩, ⟨[], rfl⟩, by decide⟩
  · exact ⟨onPage 1 (some 0) [[], [4]], 0, 4, by decide, rfl, ⟨rfl, rfl⟩, ⟨[], rfl⟩, by decide⟩
  · exact ⟨scripted (some 3) [[], [4]], 3, 4, by decide, rfl, ⟨rfl, rfl⟩, ⟨[], rfl⟩, by decide⟩
  fin_cases hc
  · exact ⟨onPage 0 (some 0) [[4]], 0, 4, by decide, rfl, ⟨rfl, rfl⟩, ⟨[], rfl⟩, by decide⟩
  · exact ⟨onPage 1 (some 0) [[4]], 0, 4, by decide, rfl, ⟨rfl, rfl⟩, ⟨[], rfl⟩, by decide⟩
  · exact ⟨scripted (some 3) [[4]], 3, 4, by decide, rfl, ⟨rfl, rfl⟩, ⟨[], rfl⟩, by decide⟩
  fin_cases hpg
  · exact ⟨scripted none [[0xA4], [], [0xA4], [4]], 0xA4, 4, by decide, rfl, fun h => absurd h.2 nofun, [], by decide⟩
  · exact ⟨scripted none [[0xA4], [], [0xA5], [4]], 0xA4, 4, by decide, rfl, fun h => absurd h.2 nofun, [], by decide⟩
  fin_cases hc
  · exact ⟨⟨{ scripted none [] with inputs := [.completion m] }, rfl, by cases m <;> decide⟩,
      ⟨{ scripted none [] with during := [[.completion m]] }, rfl, by cases m <;> decide⟩⟩
  · exact ⟨⟨{ waiting 8 with inputs := [.completion m] }, rfl, by cases m <;> decide⟩,
      ⟨{ waiting 8 with during := [[.completion m]] }, rfl, by cases m <;> decide⟩⟩
  · exact ⟨⟨{ bench [(0, 0), (2, 1)] none with inputs := [.completion m] }, rfl, by cases m <;> decide⟩,
      ⟨{ bench [(0, 0), (2, 1)] none with during := [[.completion m]] }, rfl, by cases m <;> decide⟩⟩

theorem witness_FieldUpdatesKeepOtherBits : Params.ref.wf = true
    ∧ { Params.ref with modePos := 5, txsubPos := 0, rxsubPos := 1, pageShift := 6 }.wf = true := by decide

/-- A fault in a register access, and one in a mode sequence. -/
theorem witness_BusFaultIsLast :
    (∃ (i : Instr) (s t : State) (evs : List BusEvent), exec i s = .next t ∧ t.log = s.log ++ evs
        ∧ (∃ e ∈ evs, e.isFault = true) ∧ t.busy = false ∧ t.err = .busError)
      ∧ ∃ (i : Instr) (s t : State) (evs : List BusEvent), exec i s = .next t ∧ t.log = s.log ++ evs
        ∧ (∃ e ∈ evs, e.isFault = true) ∧ t.err = .modeError ∧ t.cause = .bus :=
  ⟨⟨.regRead 0 5, { scripted (some 0) [] with chip := ⟨false, [], [], [], false, [.fault]⟩ }, _, [.read 5 none], rfl,
      by decide +kernel, ⟨_, List.mem_singleton_self _, rfl⟩, by decide +kernel, by decide +kernel⟩,
    ⟨.setMode .tx, { scripted (some 0) [] with chip := ⟨false, [], [], [], false, [.fault]⟩ }, _, [.read 2 none], rfl,
      by decide +kernel, ⟨_, List.mem_singleton_self _, rfl⟩, by decide +kernel, by decide +kernel⟩⟩

/-- Commands of the three groups, and mode errors of the sequences at their first and last steps. -/
theorem witness_ErrorsByCommand :
    (Instr.isLocal .nop ∧ Instr.isSequence .wakeDeep ∧ Instr.isSequence (.setMode .rx))
      ∧ (∃ s t : State, exec .wakeDeep s = .next t ∧ t.err = .modeError ∧ t.stepIx = 1)
      ∧ (∃ s t : State, exec .sleep s = .next t ∧ t.err = .modeError ∧ t.stepIx = 4)
      ∧ (∃ s t : State, exec .deepSleep s = .next t ∧ t.err = .modeError ∧ t.cause = .wrongMode)
      ∧ ∃ s t : State, exec (.send 1) s = .next t ∧ t.err = .modeError ∧ t.stepIx = 2 :=
  ⟨⟨.inl rfl, .inl rfl, .inr (.inr (.inr (.inr ⟨.rx, rfl⟩)))⟩,
    ⟨bench [(0, 0), (2, 0)] none [] [] [.fault], _, rfl, by decide +kernel, by decide +kernel⟩,
    ⟨bench [(0, 0), (2, 4)] (some 0) [] [] (atTx 9 (.force [2])), _, rfl, by decide +kernel, by decide +kernel⟩,
    ⟨bench [(0, 0), (2, 0)] (some 0), _, rfl, by decide +kernel, by decide +kernel⟩,
    ⟨bench [(0, 1), (2, 4)] (some 1) nine [] (atTx 7 (.force [4])), _, rfl, by decide +kernel, by decide +kernel⟩⟩

theorem witness_FifoWriteBursts :
    (∃ (s : State) (off len : Byte) (d : List Byte), s.quiet ∧ d.length = len.toNat
        ∧ (∀ k (h : k < d.length), s.mem.read (off.toNat + k) = some d[k]) ∧ len = 0)
      ∧ ∃ (s : State) (off len : Byte) (d : List Byte), s.quiet ∧ d.length = len.toNat
        ∧ (∀ k (h : k < d.length), s.mem.read (off.toNat + k) = some d[k]) ∧ len ≠ 0 ∧ s.willAnswer [[]] :=
  ⟨⟨waiting 8, 0xFF, 0, [], rfl, rfl, nofun, rfl⟩,
    ⟨{ scripted none [[]] with mem := [(0xFE, 1), (0xFF, 2)] }, 0xFE, 2, [1, 2], rfl, rfl, by decide, by decide, [], rfl⟩⟩

theorem witness_FifoReadFillsRbuf :
    (∃ (s : State) (len : Byte) (bs : List Byte), s.quiet ∧ bs.length = len.toNat ∧ len = 0)
      ∧ ∃ (s : State) (len : Byte) (bs : List Byte), s.quiet ∧ bs.length = len.toNat ∧ len ≠ 0 ∧ s.willAnswer [bs] :=
  ⟨⟨waiting 8, 0, [], rfl, rfl, rfl⟩, ⟨scripted none [[1, 2]], 2, [1, 2], rfl, rfl, by decide, [], rfl⟩⟩

theorem witness_FifoReadFault : ∃ (s : State) (len : Byte) (rest : List Answer),
    s.quiet ∧ len ≠ 0 ∧ s.chip.answers = .fault :: rest :=
  ⟨bench [(0, 0)] none [] [] [.fault], 255, [], rfl, by decide, rfl⟩

theorem witness_RegRoundTrip :
    (∃ (s : State) (a : Byte), s.OnBench ∧ a ≠ s.params.fifoAddr ∧ a ≠ s.params.sysctlAddr)
      ∧ (∃ (s : State) (pg : Page) (a v : Byte), s.OnBench ∧ a ≠ s.params.fifoAddr ∧ a = s.params.sysctlAddr
        ∧ pageField s.params v = pg)
      ∧ ∃ (s : State) (pg : Page) (a v : Byte), s.OnBench ∧ a ≠ s.params.fifoAddr ∧ a = s.params.sysctlAddr
        ∧ pageField s.params v ≠ pg :=
  ⟨⟨waiting 8, 0xFF, waiting_onBench 8, by decide, by decide⟩,
    ⟨waiting 8, 3, 0, 0xFF, waiting_onBench 8, by decide, rfl, by decide⟩,
    ⟨waiting 8, 0, 0, 1, waiting_onBench 8, by decide, rfl, by decide⟩⟩

/-! ### The mode sequencer -/

theorem witness_LegalTransitions :
    (∃ s : State, s.modeAccess 2 = true ∧ legal s.chipMode (some .tx) = false)
      ∧ ∃ (s : State) (m : Mode) (v g : Byte), s.params.wf = true ∧ s.pageCoherent ∧ s.quiet ∧ s.cached s.params.modectlPage
        ∧ s.willAnswer [[v], [], [g]] ∧ legal (decodeMode s.params v) (some m) = false :=
  ⟨⟨onPage 0 (some 0) [], by decide, by decide⟩,
    ⟨onPage 0 (some 0) [[0], [], [5]], .tx, 0, 5, by decide, onPage_coherent _, rfl, ⟨rfl, rfl⟩, ⟨[], rfl⟩, by decide⟩⟩

theorem witness_WakeCompletes : ∃ (s : State) (v : Byte), s.OnBench
    ∧ s.regValue s.params.modectlPage s.params.modectlAddr = some v := ⟨waiting 8, 6, waiting_onBench 8, by decide⟩

theorem witness_SleepCompletes :
    (∃ (s : State) (v : Byte), s.OnBench ∧ s.regValue s.params.modectlPage s.params.modectlAddr = some v
        ∧ decodeMode s.params v = some .standby3)
      ∧ ∃ (s : State) (v : Byte), s.OnBench ∧ s.regValue s.params.modectlPage s.params.modectlAddr = some v
        ∧ decodeMode s.params v ≠ some .standby3 ∧ s.params.sleepGuard = .unguarded :=
  ⟨⟨bench [(0, 0), (2, 4)] (some 0), 4, onBench_of (by decide +kernel), by decide, by decide⟩,
    ⟨{ waiting 8 with params := { Params.ref with sleepGuard := .unguarded } }, 6, onBench_of (by decide +kernel), by decide,
      by decide, rfl⟩⟩

/-- The switch of a page not cached: what `State.switchesTo` lists. -/
def swOut (v : Byte) : List BusEvent := [rd 0 v, wr 0 (setPageField Params.ref v 0), rd 0 (setPageField Params.ref v 0)]
def swAns (v : Byte) : List (List Byte) := [[v], [], [setPageField Params.ref v 0]]

/-- A block that caches no page. -/
def uncaching (s : State) : State := { s with params := { Params.ref with pageCacheEnable := false } }

theorem witness_SleepGuardRejects :
    (∃ (s : State) (v v0 : Byte), s.quiet ∧ s.params.sleepGuard = .reject ∧ s.switchesTo s.params.modectlPage v0 [] []
        ∧ s.willAnswer ([] ++ [[v]]) ∧ decodeMode s.params v ≠ some .standby3 ∧ s.params.wf = true ∧ s.pageCoherent)
      ∧ ∃ (s : State) (v v0 : Byte), s.quiet ∧ s.params.sleepGuard = .reject
        ∧ s.switchesTo s.params.modectlPage v0 (swAns v0) (swOut v0) ∧ s.willAnswer (swAns v0 ++ [[v]])
        ∧ decodeMode s.params v ≠ some .standby3 ∧ s.params.wf = true ∧ s.pageCoherent :=
  ⟨⟨onPage 0 (some 0) [[7]], 7, 0, rfl, rfl, .inl ⟨⟨rfl, rfl⟩, rfl, rfl⟩, ⟨[], rfl⟩, by decide, by decide, onPage_coherent _⟩,
    ⟨scripted none (swAns 0xA5 ++ [[7]]), 7, 0xA5, rfl, rfl, .inr ⟨(fun h => nomatch h.2), rfl, rfl⟩, ⟨[], rfl⟩, by decide,
      by decide, scripted_coherent _⟩⟩

theorem witness_SetModeWrites :
    (∃ (s : State) (m : Mode) (v g : Byte), s.params.wf = true ∧ s.pageCoherent ∧ s.quiet ∧ s.switchesTo s.params.modectlPage 0 [] []
        ∧ (s.setPage s.params.modectlPage).switchesTo s.params.modectlPage 0 [] []
        ∧ s.willAnswer ([] ++ [[v]] ++ [] ++ [[], [g]]) ∧ g ≠ setFieldValue s.params .mode v (modeCodeOf s.params m))
      ∧ (∃ (s : State) (m : Mode) (v g v0 : Byte), s.params.wf = true ∧ s.pageCoherent ∧ s.quiet
        ∧ s.switchesTo s.params.modectlPage v0 (swAns v0) (swOut v0)
        ∧ (s.setPage s.params.modectlPage).switchesTo s.params.modectlPage 0 [] []
        ∧ s.willAnswer (swAns v0 ++ [[v]] ++ [] ++ [[], [g]]) ∧ g = setFieldValue s.params .mode v (modeCodeOf s.params m))
      ∧ ∃ (s : State) (m : Mode) (v g v0 v1 : Byte), s.params.wf = true ∧ s.pageCoherent ∧ s.quiet
        ∧ s.switchesTo s.params.modectlPage v0 (swAns v0) (swOut v0)
        ∧ (s.setPage s.params.modectlPage).switchesTo s.params.modectlPage v1 (swAns v1) (swOut v1)
        ∧ s.willAnswer (swAns v0 ++ [[v]] ++ swAns v1 ++ [[], [g]])
        ∧ g = setFieldValue s.params .mode v (modeCodeOf s.params m) :=
  ⟨⟨onPage 0 (some 0) [[0xFC], [], [0xFC]], .rx, 0xFC, 0xFC, by decide, onPage_coherent _, rfl, .inl ⟨⟨rfl, rfl⟩, rfl, rfl⟩,
      .inl ⟨⟨rfl, rfl⟩, rfl, rfl⟩, ⟨[], rfl⟩, by decide⟩,
    ⟨scripted none (swAns 0xA5 ++ [[0xFC], [], [0xFE]]), .rx, 0xFC, 0xFE, 0xA5, by decide, scripted_coherent _, rfl,
      .inr ⟨(fun h => nomatch h.2), rfl, rfl⟩, .inl ⟨⟨rfl, rfl⟩, rfl, rfl⟩, ⟨[], rfl⟩, by decide⟩,
    ⟨uncaching (scripted none (swAns 0xA5 ++ [[0xFC]] ++ swAns 0xA4 ++ [[], [0xFE]])), .rx, 0xFC, 0xFE, 0xA5, 0xA4, by decide,
      scripted_coherent _, rfl, .inr ⟨(fun h => nomatch h.1), rfl, rfl⟩, .inr ⟨(fun h => nomatch h.1), rfl, rfl⟩, ⟨[], rfl⟩, by decide⟩⟩

/-- The page cached, the page cached over a chip whose page is not known, and no page cached. -/
theorem witness_SubModeWrites :
    (∃ (s : State) (v g : Byte), s.params.wf = true ∧ s.pageCoherent ∧ s.quiet ∧ s.switchesTo s.params.modectlPage 0 [] []
        ∧ (s.setPage s.params.modectlPage).switchesTo s.params.modectlPage 0 [] []
        ∧ s.willAnswer ([] ++ [[v]] ++ [] ++ [[], [g]])
        ∧ g = setFieldValue s.params .rxsub v (rxsubCodeOf s.params .continuous))
      ∧ (∃ (s : State) (v g : Byte), s.params.wf = true ∧ s.chipPage = none ∧ s.quiet
        ∧ s.switchesTo s.params.modectlPage 0 [] [] ∧ (s.setPage s.params.modectlPage).switchesTo s.params.modectlPage 0 [] []
        ∧ s.willAnswer ([] ++ [[v]] ++ [] ++ [[], [g]])
        ∧ g = setFieldValue s.params .txsub v (txsubCodeOf s.params .continuous))
      ∧ ∃ (s : State) (v g v0 v1 : Byte), s.params.wf = true ∧ s.pageCoherent ∧ s.quiet
        ∧ s.switchesTo s.params.modectlPage v0 (swAns v0) (swOut v0)
        ∧ (s.setPage s.params.modectlPage).switchesTo s.params.modectlPage v1 (swAns v1) (swOut v1)
        ∧ s.willAnswer (swAns v0 ++ [[v]] ++ swAns v1 ++ [[], [g]])
        ∧ g ≠ setFieldValue s.params .txsub v (txsubCodeOf s.params .single) :=
  ⟨⟨onPage 0 (some 0) [[0x3C], [], [0x2C]], 0x3C, 0x2C, by decide, onPage_coherent _, rfl, .inl ⟨⟨rfl, rfl⟩, rfl, rfl⟩,
      .inl ⟨⟨rfl, rfl⟩, rfl, rfl⟩, ⟨[], rfl⟩, by decide⟩,
    ⟨scripted (some 0) [[4], [], [0x0C]], 4, 0x0C, by decide, by decide, rfl, .inl ⟨⟨rfl, rfl⟩, rfl, rfl⟩,
      .inl ⟨⟨rfl, rfl⟩, rfl, rfl⟩, ⟨[], rfl⟩, by decide⟩,
    ⟨uncaching (scripted none (swAns 0xA5 ++ [[0x3C]] ++ swAns 0xA4 ++ [[], [0x3C]])), 0x3C, 0x3C, 0xA5, 0xA4, by decide,
      scripted_coherent _, rfl,
      .inr ⟨(fun h => nomatch h.1), rfl, rfl⟩, .inr ⟨(fun h => nomatch h.1), rfl, rfl⟩, ⟨[], rfl⟩, by decide⟩⟩

theorem witness_GetModeReturns :
    (∃ (s : State) (v : Byte), s.quiet ∧ s.switchesTo s.params.modectlPage 0 [] [] ∧ s.willAnswer ([] ++ [[v]])
        ∧ decodeMode s.params v = some .rx ∧ s.params.wf = true ∧ s.pageCoherent)
      ∧ ∃ (s : State) (v v0 : Byte), s.quiet ∧ s.switchesTo s.params.modectlPage v0 (swAns v0) (swOut v0)
        ∧ s.willAnswer (swAns v0 ++ [[v]]) ∧ decodeMode s.params v = none :=
  ⟨⟨onPage 0 (some 0) [[6]], 6, rfl, .inl ⟨⟨rfl, rfl⟩, rfl, rfl⟩, ⟨[], rfl⟩, by decide, by decide, onPage_coherent _⟩,
    ⟨scripted (some 1) (swAns 0xA5 ++ [[7]]), 7, 0xA5, rfl, .inr ⟨fun h => absurd h.2 (by decide), rfl, rfl⟩, ⟨[], rfl⟩,
      by decide⟩⟩

theorem witness_CapsAndDelays : ∃ (s t : State), exec .sleep s = .next t ∧ t.log ≠ s.log :=
  ⟨bench [(0, 0), (2, 4)] (some 0), _, rfl, by decide +kernel⟩

/-! ### The frame FIFO port -/

theorem witness_SendCompletes : ∃ (s : State) (len v : Byte) (d : List Byte), s.OnBench ∧ 1 ≤ len.toNat
    ∧ d.length = len.toNat ∧ (∀ k (h : k < d.length), s.mem.read k = some d[k])
    ∧ s.regValue s.params.modectlPage s.params.modectlAddr = some v :=
  ⟨waiting 8, 10, 6, [0, 1, 2, 3, 4, 5, 6, 7, 8, 9], waiting_onBench 8, by decide, rfl, by decide, by decide⟩

theorem witness_ReceiveCompletes :
    (∃ (s : State) (n : Byte) (bs more : List Byte), s.OnBench ∧ s.regValue s.params.rxlen.page s.params.rxlen.addr = some n
        ∧ s.chip.rxq = bs ++ more ∧ bs.length = n.toNat ∧ n ≠ 0)
      ∧ ∃ (s : State) (n : Byte) (bs more : List Byte), s.OnBench
        ∧ s.regValue s.params.rxlen.page s.params.rxlen.addr = some n ∧ s.chip.rxq = bs ++ more ∧ bs.length = n.toNat ∧ n = 0 :=
  ⟨⟨waiting 8, 5, [0xAA, 0xBB, 0xCC, 0xDD, 0xEE], [], waiting_onBench 8, by decide, rfl, rfl, by decide⟩,
    ⟨bench [(0, 1), (0x111, 0)] (some 1), 0, [], [], onBench_of (by decide +kernel), by decide, rfl, rfl, rfl⟩⟩

/-- Both maps: R166's 16 bytes, and the 8 of REF. -/
def map16 : List RegAt := [⟨2, 0x76⟩, ⟨2, 0x77⟩, ⟨2, 0x78⟩, ⟨2, 0x79⟩, ⟨2, 0x7A⟩, ⟨2, 0x7B⟩, ⟨2, 0x7C⟩, ⟨2, 0x7D⟩, ⟨2, 0x7E⟩,
  ⟨2, 0x7F⟩, ⟨0, 0x6C⟩, ⟨0, 0x6D⟩, ⟨0, 0x6E⟩, ⟨0, 0x6F⟩, ⟨0, 0x70⟩, ⟨0, 0x71⟩]

theorem witness_RecvPlhdCompletes : ∀ sel : PlhdSel, ∃ (s : State) (map : List RegAt) (bs : List Byte), s.OnBench
    ∧ (sel = .sixteen ∧ map = map16 ∨ sel = .eight ∧ map = s.params.plhd8Offs.toList.map fun a => ⟨s.params.plhd8Page, a⟩)
    ∧ (∀ r ∈ map, r.plain s.params) ∧ map.map (fun r => s.regValue r.page r.addr) = bs.map some := by
  rintro (_ | _)
  · exact ⟨waiting 8, map16.take 8, [0x10, 0x11, 0x12, 0x13, 0x14, 0x15, 0x16, 0x17], waiting_onBench 8, .inr ⟨rfl, rfl⟩,
      by unfold RegAt.plain; decide, by decide⟩
  · exact ⟨waiting 8, map16, [0x10, 0x11, 0x12, 0x13, 0x14, 0x15, 0x16, 0x17, 0x18, 0x19, 0x1A, 0x1B, 0x1C, 0x1D, 0x1E, 0x1F],
      waiting_onBench 8, .inl ⟨rfl, rfl⟩, by unfold RegAt.plain; decide, by decide⟩

theorem witness_ClrIrqWrites :
    (∃ (s : State) (g : Byte), s.quiet ∧ s.params.wf = true ∧ s.switchesTo s.params.irqClr.page 0 [] []
        ∧ s.willAnswer ([] ++ [[], [g]]) ∧ g ≠ s.params.irqClr.value ∧ s.chip.oracle = false ∧ s.chip.irqLine = true)
      ∧ (∃ (s : State) (g v0 : Byte), s.quiet ∧ s.params.wf = true
        ∧ s.switchesTo s.params.irqClr.page v0 (swAns v0) (swOut v0) ∧ s.willAnswer (swAns v0 ++ [[], [g]])
        ∧ g = s.params.irqClr.value ∧ s.chip.oracle = false ∧ s.pageCoherent)
      ∧ ∃ (s : State) (g : Byte), s.quiet ∧ s.params.wf = true ∧ s.switchesTo s.params.irqClr.page 0 [] []
        ∧ s.willAnswer ([] ++ [[], [g]]) ∧ g = s.params.irqClr.value ∧ s.chip.oracle = false ∧ s.pageCoherent :=
  ⟨⟨{ scripted (some 0) [] with chip := ⟨false, [(0, 0)], [], [], true, [.force [], .force [1]]⟩ }, 1, rfl,
      test_params_ref_wf, .inl ⟨⟨rfl, rfl⟩, rfl, rfl⟩, ⟨[], rfl⟩, by decide, rfl, rfl⟩,
    ⟨scripted none (swAns 0xA5 ++ [[], [0]]), 0, 0xA5, rfl, test_params_ref_wf, .inr ⟨(fun h => nomatch h.2), rfl, rfl⟩,
      ⟨[], rfl⟩, rfl, rfl, scripted_coherent _⟩,
    ⟨onPage 0 (some 0) [[], [0]], 0, rfl, test_params_ref_wf, .inl ⟨⟨rfl, rfl⟩, rfl, rfl⟩, ⟨[], rfl⟩, rfl, rfl,
      onPage_coherent _⟩⟩

/-! ### The dispatcher -/

theorem witness_DispatchNoEvent :
    (∃ (s : State) (st : Byte), s.quiet ∧ selectHandler s.params st = .none ∧ s.cached s.params.irqReg.page
        ∧ s.willAnswer [[st]] ∧ s.chip.oracle = true)
      ∧ ∃ (s : State) (st v : Byte), s.quiet ∧ selectHandler s.params st = .none ∧ ¬ s.cached s.params.irqReg.page
        ∧ s.willAnswer [[v], [], [setPageField s.params v s.params.irqReg.page], [st]] ∧ s.chip.oracle = false :=
  ⟨⟨bench [(0, 0)] (some 0) [] [] [.force [0xE0]], 0xE0, rfl, by decide, ⟨rfl, rfl⟩, ⟨[], rfl⟩, rfl⟩,
    ⟨scripted (some 1) [[0xA5], [], [0xA4], [0]], 0, 0xA5, rfl, by decide, fun h => absurd h.2 (by decide), ⟨[], by decide⟩,
      rfl⟩⟩

theorem witness_DispatchNoPayload : ∀ h ∈ [(Handler.crcErr, (0x07 : Byte)), (.rxTo, 0x03), (.txDone, 0xE1)], ∃ s : State,
    s.OnBench ∧ s.regValue s.params.irqReg.page s.params.irqReg.addr = some h.2 ∧ selectHandler s.params h.2 = h.1 := by
  intro h hh
  refine ⟨waiting h.2, waiting_onBench h.2, ?_⟩
  fin_cases hh <;> decide

theorem witness_DispatchRxDone : ∃ (s : State) (st n : Byte) (ys bs more : List Byte), s.OnBench
    ∧ s.regValue s.params.irqReg.page s.params.irqReg.addr = some st ∧ selectHandler s.params st = .rxDone
    ∧ (∀ r ∈ s.params.lmReads, r.plain s.params)
    ∧ s.params.lmReads.map (fun r => s.regValue r.page r.addr) = ys.map some
    ∧ s.regValue s.params.rxlen.page s.params.rxlen.addr = some n ∧ s.chip.rxq = bs ++ more ∧ bs.length = n.toNat
    ∧ ys ≠ [] :=
  ⟨{ waiting 0x0C with params := { Params.ref with lmReads := [⟨2, 0x7F⟩], lmFn := .collaborator } }, 0x0C, 5, [0x19],
    [0xAA, 0xBB, 0xCC, 0xDD, 0xEE], [], onBench_of (by decide +kernel), by decide, by decide,
    by unfold RegAt.plain; decide, by decide, by decide, rfl, rfl, by decide⟩

theorem witness_DispatchPlhd : ∃ (s : State) (st v : Byte) (map : List RegAt) (bs : List Byte), s.OnBench
    ∧ s.params.modeReset = [.setMode .standby3]
    ∧ s.regValue s.params.irqReg.page s.params.irqReg.addr = some st ∧ selectHandler s.params st = .plhd
    ∧ (s.params.plhdLen = .sixteen ∧ map = map16
      ∨ s.params.plhdLen = .eight ∧ map = s.params.plhd8Offs.toList.map fun a => ⟨s.params.plhd8Page, a⟩)
    ∧ (∀ r ∈ map, r.plain s.params) ∧ map.map (fun r => s.regValue r.page r.addr) = bs.map some
    ∧ s.regValue s.params.modectlPage s.params.modectlAddr = some v :=
  ⟨waiting 0x1F, 0x1F, 6, map16, [0x10, 0x11, 0x12, 0x13, 0x14, 0x15, 0x16, 0x17, 0x18, 0x19, 0x1A, 0x1B, 0x1C, 0x1D, 0x1E, 0x1F],
    waiting_onBench 0x1F, rfl, by decide, by decide, .inl ⟨rfl, rfl⟩, by unfold RegAt.plain; decide, by decide, by decide⟩

/-- An error on the test double; and off it, the clear not read back, the line at its active level. -/
theorem witness_DispatchErrorDeliversNothing :
    (∃ s t : State, exec .dispatch s = .next t ∧ t.err = .verifyError ∧ s.chip.oracle = true)
      ∧ ∃ (s t : State), exec .dispatch s = .next t ∧ t.err = .verifyError ∧ s.quiet ∧ s.chip.oracle = false
        ∧ t.log = s.log ++ [rd 0x60 1, wr 0x60 0, rd 0x60 1] ∧ s.chip.irqLine = true
        ∧ ¬ [.write s.params.irqClr.addr s.params.irqClr.value true,
          .read s.params.irqClr.addr (some s.params.irqClr.value)] <:+: [rd 0x60 1, wr 0x60 0, rd 0x60 1] :=
  ⟨⟨irqBench 0x01 (atTx 2 (.force [1])), _, rfl, by decide +kernel, rfl⟩,
    ⟨{ onPage 0 (some 0) [] with chip := ⟨false, [(0, 0)], [], [], true, [.force [1], .force [], .force [1]]⟩ }, _, rfl,
      by decide +kernel, rfl, rfl, by decide +kernel, rfl, by decide +kernel⟩⟩

theorem witness_DispatchAndIrqPend :
    (∃ s t : State, s.chip.oracle = false ∧ exec .dispatch s = .next t ∧ s.quiet ∧ s.irqPend = true ∧ t.eventTag = .txDone)
      ∧ (∃ s t : State, s.chip.oracle = false ∧ exec .dispatch s = .next t ∧ s.inReset = false
        ∧ s.during = [[.irqLine (activeLevel s.params.irqActive)]] ∧ s.irqPrev ≠ activeLevel s.params.irqActive)
      ∧ (∃ (s : State) (st : Byte), s.cached s.params.irqReg.page ∧ s.willAnswer [[st]] ∧ selectHandler s.params st = .none
        ∧ s.inReset = false ∧ s.chip.oracle = false ∧ s.quiet ∧ s.irqPend = true)
      ∧ ∃ (s : State) (st : Byte), s.cached s.params.irqReg.page ∧ s.willAnswer [[st]] ∧ selectHandler s.params st = .none
        ∧ s.inReset = false ∧ s.chip.oracle = false ∧ s.during = [[.irqLine (activeLevel s.params.irqActive)]]
        ∧ s.irqPrev ≠ activeLevel s.params.irqActive :=
  ⟨⟨{ onPage 0 (some 0) [[1], [], [0]] with irqPend := true }, _, rfl, rfl, rfl, rfl, by decide +kernel⟩,
    ⟨{ scripted (some 0) [[1], [], [0]] with during := [[.irqLine true]] }, _, rfl, rfl, rfl, rfl, by decide⟩,
    ⟨{ scripted (some 0) [[0]] with irqPend := true }, 0, ⟨rfl, rfl⟩, ⟨[], rfl⟩, by decide, rfl, rfl, rfl, rfl⟩,
    ⟨{ scripted (some 0) [[0]] with during := [[.irqLine true]] }, 0, ⟨rfl, rfl⟩, ⟨[], rfl⟩, by decide, rfl, rfl, rfl,
      by decide⟩⟩

theorem witness_EdgeDetector : ∀ (p : Params) (level prev : Bool), ∃ (s : State) (rest : List Input),
    s.params = p ∧ s.irqPrev = prev ∧ s.inputs = .irqLine level :: rest ∧ s.inReset = false ∧ s.chip.oracle = false :=
  fun p level prev => ⟨{ State.resetWith p with irqPrev := prev, inputs := [.irqLine level] }, [], rfl, rfl, rfl, rfl, rfl⟩

/-! ### The host port -/

/-- The three admitted forms at their bounds: CMD, the last word of TBUF, its last byte. -/
theorem witness_BusyWriteSetsOvr : ∀ f ∈ [(0x200, 4), (0xFC, 4), (0xFF, 1)],
    (f.2 = 4 ∧ f.1 = 0x200 ∨ f.2 = 4 ∧ f.1 % 4 = 0 ∧ f.1 < 0x100 ∨ f.2 = 1 ∧ f.1 < 0x100)
    ∧ (∃ (s : State) (v : Word), s.inputs = [.hostWrite (s.params.tcbBase + f.1) f.2 v] ∧ s.inReset = false ∧ s.busy = true)
    ∧ ∃ (s : State) (v : Word), s.inReset = false ∧ s.during = [[.hostWrite (s.params.tcbBase + f.1) f.2 v]] := by
  intro f hf
  refine ⟨by revert f; decide,
    ⟨{ waiting 8 with inputs := [.hostWrite (0 + f.1) f.2 1], busy := true }, 1, rfl, rfl, rfl⟩,
    ⟨{ waiting 8 with during := [[.hostWrite (0 + f.1) f.2 1]] }, 1, rfl, rfl⟩⟩

/-- Below the window, past it, a misaligned word, a byte of a register, a half word. -/
theorem witness_UnadmittedAccessRefused : ∀ f ∈ [(0x3FFC, 4), (0x4400, 4), (0x4201, 4), (0x4200, 1), (0x4000, 2)],
    ∃ (s : State) (v : Word), s.inReset = false
      ∧ ¬ (s.params.tcbBase ≤ f.1 ∧ (f.2 = 1 ∧ f.1 - s.params.tcbBase < 0x200
        ∨ f.2 = 4 ∧ (f.1 - s.params.tcbBase) % 4 = 0 ∧ f.1 - s.params.tcbBase < 0x400))
      ∧ s.inputs = [.hostWrite f.1 f.2 v] := by
  intro f hf
  refine ⟨{ State.resetWith { Params.ref with tcbBase := 0x4000 } with inputs := [.hostWrite f.1 f.2 1] }, 1, rfl, ?_, rfl⟩
  revert f
  decide

/-- The last word and the last byte of TBUF; the ignored offsets at the ends of their ranges, BUSY or not. -/
theorem witness_HostWrites :
    (∃ (s : State) (off : Nat) (v : Word) (rest : List Input), off % 4 = 0 ∧ off < 0x100 ∧ s.inReset = false ∧ s.busy = false
        ∧ s.inputs = .hostWrite (s.params.tcbBase + off) 4 v :: .hostRead (s.params.tcbBase + off) 4 :: rest)
      ∧ (∃ (s : State) (off : Nat) (v : Word), off < 0x100 ∧ s.inReset = false ∧ s.busy = false
        ∧ s.inputs = [.hostWrite (s.params.tcbBase + off) 1 v])
      ∧ ∀ f ∈ [(0x100, 1), (0x1FF, 1), (0x100, 4), (0x1FC, 4), (0x204, 4), (0x218, 4), (0x21C, 4), (0x3FC, 4)], ∀ busy : Bool,
        (f.2 = 1 ∧ 0x100 ≤ f.1 ∧ f.1 < 0x200 ∨ f.2 = 4 ∧ f.1 % 4 = 0 ∧ 0x100 ≤ f.1 ∧ f.1 < 0x400 ∧ f.1 ≠ 0x200)
        ∧ ∃ (s : State) (v : Word), s.inReset = false ∧ s.busy = busy
          ∧ s.inputs = [.hostWrite (s.params.tcbBase + f.1) f.2 v] :=
  ⟨⟨{ waiting 8 with inputs := [.hostWrite (0 + 0xFC) 4 0x12345678, .hostRead (0 + 0xFC) 4] }, 0xFC, 0x12345678, [], rfl,
      by decide, rfl, rfl, rfl⟩,
    ⟨{ waiting 8 with inputs := [.hostWrite (0 + 0xFF) 1 0x12] }, 0xFF, 0x12, by decide, rfl, rfl, rfl⟩,
    fun f hf busy => ⟨by revert f; decide,
      { waiting 8 with inputs := [.hostWrite (0 + f.1) f.2 1], busy := busy }, 1, rfl, rfl, rfl⟩⟩

/-- A byte at the end of RBUF, a word of every register, the first and last reserved words, while busy and not. -/
theorem witness_HostReads : ∀ f ∈ [(0x1FF, 1), (0x200, 4), (0x204, 4), (0x208, 4), (0x20C, 4), (0x210, 4), (0x214, 4),
    (0x218, 4), (0x21C, 4), (0x3FC, 4)], ∀ busy : Bool,
    (f.2 = 1 ∧ f.1 < 0x200 ∨ f.2 = 4 ∧ f.1 % 4 = 0 ∧ f.1 < 0x400)
    ∧ ∃ s : State, s.inputs = [.hostRead (s.params.tcbBase + f.1) f.2] ∧ s.inReset = false ∧ s.busy = busy := by
  intro f hf busy
  exact ⟨by revert f; decide, { waiting 8 with inputs := [.hostRead (0 + f.1) f.2], busy := busy }, rfl, rfl, rfl⟩

/-- The data clause: a written word of TBUF while busy, a written byte of RBUF while not. -/
theorem witness_HostReads_data :
    (∃ (s : State) (bs : List Byte), s.busy = true ∧ bs.length = 4 ∧ s.inputs = [.hostRead (s.params.tcbBase + 4) 4]
        ∧ ∀ k (h : k < bs.length), s.mem.read (4 + k) = some bs[k])
      ∧ ∃ (s : State) (bs : List Byte), s.busy = false ∧ bs.length = 1 ∧ s.inputs = [.hostRead (s.params.tcbBase + 0x1FF) 1]
        ∧ ∀ k (h : k < bs.length), s.mem.read (0x1FF + k) = some bs[k] :=
  ⟨⟨{ waiting 8 with inputs := [.hostRead (0 + 4) 4], busy := true }, [4, 5, 6, 7], rfl, rfl, rfl, by decide⟩,
    ⟨{ waiting 8 with inputs := [.hostRead (0 + 0x1FF) 1], mem := [(0x1FF, 9)] }, [9], rfl, rfl, rfl, by decide⟩⟩

end Sys2Proof.Tests
end

section
/-! One step of the machine, taken apart once, and what every step keeps: the state's own shape, the sticky flags, the
page cache's invariant. -/

namespace Sys2Proof.Machine

/-! ## A step, case by case -/

/-- Only an admitted write of CMD while idle, outside reset, hands the block a command word. -/
theorem startWord_eq_some {s : State} {i : Input} {w : Word} (h : s.startWord i = some w) :
    ∃ addr width, i = .hostWrite addr width w ∧ s.inReset = false ∧ s.busy = false ∧ s.admits addr width = some 0x200 := by
  cases i with
  | hostWrite addr width v =>
    simp only [State.startWord] at h
    split at h
    · next hc =>
      simp only [Bool.and_eq_true, Bool.not_eq_true', beq_iff_eq] at hc
      obtain ⟨⟨hr, hb⟩, ha⟩ := hc
      cases h
      exact ⟨addr, width, rfl, hr, hb, ha⟩
    · cases h
  | _ => cases h

/-- All a step can be: nothing to come, an input that starts no command, a command, or a word that is none. -/
theorem step_cases {s t : State} (h : step s = .next t) :
    t = s
      ∨ (∃ i rest, s.inputs = i :: rest ∧ t = ({ s with inputs := rest }).arrive i)
      ∨ (∃ addr width w rest c, s.inputs = .hostWrite addr width w :: rest ∧ s.busy = false ∧ decode s.params w = .ok c
          ∧ exec c { s with inputs := rest, cmd := w } = .next t)
      ∨ ∃ addr width w rest, s.inputs = .hostWrite addr width w :: rest ∧ s.busy = false
          ∧ t = ({ s with inputs := rest, cmd := w }).illegalCommand := by
  unfold step at h
  split at h
  · cases h
    exact .inl rfl
  · next i rest hi =>
    split at h
    · next w hw =>
      obtain ⟨addr, width, rfl, -, hb, -⟩ := startWord_eq_some hw
      unfold startCommand at h
      split at h
      · next c hc => exact .inr (.inr (.inl ⟨addr, width, w, rest, c, hi, hb, hc, h⟩))
      · cases h
        exact .inr (.inr (.inr ⟨addr, width, w, rest, hi, hb, rfl⟩))
    · cases h
      exact .inr (.inl ⟨i, rest, hi, rfl⟩)

/-- An admitted access is one byte of a buffer or an aligned word of the window. -/
theorem admits_shape {s : State} {addr width off : Nat} (h : s.admits addr width = some off) :
    width = 1 ∧ off < 0x200 ∨ width = 4 ∧ off % 4 = 0 ∧ off < 0x400 := by
  unfold State.admits at h
  split at h
  · next o _ =>
    split at h
    · next ha =>
      cases h
      simp only [admitted, Bool.or_eq_true, Bool.and_eq_true, beq_iff_eq, decide_eq_true_eq] at ha
      omega
    · cases h
  · cases h

/-- Bytes stored from `a` on stay inside the part of memory `p` permits. -/
theorem carried_storeMem (p : Perm) (s : State) (a : Nat) (bs : List Byte) (hlo : p.lo ≤ a) (hhi : a + bs.length ≤ p.hi) :
    Carried p s { s with mem := s.mem.writeList a bs } :=
  { Carried.refl p s with
    memSame := fun h => by
      have : bs = [] := List.eq_nil_of_length_eq_zero (by omega)
      subst this
      rfl
    memOut := fun x h => Memory.read_writeList_outside bs s.mem _ x (by omega)
    listed := fun x h => by
      by_cases hin : a ≤ x ∧ x < a + bs.length
      · have := Memory.read_writeList_inside bs s.mem a (x - a) (by omega)
        rw [Nat.add_sub_cancel' hin.1] at this
        simp [this]
      · exact (Memory.read_writeList_outside bs s.mem a x hin).symm ▸ h
    memWf := fun h => Memory.wf_writeList h _ _ }

/-- A host write, BUSY or not, stores to TBUF at most. -/
theorem carried_hostWrite_any (s : State) (addr width : Nat) (v : Word) :
    Carried { lo := 0, hi := 0x100 } s (s.hostWrite addr width v) := by
  cases hb : s.busy with
  | true => exact carried_hostWrite _ s hb addr width v
  | false =>
    cases ha : s.admits addr width with
    | none => exact hostWrite_refused ha ▸ carried_recordRefused _ s
    | some off =>
      by_cases ho : off < 0x100
      · rw [hostWrite_tbuf ha ho hb]
        refine carried_storeMem _ s _ _ (Nat.zero_le _) ?_
        have := admits_shape ha
        rw [bytesOfNat_length]
        dsimp only
        omega
      · simp only [State.hostWrite, ha, if_neg ho, hb, Bool.and_false, Bool.false_eq_true, if_false]
        exact Carried.refl _ s

/-- What an input that starts no command carries over, BUSY or not: TBUF is all of the block it may store to. -/
theorem carried_arrive_any (s : State) (i : Input) (hr : ∀ b, i ≠ .resetRelease b) :
    Carried { lo := 0, hi := 0x100 } s (s.arrive i) := by
  cases i with
  | hostRead addr width =>
    simp only [State.arrive]
    split
    · exact Carried.refl _ s
    · exact carried_hostRead _ s addr width
  | hostWrite addr width v =>
    simp only [State.arrive]
    split
    · exact Carried.refl _ s
    · exact carried_hostWrite_any s addr width v
  | irqLine level =>
    simp only [State.arrive]
    split
    · exact Carried.refl _ s
    · exact carried_setLine _ s level
  | completion m =>
    simp only [State.arrive]
    split
    · exact carried_chipTakesMode _ s m
    · exact Carried.refl _ s
  | chipReg pg off v => exact carried_storeReg _ s _ off v
  | chipRx bytes => exact carried_setRxq _ s _
  | chipTx count => exact carried_setTxq _ s _
  | chipPower => exact carried_chipPowered _ s
  | resetAssert => exact carried_assertReset _ s
  | resetRelease b => exact absurd rfl (hr b)

/-! ## The state's own shape -/

variable {s t : State}

/-- A delivery has a length only for the two payload events (10_state.md R28). -/
def Delivery.sized (d : Delivery) : Prop := d.tag ≠ .plhdDone → d.tag ≠ .rxDone → d.len = 0

/-- Bytes stored below the end of RBUF stay in the buffers. -/
theorem memInBuffers_carried {p : Perm} (h : Carried p s t) (hhi : p.hi ≤ 0x200) (hs : s.memInBuffers) :
    t.memInBuffers := by
  intro a ha
  by_contra hlt
  rw [h.memOut a (by omega)] at ha
  exact hlt (hs a ha)

/-- What changes neither the status, the mailbox nor the position keeps the shape. -/
theorem State.Inv.carried {p : Perm} (hs : s.Inv) (h : Carried p s t) (hp : p.status = false) (hm : p.mailbox = false)
    (hhi : p.hi ≤ 0x200) (hq : t.seq = s.seq) : t.Inv where
  memWf := h.memWf hs.memWf
  regsWf := h.regsWf hs.regsWf
  inBuffers := memInBuffers_carried h hhi hs.inBuffers
  errKnown := h.err hp ▸ hs.errKnown
  stepCause := by
    rw [h.err hp, h.stepIx hp, h.cause hp]
    exact hs.stepCause
  eventLen := by
    rw [h.tag hm, h.len hm]
    exact hs.eventLen
  idleSeq := by
    rw [h.busy hp, hq]
    exact hs.idleSeq

/-- What an input that starts no command does keeps the shape. -/
theorem State.Inv.arrive (hs : s.Inv) (i : Input) : (s.arrive i).Inv := by
  by_cases hr : ∃ b, i = .resetRelease b
  · obtain ⟨b, rfl⟩ := hr
    simp only [State.arrive]
    split
    · exact ⟨rfl, hs.regsWf, fun a h => absurd rfl h, ⟨nofun, nofun⟩, fun _ => ⟨rfl, rfl⟩, fun _ _ => rfl, fun _ => rfl⟩
    · exact hs
  · have hr' : ∀ b, i ≠ .resetRelease b := fun b h => hr ⟨b, h⟩
    exact hs.carried (carried_arrive_any s i hr') rfl rfl (by decide) (kept_arrive s i hr').seq

/-- The end of a command carries over what the permissions of its body, and the status, leave. -/
theorem carried_commandResult {p : Perm} (hp : p.status = false) (r : EStateM.Result Stop State Unit)
    (hb : (endState r).busy = true) : Carried { p with status := true } (endState r) (commandResult r) := by
  unfold commandResult
  split
  · exact carried_closeCommand hp _ hb fun u => Carried.refl _ u
  · exact carried_closeCommand hp _ hb fun u => carried_report p u _
  · exact carried_closeCommand hp _ hb fun u => Carried.refl _ u
  · exact { Carried.refl _ _ with }
  · exact Carried.refl _ _

/-- Every value a part of a command answers has a property. -/
def Returns {α : Type} (Q : α → Prop) (c : Cmd α) : Prop := ∀ s a t, c s = .ok a t → Q a

theorem bind_eq_ok {α β : Type} {c : Cmd α} {f : α → Cmd β} {b : β} (h : (c >>= f) s = .ok b t) :
    ∃ a u, c s = .ok a u ∧ f a u = .ok b t := by
  simp only [bind, EStateM.bind] at h
  split at h
  · next a u heq => exact ⟨a, u, heq, h⟩
  · cases h

theorem returns_bind {α β : Type} {Q : β → Prop} {c : Cmd α} {f : α → Cmd β} (hf : ∀ a, Returns Q (f a)) :
    Returns Q (c >>= f) := by
  intro s b t h
  obtain ⟨a, u, -, hu⟩ := bind_eq_ok h
  exact hf a u b t hu

theorem returns_pure {α : Type} {Q : α → Prop} {a : α} (h : Q a) : Returns Q (pure a) := by
  intro s b t hb
  cases hb
  exact h

/-- Only the two payload handlers deliver a length (44_irq_dispatch.md R182 to R186). -/
theorem runHandler_sized (x : Handler) : Returns Delivery.sized (runHandler x) := by
  have noPayload (tag : EventTag) (f : FlagUpdate) : Returns Delivery.sized (handleNoPayload tag f) :=
    returns_bind fun _ => returns_pure fun _ _ => rfl
  cases x with
  | plhd =>
    exact returns_bind fun _ => returns_bind fun _ => returns_bind fun _ => returns_bind fun _ =>
      returns_pure fun h => absurd rfl h
  | rxDone =>
    exact returns_bind fun _ => returns_bind fun _ => returns_bind fun _ => returns_pure fun _ h => absurd rfl h
  | crcErr => exact noPayload _ _
  | rxTo => exact noPayload _ _
  | txDone => exact noPayload _ _
  | none => exact returns_pure fun _ _ => rfl

theorem deliver_tag (status : Byte) (d : Delivery) :
    (s.deliver status d).eventTag = d.tag ∧ (s.deliver status d).eventLen = d.len := by
  obtain ⟨tag, len, flag, metrics⟩ := d
  cases metrics <;> cases flag <;> exact ⟨rfl, rfl⟩

/-- DISPATCH leaves the mailbox as it was or holding what a handler delivers. -/
theorem dispatch_mailbox (h : exec .dispatch s = .next t) :
    t.eventTag = s.eventTag ∧ t.eventLen = s.eventLen
      ∨ ∃ d : Delivery, d.sized ∧ t.eventTag = d.tag ∧ t.eventLen = d.len := by
  rw [exec_eq_run] at h
  cases h
  have keep : ∀ r : EStateM.Result Stop State Unit, (endState r).busy = true →
      (commandResult r).eventTag = (endState r).eventTag ∧ (commandResult r).eventLen = (endState r).eventLen :=
    fun r hb => have hc := carried_commandResult (p := {}) rfl r hb
      ⟨hc.tag rfl, hc.len rfl⟩
  have hbusy := (carries_dispatchCommand s.beginCommand rfl).busy rfl
  obtain ⟨htag, hlen⟩ := keep _ hbusy
  simp only [commandOf]
  rw [htag, hlen]
  rcases dispatch_ends s.beginCommand rfl with ⟨d, status, u0, u, -, hd, he⟩ | ⟨e, u, hu, he⟩
  · rw [he]
    exact .inr ⟨d, runHandler_sized _ _ _ _ hd, deliver_tag status d⟩
  · rw [he]
    exact .inl ⟨hu.tag rfl, hu.len rfl⟩

/-- FIFO_READ is decoded only for a range of RBUF (30_encoding.md R72, R73). -/
theorem decode_fifoRead {p : Params} {w : Word} {fa off len : Byte} (h : decode p w = .ok (.fifoRead fa off len)) :
    off.toNat + len.toNat ≤ 256 := by
  simp only [decode, row0, rowC, rowCrc, rowFifo, rowRegRead, rowRegWrite, rowSend] at h
  repeat' split at h
  all_goals cases h
  assumption

/-- A command's STATUS is in shape however it ends: an error code of its own, and a step and cause with MODE_ERROR only. -/
theorem exec_status_shape {i : Instr} (h : exec i s = .next t) :
    (t.err ≠ .unsupportedFrequency ∧ t.err ≠ .unsupportedSf) ∧ (t.err ≠ .modeError → t.stepIx = 0 ∧ t.cause = .none)
      ∧ (t.busy = false → t.seq = none) := by
  rcases runCommand_status (permOf_status i) (carries_commandOf i) (exec_eq_run i s ▸ h) with
    ⟨hb, he, hk, hc⟩ | ⟨-, hq, he, hk, hc⟩ | ⟨e, -, -, -, hq, he, hk, hc⟩
  · exact ⟨by simp [he], fun _ => ⟨hk, hc⟩, fun h => by simp [hb] at h⟩
  · exact ⟨by simp [he], fun _ => ⟨hk, hc⟩, fun _ => hq⟩
  · rw [he, hk, hc]
    refine ⟨?_, ?_, fun _ => hq⟩ <;> cases e <;> simp [State.report, State.beginCommand]

/-- The bytes a decoded command may store to lie in the buffers. -/
theorem permOf_hi {p : Params} {w : Word} {i : Instr} (h : decode p w = .ok i) : (permOf i).hi ≤ 0x200 := by
  cases i with
  | fifoRead fa off len =>
    have := decode_fifoRead h
    simp only [permOf]
    omega
  | recvPlhd sel => cases sel <;> decide
  | _ => exact Nat.le_of_ble_eq_true rfl

/-- A command that stores inside the buffers keeps the shape. -/
theorem State.Inv.exec (hs : s.Inv) {i : Instr} (hhi : (permOf i).hi ≤ 0x200) (h : exec i s = .next t) : t.Inv := by
  have hc := exec_carried i h
  obtain ⟨herr, hstep, hseq⟩ := exec_status_shape h
  refine ⟨hc.memWf hs.memWf, hc.regsWf hs.regsWf, memInBuffers_carried hc hhi hs.inBuffers, herr, hstep, ?_, hseq⟩
  by_cases hi : i = .dispatch
  · subst hi
    rcases dispatch_mailbox h with ⟨ht, hl⟩ | ⟨d, hd, ht, hl⟩
    · rw [ht, hl]
      exact hs.eventLen
    · rw [ht, hl]
      exact hd
  · have hm : (permOf i).mailbox = false := by
      cases i with
      | dispatch => exact absurd rfl hi
      | _ => rfl
    rw [hc.tag hm, hc.len hm]
    exact hs.eventLen

/-- A word that is no command reports ILLEGAL_CMD, or is abandoned by reset with BUSY set; nothing else of the block changes. -/
theorem illegalCommand_status (s : State) :
    Carried { status := true } s s.illegalCommand
      ∧ (s.illegalCommand.err = .illegalCmd ∨ s.illegalCommand.err = .ok) ∧ s.illegalCommand.stepIx = 0
      ∧ s.illegalCommand.cause = .none ∧ s.illegalCommand.seq = none := by
  have hb := carries_boundary (p := {}) rfl s.beginCommand rfl
  have hc : Carried { status := true } s.beginCommand s.illegalCommand :=
    carried_closeCommand (p := {}) rfl _ rfl fun u =>
      { Carried.refl _ u with err := nofun }
  have hstart : Carried { status := true } s s.beginCommand :=
    { Carried.refl _ s with busy := nofun, err := nofun, stepIx := nofun, cause := nofun }
  refine ⟨hstart.trans hc, ?_⟩
  unfold State.illegalCommand State.closeCommand
  split
  · next heq =>
    rw [heq] at hb
    exact ⟨.inl rfl, hb.stepIx rfl, hb.cause rfl, rfl⟩
  · next heq =>
    rw [heq] at hb
    exact ⟨.inr (hb.err rfl), hb.stepIx rfl, hb.cause rfl, rfl⟩

theorem State.Inv.illegal (hs : s.Inv) : s.illegalCommand.Inv := by
  obtain ⟨hc, herr, hk, hcause, hq⟩ := illegalCommand_status s
  refine ⟨hc.memWf hs.memWf, hc.regsWf hs.regsWf, memInBuffers_carried hc (by decide) hs.inBuffers, ?_,
    fun _ => ⟨hk, hcause⟩, ?_, fun _ => hq⟩
  · rcases herr with h | h <;> simp [h]
  · rw [hc.tag rfl, hc.len rfl]
    exact hs.eventLen

/-- The shape does not speak of CMD or of what is still to come. -/
theorem State.Inv.taken (hs : s.Inv) (rest : List Input) (w : Word) : ({ s with inputs := rest, cmd := w }).Inv :=
  ⟨hs.memWf, hs.regsWf, hs.inBuffers, hs.errKnown, hs.stepCause, hs.eventLen, hs.idleSeq⟩

/-- Settles O12: by the cases of a step, each part of the shape from what that case carries over. -/
theorem stepKeepsInv : Obligations.StepKeepsInv := by
  intro s t hs h
  rcases step_cases h with rfl | ⟨i, rest, -, rfl⟩ | ⟨addr, width, w, rest, c, -, -, hd, he⟩ |
    ⟨addr, width, w, rest, -, -, rfl⟩
  · exact hs
  · exact (hs.taken rest s.cmd).arrive i
  · exact (hs.taken rest w).exec (permOf_hi hd) he
  · exact (hs.taken rest w).illegal

/-- Settles O11. -/
theorem invAtReset : Obligations.InvAtReset where
  memWf := State.reset_wf.1
  regsWf := State.reset_wf.2
  inBuffers _ h := absurd rfl h
  errKnown := ⟨nofun, nofun⟩
  stepCause _ := ⟨rfl, rfl⟩
  eventLen _ _ := rfl
  idleSeq _ := rfl

/-! ## What no step takes back -/

/-- Every step but a release of reset carries over what its case permits, once CMD and the inputs are taken. -/
theorem step_carried (h : step s = .next t) (hr : ¬ s.releasing) :
    ∃ p rest w, Carried p { s with inputs := rest, cmd := w } t := by
  rcases step_cases h with rfl | ⟨i, rest, hi, rfl⟩ | ⟨addr, width, w, rest, c, -, -, -, he⟩ |
    ⟨addr, width, w, rest, -, -, rfl⟩
  · exact ⟨{}, _, _, Carried.refl _ t⟩
  · have hi' : ∀ b, i ≠ .resetRelease b := by
      rintro b rfl
      exact hr ⟨b, rest, hi⟩
    exact ⟨_, rest, s.cmd, carried_arrive_any _ i hi'⟩
  · exact ⟨_, rest, w, exec_carried c he⟩
  · exact ⟨_, rest, w, (illegalCommand_status _).1⟩

/-- Settles O14. -/
theorem stepKeepsSticky : Obligations.StepKeepsSticky := by
  intro s t h
  by_cases hr : s.releasing
  · obtain ⟨b, rest, hi⟩ := hr
    rw [step_input hi rfl] at h
    cases h
    simp only [State.arrive]
    split
    · exact ⟨rfl, List.prefix_rfl, fun h => absurd ⟨b, rest, hi⟩ h⟩
    · exact ⟨rfl, List.prefix_rfl, fun h => absurd ⟨b, rest, hi⟩ h⟩
  · obtain ⟨p, rest, w, hc⟩ := step_carried h hr
    exact ⟨hc.params, hc.log, fun _ => ⟨hc.ovr, hc.faults⟩⟩

end Sys2Proof.Machine
end

section
/-! The page cache's invariant (10_state.md R33) through a running command: where a part of a command begins with the cache
right about the chip, it ends so, unless reset abandons the command or a transaction never ends, which leave BUSY = 1. -/

namespace Sys2Proof.Machine

/-- An input that leaves the system-control register to the block (70_reset_and_hazards.md R247). -/
def Input.sparesPage (p : Params) (x : Input) : Prop := x ≠ .chipPower ∧ ∀ pg v, x ≠ .chipReg pg p.sysctlAddr v

/-- A condition on the page cache and the chip's own page. -/
abbrev PageCond := Option Page → Option Page → Prop

/-- The cache is right about the chip: `State.pageCoherent` as a condition. -/
def PageCond.coherent : PageCond := fun c g => ∀ q, c = some q → g = some q

/-- The chip is on a page, whatever the cache says. -/
def PageCond.on (pg : Page) : PageCond := fun _ g => g = some pg

/-- A running command with the parameters `p`, whose page cache and chip's page meet a condition, and during which nothing else
writes the system-control register. -/
structure State.Pages (s : State) (p : Params) (Q : PageCond) : Prop where
  params : s.params = p
  spared : ∀ x ∈ s.during.flatten, x.sparesPage p
  cond   : Q s.pcache s.chipPage

/-- What the end of a part of a command meets: `R` where it goes on, coherence where it raises; nothing is asked of an end that
leaves BUSY = 1. -/
def EndsPages {α : Type} (p : Params) (R : PageCond) : EStateM.Result Stop State α → Prop
  | .ok _ t => t.Pages p R
  | .error (.raised _) t => t.Pages p .coherent
  | .error .unwritten t => t.Pages p .coherent
  | .error .abandoned _ => True
  | .error .hung _ => True

/-- A part of a command takes `Q` to `R`. -/
def TakesPages {α : Type} (p : Params) (Q : PageCond) (c : Cmd α) (R : PageCond) : Prop :=
  ∀ s, s.Pages p Q → EndsPages p R (c s)

section
variable {α β : Type} {p : Params} {Q R S : PageCond} {s t : State}

/-- The condition speaks of the page cache and of the chip's page only. -/
theorem State.Pages.same (h : s.Pages p Q) (hk : Kept s t) (hg : t.chipPage = s.chipPage) : t.Pages p Q where
  params := hk.params.trans h.params
  spared := by
    rw [hk.during]
    exact h.spared
  cond := by
    rw [hk.pcache, hg]
    exact h.cond

theorem State.Pages.advance (h : s.Pages p Q) : s.advance.Pages p Q := ⟨h.params, h.spared, h.cond⟩

theorem State.Pages.logged (h : s.Pages p Q) (e : BusEvent) : (s.logged e).Pages p Q := ⟨h.params, h.spared, h.cond⟩

theorem State.Pages.dropPage (h : s.Pages p Q) : s.dropPage.Pages p .coherent := ⟨h.params, h.spared, nofun⟩

theorem State.Pages.nextAnswer (h : s.Pages p Q) : s.advance.nextAnswer.2.Pages p Q := by
  obtain ⟨hregs, -, hp, hd, hc⟩ := advance_nextAnswer_chip s
  refine ⟨hp.trans h.params, hd ▸ h.spared, ?_⟩
  rw [hc, chipPage_of_regs hp hregs]
  exact h.cond

/-! ## Sequencing and the boundary -/

theorem takesPages_bind {c : Cmd α} {f : α → Cmd β} (hc : TakesPages p Q c R) (hf : ∀ a, TakesPages p R (f a) S) :
    TakesPages p Q (c >>= f) S := by
  intro s hs
  have h := hc s hs
  simp only [bind, EStateM.bind]
  split
  · next a t heq =>
    rw [heq] at h
    exact hf a t h
  · next e t heq =>
    rw [heq] at h
    cases e <;> exact h

theorem takesPages_change {f : State → State} (h : ∀ s, s.Pages p Q → (f s).Pages p R) : TakesPages p Q (change f) R :=
  fun s hs => h s hs

/-- A change that touches neither the chip's registers nor the page cache. -/
theorem takesPages_kept {f : State → State} (hk : ∀ s, Kept s (f s)) (hr : ∀ s, (f s).chip.regs = s.chip.regs) :
    TakesPages p Q (change f) Q :=
  takesPages_change fun s hs => hs.same (hk s) (chipPage_of_regs (hk s).params (hr s))

theorem chip_hostRead (s : State) (addr width : Nat) : (s.hostRead addr width).chip = s.chip := by
  cases ha : s.admits addr width with
  | none => exact hostRead_refused ha ▸ rfl
  | some off =>
    obtain ⟨w, d, h⟩ := hostRead_admitted ha
    exact h ▸ rfl

theorem chip_hostWrite (s : State) (addr width : Nat) (v : Word) : (s.hostWrite addr width v).chip = s.chip := by
  unfold State.hostWrite
  split
  · rfl
  · split
    · split <;> rfl
    · split <;> rfl

theorem chipPage_storeReg (s : State) (pg : Page) {a : Byte} (v : Byte) (ha : a ≠ s.params.sysctlAddr) :
    (s.storeReg pg a v).chipPage = s.chipPage :=
  chipPage_of_read (kept_storeReg s pg a v).params (read_storeReg s 0 pg v ha)

/-- The mode-control register is not the system-control register. -/
theorem chipPage_chipTakesMode (hp : s.params.wf = true) (m : Mode) : (s.chipTakesMode m).chipPage = s.chipPage := by
  have hd : (s.regOrDraw (modectl s.params)).2.params = s.params := (kept_regOrDraw s _).params
  refine (chipPage_storeReg (s.regOrDraw (modectl s.params)).2 _ _ ?_).trans
    (chipPage_of_regs hd (by rw [regOrDraw_chip]))
  rw [hd]
  exact (Params.plain_of_wf hp).1.2

/-- No input but a power cycle, a change of the system-control register and the release of reset moves the chip's page. -/
theorem chipPage_arrive (hp : s.params.wf = true) {i : Input} (hi : i.sparesPage s.params) (hr : ∀ b, i ≠ .resetRelease b) :
    (s.arrive i).chipPage = s.chipPage := by
  cases i with
  | hostRead addr width =>
    simp only [State.arrive]
    split
    · rfl
    · exact chipPage_of_regs (carried_hostRead {} s addr width).params (by rw [chip_hostRead])
  | hostWrite addr width v =>
    simp only [State.arrive]
    split
    · rfl
    · exact chipPage_of_regs (carried_hostWrite_any s addr width v).params (by rw [chip_hostWrite])
  | irqLine level =>
    simp only [State.arrive]
    split
    · rfl
    · exact chipPage_of_regs (params_setLine s level) (regs_setLine s level)
  | completion m =>
    simp only [State.arrive]
    split
    · exact chipPage_chipTakesMode hp m
    · rfl
  | chipReg pg off v => exact chipPage_storeReg s _ v fun h => hi.2 pg v (h ▸ rfl)
  | chipRx bytes => rfl
  | chipTx count => rfl
  | chipPower => exact absurd rfl hi.1
  | resetAssert => rfl
  | resetRelease b => exact absurd rfl (hr b)

/-- What arrives at a boundary keeps the condition, unless it is reset. -/
theorem endsPages_arriveAll (hp : p.wf = true) (l : List Input) (hl : ∀ x ∈ l, x.sparesPage p) (hs : s.Pages p Q) :
    EndsPages p Q (s.arriveAll l) := by
  induction l generalizing s with
  | nil => exact hs
  | cons i l ih =>
    have hi := hl i List.mem_cons_self
    have hl' := fun x hx => hl x (List.mem_cons_of_mem _ hx)
    have arrives (hr : ∀ b, i ≠ .resetRelease b) : EndsPages p Q ((s.arrive i).arriveAll l) :=
      ih hl' (hs.same (kept_arrive s i hr) (chipPage_arrive (hs.params ▸ hp) (hs.params ▸ hi) hr))
    cases i with
    | resetAssert => trivial
    | resetRelease b => exact ih hl' hs
    | _ => exact arrives nofun

theorem takesPages_boundary (hp : p.wf = true) : TakesPages p Q boundary Q := by
  intro s hs
  unfold boundary
  split
  · exact hs
  · next now later hd =>
    have h := hs.spared
    rw [hd, List.flatten_cons] at h
    exact endsPages_arriveAll hp now (fun x hx => h x (List.mem_append_left _ hx))
      ⟨hs.params, fun x hx => h x (List.mem_append_right _ hx), hs.cond⟩

/-! ## Transactions -/

theorem takesPages_transact (hp : p.wf = true) {before : State → State} {good : List Byte → State → α × State}
    {lost : State → State} {failed : BusEvent} (hb : ∀ s, s.Pages p Q → (before s).Pages p R)
    (hg : ∀ l s, s.Pages p R → (good l s).2.Pages p S) (hl : ∀ s, Kept s (lost s)) :
    TakesPages p Q (transact before good lost failed) S := by
  refine takesPages_bind (takesPages_boundary hp) fun _ s hs => ?_
  have h := (hb s hs).nextAnswer
  dsimp only
  split
  · exact hg _ _ h
  · have hk := hl (before s).advance.nextAnswer.2
    exact ⟨hk.params.trans h.params, fun x hx => h.spared x (hk.during ▸ hx), nofun⟩
  · trivial

theorem State.Pages.chipByte (h : s.Pages p Q) (a : Byte) (l : List Byte) : (s.chipByte a l).2.Pages p Q :=
  h.same (kept_chipByte s a l) (chipPage_of_regs (kept_chipByte s a l).params (regs_chipByte s a l))

theorem State.Pages.monitorRead (h : s.Pages p Q) (a v : Byte) : (s.monitorRead a v).Pages p Q :=
  h.same (kept_monitorRead s a v) (chipPage_of_regs (kept_monitorRead s a v).params (by rw [chip_monitorRead]))

/-- A read keeps a condition that drawing the chip's page at its offset keeps. -/
theorem takesPages_busRead (hp : p.wf = true) {a : Byte} (hd : ∀ s : State, s.Pages p Q → (s.pageDrawn a).Pages p Q) :
    TakesPages p Q (busRead a) Q :=
  takesPages_transact hp hd (fun l _ h => ((h.chipByte a l).logged _).monitorRead a _) fun s => kept_chipReadLost s a 1

/-- Where the cache is right about a chip on no known page, it is empty: drawing the page does not make it wrong. -/
theorem State.Pages.pageDrawn (h : s.Pages p .coherent) (a : Byte) : (s.pageDrawn a).Pages p .coherent := by
  by_cases hg : s.chipPage = none
  · have hk := kept_pageDrawn s a
    refine ⟨hk.params.trans h.params, hk.during ▸ h.spared, ?_⟩
    intro q hq
    have := h.cond q (hk.pcache ▸ hq)
    rw [hg] at this
    cases this
  · exact (pageDrawn_known s hg).symm ▸ h

theorem State.Pages.pageDrawn_sysctl (h : s.Pages p Q) : (s.pageDrawn p.sysctlAddr).Pages p Q := by
  rw [Machine.pageDrawn_sysctl s (by rw [h.params])]
  exact h

theorem takesPages_busRead_coherent (hp : p.wf = true) (a : Byte) : TakesPages p .coherent (busRead a) .coherent :=
  takesPages_busRead hp fun _ h => h.pageDrawn a

theorem takesPages_busRead_sysctl (hp : p.wf = true) : TakesPages p Q (busRead p.sysctlAddr) Q :=
  takesPages_busRead hp fun _ h => h.pageDrawn_sysctl

theorem State.Pages.monitorWrite {a : Byte} (h : (s.pageDrawn a).Pages p Q) (v : Byte) : (s.monitorWrite a v).Pages p Q := by
  have hk := kept_monitorWrite (s.pageDrawn a) a v
  rw [monitorWrite_pageDrawn] at hk
  exact h.same hk (chipPage_of_regs hk.params (by rw [chip_monitorWrite]))

theorem kept_busWriteLost (s : State) (a : Byte) : Kept s ((s.chipWriteLost a).monitorLost a) :=
  (kept_chipWriteLost s a).trans (kept_monitorLost _ a)

theorem takesPages_busWrite_coherent (hp : p.wf = true) {a : Byte} (ha : a ≠ p.sysctlAddr) (v : Byte) :
    TakesPages p .coherent (busWrite a v) .coherent :=
  takesPages_transact hp (fun _ h => (h.pageDrawn a).monitorWrite v)
    (fun _ s h => (h.same (kept_chipWrite s a v) (chipPage_chipWrite s (h.params ▸ ha) v)).logged _)
    fun s => kept_busWriteLost s a

/-- A good write of the system-control register puts the chip on the page written. -/
theorem takesPages_busWrite_sysctl (hp : p.wf = true) (v : Byte) :
    TakesPages p Q (busWrite p.sysctlAddr v) (.on (pageField p v)) := by
  refine takesPages_transact hp (R := Q) (fun s h => h.pageDrawn_sysctl.monitorWrite v) (fun _ s h => State.Pages.logged ?_ _)
    fun s => kept_busWriteLost s _
  have hk := kept_chipWrite s p.sysctlAddr v
  obtain ⟨rfl, hs, -⟩ := h
  exact ⟨hk.params, hk.during ▸ hs, chipPage_chipWrite_sysctl s (Params.sysctl_ne_fifo hp) v⟩

/-- A burst write at FIFO_ADDR reaches no register. -/
theorem takesPages_burstWrite (hp : p.wf = true) (bs : List Byte) :
    TakesPages p .coherent (busBurstWrite p.fifoAddr bs) .coherent := by
  refine takesPages_transact hp (R := .coherent) (fun s h => ?_) (fun _ s h => ?_) fun s => kept_chipBurstLost s _
  · exact (if_pos (congrArg Params.fifoAddr h.params.symm)).symm ▸ h
  · have hc : s.chipBurst p.fifoAddr bs = s.setTxq (s.chip.txq ++ bs) :=
      if_pos (congrArg Params.fifoAddr h.params.symm)
    rw [hc]
    exact (State.Pages.same h (kept_setTxq s (s.chip.txq ++ bs)) rfl).logged _

theorem takesPages_busBurstRead (hp : p.wf = true) (n : Nat) :
    TakesPages p .coherent (busBurstRead p.fifoAddr n) .coherent := by
  refine takesPages_transact hp (R := .coherent) (fun _ h => h) (fun l s h => State.Pages.logged ?_ _) fun s =>
    (kept_chipReadLost s _ n).trans (kept_chipBurstRead _ _ n)
  have hb := h.same (kept_chipBytes s p.fifoAddr l n) (chipPage_of_regs (kept_chipBytes s _ l n).params (regs_chipBytes s _ l n))
  have hc : (s.chipBytes p.fifoAddr l n).2.chipBurstRead p.fifoAddr n = (s.chipBytes p.fifoAddr l n).2 :=
    if_pos (congrArg Params.fifoAddr hb.params.symm)
  rw [hc]
  exact hb

/-! ## The page switch and the paged accesses -/

theorem takesPages_raise (e : Error) : TakesPages p .coherent (raiseError e : Cmd α) R := fun _ hs => hs

theorem takesPages_switchPage (hp : p.wf = true) (pg : Page) : TakesPages p .coherent (switchPage pg) .coherent := by
  intro s hs
  unfold switchPage
  split
  · exact hs
  · obtain rfl := hs.params
    refine takesPages_bind (takesPages_busRead_sysctl hp) (fun v => takesPages_bind (takesPages_busWrite_sysctl hp _)
      fun _ => takesPages_bind (takesPages_busRead_sysctl hp) fun r => ?_) s hs
    split
    · refine takesPages_change fun u hu => ⟨hu.params, hu.spared, ?_⟩
      intro q hq
      cases hq
      exact hu.cond.trans (congrArg some (pageField_setPageField _ _ _))
    · exact takesPages_bind
        (takesPages_change fun u hu => State.Pages.dropPage (Q := fun _ _ => True)
          ⟨(kept_unverified u _).params.trans hu.params, (kept_unverified u _).during ▸ hu.spared, trivial⟩)
        fun _ => takesPages_raise _

theorem takesPages_pagedRead (hp : p.wf = true) (r : RegAt) : TakesPages p .coherent (pagedRead r) .coherent :=
  takesPages_bind (takesPages_switchPage hp r.page) fun _ => takesPages_busRead_coherent hp r.addr

/-- The empty cache. -/
def PageCond.empty : PageCond := fun c _ => c = none

theorem State.Pages.coherent_of_empty (h : s.Pages p .empty) : s.Pages p .coherent :=
  ⟨h.params, h.spared, fun q hq => by rw [show s.pcache = none from h.cond] at hq; cases hq⟩

/-- What a verified write does once its read-back is there, where a failed verify leaves the cache right. -/
theorem takesPages_verify (hp : p.wf = true) {a v : Byte} {e : Error} (hQ : ∀ s : State, s.Pages p Q → s.Pages p .coherent)
    (hf : ∀ (s : State) (g : Byte), s.Pages p Q → ((s.unverified a).clearFailed a v g).Pages p .coherent) (got : Byte) :
    TakesPages p Q ((if got = v then change fun s => s.writeVerified a v
      else do
        change fun s => (s.unverified a).clearFailed a v got
        raiseError e) : Cmd Unit) .coherent := by
  split
  · refine takesPages_change fun s hs => ?_
    exact (hQ s hs).same (kept_writeVerified s a v) (chipPage_writeVerified s (hs.params ▸ hp) a v)
  · exact takesPages_bind (takesPages_change fun s hs => hf s got hs) fun _ => takesPages_raise e

theorem takesPages_pagedWrite (hp : p.wf = true) (r : RegAt) (v : Byte) :
    TakesPages p .coherent (pagedWrite r v) .coherent := by
  have hk (s : State) (g : Byte) := (kept_unverified s r.addr).trans (kept_clearFailed _ r.addr v g)
  refine takesPages_bind (takesPages_switchPage hp r.page) fun _ => ?_
  by_cases ha : r.addr = p.sysctlAddr
  · rw [ha]
    refine takesPages_bind (takesPages_busWrite_sysctl hp v) fun _ =>
      takesPages_bind (R := .empty) (takesPages_change fun s hs => ?_) fun _ =>
      takesPages_bind (takesPages_busRead_sysctl hp) (takesPages_verify hp (fun _ h => h.coherent_of_empty) fun s g h => ?_)
    · rw [if_pos (by rw [hs.params])]
      exact ⟨hs.params, hs.spared, rfl⟩
    · refine State.Pages.coherent_of_empty ⟨(ha ▸ hk s g).params.trans h.params, (ha ▸ hk s g).during ▸ h.spared, ?_⟩
      exact (ha ▸ hk s g).pcache.trans h.cond
  · refine takesPages_bind (takesPages_busWrite_coherent hp ha v) fun _ =>
      takesPages_bind (R := .coherent) (takesPages_change fun s hs => ?_) fun _ =>
      takesPages_bind (takesPages_busRead_coherent hp _) (takesPages_verify hp (fun _ h => h) fun s g h => ?_)
    · rw [if_neg (by rwa [hs.params])]
      exact hs
    · refine h.same (hk s g) ((chipPage_clearFailed _ ?_ v g).trans (chipPage_unverified s ?_))
      · rwa [(kept_unverified s _).params, h.params]
      · rwa [h.params]

/-! ## Commands -/

theorem drawList_chip (s : State) (n : Nat) : (s.drawList n).2.chip = s.chip := by
  induction n generalizing s with
  | zero => rfl
  | succ n ih => exact ih s.drawByte.2

theorem takesPages_burstIntoRbuf (hp : p.wf = true) (off n : Nat) :
    TakesPages p .coherent (burstIntoRbuf p.fifoAddr off n) .coherent := by
  intro s hs
  have h := takesPages_busBurstRead hp n s hs
  have store (u : State) (bs : List Byte) (hu : u.Pages p .coherent) : (u.storeRbuf off bs).Pages p .coherent :=
    hu.same (kept_storeRbuf u off bs) rfl
  unfold burstIntoRbuf
  cases hr : busBurstRead p.fifoAddr n s with
  | ok bs u =>
    rw [hr] at h
    exact store u bs h
  | error e u =>
    rw [hr] at h
    cases e with
    | raised e =>
      refine store _ _ (State.Pages.same h (kept_drawList u n) ?_)
      exact chipPage_of_regs (kept_drawList u n).params (by rw [drawList_chip])
    | unwritten => exact h
    | abandoned => trivial
    | hung => trivial

theorem takesPages_modeStep {c : Cmd α} (k : BitVec 4) (hc : TakesPages p Q c R) : TakesPages p Q (modeStep k c) R := by
  intro s hs
  have h := hc s hs
  have mode (u : State) (m : Option Mode) (hu : u.Pages p .coherent) : (u.setChipMode m).Pages p .coherent :=
    hu.same (kept_setChipMode u m) rfl
  unfold modeStep
  cases hr : c s with
  | ok a u =>
    rw [hr] at h
    exact h
  | error e u =>
    rw [hr] at h
    cases e with
    | raised e =>
      cases e with
      | bus => exact mode u none h
      | verify r =>
        dsimp only
        split
        · exact h
        · exact mode u none h
      | mode j c => exact h
    | unwritten => exact h
    | abandoned => trivial
    | hung => trivial

theorem takesPages_thenDropPage {c : Cmd Unit} (hc : TakesPages p Q c R) : TakesPages p Q (thenDropPage c) .coherent := by
  intro s hs
  have h := hc s hs
  unfold thenDropPage
  cases hr : c s with
  | ok a u =>
    rw [hr] at h
    exact State.Pages.dropPage h
  | error e u =>
    rw [hr] at h
    cases e with
    | raised e => exact State.Pages.dropPage h
    | unwritten => exact State.Pages.dropPage h
    | abandoned => trivial
    | hung => trivial

theorem kept_applyFlag (s : State) (f : FlagUpdate) : Kept s (s.applyFlag f) := by
  cases f <;> exact ⟨rfl, rfl, rfl, rfl, rfl, rfl, rfl⟩

theorem chip_applyFlag (s : State) (f : FlagUpdate) : (s.applyFlag f).chip = s.chip := by
  cases f <;> rfl

/-- A commit writes the host's registers: nothing on the ports, the page cache and the chip as they were. -/
theorem kept_deliver (s : State) (status : Byte) (d : Delivery) :
    Kept s (s.deliver status d) ∧ (s.deliver status d).chip = s.chip := by
  obtain ⟨tag, len, flag, metrics⟩ := d
  cases metrics <;> cases flag <;> exact ⟨⟨rfl, rfl, rfl, rfl, rfl, rfl, rfl⟩, rfl⟩

/-- The procedures every command is made of keep the cache right, bursts at FIFO_ADDR only. -/
theorem closed_takesPages (hp : p.wf = true) :
    Closed (fun _ c => TakesPages p .coherent c .coherent) p (fun _ => True) (fun _ => True) (· = p.fifoAddr)
      (· = p.fifoAddr) where
  pure _ _ hs := hs
  bind hc hf := takesPages_bind hc hf
  params h := fun s hs => by
    rw [getParams_bind, hs.params]
    exact h s hs
  raise e := takesPages_raise e
  dropPage := takesPages_change fun _ h => h.dropPage
  setResult _ := takesPages_kept (fun _ => ⟨rfl, rfl, rfl, rfl, rfl, rfl, rfl⟩) fun _ => rfl
  storeRbuf _ _ := takesPages_kept (fun s => kept_storeRbuf s _ _) fun _ => rfl
  clearPend := takesPages_kept (fun _ => ⟨rfl, rfl, rfl, rfl, rfl, rfl, rfl⟩) fun _ => rfl
  deliver st d := takesPages_kept (fun s => (kept_deliver s st d).1) fun s => congrArg Chip.regs (kept_deliver s st d).2
  applyFlag f := takesPages_kept (fun s => kept_applyFlag s f) fun s => congrArg Chip.regs (chip_applyFlag s f)
  readBuffer buf off len := fun s hs => by
    unfold readBuffer
    split
    · exact hs
    · exact ⟨hs.params, hs.spared, hs.cond⟩
  pagedRead r _ := takesPages_pagedRead hp r
  pagedWrite r v _ := takesPages_pagedWrite hp r v
  burstWrite a l ha := ha ▸ takesPages_burstWrite hp l
  burstRead a off n ha := ha ▸ takesPages_burstIntoRbuf hp off (n + 1)
  callCap _ := takesPages_bind (takesPages_boundary hp) fun _ => takesPages_change fun _ h => ⟨h.params, h.spared, h.cond⟩
  delay _ := takesPages_bind (takesPages_boundary hp) fun _ => takesPages_change fun _ h => ⟨h.params, h.spared, h.cond⟩
  modeStep k h := takesPages_modeStep k h
  thenDropPage h := takesPages_thenDropPage h

/-- The boundary before BUSY clears keeps the cache right; a command that reset abandons there leaves BUSY = 1. -/
theorem coherent_closeCommand (hp : p.wf = true) {f : State → State}
    (hf : ∀ u, (f u).pcache = u.pcache ∧ (f u).params = u.params ∧ (f u).chip = u.chip) (hb : s.busy = true)
    (hs : s.Pages p .coherent) (ht : (s.closeCommand f).busy = false) : (s.closeCommand f).pageCoherent := by
  have h := takesPages_boundary hp s hs
  have hbusy := (carries_boundary (p := {}) rfl s hb).busy rfl
  unfold State.closeCommand at ht ⊢
  cases hr : boundary s with
  | ok a u =>
    rw [hr] at h
    obtain ⟨hc, hpar, hchip⟩ := hf u
    intro q hq
    exact (chipPage_of_regs (t := f u) hpar (congrArg Chip.regs hchip)).trans (State.Pages.cond h q (hc ▸ hq))
  | error e u =>
    simp only [hr] at ht
    rw [hr] at hbusy
    exact absurd (ht.symm.trans (hbusy.trans hb)) nofun

theorem coherent_commandResult (hp : p.wf = true) {r : EStateM.Result Stop State Unit} (hb : (endState r).busy = true)
    (hs : EndsPages p .coherent r) (ht : (commandResult r).busy = false) : (commandResult r).pageCoherent := by
  have same : ∀ u : State, (id u).pcache = u.pcache ∧ (id u).params = u.params ∧ (id u).chip = u.chip :=
    fun _ => ⟨rfl, rfl, rfl⟩
  cases r with
  | ok a u => exact coherent_closeCommand hp same hb hs ht
  | error e u =>
    cases e with
    | raised e => exact coherent_closeCommand hp (fun u => by cases e <;> exact ⟨rfl, rfl, rfl⟩) hb hs ht
    | unwritten => exact coherent_closeCommand hp same hb hs ht
    | abandoned => exact absurd (ht.symm.trans hb) nofun
    | hung => exact absurd (ht.symm.trans hb) nofun

/-- A command whose bursts go to FIFO_ADDR only keeps the cache right. -/
theorem coherent_exec (hp : s.params.wf = true) {i : Instr} (hs : s.Pages s.params .coherent)
    (hw : ∀ fa off len, i = .fifoWrite fa off len → fa = s.params.fifoAddr)
    (hr : ∀ fa off len, i = .fifoRead fa off len → fa = s.params.fifoAddr) (h : exec i s = .next t)
    (ht : t.busy = false) : t.pageCoherent := by
  have hbw : ∀ a, i.burstWriteAt s.params = some a → a = s.params.fifoAddr := by
    intro a ha
    cases i <;> cases ha
    · exact hw a _ _ rfl
    · rfl
  have hbr : ∀ a, i.burstReadAt s.params = some a → a = s.params.fifoAddr := by
    intro a ha
    cases i <;> cases ha
    · exact hr a _ _ rfl
    · rfl
    · rfl
  rw [exec_eq_run] at h
  cases h
  exact coherent_commandResult hp ((carries_commandOf i s.beginCommand rfl).busy (permOf_status i))
    ((closed_takesPages hp).commandOf i (fun _ _ => trivial) (fun _ _ => trivial) hbw hbr _
      ⟨hs.params, hs.spared, hs.cond⟩) ht

/-- What an input that starts no command leaves of the cache's invariant. -/
theorem coherent_arrive (hp : s.params.wf = true) {i : Input} (hs : s.busy = false → s.pageCoherent)
    (hi : i.sparesPage s.params) (ht : (s.arrive i).busy = false) : (s.arrive i).pageCoherent := by
  by_cases hr : ∃ b, i = .resetRelease b
  · obtain ⟨b, rfl⟩ := hr
    simp only [State.arrive] at ht ⊢
    split
    · exact nofun
    · next h =>
      rw [if_neg h] at ht
      exact hs ht
  · have hr' : ∀ b, i ≠ .resetRelease b := fun b h => hr ⟨b, h⟩
    intro q hq
    rw [chipPage_arrive hp hi hr']
    rw [(kept_arrive s i hr').pcache] at hq
    exact hs ((carried_arrive_any s i hr').busy rfl ▸ ht) q hq

/-- Settles O13: by the cases of a step; for a command, `PageCond.coherent` is closed under all a command is made of. -/
theorem stepKeepsPageCoherence : Obligations.StepKeepsPageCoherence := by
  intro s t hp hs hin hburst h ht
  rcases step_cases h with rfl | ⟨i, rest, hi, rfl⟩ | ⟨addr, width, w, rest, c, hi, hb, hd, he⟩
    | ⟨addr, width, w, rest, hi, hb, rfl⟩
  · exact hs ht
  · exact coherent_arrive (s := { s with inputs := rest }) hp hs (hin i (by simp [hi])) ht
  · obtain ⟨hfw, hfr⟩ := hburst addr width w rest c hi hd
    exact coherent_exec (s := { s with inputs := rest, cmd := w }) hp
      ⟨rfl, fun x hx => hin x (List.mem_append_right _ hx), hs hb⟩ hfw hfr he ht
  · exact coherent_closeCommand hp (fun _ => ⟨rfl, rfl, rfl⟩) rfl
      ⟨rfl, fun x hx => hin x (List.mem_append_right _ hx), hs hb⟩ ht

end
end Sys2Proof.Machine
end

section
/-! What a command leaves of the block's own registers and of memory: from `Carried`, and, for the two commands whose stores
depend on what they read, from the bursts they issue. -/

namespace Sys2Proof.Machine

/-! ## The permissions, command by command -/

theorem permOf_result (i : Instr) : (permOf i).result = i.returnsValue := by cases i <;> rfl

theorem permOf_mailbox {i : Instr} (h : i ≠ .dispatch) : (permOf i).mailbox = false := by
  cases i with
  | dispatch => exact absurd rfl h
  | _ => rfl

theorem permOf_pend {i : Instr} (h : i ≠ .dispatch) : (permOf i).pend = false := by
  cases i with
  | dispatch => exact absurd rfl h
  | _ => rfl

theorem permOf_rxFlag {i : Instr} (h : i ≠ .dispatch) (hf : ∀ f, i ≠ .setRxflag f) : (permOf i).rxFlag = false := by
  cases i with
  | dispatch => exact absurd rfl h
  | setRxflag f => exact absurd rfl (hf f)
  | _ => rfl

theorem permOf_txFlag {i : Instr} (h : i ≠ .dispatch) (hf : ∀ f, i ≠ .setTxflag f) : (permOf i).txFlag = false := by
  cases i with
  | dispatch => exact absurd rfl h
  | setTxflag f => exact absurd rfl (hf f)
  | _ => rfl

theorem permOf_tcxo {i : Instr} (h1 : i ≠ .wakeDeep) (h2 : i ≠ .wakeSleep) (h3 : i ≠ .sleep) (h4 : i ≠ .deepSleep) :
    (permOf i).tcxo = false := by
  cases i with
  | wakeDeep => exact absurd rfl h1
  | wakeSleep => exact absurd rfl h2
  | sleep => exact absurd rfl h3
  | deepSleep => exact absurd rfl h4
  | _ => rfl

/-- Settles O15: each field from the permission `permOf` does not give. -/
theorem blockFrame : Obligations.BlockFrame := by
  intro i s t h
  have hc := exec_carried i h
  exact ⟨hc.params, hc.cmd, fun hr => hc.result ((permOf_result i).trans hr),
    fun hi => ⟨hc.tag (permOf_mailbox hi), hc.len (permOf_mailbox hi), hc.rssi (permOf_mailbox hi), hc.snr (permOf_mailbox hi)⟩,
    fun hi hf => hc.rxFlag (permOf_rxFlag hi hf), fun hi hf => hc.txFlag (permOf_txFlag hi hf),
    fun h1 h2 h3 h4 => hc.tcxo (permOf_tcxo h1 h2 h3 h4), fun hi => hc.pend (permOf_pend hi), hc.ovr, hc.faults⟩

/-- The bytes `permOf` lets a command store to are those its rule names. -/
theorem permOf_range (i : Instr) :
    match i.rbufRange with
    | some (off, n) => (permOf i).lo = 0x100 + off ∧ (permOf i).hi = 0x100 + off + n
    | none => (permOf i).lo = 0 ∧ (permOf i).hi = 0 := by
  cases i <;> exact ⟨rfl, rfl⟩

/-! ## The outputs of a part of a command -/

section
variable {α β : Type} {p : Params} {E : BusEvent → Prop} {s t : State}

/-- All a transaction can end as: good; faulted, which logs the fault; or abandoned at the boundary or never ending, which
log nothing. -/
theorem transact_ends {before : State → State} {good : List Byte → State → α × State} {lost : State → State}
    {failed : BusEvent} (hb : ∀ s, Kept s (before s)) (hl : ∀ s, Kept s (lost s)) (s : State) :
    (∃ l u, u.log = s.log ∧ u.params = s.params
        ∧ transact before good lost failed s = .ok (good l u).1 (good l u).2)
      ∨ (∃ u, u.log = s.log ++ [failed] ∧ u.params = s.params ∧ transact before good lost failed s = .error (.raised .bus) u)
      ∨ ∃ e u, (e = .abandoned ∨ e = .hung) ∧ u.log = s.log ∧ u.params = s.params
        ∧ transact before good lost failed s = .error e u := by
  obtain ⟨hlog, -, hpar⟩ := boundary_outputs s
  simp only [transact, bind, EStateM.bind]
  cases hr : boundary s with
  | error e u =>
    rw [hr] at hlog hpar
    exact .inr (.inr ⟨e, u, .inl (boundary_error hr), hlog, hpar, rfl⟩)
  | ok _ v =>
    rw [hr] at hlog hpar
    obtain ⟨hl2, hp2⟩ := nextAnswer_log (before v).advance
    have hl3 := (hl2.trans (hb v).log).trans hlog
    have hp3 := (hp2.trans (hb v).params).trans hpar
    dsimp only
    split
    · exact .inl ⟨_, _, hl3, hp3, rfl⟩
    · exact .inr (.inl ⟨((lost (before v).advance.nextAnswer.2).logged failed).dropPage, by
        rw [State.dropPage_log, State.logged_log, (hl _).log, hl3],
        (hl _).params.trans hp3, rfl⟩)
    · exact .inr (.inr ⟨_, _, .inr rfl, (hl _).log.trans hl3, (hl _).params.trans hp3, rfl⟩)

/-- Every output of a part of a command has a property. -/
def Logs (p : Params) (E : BusEvent → Prop) (α : Type) (c : Cmd α) : Prop := ∀ s, s.params = p →
  (endState (c s)).params = p ∧ ∃ evs, (endState (c s)).log = s.log ++ evs ∧ ∀ e ∈ evs, E e

theorem logs_silent {c : Cmd α} (h : ∀ s, (endState (c s)).log = s.log ∧ (endState (c s)).params = s.params) :
    Logs p E α c := fun s hs => ⟨(h s).2.trans hs, [], by rw [(h s).1, List.append_nil], nofun⟩

theorem logs_bind {c : Cmd α} {f : α → Cmd β} (hc : Logs p E α c) (hf : ∀ a, Logs p E β (f a)) :
    Logs p E β (c >>= f) := by
  intro s hs
  obtain ⟨hp, evs, hl, he⟩ := hc s hs
  cases hr : c s with
  | ok a t =>
    rw [hr] at hp hl
    obtain ⟨hp2, evs2, hl2, he2⟩ := hf a t hp
    rw [bind_ok hr]
    refine ⟨hp2, evs ++ evs2, by rw [hl2, ← List.append_assoc]; exact congrArg (· ++ evs2) hl, fun e h => ?_⟩
    exact (List.mem_append.1 h).elim (he e) (he2 e)
  | error e t =>
    rw [hr] at hp hl
    rw [bind_error hr]
    exact ⟨hp, evs, hl, he⟩

theorem logs_change {f : State → State} (h : ∀ s, (f s).log = s.log ∧ (f s).params = s.params) :
    Logs p E Unit (change f) := logs_silent h

theorem logs_kept {f : State → State} (h : ∀ s, Kept s (f s)) : Logs p E Unit (change f) :=
  logs_change fun s => ⟨(h s).log, (h s).params⟩

theorem logs_raise (e : Error) : Logs p E α (raiseError e) := logs_silent fun _ => ⟨rfl, rfl⟩

theorem logs_boundary : Logs p E Unit boundary := logs_silent fun s =>
  ⟨(boundary_outputs s).1, (boundary_outputs s).2.2⟩

theorem logs_transact {before : State → State} {good : List Byte → State → α × State} {lost : State → State}
    {failed : BusEvent} (hb : ∀ s, Kept s (before s))
    (hg : ∀ l s, (good l s).2.params = s.params ∧ ∃ e, (good l s).2.log = s.log ++ [e] ∧ E e) (hl : ∀ s, Kept s (lost s))
    (hf : E failed) : Logs p E α (transact before good lost failed) := by
  intro s hs
  rcases transact_ends (good := good) (failed := failed) hb hl s with ⟨l, u, hlog, hp, h⟩ | ⟨u, hlog, hp, h⟩ |
    ⟨e, u, -, hlog, hp, h⟩
  · obtain ⟨hgp, e, hge, he⟩ := hg l u
    rw [h]
    exact ⟨(hgp.trans hp).trans hs, [e], hge.trans (congrArg (· ++ [e]) hlog), by simpa using he⟩
  · rw [h]
    exact ⟨hp.trans hs, [failed], hlog, by simpa using hf⟩
  · rw [h]
    exact ⟨hp.trans hs, [], by rw [List.append_nil]; exact hlog, nofun⟩

/-- An output that is no burst read. -/
def BusEvent.noBurstRead (e : BusEvent) : Prop := ∀ a n got, e ≠ .burstRead a n got

theorem logs_busRead (a : Byte) : Logs p BusEvent.noBurstRead Byte (busRead a) :=
  logs_transact (fun s => kept_pageDrawn s a)
    (fun l s => by
      have hk := kept_chipByte s a l
      have hm := kept_monitorRead ((s.chipByte a l).2.logged (.read a (some (s.chipByte a l).1))) a (s.chipByte a l).1
      exact ⟨hm.params.trans hk.params, _, hm.log.trans (congrArg (· ++ [_]) hk.log), fun _ _ _ h => nomatch h⟩)
    (fun s => kept_chipReadLost s a 1) fun _ _ _ h => nomatch h

theorem logs_busWrite (a v : Byte) : Logs p BusEvent.noBurstRead Unit (busWrite a v) :=
  logs_transact (fun s => kept_monitorWrite s a v)
    (fun _ s => ⟨(kept_chipWrite s a v).params, _, congrArg (· ++ [_]) (kept_chipWrite s a v).log, fun _ _ _ h => nomatch h⟩)
    (fun s => kept_busWriteLost s a) fun _ _ _ h => nomatch h

theorem logs_burstWrite (a : Byte) (bs : List Byte) : Logs p BusEvent.noBurstRead Unit (busBurstWrite a bs) :=
  logs_transact
    (fun s => by
      split
      · exact Kept.refl s
      · exact kept_monitorWrite s a _)
    (fun _ s => ⟨(kept_chipBurst s a bs).params, _, congrArg (· ++ [_]) (kept_chipBurst s a bs).log, fun _ _ _ h => nomatch h⟩)
    (fun s => kept_chipBurstLost s a) fun _ _ _ h => nomatch h

theorem logs_switchPage (pg : Page) : Logs p BusEvent.noBurstRead Unit (switchPage pg) := by
  intro s hs
  unfold switchPage
  split
  · exact ⟨hs, [], (List.append_nil _).symm, nofun⟩
  · refine logs_bind (logs_busRead _) (fun v => logs_bind (logs_busWrite _ _) fun _ =>
      logs_bind (logs_busRead _) fun r => ?_) s hs
    split
    · exact logs_change fun _ => ⟨rfl, rfl⟩
    · exact logs_bind (logs_change fun u => ⟨(kept_unverified u _).log, (kept_unverified u _).params⟩) fun _ => logs_raise _

theorem logs_pagedRead (r : RegAt) : Logs p BusEvent.noBurstRead Byte (pagedRead r) :=
  logs_bind (logs_switchPage r.page) fun _ => logs_busRead r.addr

theorem logs_pagedWrite (r : RegAt) (v : Byte) : Logs p BusEvent.noBurstRead Unit (pagedWrite r v) := by
  refine logs_bind (logs_switchPage r.page) fun _ => logs_bind (logs_busWrite _ _) fun _ =>
    logs_bind (logs_change fun s => ?_) fun _ => logs_bind (logs_busRead _) fun got => ?_
  · split <;> exact ⟨rfl, rfl⟩
  · split
    · exact logs_kept fun s => kept_writeVerified s _ v
    · exact logs_bind (logs_kept fun s => (kept_unverified s _).trans (kept_clearFailed _ _ v got)) fun _ => logs_raise _

/-- A part that ends with the outputs and the parameters another one ends with. -/
theorem Logs.of_end {c : Cmd α} {d : Cmd β} (hc : Logs p E α c)
    (h : ∀ s, (endState (d s)).log = (endState (c s)).log ∧ (endState (d s)).params = (endState (c s)).params) :
    Logs p E β d := fun s hs => by
  rw [(h s).1, (h s).2]
  exact hc s hs

/-- A mode step and the dropping of the page issue what their body issues. -/
theorem modeStep_outputs (k : BitVec 4) (c : Cmd α) (s : State) :
    (endState (modeStep k c s)).log = (endState (c s)).log ∧ (endState (modeStep k c s)).params = (endState (c s)).params := by
  unfold modeStep
  cases c s with
  | ok a u => exact ⟨rfl, rfl⟩
  | error e u =>
    cases e with
    | raised e =>
      cases e with
      | verify r =>
        simp only [endState_error]
        split <;> exact ⟨rfl, rfl⟩
      | _ => exact ⟨rfl, rfl⟩
    | _ => exact ⟨rfl, rfl⟩

theorem thenDropPage_outputs (c : Cmd Unit) (s : State) :
    (endState (thenDropPage c s)).log = (endState (c s)).log
      ∧ (endState (thenDropPage c s)).params = (endState (c s)).params := by
  unfold thenDropPage
  cases c s with
  | ok a u => exact ⟨rfl, rfl⟩
  | error e u => cases e <;> exact ⟨rfl, rfl⟩

/-- Nothing but a burst read issues one. -/
theorem closed_noBurstRead (p : Params) :
    Closed (Logs p BusEvent.noBurstRead) p (fun _ => True) (fun _ => True) (fun _ => True) (fun _ => False) where
  pure _ := logs_silent fun _ => ⟨rfl, rfl⟩
  bind := logs_bind
  params h := fun s hs => by
    rw [getParams_bind, hs]
    exact h s hs
  raise := logs_raise
  dropPage := logs_change fun _ => ⟨rfl, rfl⟩
  setResult _ := logs_change fun _ => ⟨rfl, rfl⟩
  storeRbuf _ _ := logs_change fun _ => ⟨rfl, rfl⟩
  clearPend := logs_change fun _ => ⟨rfl, rfl⟩
  deliver st d := logs_kept fun s => (kept_deliver s st d).1
  applyFlag f := logs_kept fun s => kept_applyFlag s f
  readBuffer buf off len := logs_silent fun s => by
    unfold readBuffer
    split <;> exact ⟨rfl, rfl⟩
  pagedRead r _ := logs_pagedRead r
  pagedWrite r v _ := logs_pagedWrite r v
  burstWrite a l _ := logs_burstWrite a l
  burstRead a off n h := h.elim
  callCap c := logs_bind logs_boundary fun _ s hs => ⟨hs, [_], rfl, by simp [BusEvent.noBurstRead]⟩
  delay t := logs_bind logs_boundary fun _ s hs => ⟨hs, [_], rfl, by simp [BusEvent.noBurstRead]⟩
  modeStep k h := h.of_end (modeStep_outputs k _)
  thenDropPage h := h.of_end (thenDropPage_outputs _)

/-! ## What is stored, by the bursts issued -/

/-- A burst read among the outputs whose bytes reach the address, when stored from RBUF[0] on. -/
def Covered (evs : List BusEvent) (a : Nat) : Prop := ∃ fa n got, .burstRead fa n got ∈ evs ∧ 0x100 ≤ a ∧ a < 0x100 + n

/-- A part of a running command, with outputs that all have `E`, stores nothing but to the addresses `K` and to those its
bursts cover. -/
def Stores (p : Params) (E : BusEvent → Prop) (K : Nat → Prop) {α : Type} (c : Cmd α) : Prop :=
  ∀ s, s.params = p → s.busy = true → (endState (c s)).params = p ∧ (endState (c s)).busy = true
    ∧ ∃ evs, (endState (c s)).log = s.log ++ evs ∧ (∀ e ∈ evs, E e)
      ∧ ∀ a, ¬ Covered evs a → ¬ K a → (endState (c s)).mem.read a = s.mem.read a

variable {F : BusEvent → Prop} {K L : Nat → Prop}

theorem Stores.mono {c : Cmd α} (h : Stores p E K c) (hE : ∀ e, E e → F e) (hK : ∀ a, K a → L a) : Stores p F L c := by
  intro s hs hb
  obtain ⟨hp, hb', evs, hl, he, hm⟩ := h s hs hb
  exact ⟨hp, hb', evs, hl, fun e h => hE e (he e h), fun a hc hk => hm a hc (hk ∘ hK a)⟩

theorem stores_bind {c : Cmd α} {f : α → Cmd β} (hc : Stores p E K c) (hf : ∀ a, Stores p E K (f a)) :
    Stores p E K (c >>= f) := by
  intro s hs hb
  obtain ⟨hp, hb1, evs, hl, he, hm⟩ := hc s hs hb
  cases hr : c s with
  | ok a t =>
    rw [hr] at hp hb1 hl hm
    obtain ⟨hp2, hb2, evs2, hl2, he2, hm2⟩ := hf a t hp hb1
    rw [bind_ok hr]
    refine ⟨hp2, hb2, evs ++ evs2, by rw [hl2, ← List.append_assoc]; exact congrArg (· ++ evs2) hl,
      fun e h => (List.mem_append.1 h).elim (he e) (he2 e), fun x hx hk => ?_⟩
    have h1 : ¬ Covered evs x := fun ⟨fa, n, got, h, hx1⟩ => hx ⟨fa, n, got, List.mem_append_left _ h, hx1⟩
    have h2 : ¬ Covered evs2 x := fun ⟨fa, n, got, h, hx1⟩ => hx ⟨fa, n, got, List.mem_append_right _ h, hx1⟩
    exact (hm2 x h2 hk).trans (hm x h1 hk)
  | error e t =>
    rw [hr] at hp hb1 hl hm
    rw [bind_error hr]
    exact ⟨hp, hb1, evs, hl, he, hm⟩

theorem stores_params {f : Params → Cmd β} (h : Stores p E K (f p)) : Stores p E K (getParams >>= f) := by
  intro s hs hb
  rw [getParams_bind, hs]
  exact h s hs hb

/-- A part that issues no burst stores where it is permitted to. -/
theorem Stores.of_logs {c : Cmd α} {q : Perm} (hl : Logs p E α c) (hc : Carries q c) (hq : q.status = false)
    (hK : ∀ a, q.lo ≤ a → a < q.hi → K a) : Stores p E K c := by
  intro s hs hb
  obtain ⟨hp, evs, hlog, he⟩ := hl s hs
  have hca := hc s hb
  exact ⟨hp, (hca.busy hq).trans hb, evs, hlog, he, fun a _ hk => hca.memOut a fun ⟨h1, h2⟩ => hk (hK a h1 h2)⟩

/-- All a burst read can end as. -/
theorem busBurstRead_ends (a : Byte) (n : Nat) (s : State) :
    (∃ bs u, busBurstRead a n s = .ok bs u ∧ u.log = s.log ++ [.burstRead a n (some bs)])
      ∨ (∃ u, busBurstRead a n s = .error (.raised .bus) u ∧ u.log = s.log ++ [.burstRead a n none])
      ∨ ∃ e u, (e = .abandoned ∨ e = .hung) ∧ busBurstRead a n s = .error e u ∧ u.log = s.log := by
  rcases transact_ends (α := List Byte)
      (good := fun l s => ((s.chipBytes a l n).1,
        ((s.chipBytes a l n).2.chipBurstRead a n).logged (.burstRead a n (some (s.chipBytes a l n).1))))
      (failed := .burstRead a n none) (fun s => Kept.refl s)
      (fun s => (kept_chipReadLost s a n).trans (kept_chipBurstRead _ a n)) s with
    ⟨l, u, hlog, -, h⟩ | ⟨u, hlog, -, h⟩ | ⟨e, u, he, hlog, -, h⟩
  · have hk := (kept_chipBytes u a l n).trans (kept_chipBurstRead _ a n)
    exact .inl ⟨_, _, h, congrArg (· ++ [_]) (hk.log.trans hlog)⟩
  · exact .inr (.inl ⟨u, h, hlog⟩)
  · exact .inr (.inr ⟨e, u, he, h, hlog⟩)

/-- A burst read stored from RBUF[0] on stores no more than it issued. -/
theorem stores_burstIntoRbuf (a : Byte) (n : Nat) : Stores p (fun _ => True) (fun _ => False) (burstIntoRbuf a 0 n) := by
  intro s hs hb
  have hca := carries_busBurstRead (p := {}) rfl a n s hb
  have hfr := carries_burstIntoRbuf (p := { lo := 0x100, hi := 0x100 + n }) rfl a 0 n (Nat.le_refl _) (Nat.le_refl _) s hb
  have outside (got : Option (List Byte)) (x : Nat) (hx : ¬ Covered [.burstRead a n got] x) :
      (endState (burstIntoRbuf a 0 n s)).mem.read x = s.mem.read x :=
    hfr.memOut x fun h => hx ⟨a, n, got, List.mem_singleton_self _, h⟩
  refine ⟨hfr.params.trans hs, (hfr.busy rfl).trans hb, ?_⟩
  rcases busBurstRead_ends a n s with ⟨bs, u, h, hlog⟩ | ⟨u, h, hlog⟩ | ⟨e, u, he, h, hlog⟩
  · refine ⟨[.burstRead a n (some bs)], ?_, fun _ _ => trivial, fun x hx _ => outside _ x hx⟩
    simp only [burstIntoRbuf, h]
    exact hlog
  · refine ⟨[.burstRead a n none], ?_, fun _ _ => trivial, fun x hx _ => outside _ x hx⟩
    simp only [burstIntoRbuf, h]
    exact (kept_drawList u n).log.trans hlog
  · rw [h] at hca
    refine ⟨[], ?_, nofun, fun x _ _ => ?_⟩ <;> rcases he with rfl | rfl <;> simp only [burstIntoRbuf, h]
    · exact hlog.trans (List.append_nil _).symm
    · exact hlog.trans (List.append_nil _).symm
    · exact congrArg (Memory.read · x) (hca.memSame (Nat.le_refl _))
    · exact congrArg (Memory.read · x) (hca.memSame (Nat.le_refl _))

/-- The bytes of a PLHD read of `p`'s length. -/
def plhdBytes (p : Params) (a : Nat) : Prop := 0x100 ≤ a ∧ a < 0x100 + plhdCount p.plhdLen

theorem stores_none {c : Cmd α} (hl : Logs p BusEvent.noBurstRead α c) (hc : Carries {} c) :
    Stores p BusEvent.noBurstRead (fun _ => False) c :=
  Stores.of_logs hl hc rfl fun _ h1 h2 => absurd (Nat.lt_of_le_of_lt h1 h2) (Nat.lt_irrefl _)

theorem stores_clearIrq : Stores p BusEvent.noBurstRead (fun _ => False) clearIrq :=
  stores_none ((closed_noBurstRead p).clearIrq trivial) (carries_clearIrq rfl)

theorem stores_pagedRead (r : RegAt) : Stores p BusEvent.noBurstRead (fun _ => False) (pagedRead r) :=
  stores_none (logs_pagedRead r) (carries_pagedRead rfl r)

theorem stores_pure (a : α) : Stores p E K (pure a : Cmd α) := fun _ hs hb =>
  ⟨hs, hb, [], (List.append_nil _).symm, nofun, fun _ _ _ => rfl⟩

/-- A change that stores nothing, logs nothing and keeps BUSY. -/
theorem stores_change {f : State → State}
    (h : ∀ s, (f s).params = s.params ∧ (f s).busy = s.busy ∧ (f s).log = s.log ∧ (f s).mem = s.mem) :
    Stores p E K (change f) := fun s hs hb =>
  have ⟨hp, hbusy, hl, hm⟩ := h s
  ⟨hp.trans hs, hbusy.trans hb, [], hl.trans (List.append_nil _).symm, nofun, fun a _ _ => congrArg (Memory.read · a) hm⟩

theorem stores_drainFrame : Stores p (fun _ => True) (fun _ => False) drainFrame := by
  refine stores_params (stores_bind ((stores_pagedRead _).mono (fun _ _ => trivial) fun _ => id) fun n => ?_)
  split
  · exact stores_pure n
  · exact stores_bind (stores_burstIntoRbuf _ _) fun _ => stores_pure n

theorem stores_deliver (status : Byte) (d : Delivery) : Stores p E K (change fun s => s.deliver status d) :=
  stores_change fun s =>
    have hc := carried_deliver (p := permOf .dispatch) rfl rfl rfl rfl s status d
    ⟨hc.params, hc.busy rfl, (kept_deliver s status d).1.log, by obtain ⟨_, _, f, m⟩ := d; cases m <;> cases f <;> rfl⟩

/-- The PLHD handler stores its bytes and issues no burst. -/
theorem stores_handlePlhd : Stores p BusEvent.noBurstRead (plhdBytes p) handlePlhd := by
  have hn := closed_noBurstRead p
  refine stores_params (stores_bind ?_ fun _ => stores_bind ?_ fun _ => stores_bind ?_ fun _ => stores_pure _)
  · exact Stores.of_logs (q := { lo := 0x100, hi := 0x100 + plhdCount p.plhdLen })
      (hn.params (hn.plhdReadFrom _ (fun _ _ => trivial) 0)) (carries_plhdRead rfl _ (Nat.le_refl _) (Nat.le_refl _)) rfl
      fun _ h1 h2 => ⟨h1, h2⟩
  · exact stores_clearIrq.mono (fun _ => id) fun _ => False.elim
  · refine Stores.mono (stores_none ?_ (carries_modeReset rfl)) (fun _ => id) fun _ => False.elim
    exact hn.params (hn.thenDropPage (hn.modeStep 1 (hn.resetActions _ trivial fun _ _ => trivial)))

/-- The other handlers store what their burst returns. -/
theorem stores_runHandler {x : Handler} (hx : x ≠ .plhd) : Stores p (fun _ => True) (fun _ => False) (runHandler x) := by
  have noPayload (tag : EventTag) (f : FlagUpdate) : Stores p (fun _ => True) (fun _ => False) (handleNoPayload tag f) :=
    stores_bind (stores_clearIrq.mono (fun _ _ => trivial) fun _ => id) fun _ => stores_pure _
  have hn := closed_noBurstRead p
  cases x with
  | plhd => exact absurd rfl hx
  | rxDone =>
    refine stores_bind ?_ fun _ => stores_bind stores_drainFrame fun _ =>
      stores_bind (stores_clearIrq.mono (fun _ _ => trivial) fun _ => id) fun _ => stores_pure _
    refine Stores.mono (stores_none ?_ (carries_linkMetrics rfl)) (fun _ _ => trivial) fun _ => id
    exact hn.params (hn.bind (hn.readAll _ fun _ _ => trivial) fun _ => hn.pure _)
  | crcErr => exact noPayload _ _
  | rxTo => exact noPayload _ _
  | txDone => exact noPayload _ _
  | none => exact stores_pure _

/-- What DISPATCH is said to store: the bytes its bursts cover, or, where it issues none, its PLHD bytes. -/
def StoresAsSaid (p : Params) {α : Type} (c : Cmd α) : Prop :=
  ∀ s, s.params = p → s.busy = true → ∃ evs, (endState (c s)).log = s.log ++ evs
    ∧ ∀ a, ¬ Covered evs a → ((∀ fa n got, .burstRead fa n got ∉ evs) → ¬ plhdBytes p a) →
      (endState (c s)).mem.read a = s.mem.read a

theorem Stores.asSaid_burst {c : Cmd α} (h : Stores p (fun _ => True) (fun _ => False) c) : StoresAsSaid p c :=
  fun s hs hb =>
    have ⟨_, _, evs, hl, _, hm⟩ := h s hs hb
    ⟨evs, hl, fun a hc _ => hm a hc id⟩

theorem Stores.asSaid_plhd {c : Cmd α} (h : Stores p BusEvent.noBurstRead (plhdBytes p) c) : StoresAsSaid p c :=
  fun s hs hb =>
    have ⟨_, _, evs, hl, he, hm⟩ := h s hs hb
    ⟨evs, hl, fun a hc hk => hm a hc (hk fun fa n got hmem => he _ hmem fa n got rfl)⟩

theorem storesAsSaid_bind {c : Cmd α} {f : α → Cmd β} (hc : Stores p BusEvent.noBurstRead (fun _ => False) c)
    (hf : ∀ a, StoresAsSaid p (f a)) : StoresAsSaid p (c >>= f) := by
  intro s hs hb
  obtain ⟨hp, hb1, evs, hl, he, hm⟩ := hc s hs hb
  have hnone : ∀ x, ¬ Covered evs x := fun _ ⟨fa, n, got, h, _⟩ => he _ h fa n got rfl
  cases hr : c s with
  | ok a t =>
    rw [hr] at hp hb1 hl hm
    obtain ⟨evs2, hl2, hm2⟩ := hf a t hp hb1
    rw [bind_ok hr]
    refine ⟨evs ++ evs2, by rw [hl2, ← List.append_assoc]; exact congrArg (· ++ evs2) hl, fun x hx hk => ?_⟩
    refine (hm2 x (fun ⟨fa, n, got, h, hx1⟩ => hx ⟨fa, n, got, List.mem_append_right _ h, hx1⟩) fun h2 => hk ?_).trans
      (hm x (hnone x) id)
    exact fun fa n got h => (List.mem_append.1 h).elim (fun h => he _ h fa n got rfl) (h2 fa n got)
  | error e t =>
    rw [hr] at hl hm
    rw [bind_error hr]
    exact ⟨evs, hl, fun x _ _ => hm x (hnone x) id⟩

theorem storesAsSaid_dispatch : StoresAsSaid p dispatchCommand := by
  refine storesAsSaid_bind (stores_change fun _ => ⟨rfl, rfl, rfl, rfl⟩) fun _ => ?_
  intro s hs
  rw [getParams_bind, hs]
  refine storesAsSaid_bind (stores_pagedRead _) (fun status => ?_) s hs
  by_cases hx : selectHandler p status = .plhd
  · rw [hx]
    exact (stores_bind stores_handlePlhd fun d => stores_deliver status d).asSaid_plhd
  · exact (stores_bind (stores_runHandler hx) fun d => stores_deliver status d).asSaid_burst

theorem stores_receive : Stores p (fun _ => True) (fun _ => False) receiveCommand :=
  stores_bind stores_drainFrame fun _ => stores_bind (stores_clearIrq.mono (fun _ _ => trivial) fun _ => id) fun _ =>
    stores_change fun _ => ⟨rfl, rfl, rfl, rfl⟩

/-- The memory a command leaves is the memory its body ends with. -/
theorem exec_mem {i : Instr} (h : exec i s = .next t) : t.mem = (endState (commandOf i s.beginCommand)).mem := by
  rw [exec_eq_run] at h
  cases h
  exact (carried_commandResult (p := {}) rfl _ ((carries_commandOf i s.beginCommand rfl).busy (permOf_status i))).memSame
    (Nat.le_refl _)

end

/-- Settles O16: the byte frame from `permOf`; for RECEIVE and DISPATCH from the bursts their bodies issue. -/
theorem memoryFrame : Obligations.MemoryFrame := by
  intro i s t evs h hlog
  have hc := exec_carried i h
  have hrange := permOf_range i
  refine ⟨fun hn => ?_, fun a ha => hc.memOut a ?_, ?_⟩
  · rw [hn] at hrange
    exact hc.memSame (by rw [hrange.1, hrange.2])
  · cases hr : i.rbufRange with
    | none =>
      simp only [hr] at hrange
      dsimp only
      omega
    | some r =>
      simp only [hr] at hrange
      have := ha r.1 r.2 hr
      dsimp only
      omega
  · have events {evs2 : List BusEvent} (h2 : (endState (commandOf i s.beginCommand)).log = s.beginCommand.log ++ evs2) :
        evs2 = evs :=
      List.append_cancel_left (h2.symm.trans ((exec_outputs h).1.symm.trans hlog))
    rintro hi a hcov hplhd
    have hnot : ¬ Covered evs a := fun ⟨fa, n, got, hm, hx⟩ => hcov fa n got hm hx
    rw [exec_mem h]
    rcases hi with rfl | rfl
    · obtain ⟨-, -, evs2, hl, -, hm⟩ := stores_receive s.beginCommand rfl rfl
      exact hm a (events hl ▸ hnot) id
    · obtain ⟨evs2, hl, hm⟩ := storesAsSaid_dispatch s.beginCommand rfl rfl
      obtain rfl := events hl
      exact hm a hnot (hplhd rfl)

end Sys2Proof.Machine
end

section
/-! What a command leaves of the chip while nothing else acts: a view of the chip that every shared procedure keeps is kept by
every command (`closed_keeps`); the views are a register, the transmit FIFO and the receive FIFO. -/

namespace Sys2Proof.Machine

/-! ## Views of the chip, kept under a condition -/

/-- A change on the block's side only: the chip as it was, and a page cache as it was or dropped. -/
structure Local (s t : State) : Prop where
  params : t.params = s.params
  during : t.during = s.during
  busy   : t.busy = s.busy
  chip   : t.chip = s.chip
  pcache : t.pcache = s.pcache ∨ t.pcache = none

/-- A condition on running commands with the parameters `p`, with nothing arriving, that the block's own changes keep. -/
structure Held (G : State → Prop) (p : Params) : Prop where
  params : ∀ s, G s → s.params = p
  quiet  : ∀ s, G s → s.during = []
  same   : ∀ s t, G s → Local s t → G t

/-- A part of a command keeps the condition and the view. -/
def Keeps {β : Type} (G : State → Prop) (view : Chip → β) (α : Type) (c : Cmd α) : Prop :=
  ∀ s, G s → G (endState (c s)) ∧ view (endState (c s)).chip = view s.chip

section
variable {α β γ : Type} {G : State → Prop} {view : Chip → γ} {p : Params} {s t : State}

theorem Held.ofLocal (hG : Held G p) (h : Local s t) (hs : G s) : G t ∧ view t.chip = view s.chip :=
  ⟨hG.same s t hs h, congrArg view h.chip⟩

theorem keeps_bind {c : Cmd α} {f : α → Cmd β} (hc : Keeps G view α c) (hf : ∀ a, Keeps G view β (f a)) :
    Keeps G view β (c >>= f) := by
  intro s hs
  obtain ⟨h, hv⟩ := hc s hs
  cases hr : c s with
  | ok a t =>
    rw [hr] at h hv
    rw [bind_ok hr]
    exact ⟨(hf a t h).1, (hf a t h).2.trans hv⟩
  | error e t =>
    rw [hr] at h hv
    rw [bind_error hr]
    exact ⟨h, hv⟩

/-- A part that changes the block's side only. -/
theorem Held.keeps (hG : Held G p) {c : Cmd α} (h : ∀ s, G s → Local s (endState (c s))) : Keeps G view α c :=
  fun s hs => hG.ofLocal (h s hs) hs

/-- A part whose end differs from another's on the block's side only. -/
theorem Held.keeps_end (hG : Held G p) {c : Cmd α} {d : Cmd β} (hc : Keeps G view α c)
    (h : ∀ s, Local (endState (c s)) (endState (d s))) : Keeps G view β d := fun s hs =>
  have ⟨hg, hv⟩ := hc s hs
  have ⟨hg2, hv2⟩ := hG.ofLocal (view := view) (h s) hg
  ⟨hg2, hv2.trans hv⟩

theorem Held.keeps_change (hG : Held G p) {f : State → State} (h : ∀ s, Local s (f s)) : Keeps G view Unit (change f) :=
  hG.keeps fun s _ => h s

theorem Held.keeps_boundary (hG : Held G p) : Keeps G view Unit boundary := fun s hs => by
  rw [boundary_quiet (hG.quiet s hs)]
  exact ⟨hs, rfl⟩

theorem local_modeStep (k : BitVec 4) (c : Cmd α) (s : State) : Local (endState (c s)) (endState (modeStep k c s)) := by
  unfold modeStep
  cases c s with
  | ok a u => exact ⟨rfl, rfl, rfl, rfl, .inl rfl⟩
  | error e u =>
    cases e with
    | raised e =>
      cases e with
      | verify r =>
        simp only [endState_error]
        split <;> exact ⟨rfl, rfl, rfl, rfl, .inl rfl⟩
      | _ => exact ⟨rfl, rfl, rfl, rfl, .inl rfl⟩
    | _ => exact ⟨rfl, rfl, rfl, rfl, .inl rfl⟩

theorem local_thenDropPage (c : Cmd Unit) (s : State) : Local (endState (c s)) (endState (thenDropPage c s)) := by
  unfold thenDropPage
  cases c s with
  | ok a u => exact ⟨rfl, rfl, rfl, rfl, .inr rfl⟩
  | error e u =>
    cases e with
    | hung => exact ⟨rfl, rfl, rfl, rfl, .inl rfl⟩
    | _ => exact ⟨rfl, rfl, rfl, rfl, .inr rfl⟩

theorem local_applyFlag (s : State) (f : FlagUpdate) : Local s (s.applyFlag f) := by
  cases f <;> exact ⟨rfl, rfl, rfl, rfl, .inl rfl⟩

theorem local_deliver (s : State) (status : Byte) (d : Delivery) : Local s (s.deliver status d) := by
  obtain ⟨tag, len, flag, metrics⟩ := d
  cases metrics <;> cases flag <;> exact ⟨rfl, rfl, rfl, rfl, .inl rfl⟩

/-- What the paged accesses and the bursts keep, every command made of them keeps. -/
theorem closed_keeps (hG : Held G p) {rd w : RegAt → Prop} {bw br : Byte → Prop}
    (hr : ∀ r, rd r → Keeps G view Byte (pagedRead r)) (hw : ∀ r v, w r → Keeps G view Unit (pagedWrite r v))
    (hbw : ∀ a l, bw a → Keeps G view Unit (busBurstWrite a l))
    (hbr : ∀ a off n, br a → Keeps G view Unit (burstIntoRbuf a off n)) : Closed (Keeps G view) p rd w bw br where
  pure _ := hG.keeps fun _ _ => ⟨rfl, rfl, rfl, rfl, .inl rfl⟩
  bind := keeps_bind
  params h := fun s hs => by
    rw [getParams_bind, hG.params s hs]
    exact h s hs
  raise _ := hG.keeps fun _ _ => ⟨rfl, rfl, rfl, rfl, .inl rfl⟩
  dropPage := hG.keeps_change fun _ => ⟨rfl, rfl, rfl, rfl, .inr rfl⟩
  setResult _ := hG.keeps_change fun _ => ⟨rfl, rfl, rfl, rfl, .inl rfl⟩
  storeRbuf _ _ := hG.keeps_change fun _ => ⟨rfl, rfl, rfl, rfl, .inl rfl⟩
  clearPend := hG.keeps_change fun _ => ⟨rfl, rfl, rfl, rfl, .inl rfl⟩
  deliver st d := hG.keeps_change fun s => local_deliver s st d
  applyFlag f := hG.keeps_change fun s => local_applyFlag s f
  readBuffer buf off len := hG.keeps fun s _ => by
    unfold readBuffer
    split <;> exact ⟨rfl, rfl, rfl, rfl, .inl rfl⟩
  pagedRead := hr
  pagedWrite := hw
  burstWrite := hbw
  burstRead a off n := hbr a off (n + 1)
  callCap _ := keeps_bind hG.keeps_boundary fun _ => hG.keeps_change fun _ => ⟨rfl, rfl, rfl, rfl, .inl rfl⟩
  delay _ := keeps_bind hG.keeps_boundary fun _ => hG.keeps_change fun _ => ⟨rfl, rfl, rfl, rfl, .inl rfl⟩
  modeStep k h := hG.keeps_end h (local_modeStep k _)
  thenDropPage h := hG.keeps_end h (local_thenDropPage _)

/-- The end of a command leaves the chip and IRQ_PEND, with nothing arriving. -/
theorem commandResult_quiet {r : EStateM.Result Stop State Unit} (h : (endState r).during = []) :
    (commandResult r).chip = (endState r).chip ∧ (commandResult r).irqPend = (endState r).irqPend := by
  have close (u : State) (hu : u.during = []) : (u.closeCommand id).chip = u.chip ∧ (u.closeCommand id).irqPend = u.irqPend := by
    rw [closeCommand_quiet hu]
    exact ⟨rfl, rfl⟩
  cases r with
  | ok a u => exact close u h
  | error e u =>
    cases e with
    | raised e =>
      rw [commandResult, closeCommand_quiet (s := u) h]
      cases e <;> exact ⟨rfl, rfl⟩
    | unwritten => exact close u h
    | abandoned => exact ⟨rfl, rfl⟩
    | hung => exact ⟨rfl, rfl⟩

/-- A view kept by a command's body is kept by the command. -/
theorem Keeps.exec (hG : Held G p) {i : Instr} (hc : Keeps G view Unit (commandOf i)) (hs : G s.beginCommand)
    (h : exec i s = .next t) : view t.chip = view s.chip := by
  obtain ⟨hg, hv⟩ := hc s.beginCommand hs
  rw [exec_eq_run] at h
  cases h
  rw [(commandResult_quiet (hG.quiet _ hg)).1]
  exact hv

/-! ## Off and on the test double -/

/-- A running command with the parameters `p`, with nothing arriving. -/
def Quiets (p : Params) (s : State) : Prop := s.params = p ∧ s.during = []

theorem held_quiets (p : Params) : Held (Quiets p) p where
  params _ h := h.1
  quiet _ h := h.2
  same _ _ h hl := ⟨hl.params.trans h.1, hl.during.trans h.2⟩

/-- A read at an offset leaves the view. -/
structure SparesRead (view : Chip → γ) (p : Params) (a : Byte) : Prop where
  drawn    : ∀ s : State, s.params = p → view (s.pageDrawn a).chip = view s.chip
  consumed : ∀ s : State, s.params = p → view (s.consumed a).chip = view s.chip
  lost     : ∀ s : State, s.params = p → view (s.chipReadLost a 1).chip = view s.chip

/-- A verified write at an offset leaves the view. -/
structure SparesWrite (view : Chip → γ) (p : Params) (a : Byte) : Prop extends SparesRead view p a where
  write      : ∀ (s : State) (v : Byte), s.params = p → view (s.chipWrite a v).chip = view s.chip
  writeLost  : ∀ s : State, s.params = p → view (s.chipWriteLost a).chip = view s.chip
  unverified : ∀ s : State, s.params = p → view (s.unverified a).chip = view s.chip
  failed     : ∀ (s : State) (v g : Byte), s.params = p → view (s.clearFailed a v g).chip = view s.chip
  verified   : ∀ (s : State) (v : Byte), s.params = p → view (s.writeVerified a v).chip = view s.chip

/-- A view that does not see the answers still to come. -/
def Sees (view : Chip → γ) : Prop := ∀ (c : Chip) (l : List Answer), view { c with answers := l } = view c

/-- A step that keeps what `Kept` says and the view. -/
theorem quiets_kept (hs : Quiets p s) (hk : Kept s t) : Quiets p t := ⟨hk.params.trans hs.1, hk.during.trans hs.2⟩

theorem view_nextAnswer (hv : Sees view) (s : State) : view s.nextAnswer.2.chip = view s.chip := by
  unfold State.nextAnswer
  dsimp only
  split
  · exact hv _ _
  · exact hv _ _
  · exact hv _ _
  · split <;> exact hv _ _

theorem quiets_nextAnswer (hs : Quiets p s) : Quiets p s.advance.nextAnswer.2 :=
  have ⟨_, _, hp, hd, _⟩ := advance_nextAnswer_chip s
  ⟨hp.trans hs.1, hd.trans hs.2⟩

theorem keeps_transact (hv : Sees view) {before : State → State} {good : List Byte → State → α × State}
    {lost : State → State} {failed : BusEvent}
    (hb : ∀ s, s.params = p → Kept s (before s) ∧ view (before s).chip = view s.chip)
    (hg : ∀ l s, Quiets p s → Quiets p (good l s).2 ∧ view (good l s).2.chip = view s.chip)
    (hl : ∀ s, s.params = p → Kept s (lost s) ∧ view (lost s).chip = view s.chip) :
    Keeps (Quiets p) view α (transact before good lost failed) := by
  refine keeps_bind (held_quiets p).keeps_boundary fun _ s hs => ?_
  obtain ⟨hbk, hbv⟩ := hb s hs.1
  have h1 := quiets_nextAnswer (quiets_kept hs hbk)
  have h2 : view (before s).advance.nextAnswer.2.chip = view s.chip := (view_nextAnswer hv _).trans hbv
  obtain ⟨hlk, hlv⟩ := hl _ h1.1
  dsimp only
  split
  · exact ⟨(hg _ _ h1).1, (hg _ _ h1).2.trans h2⟩
  · exact ⟨⟨hlk.params.trans h1.1, hlk.during.trans h1.2⟩, hlv.trans h2⟩
  · exact ⟨quiets_kept h1 hlk, hlv.trans h2⟩

/-- The byte a read returns is drawn or looked up; only the FIFO is touched by it. -/
theorem chip_chipByte (s : State) (a : Byte) (l : List Byte) :
    ∃ u : State, u.params = s.params ∧ u.chip = s.chip ∧ (s.chipByte a l).2 = u.consumed a := by
  refine ⟨(if s.chip.oracle then s.oracleByte a else s.drawByte).2, ?_, ?_, rfl⟩
  · split
    · exact (kept_oracleByte s a).params
    · rfl
  · split
    · unfold State.oracleByte
      split
      · rfl
      · split
        · exact regOrDraw_chip s _
        · rfl
    · rfl

theorem keeps_busRead (hv : Sees view) {a : Byte} (ha : SparesRead view p a) :
    Keeps (Quiets p) view Byte (busRead a) := by
  refine keeps_transact hv (fun s hs => ⟨kept_pageDrawn s a, ha.drawn s hs⟩) (fun l s hs => ?_)
    fun s hs => ⟨kept_chipReadLost s a 1, ha.lost s hs⟩
  have hk := kept_chipByte s a l
  have hm := kept_monitorRead ((s.chipByte a l).2.logged (.read a (some (s.chipByte a l).1))) a (s.chipByte a l).1
  refine ⟨⟨(hm.params.trans hk.params).trans hs.1, (hm.during.trans hk.during).trans hs.2⟩, ?_⟩
  obtain ⟨u, hp, hc, he⟩ := chip_chipByte s a l
  refine (congrArg view (chip_monitorRead _ a _)).trans ?_
  rw [State.logged_chip, he, ha.consumed u (hp.trans hs.1), hc]

theorem keeps_busWrite (hv : Sees view) {a : Byte} (ha : SparesWrite view p a) (v : Byte) :
    Keeps (Quiets p) view Unit (busWrite a v) := by
  refine keeps_transact hv (fun s hs => ⟨kept_monitorWrite s a v, ?_⟩) (fun _ s hs => ?_)
    fun s hs => ⟨kept_busWriteLost s a, ?_⟩
  · rw [chip_monitorWrite]
    exact ha.drawn s hs
  · have hk := kept_chipWrite s a v
    exact ⟨⟨hk.params.trans hs.1, hk.during.trans hs.2⟩, ha.write s v hs.1⟩
  · rw [regs_monitorLost]
    exact ha.writeLost s hs

/-- A change that keeps what `Kept` says and the view. -/
theorem keeps_kept {f : State → State} (h : ∀ s, s.params = p → Kept s (f s) ∧ view (f s).chip = view s.chip) :
    Keeps (Quiets p) view Unit (change f) := fun s hs => ⟨quiets_kept hs (h s hs.1).1, (h s hs.1).2⟩

theorem keeps_switchPage (hv : Sees view) (hy : SparesWrite view p p.sysctlAddr) (pg : Page) :
    Keeps (Quiets p) view Unit (switchPage pg) := by
  intro s hs
  have hG := held_quiets p
  unfold switchPage
  split
  · exact ⟨hs, rfl⟩
  · obtain rfl := hs.1
    refine keeps_bind (keeps_busRead hv hy.toSparesRead) (fun v => keeps_bind (keeps_busWrite hv hy _) fun _ =>
      keeps_bind (keeps_busRead hv hy.toSparesRead) fun r => ?_) s hs
    split
    · exact fun u hu => ⟨hu, rfl⟩
    · refine keeps_bind (fun u hu =>
        ⟨⟨(kept_unverified u _).params.trans hu.1, (kept_unverified u _).during.trans hu.2⟩, ?_⟩) fun _ =>
        hG.keeps fun _ _ => ⟨rfl, rfl, rfl, rfl, .inl rfl⟩
      exact (congrArg (fun x => view (u.unverified x).chip) (congrArg Params.sysctlAddr hu.1)).trans (hy.unverified u hu.1)

theorem keeps_pagedRead (hv : Sees view) (hy : SparesWrite view p p.sysctlAddr) {r : RegAt}
    (hr : SparesRead view p r.addr) : Keeps (Quiets p) view Byte (pagedRead r) :=
  keeps_bind (keeps_switchPage hv hy r.page) fun _ => keeps_busRead hv hr

theorem keeps_pagedWrite (hv : Sees view) (hy : SparesWrite view p p.sysctlAddr) {r : RegAt}
    (hr : SparesWrite view p r.addr) (v : Byte) : Keeps (Quiets p) view Unit (pagedWrite r v) := by
  have hG := held_quiets p
  refine keeps_bind (keeps_switchPage hv hy r.page) fun _ => keeps_bind (keeps_busWrite hv hr v) fun _ =>
    keeps_bind (hG.keeps_change fun s => ?_) fun _ => keeps_bind (keeps_busRead hv hr.toSparesRead) fun g => ?_
  · split
    · exact ⟨rfl, rfl, rfl, rfl, .inr rfl⟩
    · exact ⟨rfl, rfl, rfl, rfl, .inl rfl⟩
  · split
    · exact keeps_kept fun s hs => ⟨kept_writeVerified s _ v, hr.verified s v hs⟩
    · refine keeps_bind (keeps_kept fun s hs => ⟨(kept_unverified s _).trans (kept_clearFailed _ _ v g), ?_⟩) fun _ =>
        hG.keeps fun _ _ => ⟨rfl, rfl, rfl, rfl, .inl rfl⟩
      exact (hr.failed _ v g ((kept_unverified s _).params.trans hs)).trans (hr.unverified s hs)

/-! ## The three views -/

/-- The register at a page and an offset. -/
def regView (p : Params) (pg : Page) (b : Byte) (c : Chip) : Option Byte := c.regs.read (regKey p pg b)

theorem sees_regView (pg : Page) (b : Byte) : Sees (regView p pg b) := fun _ _ => rfl

theorem sees_txq : Sees Chip.txq := fun _ _ => rfl

theorem sees_rxq : Sees Chip.rxq := fun _ _ => rfl

/-- No read moves a register but the system-control register. -/
theorem sparesRead_regView {pg : Page} {b : Byte} (hb : b ≠ p.sysctlAddr) (a : Byte) :
    SparesRead (regView p pg b) p a where
  drawn s hs := by
    subst hs
    exact read_pageDrawn s pg a hb
  consumed s _ := congrArg (Memory.read · _) (regs_consumed s a)
  lost s _ := by
    unfold State.chipReadLost
    split <;> rfl

/-- A verified write at an offset leaves the registers at the others, the IRQ status too where it is no clear. -/
theorem sparesWrite_regView {pg : Page} {b : Byte} (hb : b ≠ p.sysctlAddr) {a : Byte} (hab : a ≠ b)
    (hi : b = p.irqReg.addr → a ≠ p.irqClr.addr) : SparesWrite (regView p pg b) p a where
  toSparesRead := sparesRead_regView hb a
  write s v hs := by
    subst hs
    exact read_chipWrite s pg v hab
  writeLost s hs := by
    subst hs
    exact read_chipWriteLost s pg hab
  unverified s hs := by
    subst hs
    exact read_unverified s pg hab
  failed s v g hs := by
    subst hs
    exact read_clearFailed s pg v g hab
  verified s v hs := by
    subst hs
    exact read_writeVerified s pg v hi

/-- No read and no page drawn moves the transmit FIFO. -/
theorem sparesRead_txq (a : Byte) : SparesRead Chip.txq p a where
  drawn s _ := (sameGhosts_pageDrawn s a).txq
  consumed s _ := (sameGhosts_consumed s a).txq
  lost s _ := by
    unfold State.chipReadLost
    split <;> rfl

theorem sparesWrite_txq {a : Byte} (ha : a ≠ p.fifoAddr) : SparesWrite Chip.txq p a where
  toSparesRead := sparesRead_txq a
  write s v hs := (sameGhosts_chipWrite s (hs ▸ ha) v).txq
  writeLost s hs := txq_chipWriteLost s (hs ▸ ha)
  unverified s _ := (sameGhosts_unverified s a).txq
  failed s v g _ := (queues_clearFailed s a v g).1
  verified s v _ := (queues_writeVerified s a v).1

theorem sparesRead_rxq {a : Byte} (ha : a ≠ p.fifoAddr) : SparesRead Chip.rxq p a where
  drawn s _ := by
    unfold State.pageDrawn
    split <;> rfl
  consumed s hs := congrArg (fun u : State => u.chip.rxq) (if_neg (hs ▸ ha))
  lost s hs := congrArg (fun u : State => u.chip.rxq) (if_neg (hs ▸ ha))

theorem sparesWrite_rxq {a : Byte} (ha : a ≠ p.fifoAddr) : SparesWrite Chip.rxq p a where
  toSparesRead := sparesRead_rxq ha
  write s v _ := rxq_chipWrite s a v
  writeLost s _ := rxq_chipWriteLost s a
  unverified s _ := rxq_unverified s a
  failed s v g _ := (queues_clearFailed s a v g).2
  verified s v _ := (queues_writeVerified s a v).2

/-- A burst write at FIFO_ADDR moves the transmit FIFO alone. -/
theorem keeps_burstWrite (hv : Sees view) (ht : ∀ (c : Chip) (q : List Byte), view { c with txq := q } = view c)
    (bs : List Byte) : Keeps (Quiets p) view Unit (busBurstWrite p.fifoAddr bs) := by
  refine keeps_transact hv (fun s hs => ?_) (fun _ s hs => ?_) fun s hs => ⟨kept_chipBurstLost s _, ?_⟩
  · rw [if_pos (by rw [hs])]
    exact ⟨Kept.refl s, rfl⟩
  · have hk := kept_chipBurst s p.fifoAddr bs
    refine ⟨⟨hk.params.trans hs.1, hk.during.trans hs.2⟩, ?_⟩
    exact (congrArg (fun u : State => view u.chip) (if_pos (by rw [hs.1]))).trans (ht s.chip _)
  · exact (congrArg (fun u : State => view u.chip) (if_pos (by rw [hs]))).trans (ht s.chip _)

/-- A byte read leaves a view that does not see the receive FIFO. -/
theorem view_chipBytes (hx : ∀ (c : Chip) (q : List Byte), view { c with rxq := q } = view c) (s : State) (a : Byte)
    (l : List Byte) (n : Nat) : view (s.chipBytes a l n).2.chip = view s.chip := by
  induction n generalizing s l with
  | zero => rfl
  | succ n ih =>
    refine (ih _ _).trans ?_
    obtain ⟨u, -, hc, he⟩ := chip_chipByte s a l
    rw [he, ← hc]
    unfold State.consumed
    split
    · exact hx _ _
    · rfl

/-- Storing what a burst returned, or free bytes after a fault, is the block's side only. -/
theorem local_burstIntoRbuf (a : Byte) (off n : Nat) (s : State) :
    Local (endState (busBurstRead a n s)) (endState (burstIntoRbuf a off n s)) := by
  unfold burstIntoRbuf
  cases busBurstRead a n s with
  | ok bs u => exact ⟨rfl, rfl, rfl, rfl, .inl rfl⟩
  | error e u =>
    cases e with
    | raised e =>
      have hk := kept_drawList u n
      exact ⟨hk.params, hk.during, (carried_drawList {} u n).busy rfl, drawList_chip u n, .inl hk.pcache⟩
    | _ => exact ⟨rfl, rfl, rfl, rfl, .inl rfl⟩

/-- A burst read at FIFO_ADDR moves the receive FIFO alone. -/
theorem keeps_burstIntoRbuf (hv : Sees view) (hx : ∀ (c : Chip) (q : List Byte), view { c with rxq := q } = view c)
    (off n : Nat) : Keeps (Quiets p) view Unit (burstIntoRbuf p.fifoAddr off n) := by
  refine (held_quiets p).keeps_end (c := busBurstRead p.fifoAddr n) ?_ (local_burstIntoRbuf p.fifoAddr off n)
  have atFifo (s : State) (hs : s.params = p) : s.chipBurstRead p.fifoAddr n = s := if_pos (by rw [hs])
  refine keeps_transact hv (fun s _ => ⟨Kept.refl s, rfl⟩) (fun l s hs => ?_) fun s hs => ?_
  · have hk := kept_chipBytes s p.fifoAddr l n
    have hp := hk.params.trans hs.1
    refine ⟨?_, ?_⟩
    · dsimp only
      rw [atFifo _ hp]
      exact ⟨hp, hk.during.trans hs.2⟩
    · dsimp only
      rw [atFifo _ hp]
      exact view_chipBytes hx s _ l n
  · have hk := kept_chipReadLost s p.fifoAddr n
    rw [atFifo _ (hk.params.trans hs)]
    exact ⟨hk, (congrArg (fun u : State => view u.chip) (if_pos (by rw [hs]))).trans (hx s.chip _)⟩

/-! ## The bench -/

/-- On the bench, what moves neither the chip's page nor the page cache, with no answer fixed and nothing arriving. -/
theorem Bench.moved (h : Bench s) (hc : Carried {} s t) (ha : t.chip.answers = s.chip.answers) (hd : t.during = s.during)
    (hp : t.pcache = s.pcache) (hr : t.chipPage = s.chipPage) : Bench t where
  busy := (hc.busy rfl).trans h.busy
  oracle := ⟨hc.oracle.trans h.oracle.1, ha.trans h.oracle.2⟩
  quiet := hd.trans h.quiet
  params := hc.params.symm ▸ h.params
  page := hr.symm ▸ h.page
  coherent q hq := hr.trans (h.coherent q (hp ▸ hq))

/-- A command running on the bench with the parameters `p`. -/
def BenchOf (p : Params) (s : State) : Prop := Bench s ∧ s.params = p

theorem held_benchOf (p : Params) : Held (BenchOf p) p where
  params _ h := h.2
  quiet _ h := h.1.quiet
  same s t h hl := by
    obtain ⟨h, hp⟩ := h
    have hg : t.chipPage = s.chipPage := chipPage_of_regs hl.params (congrArg Chip.regs hl.chip)
    refine ⟨⟨⟨hl.busy.trans h.busy, ?_, hl.during.trans h.quiet⟩, hl.params.symm ▸ h.params, hg.symm ▸ h.page, ?_⟩,
      hl.params.trans hp⟩
    · unfold State.underOracle
      rw [hl.chip]
      exact h.oracle
    · intro q hq
      rcases hl.pcache with hc | hc
      · exact hg.trans (h.coherent q (hc ▸ hq))
      · rw [hc] at hq
        cases hq

/-- Any read on the bench answers, and moves no register. -/
theorem busRead_onBench (h : Bench s) (a : Byte) :
    ∃ x u, busRead a s = .ok x u ∧ Bench u ∧ u.params = s.params ∧ u.chip.regs = s.chip.regs := by
  have hd : s.pageDrawn a = s := pageDrawn_known s h.page
  have hrun : busRead a s = .ok _ _ := transact_oracle h.toReady (congrArg State.chip hd)
  have hca := carries_busRead (p := {}) rfl a s h.busy
  rw [hrun, hd] at *
  have hk := kept_chipByte s.advance a []
  have hm := kept_monitorRead ((s.advance.chipByte a []).2.logged (.read a (some (s.advance.chipByte a []).1))) a
    (s.advance.chipByte a []).1
  have hr : (((s.advance.chipByte a []).2.logged (.read a (some (s.advance.chipByte a []).1))).monitorRead a
      (s.advance.chipByte a []).1).chip.regs = s.chip.regs :=
    (congrArg Chip.regs (chip_monitorRead _ a _)).trans (regs_chipByte s.advance a [])
  refine ⟨_, _, rfl, h.moved hca (hm.answers.trans hk.answers) (hm.during.trans hk.during) (hm.pcache.trans hk.pcache)
    (chipPage_of_regs hca.params hr), hca.params, hr⟩

theorem chipWrite_fifo {a : Byte} (ha : a = s.params.fifoAddr) (v : Byte) :
    s.chipWrite a v = s.setTxq (s.chip.txq ++ [v]) := if_pos ha

/-- A good write on the bench puts the byte at its offset on the chip's page, or in the FIFO. -/
theorem busWrite_onBench (h : Bench s) {q : Page} (hq : s.chipPage = some q) (a v : Byte) :
    ∃ u, busWrite a v s = .ok () u ∧ Ready u ∧ u.params = s.params ∧ u.pcache = s.pcache
      ∧ (∀ pg b, b ≠ s.params.sysctlAddr → (⟨pg, b⟩ : RegAt) ≠ ⟨q, a⟩ → u.regValue pg b = s.regValue pg b)
      ∧ (a ≠ s.params.sysctlAddr → u.chipPage = s.chipPage) ∧ u.chipPage ≠ none := by
  by_cases ha : a = s.params.fifoAddr
  · have hmon := chip_monitorWrite_known hq a v
    have hrun : busWrite a v s = .ok () _ := transact_oracle h.toReady hmon
    have hca := carries_busWrite (p := {}) rfl a v s h.busy
    have hk := kept_chipWrite (s.monitorWrite a v).advance a v
    have hm := kept_monitorWrite s a v
    have hregs : ((s.monitorWrite a v).advance.chipWrite a v).chip.regs = s.chip.regs := by
      rw [chipWrite_fifo (s := (s.monitorWrite a v).advance) (ha.trans (congrArg Params.fifoAddr hm.params.symm))]
      exact (congrArg Chip.regs hmon :)
    rw [hrun] at hca ⊢
    have hpage : State.chipPage _ = s.chipPage := chipPage_of_regs hca.params hregs
    refine ⟨_, rfl, ⟨(hca.busy rfl).trans h.busy, ⟨hca.oracle.trans h.oracle.1, ?_⟩, ?_⟩, hca.params,
      hk.pcache.trans hm.pcache, fun pg b _ _ => ?_, fun _ => hpage, ?_⟩
    · exact (hk.answers.trans hm.answers).trans h.oracle.2
    · exact (hk.during.trans hm.during).trans h.quiet
    · exact congrArg₂ (fun (r : Memory) p => r.read (regKey p pg b)) hregs hca.params
    · exact hpage ▸ h.page
  · obtain ⟨u, hu, hran, -, hpc, -, -, hreg, hpage⟩ := busWrite_ran h.toReady hq ha v
    refine ⟨u, hu, hran.ready, hran.params, hpc, fun pg b hb hn => hran.regs pg b hb (by simpa using hn), hpage, ?_⟩
    by_cases hs : a = s.params.sysctlAddr
    · rw [chipPage_eq u 0, hran.params, ← hs, hreg, if_pos (.inl hs)]
      exact nofun
    · rw [hpage hs]
      exact h.page

/-- A clear that does not read back moves, on the bench, the register it was written to alone. -/
theorem clearFailed_onBench (h : Bench s) {q : Page} {a : Byte} (hq : a ≠ s.params.sysctlAddr → s.chipPage = some q)
    (v g : Byte) : Bench (s.clearFailed a v g) ∧ ∀ pg b, (⟨pg, b⟩ : RegAt) ≠ ⟨q, a⟩ →
      (s.clearFailed a v g).chip.regs.read (regKey s.params pg b) = s.chip.regs.read (regKey s.params pg b) := by
  have hk := kept_clearFailed s a v g
  have hca := carried_clearFailed {} s a v g
  by_cases hc : s.isClear a v = true ∧ clearsItself s.params = true
  · obtain ⟨hclear, hself⟩ := hc
    obtain ⟨q2, hq2, heq⟩ := (Option.any_eq_true _ _).1 hclear
    have hirq := beq_iff_eq.1 heq
    have ha : a ≠ s.params.sysctlAddr := by
      have := (Params.plain_of_wf h.params).2.2.2.2.1.2
      rwa [← hirq] at this
    obtain rfl : q2 = q := Option.some.inj (hq2.symm.trans (hq ha))
    have hpage : s.params.irqReg.page = q2 := by
      have := beq_iff_eq.1 hself
      rw [this, ← hirq]
    refine ⟨h.moved hca hk.answers hk.during hk.pcache (chipPage_clearFailed s ha v g), fun pg b hb => ?_⟩
    unfold State.clearFailed
    rw [if_pos (by simp [h.oracle.1, hclear, hself])]
    refine (congrArg (Memory.read · _) (regs_setLine _ _)).trans ?_
    rw [State.setRegs_chip, Memory.read_write, if_neg]
    intro he
    obtain ⟨rfl, h1 | rfl⟩ := (regKey_eq_iff _ _ _ _ _).1 he
    · exact ha h1
    · exact hb (by rw [hpage])
  · have : s.clearFailed a v g = s := if_neg (by simpa [h.oracle.1] using hc)
    rw [this]
    exact ⟨h, fun _ _ _ => rfl⟩

theorem keeps_pagedRead_bench {pg : Page} {b : Byte} (hb : b ≠ p.sysctlAddr) (r : RegAt) :
    Keeps (BenchOf p) (regView p pg b) Byte (pagedRead r) := by
  rintro s ⟨h, rfl⟩
  obtain ⟨u, hu, hran, hbench, -⟩ := switchPage_bench h r.page
  obtain ⟨x, w, hw, hbw, hpw, hrw⟩ := busRead_onBench hbench r.addr
  have hread : pagedRead r s = .ok x w := (bind_ok hu).trans hw
  rw [hread]
  refine ⟨⟨hbw, hpw.trans hran.params⟩, (congrArg (Memory.read · _) hrw).trans ?_⟩
  have := hran.regs pg b hb (List.not_mem_nil)
  unfold State.regValue at this
  rwa [hran.params] at this

theorem keeps_pagedWrite_bench {pg : Page} {b : Byte} (hb : b ≠ p.sysctlAddr) {r : RegAt} (hr : r ≠ ⟨pg, b⟩) (v : Byte) :
    Keeps (BenchOf p) (regView p pg b) Unit (pagedWrite r v) := by
  rintro s ⟨h, rfl⟩
  obtain ⟨u, hu, hran, hbench, -, -, hq, -⟩ := switchPage_bench h r.page
  obtain ⟨w, hw, hready, hpw, hpcw, hregw, hpgw, hnone⟩ := busWrite_onBench hbench hq r.addr v
  have hpar : w.params = s.params := hpw.trans hran.params
  obtain ⟨w2, hw2, hbw, hw2p, hw2c⟩ : ∃ w2, (if r.addr = w.params.sysctlAddr then w.dropPage else w) = w2 ∧ Bench w2
      ∧ w2.params = w.params ∧ w2.chip = w.chip := by
    have hwf : w.params.wf = true := hpar ▸ h.params
    by_cases hs : r.addr = w.params.sysctlAddr
    · exact ⟨_, if_pos hs, ⟨⟨hready.busy, hready.oracle, hready.quiet⟩, hwf, hnone, nofun⟩, rfl, rfl⟩
    · refine ⟨_, if_neg hs, ⟨hready, hwf, hnone, fun q hc => ?_⟩, rfl, rfl⟩
      rw [hpgw (hpw ▸ hs)]
      exact hbench.coherent q (hpcw ▸ hc)
  obtain ⟨x, y, hy, hby, hpy, hry⟩ := busRead_onBench hbw r.addr
  have hyp : y.params = s.params := (hpy.trans hw2p).trans hpar
  have hview : y.chip.regs.read (regKey s.params pg b) = s.chip.regs.read (regKey s.params pg b) := by
    have h1 := hregw pg b (hran.params.symm ▸ hb) (Ne.symm hr)
    have h2 := hran.regs pg b hb List.not_mem_nil
    unfold State.regValue at h1 h2
    rw [hpar, hran.params] at h1
    rw [hran.params] at h2
    rw [hry, hw2c, h1, h2]
  have hrun : pagedWrite r v s = ((if x = v then change fun s => s.writeVerified r.addr v
      else do
        change fun s => (s.unverified r.addr).clearFailed r.addr v x
        raiseError (.verify (some r))) : Cmd Unit) y := by
    unfold pagedWrite
    rw [bind_ok hu, bind_ok hw, change_bind, hw2, bind_ok hy]
  rw [hrun]
  split
  · have hend : endState (change (fun s => s.writeVerified r.addr v) y) = y := if_pos hby.oracle.1
    rw [hend]
    exact ⟨⟨hby, hyp⟩, hview⟩
  · have hv : y.unverified r.addr = y := if_pos hby.oracle.1
    have hpage (hs : r.addr ≠ y.params.sysctlAddr) : y.chipPage = some r.page := by
      rw [chipPage_of_regs (s := w) (hpy.trans hw2p) (hry.trans (congrArg Chip.regs hw2c)),
        hpgw (by rwa [hyp, ← hran.params] at hs), hq]
    obtain ⟨hbc, hrc⟩ := clearFailed_onBench hby hpage v x
    have hend : endState ((do
        change fun s => (s.unverified r.addr).clearFailed r.addr v x
        raiseError (.verify (some r)) : Cmd Unit) y) = y.clearFailed r.addr v x :=
      congrArg (fun z : State => z.clearFailed r.addr v x) hv
    rw [hend]
    refine ⟨⟨hbc, (kept_clearFailed y _ v x).params.trans hyp⟩, ?_⟩
    have := hrc pg b (Ne.symm hr)
    rw [hyp] at this
    exact this.trans hview

theorem keeps_burstWrite_bench (pg : Page) (b : Byte) (bs : List Byte) :
    Keeps (BenchOf p) (regView p pg b) Unit (busBurstWrite p.fifoAddr bs) := by
  rintro s ⟨h, rfl⟩
  obtain ⟨u, hu, hran, hbench, -, -, -, hreg, -⟩ := busBurstWrite_bench h bs
  rw [hu]
  have := hreg pg b
  unfold State.regValue at this
  rw [hran.params] at this
  exact ⟨⟨hbench, hran.params⟩, this⟩

theorem keeps_burstIntoRbuf_bench (pg : Page) (b : Byte) (off n : Nat) :
    Keeps (BenchOf p) (regView p pg b) Unit (burstIntoRbuf p.fifoAddr off n) := by
  refine (held_benchOf p).keeps_end (c := busBurstRead p.fifoAddr n) ?_ (local_burstIntoRbuf p.fifoAddr off n)
  rintro s ⟨h, rfl⟩
  have hrun : busBurstRead s.params.fifoAddr n s = .ok _ _ := transact_oracle h.toReady rfl
  have hca := carries_busBurstRead (p := {}) rfl s.params.fifoAddr n s h.busy
  have hk := (kept_chipBytes s.advance s.params.fifoAddr [] n).trans (kept_chipBurstRead _ s.params.fifoAddr n)
  have hregs : ((s.advance.chipBytes s.params.fifoAddr [] n).2.chipBurstRead s.params.fifoAddr n).chip.regs = s.chip.regs := by
    have : (s.advance.chipBytes s.params.fifoAddr [] n).2.chipBurstRead s.params.fifoAddr n
        = (s.advance.chipBytes s.params.fifoAddr [] n).2 :=
      if_pos (congrArg Params.fifoAddr (kept_chipBytes s.advance _ [] n).params.symm)
    rw [this]
    exact regs_chipBytes s.advance _ [] n
  rw [hrun] at hca ⊢
  exact ⟨⟨h.moved hca hk.answers hk.during hk.pcache (chipPage_of_regs hca.params hregs), hca.params⟩,
    congrArg (Memory.read · _) hregs⟩

/-! ## The procedures that keep each view -/

/-- On the bench a register that is not among those written keeps its byte. -/
theorem closed_bench {pg : Page} {a : Byte} (ha : a ≠ p.sysctlAddr) :
    Closed (Keeps (BenchOf p) (regView p pg a)) p (fun _ => True) (fun r => r ≠ ⟨pg, a⟩) (· = p.fifoAddr) (· = p.fifoAddr) :=
  closed_keeps (held_benchOf p) (fun r _ => keeps_pagedRead_bench ha r) (fun _ v hr => keeps_pagedWrite_bench ha hr v)
    (fun _ l h => h ▸ keeps_burstWrite_bench pg a l) fun _ off n h => h ▸ keeps_burstIntoRbuf_bench pg a off n

/-- A register at an offset nothing is written to keeps its byte, the IRQ status where nothing is cleared. -/
theorem closed_regView (hp : p.wf = true) {pg : Page} {a : Byte} (ha : a ≠ p.sysctlAddr) :
    Closed (Keeps (Quiets p) (regView p pg a)) p (fun _ => True)
      (fun r => r.addr ≠ a ∧ (a = p.irqReg.addr → r.addr ≠ p.irqClr.addr)) (· = p.fifoAddr) (· = p.fifoAddr) :=
  have hv := sees_regView pg a
  have hy := sparesWrite_regView (pg := pg) ha (Ne.symm ha) fun _ => (Params.plain_of_wf hp).2.2.2.2.1.2.symm
  closed_keeps (held_quiets p) (fun r _ => keeps_pagedRead hv hy (sparesRead_regView ha r.addr))
    (fun _ v hr => keeps_pagedWrite hv hy (sparesWrite_regView ha hr.1 hr.2) v)
    (fun _ l h => h ▸ keeps_burstWrite hv (fun _ _ => rfl) l)
    fun _ off n h => h ▸ keeps_burstIntoRbuf hv (fun _ _ => rfl) off n

/-- The transmit FIFO, where nothing is written at its offset. -/
theorem closed_txq (hp : p.wf = true) :
    Closed (Keeps (Quiets p) Chip.txq) p (fun _ => True) (fun r => r.addr ≠ p.fifoAddr) (fun _ => False) (· = p.fifoAddr) :=
  have hy := sparesWrite_txq (Params.sysctl_ne_fifo hp)
  closed_keeps (held_quiets p) (fun r _ => keeps_pagedRead sees_txq hy (sparesRead_txq r.addr))
    (fun _ v hr => keeps_pagedWrite sees_txq hy (sparesWrite_txq hr) v) (fun _ _ h => h.elim)
    fun _ off n h => h ▸ keeps_burstIntoRbuf sees_txq (fun _ _ => rfl) off n

/-- The receive FIFO, where nothing is read at its offset, a read-back included. -/
theorem closed_rxq (hp : p.wf = true) :
    Closed (Keeps (Quiets p) Chip.rxq) p (fun r => r.addr ≠ p.fifoAddr) (fun r => r.addr ≠ p.fifoAddr) (· = p.fifoAddr)
      (fun _ => False) :=
  have hy := sparesWrite_rxq (Params.sysctl_ne_fifo hp)
  closed_keeps (held_quiets p) (fun _ hr => keeps_pagedRead sees_rxq hy (sparesRead_rxq hr))
    (fun _ v hr => keeps_pagedWrite sees_rxq hy (sparesWrite_rxq hr) v)
    (fun _ l h => h ▸ keeps_burstWrite sees_rxq (fun _ _ => rfl) l) fun _ _ _ h => h.elim

end

/-- Settles O17: each clause is a view of the chip that the command's accesses keep. -/
theorem chipFrame : Obligations.ChipFrame := by
  intro i s t h hq hp hburst
  have hpar := (exec_carried i h).params
  have hbw : ∀ a, i.burstWriteAt s.params = some a → a = s.params.fifoAddr := fun a ha => hburst a (.inl ha)
  have hbr : ∀ a, i.burstReadAt s.params = some a → a = s.params.fifoAddr := fun a ha => hburst a (.inr ha)
  have hbegin : Quiets s.params s.beginCommand := ⟨rfl, hq⟩
  have ofView {pg : Page} {a : Byte} (hv : regView s.params pg a t.chip = regView s.params pg a s.chip) :
      t.regValue pg a = s.regValue pg a := by
    unfold State.regValue
    rw [hpar]
    exact hv
  refine ⟨fun hb pg a ha hw => ofView ?_, fun pg a ha hw hi => ofView ?_, fun hnone hw => ?_, fun hnone hw => ?_⟩
  · exact Keeps.exec (held_benchOf s.params) ((closed_bench ha).commandOf i (fun _ _ => trivial)
      (fun r hr he => hw (he ▸ hr)) hbw hbr) ⟨bench_begin hb, rfl⟩ h
  · exact Keeps.exec (held_quiets s.params) ((closed_regView hp ha).commandOf i (fun _ _ => trivial)
      (fun r hr => ⟨hw r hr, fun he => hi he r hr⟩) hbw hbr) hbegin h
  · exact Keeps.exec (held_quiets s.params) ((closed_txq hp).commandOf i (fun _ _ => trivial) hw
      (fun a ha => nomatch hnone.symm.trans ha) hbr) hbegin h
  · exact Keeps.exec (held_quiets s.params) ((closed_rxq hp).commandOf i (fun r hr => hw r (List.mem_append_left _ hr))
      (fun r hr => hw r (List.mem_append_right _ hr)) hbw (fun a ha => nomatch hnone.symm.trans ha)) hbegin h

end Sys2Proof.Machine
end

section
/-! One step of the host port, of the IRQ line and of the reset input, and the fields of the registers. -/

namespace Sys2Proof.Machine

section
variable {s : State}

/-- An admitted write of CMD while idle, outside reset, hands over its word. -/
theorem startWord_cmd {addr width : Nat} (hr : s.inReset = false) (hb : s.busy = false)
    (ha : s.admits addr width = some 0x200) (w : Word) : s.startWord (.hostWrite addr width w) = some w := by
  simp [State.startWord, hr, hb, ha]

/-- The registers a state shows where nothing is pending, reported, returned or delivered. -/
theorem words_zero (hb : s.busy = false) (hi : s.irqPend = false) (ho : s.ovr = false) (he : s.err = .ok)
    (hk : s.stepIx = 0) (hc : s.cause = .none) (hr : s.result = 0) (ht : s.eventTag = .none) (hl : s.eventLen = 0)
    (hx : s.rxFlag = .idle) (hy : s.txFlag = .idle) :
    s.statusWord = 0 ∧ s.resultWord = 0 ∧ s.eventWord = 0 ∧ s.flagsWord = 0 := by
  refine ⟨?_, ?_, ?_, ?_⟩
  · simp [State.statusWord, hb, hi, ho, he, hk, hc, ErrCode.code, Cause.code]
  · simp [State.resultWord, hr]
  · simp [State.eventWord, ht, hl, EventTag.code]
  · simp [State.flagsWord, hx, hy, Flag.code]

end

/-- Settles O6. -/
theorem stepRunsCommand : Obligations.StepRunsCommand := by
  intro s w rest i hi hb hr hd
  have ha : ({ s with inputs := rest } : State).admits (cmdAddr s.params) 4 = some 0x200 :=
    admits_some (s := { s with inputs := rest }) (.inr ⟨rfl, by decide, by decide⟩)
  have hw : ({ s with inputs := rest } : State).startWord (.hostWrite (cmdAddr s.params) 4 w) = some w :=
    startWord_cmd hr hb ha w
  simp only [step, hi, hw, startCommand, hd]

/-- Settles O9. -/
theorem resetValues : Obligations.ResetValues := by
  constructor
  · intro s told rest hi hr
    obtain ⟨hstatus, hresult, hevent, hflags⟩ := words_zero (s := ({ s with inputs := rest } : State).blockReset told)
      rfl rfl rfl rfl rfl rfl rfl rfl rfl rfl rfl
    refine ⟨_, ?_, rfl, hstatus, hresult, hevent, rfl, rfl, hflags, fun _ => rfl, rfl, rfl, rfl, rfl, rfl⟩
    rw [step_input hi rfl]
    simp only [State.arrive, hr, if_true]
  · obtain ⟨hstatus, hresult, hevent, hflags⟩ := words_zero (s := State.reset) rfl rfl rfl rfl rfl rfl rfl rfl rfl rfl rfl
    exact ⟨rfl, hstatus, hresult, hevent, rfl, rfl, hflags, fun _ => rfl, rfl, rfl, rfl, rfl⟩

/-- Settles O55: outside reset the edge detector compares the new level with its sample. -/
theorem edgeDetector : Obligations.EdgeDetector := by
  intro s level rest hi hr ho
  refine ⟨({ s with inputs := rest } : State).setLine level, ?_, ?_⟩
  · rw [step_input hi rfl]
    simp only [State.arrive, ho, Bool.false_eq_true, if_false]
  · simp only [State.setLine, hr, Bool.false_eq_true, if_false, State.irqOut, true_and]
    cases s.params.irqActive <;> cases level <;> cases s.irqPrev <;> cases s.irqPend <;> simp [activeLevel]

/-! ## A host write that starts no command -/

section
variable {s : State} {off width : Nat} {v : Word} {rest : List Input}

/-- The accesses of the second statement about OVR: CMD, or a byte or an aligned word of TBUF. -/
theorem admits_cmdOrTbuf
    (h : width = 4 ∧ off = 0x200 ∨ width = 4 ∧ off % 4 = 0 ∧ off < 0x100 ∨ width = 1 ∧ off < 0x100) :
    s.admits (s.params.tcbBase + off) width = some off ∧ (off < 0x100 ∨ off = 0x200) :=
  ⟨admits_some (by omega), by omega⟩

/-- A write of CMD or TBUF that meets BUSY = 1 sets OVR alone. -/
theorem arrive_busyWrite (hr : s.inReset = false) (hb : s.busy = true)
    (h : width = 4 ∧ off = 0x200 ∨ width = 4 ∧ off % 4 = 0 ∧ off < 0x100 ∨ width = 1 ∧ off < 0x100) :
    s.arrive (.hostWrite (s.params.tcbBase + off) width v) = s.setOvr := by
  obtain ⟨ha, ho⟩ := admits_cmdOrTbuf h
  rw [arrive_hostWrite hr, hostWrite_busy ha ho hb]

/-- A step on a host write that starts no command, outside reset. -/
theorem step_hostWrite (hr : s.inReset = false) (hi : s.inputs = .hostWrite (s.params.tcbBase + off) width v :: rest)
    (h : s.busy = true ∨ s.admits (s.params.tcbBase + off) width ≠ some 0x200) :
    step s = .next (({ s with inputs := rest } : State).hostWrite (s.params.tcbBase + off) width v) := by
  rw [step_input hi (startWord_none (s := { s with inputs := rest }) (h.imp_right .inr)),
    arrive_hostWrite (s := { s with inputs := rest }) hr]

end

/-- NOP runs the one boundary before BUSY clears. -/
theorem exec_nop (s : State) : exec .nop s = .next (s.beginCommand.closeCommand id) := rfl

/-- One input other than a reset, arriving at that boundary. -/
theorem exec_nop_arrives {s : State} {i : Input} (hd : s.during = [[i]]) (ha : i ≠ .resetAssert)
    (hr : ∀ b, i ≠ .resetRelease b) :
    exec .nop s = .next (({ s.beginCommand with during := [] } : State).arrive i).endCommand := by
  have hb : boundary s.beginCommand = .ok () (({ s.beginCommand with during := [] } : State).arrive i) := by
    have hd' : s.beginCommand.during = [[i]] := hd
    simp only [boundary, hd']
    cases i with
    | resetAssert => exact absurd rfl ha
    | resetRelease b => exact absurd rfl (hr b)
    | _ => rfl
  rw [exec_nop, State.closeCommand, hb]
  rfl

/-- Settles O56. -/
theorem busyWriteSetsOvr : Obligations.BusyWriteSetsOvr := by
  constructor
  · intro s off width v rest hi hr hb h
    obtain ⟨ha, ho⟩ := admits_cmdOrTbuf (s := { s with inputs := rest }) h
    rw [step_hostWrite hr hi (.inl hb), hostWrite_busy (s := { s with inputs := rest }) ha ho hb]
    rfl
  · intro s off width v hr h hd
    rw [exec_nop_arrives hd nofun nofun]
    exact congrArg (fun u : State => Host.Outcome.next u.endCommand)
      (arrive_busyWrite (s := { s.beginCommand with during := [] }) hr rfl h)

/-! ## Little-endian stores -/

theorem bytesOfNat_getElem (n v k : Nat) (hk : k < (bytesOfNat n v).length) :
    (bytesOfNat n v)[k] = BitVec.ofNat 8 (v / 256 ^ k) := by
  induction n generalizing v k with
  | zero => exact absurd hk (Nat.not_lt_zero k)
  | succ n ih =>
    cases k with
    | zero => simp [bytesOfNat]
    | succ k =>
      have := ih (v / 256) k (by simpa [bytesOfNat] using hk)
      simp only [bytesOfNat, List.getElem_cons_succ, this, Nat.div_div_eq_div_mul, Nat.pow_succ']

/-- The `k`-th byte the host stores of a word is the word's `k`-th byte from the bottom. -/
theorem bytesOfNat_word (n : Nat) (v : Word) (k : Nat) (hk : k < (bytesOfNat n v.toNat).length) :
    (bytesOfNat n v.toNat)[k] = v.extractLsb' (8 * k) 8 := by
  rw [bytesOfNat_getElem, BitVec.extractLsb', Nat.shiftRight_eq_div_pow, Nat.pow_mul]

/-- A word stored in TBUF: its bytes lowest first, every other byte as before. -/
theorem read_storeWord (m : Memory) (off n : Nat) (v : Word) :
    (∀ k, k < n → (m.writeList off (bytesOfNat n v.toNat)).read (off + k) = some (v.extractLsb' (8 * k) 8))
      ∧ ∀ a, ¬ (off ≤ a ∧ a < off + n) → (m.writeList off (bytesOfNat n v.toNat)).read a = m.read a := by
  have hl := bytesOfNat_length n v.toNat
  refine ⟨fun k hk => ?_, fun a ha => Memory.read_writeList_outside _ _ _ _ (by rwa [hl])⟩
  rw [Memory.read_writeList_inside _ _ _ _ (hl.symm ▸ hk), bytesOfNat_word]

/-- The host reads back the word it has stored in TBUF. -/
theorem hostRead_storedWord {s : State} {off addr : Nat} {v : Word} (ha : s.admits addr 4 = some off) (ho : off < 0x100)
    (hb : s.busy = false)
    (h : ∀ k (hk : k < (bytesOfNat 4 v.toNat).length), s.mem.read (off + k) = some (bytesOfNat 4 v.toNat)[k]) :
    s.hostRead addr 4 = s.setRdata v := by
  have hbytes : s.hostBytes off 4 = (bytesOfNat 4 v.toNat, s) := hostBytes_listed (.inr hb) h
  have hlt : off < 0x200 := by omega
  simp only [State.hostRead, ha, if_pos hlt, hbytes, wordOfBytes_bytesOfNat 4 v.toNat v.isLt, BitVec.ofNat_toNat,
    BitVec.setWidth_eq]

/-- Settles O58. -/
theorem hostWrites : Obligations.HostWrites := by
  refine ⟨fun s off v rest h4 ho hr hb hi => ?_, fun s off v rest ho hr hb hi => ?_, fun s off width v rest hr hi h => ?_⟩
  · let next : List Input := .hostRead (s.params.tcbBase + off) 4 :: rest
    have ha : ({ s with inputs := next } : State).admits (s.params.tcbBase + off) 4 = some off :=
      admits_some (s := { s with inputs := next }) (.inr ⟨rfl, h4, by omega⟩)
    have hstart : ({ s with inputs := next } : State).admits (s.params.tcbBase + off) 4 ≠ some 0x200 := by
      rw [ha]
      intro h
      cases h
      omega
    obtain ⟨hin, hout⟩ := read_storeWord s.mem off 4 v
    let t : State := { s with inputs := next, mem := s.mem.writeList off (bytesOfNat 4 v.toNat) }
    let u : State := { t with inputs := rest }
    have hread : u.hostRead (s.params.tcbBase + off) 4 = u.setRdata v :=
      hostRead_storedWord (s := u) (admits_some (s := u) (.inr ⟨rfl, h4, by omega⟩)) ho hb fun k hk =>
        Memory.read_writeList_inside _ s.mem off k hk
    refine ⟨t, u.setRdata v, ?_, ?_, rfl, hin, hout, rfl⟩
    · rw [step_hostWrite hr hi (.inr hstart), hostWrite_tbuf (s := { s with inputs := next }) ha ho hb]
    · rw [step_input (s := t) rfl rfl, arrive_hostRead (s := u) hr, hread]
  · have ha : ({ s with inputs := rest } : State).admits (s.params.tcbBase + off) 1 = some off :=
      admits_some (s := { s with inputs := rest }) (.inl ⟨rfl, by omega⟩)
    have hstart : ({ s with inputs := rest } : State).admits (s.params.tcbBase + off) 1 ≠ some 0x200 := by
      rw [ha]
      intro h
      cases h
      omega
    obtain ⟨hin, hout⟩ := read_storeWord s.mem off 1 v
    refine ⟨{ s with inputs := rest, mem := s.mem.writeList off (bytesOfNat 1 v.toNat) }, ?_, hin 0 Nat.zero_lt_one,
      fun a ha => hout a (by omega), rfl⟩
    rw [step_hostWrite hr hi (.inr hstart), hostWrite_tbuf (s := { s with inputs := rest }) ha ho hb]
  · have ha : ({ s with inputs := rest } : State).admits (s.params.tcbBase + off) width = some off :=
      admits_some (s := { s with inputs := rest }) (by omega)
    have hstart : ({ s with inputs := rest } : State).admits (s.params.tcbBase + off) width ≠ some 0x200 := by
      rw [ha]
      intro h
      cases h
      omega
    have h1 : ¬ off < 0x100 := by omega
    have h2 : off ≠ 0x200 := by omega
    rw [step_hostWrite hr hi (.inr hstart)]
    simp [State.hostWrite, ha, h1, h2]

/-! ## The fields of the registers -/

theorem ErrCode.code_lt (e : ErrCode) : e.code < 16 := by cases e <;> decide

theorem Cause.code_lt (c : Cause) : c.code < 16 := by cases c <;> decide

theorem EventTag.code_lt (t : EventTag) : t.code < 8 := by cases t <;> decide

theorem flagCode_lt (f : Flag) : f.code < 16 := by cases f <;> decide

/-- A bit of a word written as a number. -/
theorem ofNat_bit (n k : Nat) (hk : k < 32) : (BitVec.ofNat 32 n).getLsbD k = decide (n / 2 ^ k % 2 = 1) := by
  simp only [BitVec.getLsbD_ofNat, hk, decide_true, Bool.true_and, Nat.testBit_eq_decide_div_mod_eq]

/-- A field of a word written as a number. -/
theorem ofNat_field (n k w : Nat) (hn : n < 2 ^ 32) : ((BitVec.ofNat 32 n).extractLsb' k w).toNat = n / 2 ^ k % 2 ^ w := by
  rw [BitVec.extractLsb'_toNat, BitVec.toNat_ofNat, Nat.mod_eq_of_lt hn, Nat.shiftRight_eq_div_pow]

theorem ofNat_field_zero (n k w : Nat) (hn : n < 2 ^ 32) (h : n / 2 ^ k % 2 ^ w = 0) :
    (BitVec.ofNat 32 n).extractLsb' k w = 0 :=
  BitVec.eq_of_toNat_eq ((ofNat_field n k w hn).trans (h.trans BitVec.toNat_zero.symm))

/-- The fields of STATUS (10_state.md R26). -/
theorem statusWord_fields (s : State) :
    s.statusWord.getLsbD 0 = s.busy ∧ s.statusWord.getLsbD 1 = s.irqPend ∧ s.statusWord.getLsbD 2 = s.ovr
      ∧ s.statusWord.getLsbD 3 = false ∧ (s.statusWord.extractLsb' 4 4).toNat = s.err.code
      ∧ s.statusWord.extractLsb' 8 4 = s.stepIx ∧ (s.statusWord.extractLsb' 12 4).toNat = s.cause.code
      ∧ s.statusWord.extractLsb' 16 16 = 0 := by
  have he := s.err.code_lt
  have hc := s.cause.code_lt
  have hk := s.stepIx.isLt
  have hb := Bool.toNat_lt s.busy
  have hi := Bool.toNat_lt s.irqPend
  have ho := Bool.toNat_lt s.ovr
  have bit (b : Bool) (n : Nat) (h : n = b.toNat) : decide (n = 1) = b := by cases b <;> simp [h]
  unfold State.statusWord
  refine ⟨?_, ?_, ?_, ?_, ?_, ?_, ?_, ?_⟩
  · exact (ofNat_bit _ 0 (by decide)).trans (bit _ _ (by omega))
  · exact (ofNat_bit _ 1 (by decide)).trans (bit _ _ (by omega))
  · exact (ofNat_bit _ 2 (by decide)).trans (bit _ _ (by omega))
  · exact (ofNat_bit _ 3 (by decide)).trans (bit false _ (by simp only [Bool.toNat_false]; omega))
  · rw [ofNat_field _ _ _ (by omega)]
    omega
  · apply BitVec.eq_of_toNat_eq
    rw [ofNat_field _ _ _ (by omega)]
    omega
  · rw [ofNat_field _ _ _ (by omega)]
    omega
  · exact ofNat_field_zero _ _ _ (by omega) (by omega)

theorem resultWord_fields (s : State) : s.resultWord.extractLsb' 0 16 = s.result ∧ s.resultWord.extractLsb' 16 16 = 0 := by
  have := s.result.isLt
  constructor <;> apply BitVec.eq_of_toNat_eq <;>
    simp only [State.resultWord, BitVec.extractLsb'_toNat, BitVec.toNat_setWidth, Nat.shiftRight_eq_div_pow,
      BitVec.ofNat_eq_ofNat, BitVec.toNat_ofNat] <;> omega

theorem eventWord_fields (s : State) :
    (s.eventWord.extractLsb' 0 3).toNat = s.eventTag.code ∧ s.eventWord.extractLsb' 3 5 = 0
      ∧ s.eventWord.extractLsb' 8 8 = s.eventLen ∧ s.eventWord.extractLsb' 16 16 = 0 := by
  have ht := s.eventTag.code_lt
  have hl := s.eventLen.isLt
  unfold State.eventWord
  refine ⟨?_, ?_, ?_, ?_⟩
  · rw [ofNat_field _ _ _ (by omega)]
    omega
  · exact ofNat_field_zero _ _ _ (by omega) (by omega)
  · apply BitVec.eq_of_toNat_eq
    rw [ofNat_field _ _ _ (by omega)]
    omega
  · exact ofNat_field_zero _ _ _ (by omega) (by omega)

theorem flagsWord_fields (s : State) :
    (s.flagsWord.extractLsb' 0 4).toNat = s.rxFlag.code ∧ (s.flagsWord.extractLsb' 4 4).toNat = s.txFlag.code
      ∧ s.flagsWord.extractLsb' 8 24 = 0 := by
  have hr := flagCode_lt s.rxFlag
  have ht := flagCode_lt s.txFlag
  unfold State.flagsWord
  refine ⟨?_, ?_, ofNat_field_zero _ _ _ (by omega) (by omega)⟩
  · rw [ofNat_field _ _ _ (by omega)]
    omega
  · rw [ofNat_field _ _ _ (by omega)]
    omega

/-- Settles O60. -/
theorem hostRegisterFields : Obligations.HostRegisterFields := by
  refine ⟨rfl, rfl, rfl, rfl, fun s => ?_⟩
  obtain ⟨h0, h1, h2, h3, h4, h5, h6, h7⟩ := statusWord_fields s
  obtain ⟨r0, r1⟩ := resultWord_fields s
  obtain ⟨e0, e1, e2, e3⟩ := eventWord_fields s
  exact ⟨h0, h1, h2, h3, h4, h5, h6, h7, r0, r1, e0, e1, e2, e3, flagsWord_fields s⟩

/-- Settles O29. -/
theorem fieldUpdatesKeepOtherBits : Obligations.FieldUpdatesKeepOtherBits := by
  refine ⟨fun p v pg => ⟨pageField_setPageField p v pg, fun k hk h1 h2 => ?_⟩, fun p f v x m hp =>
    ⟨fun k hk hout => ?_, fun k hk => ?_, decodeMode_setMode hp v m, fun hf => decodeMode_setOther hp hf v x⟩⟩
  · rw [setPageField_bit p v pg hk, if_neg (by omega)]
  · rw [setFieldValue, insertAt_bit (Field.fits hp f) v x hk, if_neg hout]
  · have := Field.fits hp f
    rw [setFieldValue, insertAt_bit this v x (by omega), if_pos (by omega), Nat.add_sub_cancel_left]

end Sys2Proof.Machine
end

section
/-! Commands that end early while nothing else acts: a read of an unwritten buffer byte, and a burst read that faults. -/

namespace Sys2Proof.Machine

section
variable {s u : State}

/-- A command that reads an unwritten buffer byte ends as one that completes. -/
theorem exec_unwritten {i : Instr} (h : commandOf i s.beginCommand = .error .unwritten u) (hq : u.during = []) :
    exec i s = .next u.endCommand := by
  simp only [exec_eq_run, runCommand, h, commandResult, closeCommand_quiet hq, id]

/-- A command whose first action reads a buffer range with an unwritten byte. -/
theorem exec_readBuffer_unwritten {i : Instr} {b : Buf} {off n : Nat} {f : List Byte → Cmd Unit} (hq : s.quiet)
    (hi : commandOf i = readBuffer b off n >>= f) (h : ∃ k, k < n ∧ s.mem.read (bufBase b + off + k) = none) :
    exec i s = .next { s.endingOk with faults := { s.faults with unwrittenRead := true } } := by
  have hr : readBuffer b off n s.beginCommand = .error .unwritten s.beginCommand.recordUnwritten := readBuffer_unwritten h
  exact exec_unwritten (u := s.beginCommand.recordUnwritten) (by rw [hi, bind_error hr]) hq

/-- A burst read at FIFO_ADDR that did not end good takes at most what it asked for (log 30). -/
theorem rxq_burstReadLost (w : State) {a : Byte} (ha : a = w.params.fifoAddr) (n : Nat) :
    ∃ k, k ≤ n ∧ ((w.chipReadLost a n).chipBurstRead a n).chip.rxq = w.chip.rxq.drop k := by
  obtain ⟨k, hkn, hx⟩ := rxq_chipReadLost w a n
  rw [if_pos ha] at hx
  refine ⟨k, hkn, ?_⟩
  rw [State.chipBurstRead, if_pos (by rwa [(kept_chipReadLost w a n).params]), hx]

/-- A faulted burst read: what its transaction leaves. -/
theorem busBurstRead_fault {rest : List Answer} (hb : s.busy = true) (hq : s.during = [])
    (ha : s.chip.answers = .fault :: rest) (a : Byte) (n : Nat) :
    ∃ u, busBurstRead a n s = .error (.raised .bus) u ∧ u.during = [] ∧ u.pcache = none ∧ u.mem = s.mem
      ∧ u.log = s.log ++ [.burstRead a n none]
      ∧ (a = s.params.fifoAddr → ∃ k, k ≤ n ∧ u.chip.rxq = s.chip.rxq.drop k) := by
  have h : busBurstRead a n s = _ := transact_fault (before := id) hq (nextAnswer_fault s.advance ha)
  set w : State := { s.advance with chip := { s.advance.chip with answers := rest } }
  have hc := carries_busBurstRead (p := {}) rfl a n s hb
  rw [h, endState_error] at hc
  have hk := (kept_chipReadLost w a n).trans (kept_chipBurstRead _ a n)
  refine ⟨_, h, hk.during.trans hq, rfl, hc.memSame le_rfl, ?_, fun hf => rxq_burstReadLost w hf n⟩
  rw [State.dropPage_log, State.logged_log, hk.log]
  rfl

/-- A burst read into RBUF that faults: the free bytes are stored over the whole range. -/
theorem burstIntoRbuf_fault {rest : List Answer} (hb : s.busy = true) (hq : s.during = [])
    (ha : s.chip.answers = .fault :: rest) (a : Byte) (off n : Nat) :
    ∃ u, burstIntoRbuf a off n s = .error (.raised .bus) u ∧ u.during = [] ∧ u.pcache = none
      ∧ u.log = s.log ++ [.burstRead a n none]
      ∧ (∀ k, k < n → u.mem.read (rbufBase + off + k) ≠ none)
      ∧ (∀ x, ¬ (rbufBase + off ≤ x ∧ x < rbufBase + off + n) → u.mem.read x = s.mem.read x)
      ∧ (a = s.params.fifoAddr → ∃ k, k ≤ n ∧ u.chip.rxq = s.chip.rxq.drop k) := by
  obtain ⟨w, h, hd, hp, hm, hl, hx⟩ := busBurstRead_fault hb hq ha a n
  have hk := kept_drawList w n
  have hmem : (w.drawList n).2.mem = s.mem := ((carried_drawList {} w n).memSame le_rfl).trans hm
  refine ⟨(w.drawList n).2.storeRbuf off (w.drawList n).1, by simp only [burstIntoRbuf, h], hk.during.trans hd,
    hk.pcache.trans hp, hk.log.trans hl, fun k hn => ?_, fun x hout => ?_, fun hf => ?_⟩
  · rw [State.storeRbuf_mem, Memory.read_writeList_inside _ _ _ _ (by rwa [drawList_length])]
    exact Option.some_ne_none _
  · rw [State.storeRbuf_mem, Memory.read_writeList_outside _ _ _ _ (by rwa [drawList_length]), hmem]
  · obtain ⟨k, hkn, he⟩ := hx hf
    exact ⟨k, hkn, by rw [State.storeRbuf_chip, drawList_chip, he]⟩

end

/-- Settles O24. -/
theorem unwrittenByteEndsCommand : Obligations.UnwrittenByteEndsCommand := by
  rintro s i base n hq (⟨buf, off, len, rfl | rfl, rfl, rfl⟩ | ⟨fa, off, len, rfl, rfl, rfl⟩ | ⟨len, rfl, rfl, rfl⟩) h
  · exact exec_readBuffer_unwritten hq rfl h
  · exact exec_readBuffer_unwritten hq rfl h
  · exact exec_readBuffer_unwritten (b := .tbuf) hq rfl (by simpa only [bufBase, Nat.zero_add] using h)
  · exact exec_readBuffer_unwritten (b := .tbuf) hq rfl (by simpa only [bufBase, Nat.zero_add] using h)

/-- Settles O34. -/
theorem fifoReadFault : Obligations.FifoReadFault := by
  intro s fa off len rest hq hlen ha
  obtain ⟨n, hn⟩ := Nat.exists_eq_succ_of_ne_zero fun h : len.toNat = 0 => hlen (BitVec.eq_of_toNat_eq h)
  obtain ⟨u, h, hd, hp, hl, hin, hout, hx⟩ := burstIntoRbuf_fault (s := s.beginCommand) rfl hq ha fa off.toNat len.toNat
  have hc : commandOf (.fifoRead fa off len) s.beginCommand = .error (.raised .bus) u := by
    rw [← h, commandOf, fifoReadCommand, hn]
  obtain ⟨he, hend⟩ := exec_raised hc hd
  exact ⟨_, he, hend, hp, hl, hin, hout, hx⟩

end Sys2Proof.Machine
end

section
/-! Commands of the mode sequencer that stop after few accesses, while nothing else acts and the answers are fixed: GET_MODE, the
sleep guard, SET_MODE, SET_TXSUB and SET_RXSUB. -/

namespace Sys2Proof.Machine

section
variable {s : State} {rest : List Answer}

/-- The first accesses of a command, where the page named by the switch is the one of the mode-control register. -/
theorem read_modectl (hq : s.quiet) {v v0 : Byte} {ans : List (List Byte)} {sw : List BusEvent}
    (hs : s.switchesTo s.params.modectlPage v0 ans sw) (ha : s.chip.answers = ans.map .force ++ .force [v] :: rest) :
    ∃ u, pagedRead (modectl s.params) s.beginCommand = .ok v u
      ∧ Quietly rest (sw ++ [.read s.params.modectlAddr (some v)]) s.beginCommand u ∧ u.faults = s.faults
      ∧ (s.params.wf = true → s.pageCoherent → u.chipMode = decodeMode s.params v) := by
  obtain ⟨w, u, h, q, -, hf, hw, hm, -⟩ := pagedRead_forced (s := s.beginCommand) (r := modectl s.params) rfl hq
    (.of_switchesTo hs) ha
  exact ⟨u, h, q, hf, fun hp hc => hm.trans ((hw.read hp hc v).trans (if_pos rfl))⟩

/-- What a page switch does depends on the parameters and the page cache alone. -/
theorem switchesTo_congr {t : State} {pg : Page} {v : Byte} {ans : List (List Byte)} {sw : List BusEvent}
    (hp : t.params = s.params) (hc : t.pcache = s.pcache) (h : s.switchesTo pg v ans sw) : t.switchesTo pg v ans sw := by
  simpa only [State.switchesTo, State.cached, hp, hc] using h

/-- A verified write, whatever its read-back returns. -/
theorem pagedWrite_answered (hb : s.busy = true) (hq : s.during = []) {r : RegAt} (v : Byte) {g : Byte} {ans : List Answer}
    {sw : List BusEvent} (hs : SwitchAnswers s r.page ans sw)
    (ha : s.chip.answers = ans ++ .force [] :: .force [g] :: rest) :
    ∃ w u, pagedWrite r v s = (if g = v then .ok () u else .error (.raised (.verify (some r))) u)
      ∧ Quietly rest (sw ++ [.write r.addr v true, .read r.addr (some g)]) s u
      ∧ u.pcache = (if r.addr = s.params.sysctlAddr then none else some r.page)
      ∧ Reached s r w ∧ u.faults = (w.monitorWrite r.addr v).faults
      ∧ u.chipMode = (w.monitorRead r.addr g).chipMode
      ∧ (s.params.wf = true → r.addr ≠ s.params.sysctlAddr → u.chipPage = w.chipPage) := by
  by_cases hg : g = v
  · subst hg
    obtain ⟨w, u, h, q, hp, hw, hf, hm, hu, hpg⟩ := pagedWrite_forced hb hq hs ha
    exact ⟨w, _, by rw [h, if_pos rfl], q, hp, hw, hf, hm, fun hwf hne =>
      (chipPage_writeVerified u (hu ▸ hwf) _ _).trans (hpg hne)⟩
  · obtain ⟨w, u, h, q, hp, hw, hf, hm, hpg⟩ := pagedWrite_mismatch hb hq hg hs ha
    exact ⟨w, u, by rw [h, if_neg hg], q, hp, hw, hf, hm, fun _ => hpg⟩

/-- Where the first of two accesses of a register reached a known page, the second reaches the same one: the page cache saves
the second switch, or none was saved and both switched. -/
theorem Reached.again {u w w' : State} {r : RegAt} {pg : Page} (hp : s.params.wf = true) (h : Reached s r w)
    (hu : u.params = s.params) (hc : u.pcache = some r.page) (hg : u.chipPage = w.chipPage) (hk : w.chipPage = some pg)
    (h' : Reached u r w') : w'.chipPage = some pg := by
  by_cases hs : u.cached r.page
  · exact (h'.cached hs (by simp [hg, hk])).trans (hg.trans hk)
  · have hn : ¬ s.cached r.page := fun hsc => hs ⟨hu ▸ hsc.1, hc⟩
    rw [h'.switched (hu ▸ hp) hs, ← h.switched hp hn, hk]

/-- An update of a field of the mode-control register: it reaches the register on a page `pg`, and only where that is the
register's own is it judged and does CHIPMODE follow. -/
theorem setField_answered {p : Params} (hps : s.params = p) (hp : p.wf = true) (hb : s.busy = true)
    (hq : s.during = []) (f : Field) (x : Byte) {v g v0 v1 : Byte} {ans1 ans2 : List (List Byte)} {sw1 sw2 : List BusEvent}
    (hs1 : s.switchesTo p.modectlPage v0 ans1 sw1)
    (hs2 : (s.setPage p.modectlPage).switchesTo p.modectlPage v1 ans2 sw2)
    (ha : s.chip.answers = ans1.map .force ++ .force [v] :: (ans2.map .force ++ .force [] :: .force [g] :: rest)) :
    ∃ pg u, setField f x s = (if g = setFieldValue p f v x then .ok () u
        else .error (.raised (.verify (some (modectl p)))) u)
      ∧ Quietly rest (sw1 ++ [.read p.modectlAddr (some v)] ++ sw2
        ++ [.write p.modectlAddr (setFieldValue p f v x) true, .read p.modectlAddr (some g)]) s u
      ∧ u.pcache = some p.modectlPage
      ∧ u.faults = (if pg = p.modectlPage
          ∧ legal (decodeMode p v) (decodeMode p (setFieldValue p f v x)) = false
        then { s.faults with illegalTransition := true } else s.faults)
      ∧ (pg = p.modectlPage → u.chipMode = decodeMode p g)
      ∧ (s.pageCoherent → pg = p.modectlPage)
      ∧ u.chipPage = some pg := by
  subst hps
  have hne : (modectl s.params).addr ≠ s.params.sysctlAddr := (Params.plain_of_wf hp).1.2
  obtain ⟨w, u, h1, q1, c1, f1, r1, m1, g1⟩ := setField_reads hb hq f x (.of_switchesTo hs1) ha
  have hpu := q1.params
  have hs2' := switchesTo_congr (t := u) (hpu.trans rfl : u.params = (s.setPage s.params.modectlPage).params) c1 hs2
  obtain ⟨w', t, h2, q2, c2, r2, f2, m2, g2⟩ := pagedWrite_answered (r := modectl s.params) (q1.busy.trans hb) q1.during
    (setFieldValue s.params f v x) (.of_switchesTo hs2') q1.answers
  obtain ⟨pg, hpg⟩ := r1.known hp rfl
  have hpg' := r1.again hp hpu c1 g1 hpg r2
  have hpw : w.params = s.params := r1.params
  have hpw' : w'.params = s.params := r2.params.trans hpu
  obtain ⟨read, -⟩ := monitor_atModectl hpg (hpw ▸ hp)
  obtain ⟨read', write'⟩ := monitor_atModectl hpg' (hpw' ▸ hp)
  rw [hpw] at read
  rw [hpw'] at read' write'
  refine ⟨pg, t, h1.trans h2, ?_, ?_, ?_, fun h => ?_, fun hc => ?_, ?_⟩
  · simpa only [List.append_assoc, modectl] using q1.trans q2
  · exact c2.trans (if_neg (hpu ▸ hne))
  · refine f2.trans ((write' _).trans ?_)
    by_cases h : pg = s.params.modectlPage
    · rw [r2.chipMode, m1, read, if_pos h, r2.faults, f1]
    · rw [if_neg (fun hc => h hc.1), if_neg (fun hc => h hc.1), r2.faults, f1]
  · exact m2.trans ((read' g).trans (if_pos h))
  · exact Option.some.inj (hpg.symm.trans (r1.page hp hc))
  · exact (g2 (hpu ▸ hp) (hpu ▸ hne)).trans hpg'

/-- A mode step whose update did not read back: nothing changes where the chip was on the register's own page, and CHIPMODE
alone elsewhere. -/
theorem modeStep_verify_modectl {c : Cmd Unit} {u : State} {p : Params} (k : BitVec 4) (hp : u.params = p)
    (h : c s = .error (.raised (.verify (some (modectl p)))) u) :
    ∃ t, modeStep k c s = .error (.raised (.mode k .verify)) t ∧ (u.chipPage = some p.modectlPage → t = u)
      ∧ t.during = u.during ∧ t.pcache = u.pcache ∧ t.log = u.log := by
  subst hp
  refine ⟨_, modeStep_verify k h, fun hu => if_pos ⟨rfl, hu⟩, ?_⟩
  split <;> exact ⟨rfl, rfl, rfl⟩

end

theorem modeResult_some (m : Mode) : (modeResult (some m)).toNat = m.number := by cases m <;> rfl

/-- Settles O42. -/
theorem getModeReturns : Obligations.GetModeReturns := by
  rintro s v v0 ans sw hq hs ⟨rest, ha⟩
  obtain ⟨u, h, q, hf, hm⟩ := read_modectl hq hs (rest := rest) (by simpa using ha)
  have hc : commandOf .getMode s.beginCommand = .ok () (u.setResult (modeResult (decodeMode s.params v))) := by
    rw [commandOf, getModeCommand, getParams_bind]
    exact bind_ok h
  obtain ⟨he, hend⟩ := exec_ok hc q.during
  refine ⟨_, he, hend, fun m hd => ?_, fun hd => ?_, hm, hf, q.log⟩
  · rw [← modeResult_some m, ← hd]
    rfl
  · change modeResult (decodeMode s.params v) = _
    rw [hd]
    rfl

/-- Settles O39. -/
theorem sleepGuardRejects : Obligations.SleepGuardRejects := by
  rintro s i v v0 ans sw hi hq hg hs ⟨rest, ha⟩ hne
  obtain ⟨u, h, q, hf, hm⟩ := read_modectl hq hs (rest := rest) (by simpa using ha)
  have hguard : sleepGuardStep s.beginCommand = .error (.raised (.mode 0 .wrongMode)) u := by
    have hg' : s.beginCommand.params.sleepGuard = .reject := hg
    rw [sleepGuardStep, getParams_bind, hg']
    refine (bind_ok (modeStep_ok 0 h)).trans ?_
    exact congrFun (if_neg hne) u
  have hc : commandOf i s.beginCommand = .error (.raised (.mode 0 .wrongMode)) u := by
    rcases hi with rfl | rfl <;> exact bind_error hguard
  obtain ⟨he, hend⟩ := exec_raised hc q.during
  exact ⟨_, he, hend, q.carried.tcxo rfl, hf, hm, q.log⟩

/-- Settles O40. -/
theorem setModeWrites : Obligations.SetModeWrites := by
  rintro s m v g v0 v1 ans1 ans2 sw1 sw2 hp hq hs1 hs2 ⟨rest, ha⟩
  obtain ⟨pg, u, h, q, hc, hf, hm, hg, hu⟩ := setField_answered (s := s.beginCommand) (rest := rest) (p := s.params)
    rfl hp rfl hq .mode (modeCodeOf s.params m) (g := g) hs1 hs2 (by simpa using ha)
  have hfaults : s.pageCoherent → u.faults = if legal (decodeMode s.params v) (some m) then s.faults
      else { s.faults with illegalTransition := true } := fun hco => by
    rw [hf, State.beginCommand_faults, decodeMode_setMode hp]
    cases legal (decodeMode s.params v) (some m) <;> simp [hg hco]
  by_cases hv : g = setFieldValue s.params .mode v (modeCodeOf s.params m)
  · rw [if_pos hv] at h
    obtain ⟨he, hend⟩ := exec_ok (i := .setMode m) (modeStep_ok 1 h) q.during
    exact ⟨_, he, hc, q.log, fun hco => ⟨hm (hg hco), hfaults hco⟩, fun _ => hend, fun hn => absurd hv hn⟩
  · rw [if_neg hv] at h
    obtain ⟨t, hmode, hsame, hd, hpc, hl⟩ := modeStep_verify_modectl (c := setModeField m) 1 q.params h
    obtain ⟨he, hend⟩ := exec_raised (i := .setMode m) hmode (hd.trans q.during)
    refine ⟨_, he, hpc.trans hc, hl.trans q.log, fun hco => ?_, fun h => absurd h hv, fun _ => hend⟩
    have hco' := hg hco
    rw [hsame (hu.trans (congrArg some hco'))]
    exact ⟨hm hco', hfaults hco⟩

/-- Settles O41. -/
theorem subModeWrites : Obligations.SubModeWrites := by
  rintro s i f x v g v0 v1 ans1 ans2 sw1 sw2 hp hq hs1 hs2 hi ⟨rest, ha⟩
  have hfield : f ≠ .mode ∧ commandOf i s.beginCommand = setField f x s.beginCommand := by
    rcases hi with ⟨sub, rfl, rfl, rfl⟩ | ⟨sub, rfl, rfl, rfl⟩
    · exact ⟨nofun, rfl⟩
    · exact ⟨nofun, rfl⟩
  obtain ⟨hfm, hcmd⟩ := hfield
  obtain ⟨pg, u, h, q, hc, hf, hm, hg, -⟩ := setField_answered (s := s.beginCommand) (rest := rest) (p := s.params)
    rfl hp rfl hq f x (g := g) hs1 hs2 (by simpa using ha)
  rw [← hcmd] at h
  have hfaults : u.faults = s.faults := by
    rw [decodeMode_setOther hp hfm, legal_self] at hf
    exact hf.trans (if_neg fun hl => Bool.noConfusion hl.2)
  by_cases hv : g = setFieldValue s.params f v x
  · rw [if_pos hv] at h
    obtain ⟨he, hend⟩ := exec_ok h q.during
    exact ⟨_, he, hc, q.log, hfaults, fun hco => hm (hg hco), fun _ => hend, fun hn => absurd hv hn⟩
  · rw [if_neg hv] at h
    obtain ⟨he, hend⟩ := exec_raised h q.during
    exact ⟨_, he, hc, q.log, hfaults, fun hco => hm (hg hco), fun h => absurd h hv, fun _ => hend⟩

end Sys2Proof.Machine
end

section
/-! CLR_IRQ while nothing else acts and the answers are fixed: what a verified clear leaves of the IRQ status and the line. -/

namespace Sys2Proof.Machine

/-- A byte with no bit of the event mask has every event bit 0. -/
theorem eventBits_clear {p : Params} {b : Byte} (h : b &&& irqEventMask p = 0) :
    ∀ k ∈ [p.irqBitPlhd, p.irqBitRxDone, p.irqBitCrcErr, p.irqBitRxTo, p.irqBitTxDone], b.getLsbD k.val = false := by
  intro k hk
  have hbit (j : Fin 8) : (maskAt j.val 1).getLsbD k.val = decide (j.val ≤ k.val ∧ k.val < j.val + 1) :=
    maskAt_bit (by omega) (by omega) k.isLt
  have hm : (irqEventMask p).getLsbD k.val = true := by
    simp only [List.mem_cons, List.not_mem_nil, or_false] at hk
    simp only [irqEventMask, BitVec.getLsbD_or, hbit, Bool.or_eq_true, decide_eq_true_eq]
    rcases hk with rfl | rfl | rfl | rfl | rfl <;> simp
  have hb : (b &&& irqEventMask p).getLsbD k.val = false := by rw [h]; exact BitVec.getLsbD_zero
  rwa [BitVec.getLsbD_and, hm, Bool.and_true] at hb

section
variable {s : State} {rest : List Answer}

theorem irqLine_setLine (s : State) (level : Bool) : (s.setLine level).chip.irqLine = level := by
  unfold State.setLine
  dsimp only
  split <;> rfl

/-- What the clear leaves: no event bit in the IRQ-status register, and the line at its inactive level or held by another bit
of that register. -/
theorem irqCleared_leaves (s : State) :
    ∃ b, s.irqCleared.regValue s.params.irqReg.page s.params.irqReg.addr = some b
      ∧ (∀ k ∈ [s.params.irqBitPlhd, s.params.irqBitRxDone, s.params.irqBitCrcErr, s.params.irqBitRxTo,
        s.params.irqBitTxDone], b.getLsbD k.val = false)
      ∧ (s.irqCleared.chip.irqLine = !activeLevel s.params.irqActive
        ∨ b ≠ 0 ∧ s.irqCleared.chip.irqLine = s.chip.irqLine ∧ s.irqCleared.irqPrev = s.irqPrev) := by
  obtain ⟨b, n, -, hb, -, h⟩ := irqCleared_cases s
  have hr := (regValue_setRegs_write s s.params.irqReg.page s.params.irqReg.page s.params.irqReg.addr
    s.params.irqReg.addr b).trans (if_pos ⟨rfl, .inr rfl⟩)
  refine ⟨b, ?_, eventBits_clear hb, ?_⟩
  · rcases h with h | ⟨-, h⟩ <;> rw [h]
    · rw [State.regValue, params_setLine, regs_setLine]
      exact hr
    · exact hr
  · rcases h with h | ⟨hne, h⟩ <;> rw [h]
    · exact .inl (irqLine_setLine _ _)
    · exact .inr ⟨hne, rfl, rfl⟩

/-- A part of a command that ran to its end off the test double, with no clear that has read back among its outputs, leaves the
line and its sample. -/
theorem LineKept.line_of_ok {α : Type} {c : Cmd α} (h : LineKept s.params α c) {a : α} {t : State} {evs : List BusEvent}
    (hq : s.during = []) (ho : s.chip.oracle = false) (hr : c s = .ok a t) (hl : t.log = s.log ++ evs)
    (hn : ¬ clearPair s.params <:+: evs) : t.chip.irqLine = s.chip.irqLine ∧ t.irqPrev = s.irqPrev := by
  obtain ⟨e, l, -, -, -, -, k⟩ := h s rfl hq ho
  rw [hr, endState_ok] at l k
  obtain rfl := List.append_cancel_left (hl.symm.trans l)
  exact k hn

/-- The clear and its read-back are two outputs. -/
theorem not_clearPair_singleton (p : Params) (e : BusEvent) : ¬ clearPair p <:+: [e] := fun h => by
  simpa [clearPair] using h.length_le

/-- The accesses of a page switch are none of the clear's. -/
theorem clear_notMem_switch {pg : Page} {v0 g : Byte} {ans : List (List Byte)} {sw : List BusEvent}
    (hp : s.params.wf = true) (hs : s.switchesTo pg v0 ans sw) : .read s.params.irqClr.addr (some g) ∉ sw := by
  have hne : s.params.irqClr.addr ≠ s.params.sysctlAddr := (Params.plain_of_wf hp).2.2.2.2.1.2
  rcases hs with ⟨-, -, rfl⟩ | ⟨-, -, rfl⟩
  · exact List.not_mem_nil
  · simp [hne]

theorem read_mem_of_clearPair {p : Params} {l : List BusEvent} (h : clearPair p <:+: l) :
    .read p.irqClr.addr (some p.irqClr.value) ∈ l :=
  h.subset (by simp [clearPair])

/-- The clear, where it reads back and the page cache is right about the chip: until then the line has not moved. -/
theorem clear_forced (hp : s.params.wf = true) (hb : s.busy = true) (hq : s.during = []) (ho : s.chip.oracle = false)
    (hc : s.pageCoherent) {v0 : Byte} {ans : List (List Byte)} {sw : List BusEvent}
    (hs : s.switchesTo s.params.irqClr.page v0 ans sw)
    (ha : s.chip.answers = ans.map .force ++ .force [] :: .force [s.params.irqClr.value] :: rest) :
    ∃ u : State, pagedWriteTriple s.params.irqClr s = .ok () u.irqCleared ∧ u.params = s.params
      ∧ u.chip.irqLine = s.chip.irqLine ∧ u.irqPrev = s.irqPrev := by
  have hne : s.params.irqClr.addr ≠ s.params.sysctlAddr := (Params.plain_of_wf hp).2.2.2.2.1.2
  obtain ⟨u1, h1, q1, -, g1⟩ := switchPage_forced hb hq (.of_switchesTo hs) ha
  obtain ⟨u2, h2, q2, -, -, -, g2, -⟩ := busWrite_forced (q1.busy.trans hb) q1.during q1.answers s.params.irqClr.addr
    s.params.irqClr.value
  obtain ⟨u3, h3, q3, -, -, -, g3⟩ := busRead_forced (q2.busy.trans (q1.busy.trans hb)) q2.during q2.answers
    s.params.irqClr.addr
  have hp2 : u2.params = s.params := q2.params.trans q1.params
  have hp3 : u3.params = s.params := q3.params.trans hp2
  have ho1 : u1.chip.oracle = false := q1.carried.oracle.trans ho
  have ho2 : u2.chip.oracle = false := q2.carried.oracle.trans ho1
  have ho3 : u3.chip.oracle = false := q3.carried.oracle.trans ho2
  have hpg1 : u1.chipPage = some s.params.irqClr.page := g1.page hp hc
  have hpg2 : u2.chipPage = some s.params.irqClr.page := by
    rw [g2 (q1.params ▸ hne), pageDrawn_known u1 (by simp [hpg1]), hpg1]
  have hpg3 : u3.chipPage = some s.params.irqClr.page := by rw [g3, pageDrawn_known u2 (by simp [hpg2]), hpg2]
  have l1 := (lineKept_switchPage (p := s.params) _).line_of_ok hq ho h1 q1.log fun h =>
    clear_notMem_switch hp hs (read_mem_of_clearPair h)
  have l2 := (lineKept_busWrite (p := u1.params) _ _).line_of_ok q1.during ho1 h2 q2.log (not_clearPair_singleton _ _)
  have l3 := (lineKept_busRead (p := u2.params) _).line_of_ok q2.during ho2 h3 q3.log (not_clearPair_singleton _ _)
  refine ⟨u3, ?_, hp3, l3.1.trans (l2.1.trans l1.1), l3.2.trans (l2.2.trans l1.2)⟩
  have hv : u3.writeVerified s.params.irqClr.addr s.params.irqClr.value = u3.irqCleared := by
    simp [State.writeVerified, ho3, hpg3, hp3]
  unfold pagedWriteTriple pagedWrite
  rw [bind_ok h1, bind_ok h2, change_bind, if_neg (by rwa [hp2]), bind_ok h3, if_pos rfl, ← hv]
  rfl

end

/-- Off the test double, with nothing arriving, a command that may not touch IRQ_PEND leaves it. -/
theorem irqPend_quiet {i : Instr} {s t : State} (hi : (permOf i).pend = false) (hq : s.quiet) (ho : s.chip.oracle = false)
    (ht : endState (commandOf i s.beginCommand) = t) : t.irqPend = s.irqPend := by
  obtain ⟨-, -, -, -, -, hdown, -⟩ := lineKept_commandOf (p := s.params) i s.beginCommand rfl hq ho
  have hup := (carries_commandOf i s.beginCommand rfl).pend hi
  rw [ht] at hdown hup
  cases h : s.irqPend with
  | false => exact hdown h
  | true => exact hup h

/-- Settles O47. -/
theorem clrIrqWrites : Obligations.ClrIrqWrites := by
  rintro s g v0 ans sw hq hp hs ⟨rest, ha⟩
  have ha' : s.chip.answers = ans.map .force ++ .force [] :: .force [g] :: rest := by simpa using ha
  have hne : s.params.irqClr.addr ≠ s.params.sysctlAddr := (Params.plain_of_wf hp).2.2.2.2.1.2
  obtain ⟨-, u, h, q, hc, -⟩ := pagedWrite_answered (s := s.beginCommand) (r := ⟨s.params.irqClr.page, s.params.irqClr.addr⟩)
    rfl hq s.params.irqClr.value (.of_switchesTo hs) ha'
  have hc : u.pcache = some s.params.irqClr.page := hc.trans (if_neg hne)
  change commandOf .clrIrq s.beginCommand = _ at h
  have hpend (ho : s.chip.oracle = false) : u.irqPend = s.irqPend :=
    irqPend_quiet (i := .clrIrq) rfl hq ho (by rw [h]; split <;> rfl)
  by_cases hg : g = s.params.irqClr.value
  · rw [if_pos hg] at h
    obtain ⟨he, hend⟩ := exec_ok h q.during
    refine ⟨_, he, hc, q.log, fun _ => hend, fun hn => absurd hg hn, fun ho =>
      ⟨hpend ho, fun hn => absurd hg hn, fun _ hco => ?_⟩⟩
    obtain ⟨w, hw, hwp, hl, hv⟩ := clear_forced (s := s.beginCommand) hp rfl hq ho hco hs (hg ▸ ha')
    obtain rfl : u = w.irqCleared := by
      have := h.symm.trans hw
      injection this
    obtain ⟨b, hb, hbits, hline⟩ := irqCleared_leaves w
    rw [hwp] at hb hbits hline
    rw [hl, hv] at hline
    exact ⟨b, hb, hbits, hline⟩
  · rw [if_neg hg] at h
    obtain ⟨he, hend⟩ := exec_raised h q.during
    refine ⟨_, he, hc, q.log, fun h => absurd h hg, fun _ => hend, fun ho =>
      ⟨hpend ho, fun _ => ?_, fun h => absurd h hg⟩⟩
    obtain ⟨e, hl, -, -, -, -, hk⟩ := lineKept_commandOf (p := s.params) .clrIrq s.beginCommand rfl hq ho
    rw [h, endState_error] at hl hk
    obtain rfl := List.append_cancel_left (q.log.symm.trans hl)
    refine hk fun hi => ?_
    have hmem := read_mem_of_clearPair hi
    simp only [List.mem_append, clear_notMem_switch hp hs, List.mem_cons, List.not_mem_nil] at hmem
    simp [Ne.symm hg] at hmem

end Sys2Proof.Machine
end

section
/-! What moves CHIPMODE: accesses at the mode-control register's offset, completion events, the reset input and a power cycle. -/

namespace Sys2Proof.Machine

section
variable (s : State)

/-- A mode the chip takes on its own: CHIPMODE follows, and of the mode-control register the MODE field alone is new. -/
theorem chipTakesMode_leaves (m : Mode) :
    (s.chipTakesMode m).chipMode = some m ∧ (s.chipTakesMode m).faults = s.faults
      ∧ ∃ b, (s.chipTakesMode m).regValue s.params.modectlPage s.params.modectlAddr = some b
        ∧ (s.params.wf = true → decodeMode s.params b = some m)
        ∧ ∀ v, s.regValue s.params.modectlPage s.params.modectlAddr = some v →
          b = setFieldValue s.params .mode v (modeCodeOf s.params m) := by
  refine ⟨rfl, ?_, _, ?_, fun hp => decodeMode_setMode hp (s.regOrDraw (modectl s.params)).1 m, fun v hv => ?_⟩
  · exact ((sameGhosts_storeReg _ _ _ _).faults).trans (sameGhosts_regOrDraw s _).faults
  · exact (regValue_storeReg _ _ _ _ _ _).trans (if_pos ⟨rfl, .inr rfl⟩)
  · have hd : s.regOrDraw (modectl s.params) = (v, s) := by simp only [State.regOrDraw, modectl, hv]
    rw [hd]

end

section
variable {s : State} {rest : List Answer} {p : Params}

/-- The known page an access reaches: the chip's own where the page is cached, the one switched to where not. -/
theorem Reached.page_eq {r : RegAt} {w : State} {q : Page} (h : Reached s r w) (hk : w.chipPage = some q) :
    (∀ q', s.cached r.page → s.chipPage = some q' → q = q')
      ∧ (s.params.wf = true → ¬ s.cached r.page → q = r.page) :=
  ⟨fun _ hc hq' => Option.some.inj (hk.symm.trans ((h.cached hc (by simp [hq'])).trans hq')),
    fun hp hc => Option.some.inj (hk.symm.trans (h.switched hp hc))⟩

/-- A read at the mode-control register's offset. -/
theorem read_atModectl (hps : s.params = p) (hp : p.wf = true) (hb : s.busy = true) (hq : s.during = []) {pg : Page}
    {x : Byte} {ans : List Answer} {sw : List BusEvent} (hs : SwitchAnswers s pg ans sw)
    (ha : s.chip.answers = ans ++ .force [x] :: rest) :
    ∃ u q, pagedRead ⟨pg, p.modectlAddr⟩ s = .ok x u ∧ u.during = [] ∧ u.chipPage = some q
      ∧ (∀ q', s.cached pg → s.chipPage = some q' → q = q') ∧ (¬ s.cached pg → q = pg) ∧ u.faults = s.faults
      ∧ u.chipMode = if q = p.modectlPage then decodeMode p x else s.chipMode := by
  subst hps
  obtain ⟨w, u, h, hu, -, hf, hw, hm, hg⟩ := pagedRead_forced (r := ⟨pg, s.params.modectlAddr⟩) hb hq hs ha
  obtain ⟨q, hk⟩ := hw.known hp rfl
  have hwp : w.params = s.params := hw.params
  obtain ⟨read, -⟩ := monitor_atModectl hk (hwp ▸ hp)
  rw [hwp, hw.chipMode] at read
  obtain ⟨hc, hn⟩ := hw.page_eq hk
  exact ⟨u, q, h, hu.during, hg.trans hk, hc, hn hp, hf, hm.trans (read x)⟩

/-- A verified write at the mode-control register's offset. -/
theorem write_atModectl (hps : s.params = p) (hp : p.wf = true) (hb : s.busy = true) (hq : s.during = []) {pg : Page}
    {v g : Byte} {ans : List Answer} {sw : List BusEvent} (hs : SwitchAnswers s pg ans sw)
    (ha : s.chip.answers = ans ++ .force [] :: .force [g] :: rest) :
    ∃ u q, pagedWrite ⟨pg, p.modectlAddr⟩ v s
        = (if g = v then .ok () u else .error (.raised (.verify (some ⟨pg, p.modectlAddr⟩))) u)
      ∧ u.during = [] ∧ u.chipPage = some q ∧ (∀ q', s.cached pg → s.chipPage = some q' → q = q')
      ∧ u.faults = (if q = p.modectlPage ∧ legal s.chipMode (decodeMode p v) = false
        then { s.faults with illegalTransition := true } else s.faults)
      ∧ u.chipMode = if q = p.modectlPage then decodeMode p g else s.chipMode := by
  subst hps
  obtain ⟨w, u, h, hu, -, hw, hf, hm, hg⟩ := pagedWrite_answered (r := ⟨pg, s.params.modectlAddr⟩) hb hq v hs ha
  obtain ⟨q, hk⟩ := hw.known hp rfl
  have hwp : w.params = s.params := hw.params
  obtain ⟨read, write⟩ := monitor_atModectl hk (hwp ▸ hp)
  rw [hwp, hw.chipMode] at read
  rw [hwp, hw.chipMode, hw.faults] at write
  exact ⟨u, q, h, hu.during, (hg hp (Params.plain_of_wf hp).1.2).trans hk, (hw.page_eq hk).1, hf.trans (write v),
    hm.trans (read g)⟩

/-- A command that completes or raises an error leaves the chip, CHIPMODE and the model faults as its last action did. -/
theorem exec_answered {i : Instr} {u : State} {e : Error} {c : Prop} [Decidable c] (hq : u.during = [])
    (h : commandOf i s.beginCommand = if c then .ok () u else .error (.raised e) u) :
    ∃ t, exec i s = .next t ∧ t.chipPage = u.chipPage ∧ t.chipMode = u.chipMode ∧ t.faults = u.faults := by
  split at h
  · exact ⟨_, (exec_ok h hq).1, rfl, rfl, rfl⟩
  · refine ⟨_, (exec_raised h hq).1, ?_⟩
    cases e <;> exact ⟨rfl, rfl, rfl⟩

/-- REG_READ at the mode-control register's offset. -/
theorem exec_regRead_atModectl (hp : s.params.wf = true) (hq : s.quiet) {pg : Page} {x : Byte} {ans : List Answer}
    {sw : List BusEvent} (hs : SwitchAnswers s.beginCommand pg ans sw)
    (ha : s.chip.answers = ans ++ .force [x] :: rest) :
    ∃ t q, exec (.regRead pg s.params.modectlAddr) s = .next t ∧ t.chipPage = some q
      ∧ (∀ q', s.cached pg → s.chipPage = some q' → q = q') ∧ (¬ s.cached pg → q = pg) ∧ t.faults = s.faults
      ∧ t.chipMode = if q = s.params.modectlPage then decodeMode s.params x else s.chipMode := by
  obtain ⟨u, q, h, hd, hk, hc, hn, hf, hm⟩ := read_atModectl (s := s.beginCommand) rfl hp rfl hq hs ha
  have hcmd : commandOf (.regRead pg s.params.modectlAddr) s.beginCommand = .ok () (u.setResult (x.setWidth 16)) :=
    bind_ok h
  exact ⟨_, q, (exec_ok hcmd hd).1, hk, hc, hn, hf, hm⟩

end

/-- Settles O28. -/
theorem chipModeMonitor : Obligations.ChipModeMonitor := by
  refine ⟨?_, ?_, ?_, ?_, ?_, ?_, ?_⟩
  · rintro s pg v g hp hq hc ⟨rest, ha⟩
    obtain ⟨u, q, h, hd, hk, hown, hf, hm⟩ := write_atModectl (s := s.beginCommand) (p := s.params) (v := v) rfl hp rfl hq
      (.cached hc) ha
    obtain ⟨t, he, hpage, hmode, hfaults⟩ := exec_answered (i := .regWrite pg s.params.modectlAddr v) hd h
    refine ⟨t, q, he, hpage.trans hk, fun q' => hown q' hc, fun h => ⟨?_, ?_⟩, fun h => ⟨?_, ?_⟩⟩
    · exact hmode.trans (hm.trans (if_pos h))
    · rw [hfaults, hf]
      cases hl : legal s.chipMode (decodeMode s.params v) <;> simp [h, hl]
    · exact hmode.trans (hm.trans (if_neg h))
    · exact hfaults.trans (hf.trans (if_neg fun hl => h hl.1))
  · rintro s pg x hp hq hc ⟨rest, ha⟩
    obtain ⟨t, q, he, hk, hown, -, hf, hm⟩ := exec_regRead_atModectl hp hq (.cached hc) ha
    exact ⟨t, q, he, hk, fun q' => hown q' hc, hf, hm⟩
  · rintro s pg v x hp hq hc ⟨rest, ha⟩
    obtain ⟨t, q, he, -, -, hn, hf, hm⟩ := exec_regRead_atModectl hp hq (.switched v hc) ha
    obtain rfl := hn hc
    exact ⟨t, he, hf, hm⟩
  · intro s m rest hi
    have hstep : step s = .next (({ s with inputs := rest } : State).arrive (.completion m)) := step_input hi rfl
    refine ⟨fun h => ?_, fun hm h => ?_⟩
    · exact hstep.trans (congrArg _ (arrive_completion_ignored (s := { s with inputs := rest }) h))
    · refine ⟨_, hstep.trans (congrArg _ (arrive_completion (s := { s with inputs := rest }) h hm)), ?_⟩
      exact chipTakesMode_leaves _ m
  · intro s m hd
    have hexec := exec_nop_arrives hd (by simp) (by simp)
    set b : State := { s.beginCommand with during := [] }
    refine ⟨fun h => ?_, fun hm h => ?_⟩
    · rw [hexec, arrive_completion_ignored (s := b) h]
      rfl
    · rw [arrive_completion (s := b) h hm] at hexec
      have hk := carried_chipTakesMode {} b m
      exact ⟨_, hexec, ⟨rfl, rfl, hk.err rfl, hk.stepIx rfl, hk.cause rfl⟩, chipTakesMode_leaves b m⟩
  · intro s told rest hi hr
    have hstep : step s = .next (({ s with inputs := rest } : State).blockReset told) :=
      (step_input hi rfl).trans (congrArg _ (if_pos hr))
    exact ⟨_, hstep, rfl⟩
  · intro s rest hi
    obtain ⟨hm, -, b, hb, hd, -⟩ := chipTakesMode_leaves
      { s with inputs := rest, chip := { s.chip with regs := [], txq := [], rxq := [] } } s.params.chipPorMode
    exact ⟨_, b, step_input hi rfl, hm, hb, hd⟩

end Sys2Proof.Machine
end

section
/-! DISPATCH and IRQ_PEND: the clear at its start, and an edge at its first boundary. -/

namespace Sys2Proof.Machine

/-- What DISPATCH runs after it has cleared IRQ_PEND. -/
def dispatchRest : Cmd Unit := do
  let p ← getParams
  let status ← pagedRead p.irqReg
  let d ← runHandler (selectHandler p status)
  change fun s => s.deliver status d

theorem dispatchCommand_eq (s : State) : dispatchCommand s = dispatchRest { s with irqPend := false } := rfl

section
variable {s t : State}

/-- Only DISPATCH's first action clears IRQ_PEND. -/
theorem carries_dispatchRest : Carries { permOf .dispatch with pend := false } dispatchRest :=
  carries_bind rfl carries_getParams fun _ => carries_bind rfl (carries_pagedRead rfl _) fun status =>
  carries_bind rfl (carries_runHandler rfl le_rfl le_rfl _) fun d =>
  carries_change fun s => carried_deliver rfl rfl rfl rfl s status d

/-- With nothing arriving, DISPATCH leaves IRQ_PEND 0 off the test double. -/
theorem dispatch_irqPend_quiet (hq : s.during = []) (ho : s.chip.oracle = false) :
    (commandResult (dispatchCommand s)).irqPend = false := by
  obtain ⟨-, -, -, hd, -, hp, -⟩ := lineKept_commandOf (p := s.params) .dispatch { s with irqPend := false } rfl hq ho
  exact (commandResult_quiet hd).2.trans (hp rfl)

/-- Once set again, IRQ_PEND stays, however the command ends. -/
theorem dispatchRest_irqPend (hp : s.irqPend = true) :
    (commandResult (dispatchRest s.beginCommand)).irqPend = true :=
  (runCommand_carried (p := { permOf .dispatch with pend := false }) rfl carries_dispatchRest rfl).pend rfl hp

/-! ## An input at the first boundary -/

/-- What arrives at the first boundary of a transaction acts on the state it begins from. -/
theorem transact_boundary {α : Type} {before : State → State} {good : List Byte → State → α × State}
    {lost : State → State} {failed : BusEvent} (h : boundary s = .ok () t) (ht : t.during = []) :
    transact before good lost failed s = transact before good lost failed t := by
  simp only [transact, bind, EStateM.bind, h, boundary_quiet ht]

theorem bind_congr_left {α β : Type} {c : Cmd α} {f : α → Cmd β} (h : c s = c t) : (c >>= f) s = (c >>= f) t := by
  simp only [bind, EStateM.bind, h]

/-- The first boundary of a paged read is that of its first transaction, the page switch's or its own. -/
theorem pagedRead_boundary (r : RegAt) (h : boundary s = .ok () t) (ht : t.during = []) (hp : t.params = s.params)
    (hc : t.pcache = s.pcache) : pagedRead r s = pagedRead r t := by
  by_cases hs : s.cached r.page
  · have hs' : t.cached r.page := by rwa [State.cached, hp, hc]
    unfold pagedRead
    rw [bind_ok (switchPage_cached hs), bind_ok (switchPage_cached hs')]
    exact transact_boundary h ht
  · have hs' : ¬ t.cached r.page := by rwa [State.cached, hp, hc]
    refine bind_congr_left ?_
    rw [switchPage_uncached hs, switchPage_uncached hs', hp]
    exact bind_congr_left (transact_boundary h ht)

theorem dispatchRest_boundary (h : boundary s = .ok () t) (ht : t.during = []) (hp : t.params = s.params)
    (hc : t.pcache = s.pcache) : dispatchRest s = dispatchRest t := by
  unfold dispatchRest
  rw [getParams_bind, getParams_bind, hp]
  exact bind_congr_left (pagedRead_boundary _ h ht hp hc)

/-- The state DISPATCH's first transaction begins from where the line has just gone to `level`: IRQ_PEND is `pend`. -/
def State.afterEdge (s : State) (level pend : Bool) : State :=
  { s with during := [], irqPend := pend, irqPrev := level, chip := { s.chip with irqLine := level } }

/-- DISPATCH with the line going to its active level at its first boundary. -/
theorem dispatchCommand_edge (ho : s.chip.oracle = false) (hr : s.inReset = false)
    (hd : s.during = [[.irqLine (activeLevel s.params.irqActive)]]) :
    dispatchCommand s.beginCommand = dispatchRest (s.afterEdge (activeLevel s.params.irqActive)
      (s.irqPrev != activeLevel s.params.irqActive)).beginCommand := by
  rw [dispatchCommand_eq]
  refine dispatchRest_boundary ?_ rfl rfl rfl
  simp [boundary, State.arriveAll, State.arrive, State.setLine, State.beginCommand, State.afterEdge, hd, ho, hr]

/-- DISPATCH of a status without an event bit, the page cached: it reads and delivers. -/
theorem dispatchRest_none {p : Params} (hps : s.params = p) (hb : s.busy = true) (hq : s.during = [])
    (hc : s.cached p.irqReg.page) {st : Byte} {rest : List Answer} (ha : s.chip.answers = .force [st] :: rest)
    (hsel : selectHandler p st = .none) : ∃ u, dispatchRest s = .ok () u ∧ u.during = [] := by
  subst hps
  obtain ⟨-, u, h, hu, -⟩ := pagedRead_forced (r := s.params.irqReg) hb hq (.cached hc) ha
  refine ⟨u.deliver st ⟨.none, 0, .keep, none⟩, ?_, hu.during⟩
  unfold dispatchRest
  rw [getParams_bind, bind_ok h, hsel]
  rfl

end

/-- What IRQ_PEND is after DISPATCH, whatever the event and however it ends. -/
theorem dispatch_irqPend_edge {s : State} (ho : s.chip.oracle = false) (hr : s.inReset = false)
    (hd : s.during = [[.irqLine (activeLevel s.params.irqActive)]]) :
    (commandResult (dispatchCommand s.beginCommand)).irqPend = true ↔ s.irqPrev ≠ activeLevel s.params.irqActive := by
  rw [dispatchCommand_edge ho hr hd]
  cases he : s.irqPrev != activeLevel s.params.irqActive with
  | false =>
    have h := dispatch_irqPend_quiet (s := (s.afterEdge (activeLevel s.params.irqActive) false).beginCommand) rfl ho
    exact iff_of_false (Bool.eq_false_iff.1 h) (by simpa using he)
  | true => exact iff_of_true (dispatchRest_irqPend rfl) (by simpa using he)

/-- Settles O54. -/
theorem dispatchAndIrqPend : Obligations.DispatchAndIrqPend := by
  have run (s t : State) (h : exec .dispatch s = .next t) : t = commandResult (dispatchCommand s.beginCommand) := by
    cases h
    rfl
  refine ⟨fun s t ho h => ?_, ?_⟩
  · rw [run s t h]
    exact ⟨fun hq => dispatch_irqPend_quiet (s := s.beginCommand) hq ho, fun hr hd => dispatch_irqPend_edge ho hr hd⟩
  · rintro s st hc ⟨rest, ha⟩ hsel hr ho
    refine ⟨fun hq => ?_, fun hd => ?_⟩
    · obtain ⟨u, h, hu⟩ := dispatchRest_none (s := { s.beginCommand with irqPend := false }) rfl rfl hq hc ha hsel
      obtain ⟨he, hend⟩ := exec_ok (i := .dispatch) (s := s) h hu
      refine ⟨_, he, hend, ?_⟩
      rw [run s _ he]
      exact dispatch_irqPend_quiet (s := s.beginCommand) hq ho
    · obtain ⟨u, h, hu⟩ := dispatchRest_none (s := (s.afterEdge (activeLevel s.params.irqActive)
        (s.irqPrev != activeLevel s.params.irqActive)).beginCommand) rfl rfl rfl hc ha hsel
      obtain ⟨he, hend⟩ := exec_ok (i := .dispatch) (s := s) ((dispatchCommand_edge ho hr hd).trans h) hu
      refine ⟨_, he, hend, ?_⟩
      rw [run s _ he]
      exact dispatch_irqPend_edge ho hr hd

end Sys2Proof.Machine
end

section
/-! The host port's contract (20_memory.md R50-R53): what a refused access leaves and what an admitted read returns. -/

namespace Sys2Proof.Machine

section
variable {s : State} {addr off width : Nat} {rest : List Input}

/-- A step on a host read, which never starts a command, outside reset. -/
theorem step_hostRead (hr : s.inReset = false) (hi : s.inputs = .hostRead addr width :: rest) :
    step s = .next (({ s with inputs := rest } : State).hostRead addr width) := by
  rw [step_input hi rfl, arrive_hostRead (s := { s with inputs := rest }) hr]

/-- Byte `k` of a little-endian number is the `k`-th of its bytes, and 0 past them. -/
theorem wordOfBytes_byte (bs : List Byte) (k : Nat) : wordOfBytes bs / 256 ^ k % 256 = (bs.getD k 0).toNat := by
  induction bs generalizing k with
  | nil => simp [wordOfBytes]
  | cons b bs ih =>
    have hb : b.toNat < 256 := b.isLt
    cases k with
    | zero =>
      simp only [wordOfBytes, Nat.pow_zero, Nat.div_one, List.getD_cons_zero]
      omega
    | succ k =>
      have hdiv : (b.toNat + 256 * wordOfBytes bs) / 256 = wordOfBytes bs := by omega
      rw [wordOfBytes, Nat.pow_succ', ← Nat.div_div_eq_div_mul, hdiv, ih, List.getD_cons_succ]

/-- The same in the 32-bit word the host receives. -/
theorem extract_wordOfBytes (bs : List Byte) {k : Nat} (hk : k < 4) :
    (BitVec.ofNat 32 (wordOfBytes bs)).extractLsb' (8 * k) 8 = bs.getD k 0 := by
  apply BitVec.eq_of_toNat_eq
  have hsplit : (2 : Nat) ^ 32 = 256 ^ k * 256 ^ (4 - k) := by
    rw [← Nat.pow_add, Nat.add_sub_cancel' hk.le]
    rfl
  have hdvd : 256 ∣ 256 ^ (4 - k) := dvd_pow_self 256 (by omega)
  rw [BitVec.extractLsb'_toNat, BitVec.toNat_ofNat, Nat.shiftRight_eq_div_pow, Nat.pow_mul, hsplit,
    Nat.mod_mul_right_div_self, ← wordOfBytes_byte bs k]
  exact Nat.mod_mod_of_dvd _ hdvd

/-- An admitted read of listed bytes of TBUF, or of either buffer while BUSY = 0, returns them. -/
theorem hostRead_listed (ha : s.admits addr width = some off) {bs : List Byte} (hl : bs.length = width)
    (ho : off < 0x100 ∨ off < 0x200 ∧ s.busy = false)
    (h : ∀ k (hk : k < bs.length), s.mem.read (off + k) = some bs[k]) :
    (s.hostRead addr width).rdata = BitVec.ofNat 32 (wordOfBytes bs) := by
  have hshape := admits_shape ha
  have hbytes : s.hostBytes off width = (bs, s) := by
    rw [← hl]
    refine hostBytes_listed ?_ h
    rcases ho with ho | ⟨-, hb⟩
    · exact .inl (by omega)
    · exact .inr hb
  have hbuf : off < 0x200 := by omega
  simp only [State.hostRead, ha, if_pos hbuf, hbytes, State.setRdata_rdata]

/-- The data of an admitted read of a register that is no draw. -/
theorem rdata_register (ha : s.admits addr width = some off) (ho : 0x200 ≤ off)
    (hd : s.busy = false ∨ drawnWhileBusy off = false) : (s.hostRead addr width).rdata = s.regWord off := by
  rw [hostRead_register ha ho hd, State.setRdata_rdata]

/-- A reserved offset reads 0 (20_memory.md R51). -/
theorem regWord_reserved (s : State) (h : 0x21C ≤ off) : s.regWord off = 0 := by
  have hne : ∀ o ≤ 0x218, off ≠ o := fun o ho => by omega
  simp [State.regWord, hne]

end

/-- Settles O57: the access is not admitted, so neither port starts a command and both record the refusal. -/
theorem unadmittedAccessRefused : Obligations.UnadmittedAccessRefused := by
  intro s addr width v rest hr h
  have ha : ({ s with inputs := rest } : State).admits addr width = none := admits_none (s := { s with inputs := rest }) h
  refine ⟨fun hi => ?_, fun hi => ?_⟩
  · rw [step_input hi (startWord_none (s := { s with inputs := rest }) (.inr (.inr (by simp [ha])))),
      arrive_hostWrite (s := { s with inputs := rest }) hr, hostWrite_refused ha]
    rfl
  · rw [step_hostRead hr hi, hostRead_refused ha]
    rfl

/-- Settles O59: the read's data is what its offset says, a buffer range or one register. -/
theorem hostReads : Obligations.HostReads := by
  intro s off width rest hi hr hw
  let u : State := { s with inputs := rest }
  have ha : u.admits (s.params.tcbBase + off) width = some off := admits_some (s := u) hw
  obtain ⟨data, draws, hread⟩ := hostRead_admitted ha
  have hdata : (u.hostRead (s.params.tcbBase + off) width).rdata = data := by rw [hread]
  have hreg {o : Nat} (ho : off = o) (hlo : 0x200 ≤ o) (hd : s.busy = false ∨ drawnWhileBusy o = false) :
      data = s.regWord o := by
    subst ho
    exact hdata.symm.trans (rdata_register ha hlo hd)
  have hidle (hb : s.busy = false) {o : Nat} (ho : off = o) (hlo : 0x200 ≤ o) : data = s.regWord o := hreg ho hlo (.inl hb)
  refine ⟨data, draws, by rw [step_hostRead hr hi, hread], fun bs hl ho h k hk => ?_,
    fun _ ho => hreg ho (by decide) (.inr rfl), fun _ ho => hreg ho (by decide) (.inr rfl),
    fun hb => ⟨fun ho => hidle hb ho (by decide), fun ho => hidle hb ho (by decide), fun ho => hidle hb ho (by decide),
      fun ho => hidle hb ho (by decide), fun ho => hidle hb ho (by decide)⟩, fun ho => ?_⟩
  · rw [← hdata, hostRead_listed ha hl ho h, extract_wordOfBytes bs hk]
  · have hfree : drawnWhileBusy off = false := by
      simp only [drawnWhileBusy, Bool.and_eq_false_iff, decide_eq_false_iff_not]
      omega
    rw [hreg rfl (by omega) (.inr hfree), regWord_reserved s ho]

end Sys2Proof.Machine
end

section
/-! The register bus and FIFO commands while nothing else acts (41_register_bus.md R115-R118): REG_READ, FIFO_WRITE and
FIFO_READ with fixed answers. -/

namespace Sys2Proof.Machine

section
variable {s : State} {rest : List Answer}

/-- The page drawn for the mode monitor leaves the receive FIFO. -/
theorem rxq_pageDrawn (s : State) (a : Byte) : (s.pageDrawn a).chip.rxq = s.chip.rxq := by
  unfold State.pageDrawn
  split <;> rfl

/-- A good read takes one received byte at FIFO_ADDR and none elsewhere (20_memory.md R59, D12). -/
theorem busRead_rxq (hq : s.during = []) {bs : List Byte} (ha : s.chip.answers = .force bs :: rest) {a x : Byte} {u : State}
    (h : busRead a s = .ok x u) : u.chip.rxq = if a = s.params.fifoAddr then s.chip.rxq.tail else s.chip.rxq := by
  have hk := kept_pageDrawn s a
  have hrun : busRead a s = _ := transact_good (before := fun s => s.pageDrawn a) hq
    (nextAnswer_force (s.pageDrawn a).advance (hk.answers.trans ha))
  rw [h] at hrun
  cases hrun
  rw [chip_monitorRead, State.logged_chip, chipByte_rxq]
  simp only [State.advance_params, State.advance_chip, hk.params, rxq_pageDrawn]

/-- REG_READ whose paged read succeeds. -/
theorem exec_regRead_ok {pg : Page} {a x : Byte} {u : State} (h : pagedRead ⟨pg, a⟩ s.beginCommand = .ok x u)
    (hq : u.during = []) : exec (.regRead pg a) s = .next (u.setResult (x.setWidth 16)).endCommand
      ∧ (u.setResult (x.setWidth 16)).endCommand.endedOk :=
  exec_ok (i := .regRead pg a) (bind_ok h) hq

theorem toNat_succ_of_ne_zero {len : Byte} (h : len ≠ 0) : ∃ n, len.toNat = n + 1 :=
  Nat.exists_eq_succ_of_ne_zero fun h0 : len.toNat = 0 => h (BitVec.eq_of_toNat_eq h0)

/-- FIFO_WRITE once its bytes are read: nothing on the bus for LEN = 0, else the burst. -/
theorem fifoWriteCommand_listed {fa off len : Byte} {d : List Byte}
    (h : readBuffer .tbuf off.toNat len.toNat s = .ok d s) :
    (len = 0 → fifoWriteCommand fa off len s = .ok () s)
      ∧ (len ≠ 0 → fifoWriteCommand fa off len s = busBurstWrite fa d s) := by
  refine ⟨fun h0 => ?_, fun hne => ?_⟩
  · subst h0
    exact bind_ok h
  · obtain ⟨n, hn⟩ := toNat_succ_of_ne_zero hne
    rw [fifoWriteCommand, bind_ok h, hn]

/-- FIFO_READ of at least one byte is its burst. -/
theorem fifoReadCommand_nonzero {fa off len : Byte} (h : len ≠ 0) :
    fifoReadCommand fa off len = burstIntoRbuf fa off.toNat len.toNat := by
  obtain ⟨n, hn⟩ := toNat_succ_of_ne_zero h
  rw [fifoReadCommand, hn]

end

/-- Settles O25: the switch, if any, and the one read. -/
theorem regReadReturns : Obligations.RegReadReturns := by
  refine fun s pg a v x hq => ⟨fun hc ⟨rest, ha⟩ => ?_, fun hc ⟨rest, ha⟩ => ?_⟩
  · obtain ⟨-, u, h, q, hp, -⟩ := pagedRead_forced (s := s.beginCommand) (r := ⟨pg, a⟩) rfl hq (.cached hc) ha
    have hread : busRead a s.beginCommand = .ok x u :=
      (bind_ok (f := fun _ => busRead a) (switchPage_cached (s := s.beginCommand) hc)).symm.trans h
    obtain ⟨he, hend⟩ := exec_regRead_ok h q.during
    have hrxq := busRead_rxq (s := s.beginCommand) hq ha hread
    exact ⟨_, he, hend, rfl, hp, q.log, hrxq⟩
  · obtain ⟨-, u, h, q, hp, -⟩ := pagedRead_forced (s := s.beginCommand) (r := ⟨pg, a⟩) rfl hq (.switched v hc) ha
    obtain ⟨he, hend⟩ := exec_regRead_ok h q.during
    exact ⟨_, he, hend, rfl, hp, q.log⟩

/-- Settles O32: with its bytes listed the command is its burst, if any. -/
theorem fifoWriteBursts : Obligations.FifoWriteBursts := by
  intro s fa off len d hq hlen hd
  have hbuf : readBuffer .tbuf off.toNat len.toNat s.beginCommand = .ok d s.beginCommand := by
    rw [← hlen]
    exact readBuffer_listed (by simpa only [bufBase, Nat.zero_add, State.beginCommand_mem] using hd)
  obtain ⟨hzero, hburst⟩ := fifoWriteCommand_listed (fa := fa) hbuf
  refine ⟨fun h0 => (exec_ok (i := .fifoWrite fa off len) (hzero h0) hq).1, fun hne ⟨rest, ha⟩ => ?_⟩
  obtain ⟨u, h, q, hp, hf⟩ := busBurstWrite_forced (s := s.beginCommand) rfl hq ha fa d
  obtain ⟨he, hend⟩ := exec_ok (i := .fifoWrite fa off len) ((hburst hne).trans h) q.during
  exact ⟨_, he, hend, hp, q.log, fun hfa => (hf hfa).1⟩

/-- Settles O33: the command is its burst, if any, whose bytes are then stored. -/
theorem fifoReadFillsRbuf : Obligations.FifoReadFillsRbuf := by
  refine fun s fa off len bs hq hlen => ⟨fun h0 => ?_, fun hne ⟨rest, ha⟩ => ?_⟩
  · subst h0
    exact (exec_ok (i := .fifoRead fa off 0) (u := s.beginCommand) rfl hq).1
  · obtain ⟨u, h, q, hp, hf⟩ := busBurstRead_forced (s := s.beginCommand) rfl hq ha fa
    rw [hlen] at h hf q
    have hc : commandOf (.fifoRead fa off len) s.beginCommand = .ok () (u.storeRbuf off.toNat bs) := by
      rw [commandOf, fifoReadCommand_nonzero hne]
      simp only [burstIntoRbuf, h]
    obtain ⟨he, hend⟩ := exec_ok hc q.during
    refine ⟨_, he, hend, hp, ?_, q.log, fun hfa => (hf hfa).1⟩
    rw [State.endCommand_mem, State.storeRbuf_mem, q.carried.memSame le_rfl]
    rfl

end Sys2Proof.Machine
end

section
/-! The round trip of 41_register_bus.md R121 on the test double. -/

namespace Sys2Proof.Machine

/-- The page-select field is the two bits from its position on. -/
theorem pageField_bit (p : Params) (v : Byte) {k : Nat} (hk : k < 2) :
    (pageField p v).getLsbD k = v.getLsbD (p.pageShift.val + k) := by
  simp [pageField, BitVec.getLsbD_ushiftRight, hk]

/-- Writing the page a system-control byte already names changes nothing, and only then. -/
theorem setPageField_eq_self (p : Params) (v : Byte) (pg : Page) : setPageField p v pg = v ↔ pageField p v = pg := by
  refine ⟨fun h => by rw [← h, pageField_setPageField], fun h => BitVec.eq_of_getLsbD_eq fun k hk => ?_⟩
  subst h
  rw [setPageField_bit p v _ hk]
  split
  · next hin => rw [pageField_bit p v (by omega), Nat.add_sub_cancel' hin.1]
  · rfl

section
variable {s u : State}

/-- On the bench a command that completed leaves a bench. -/
theorem Bench.endCommand (h : Bench u) : u.endCommand.OnBench :=
  ⟨h.params, h.oracle, h.quiet, h.page, h.coherent⟩

/-- A verified write of the system-control register on the bench: the chip is on the page its value names, and the page cache is
dropped (41_register_bus.md R114 (e)). -/
theorem pagedWrite_sysctl_bench (h : Bench s) (pg : Page) (v : Byte) :
    ∃ u, pagedWrite ⟨pg, s.params.sysctlAddr⟩ v s = .ok () u ∧ Bench u ∧ u.params = s.params ∧ u.pcache = none
      ∧ u.regValue pg s.params.sysctlAddr = some v := by
  have hne := Params.sysctl_ne_fifo h.params
  obtain ⟨u1, h1, r1, b1, -, -, q1, -⟩ := switchPage_bench h pg
  have hp1 : u1.params = s.params := r1.params
  obtain ⟨u2, h2, r2, -, -, -, -, g2, -⟩ := busWrite_ran b1.toReady q1 (a := s.params.sysctlAddr) (hp1 ▸ hne) v
  have hp2 : u2.params = s.params := r2.params.trans hp1
  have hv (q : Page) : u2.dropPage.regValue q s.params.sysctlAddr = some v := (g2 q).trans (if_pos (.inl (by rw [hp1])))
  have hpage : u2.dropPage.chipPage = some (pageField s.params v) := by
    rw [chipPage_eq _ pg, State.dropPage_params, hp2, hv]
    rfl
  have ready : Ready u2.dropPage := ⟨r2.ready.busy, r2.ready.oracle, r2.ready.quiet⟩
  obtain ⟨u3, h3, r3, -, p3, c3, -⟩ := busRead_ran ready hpage (a := s.params.sysctlAddr)
    (by rwa [State.dropPage_params, hp2]) (hv _)
  have hp3 : u3.params = s.params := r3.params.trans hp2
  have hpage3 : u3.chipPage = some (pageField s.params v) := by
    rw [← hpage]
    exact chipPage_of_regs r3.params (by rw [c3])
  refine ⟨u3, ?_, ⟨r3.ready, hp3 ▸ h.params, by simp [hpage3], fun p hp => ?_⟩, hp3, p3, ?_⟩
  · have hver : u3.writeVerified s.params.sysctlAddr v = u3 := if_pos r3.ready.oracle.1
    unfold pagedWrite
    rw [bind_ok h1, bind_ok h2, change_bind, if_pos (by rw [hp2]), bind_ok h3, if_pos rfl]
    exact congrArg _ hver
  · rw [p3] at hp
    cases hp
  · rw [← hv pg, State.regValue, State.regValue, c3, r3.params]

/-- A paged read of the system-control register on the bench, the page not cached: the switch has put the page in its field. -/
theorem pagedRead_sysctl_bench (h : Bench s) {pg : Page} (hc : s.pcache = none) {v : Byte}
    (hv : s.regValue pg s.params.sysctlAddr = some v) :
    ∃ u, pagedRead ⟨pg, s.params.sysctlAddr⟩ s = .ok (setPageField s.params v pg) u ∧ u.during = [] := by
  obtain ⟨u1, h1, r1, b1, -, -, q1, -, -, -, g1⟩ := switchPage_bench h pg
  obtain ⟨v', hv', -, hset⟩ := g1 v pg hv
  rw [hset fun hn => nomatch hc.symm.trans hn.2] at hv'
  obtain ⟨u2, h2, r2, -⟩ := busRead_ran b1.toReady q1 (a := s.params.sysctlAddr)
    (by rw [r1.params]; exact Params.sysctl_ne_fifo h.params) hv'
  exact ⟨u2, (bind_ok h1).trans h2, r2.ready.quiet⟩

end

/-- RESULT tells one byte from another. -/
theorem setWidth_byte_inj {x y : Byte} : x.setWidth 16 = y.setWidth 16 ↔ x = y := by
  refine ⟨fun h => ?_, congrArg _⟩
  simpa using congrArg (BitVec.setWidth 8) h

/-- Settles O35: at the system-control register the switch back to the page is what REG_READ may see. -/
theorem regRoundTrip : Obligations.RegRoundTrip := by
  intro s pg a v hs hf
  have hb := bench_begin hs
  by_cases ha : a = s.params.sysctlAddr
  · subst ha
    obtain ⟨u, h, bu, hp, hc, hv⟩ := pagedWrite_sysctl_bench hb pg v
    obtain ⟨he, hend⟩ := exec_ok (i := .regWrite pg s.params.sysctlAddr v) h bu.quiet
    have bt := bench_begin bu.endCommand
    have hpt : u.endCommand.beginCommand.params = s.params := hp
    obtain ⟨w, h2, hq2⟩ := pagedRead_sysctl_bench bt (pg := pg) hc (v := v) (hpt ▸ hv)
    rw [hpt] at h2
    obtain ⟨he2, hend2⟩ := exec_regRead_ok h2 hq2
    refine ⟨_, _, he, hend, he2, hend2, fun hn => absurd rfl hn, fun _ => ?_⟩
    exact setWidth_byte_inj.trans (setPageField_eq_self s.params v pg)
  · obtain ⟨u, h, ru, bu, -, -, hv, -⟩ := pagedWrite_bench hb (r := ⟨pg, a⟩) ⟨hf, ha⟩ v
    obtain ⟨he, hend⟩ := exec_ok (i := .regWrite pg a v) h bu.quiet
    have bt := bench_begin bu.endCommand
    have hpt : u.endCommand.beginCommand.params = s.params := ru.params
    obtain ⟨w, h2, rw2, -⟩ := pagedRead_bench bt (r := ⟨pg, a⟩) (hpt ▸ ⟨hf, ha⟩) (x := v) hv
    obtain ⟨he2, hend2⟩ := exec_regRead_ok h2 rw2.ready.quiet
    exact ⟨_, _, he, hend, he2, hend2, fun _ => rfl, fun hn => absurd hn ha⟩

end Sys2Proof.Machine
end

section
/-! Nothing follows a bus fault (41_register_bus.md R120, 60_exceptions.md R201): from the parts of a command to its report. -/

namespace Sys2Proof.Machine

/-! ## The parts left -/

theorem faultLast_wakeSeq : FaultLast wakeSeq :=
  faultLast_bind (faultLast_change fun _ => rfl) fun _ => faultLast_bind faultLast_getParams fun _ =>
  faultLast_bind (faultLast_modeStep 1 (faultLast_pagedWrite _ _)) fun _ =>
  faultLast_bind (faultLast_modeStep 2 (faultLast_pagedWrite _ _)) fun _ =>
  faultLast_bind (faultLast_callCap _) fun _ => faultLast_bind (faultLast_delay _) fun _ =>
  faultLast_bind (faultLast_modeStep 4 (faultLast_setModeField _)) fun _ => faultLast_bind (faultLast_delay _) fun _ =>
  faultLast_bind (faultLast_modeStep 5 (faultLast_setModeField _)) fun _ => faultLast_bind (faultLast_delay _) fun _ =>
  faultLast_bind (faultLast_modeStep 6 (faultLast_setModeField _)) fun _ => faultLast_delay _

/-- The sleep guard's own error is a wrong starting mode, no bus fault. -/
theorem faultLast_sleepGuardStep : FaultLast sleepGuardStep := by
  refine faultLast_bind faultLast_getParams fun p => ?_
  split
  · exact faultLast_pure ()
  · refine faultLast_bind (faultLast_modeStep 0 (faultLast_pagedRead _)) fun v => ?_
    split
    · exact faultLast_pure ()
    · refine faultLast_raiseError ?_
      rintro (h | ⟨k, h⟩) <;> cases h

theorem faultLast_sleepSeq (m : Mode) : FaultLast (sleepSeq m) :=
  faultLast_bind faultLast_sleepGuardStep fun _ => faultLast_thenDropPage <|
  faultLast_bind faultLast_getParams fun _ =>
  faultLast_bind (faultLast_modeStep 1 (faultLast_setModeField _)) fun _ => faultLast_bind (faultLast_delay _) fun _ =>
  faultLast_bind (faultLast_modeStep 2 (faultLast_setModeField _)) fun _ => faultLast_bind (faultLast_delay _) fun _ =>
  faultLast_bind (faultLast_callCap _) fun _ => faultLast_modeStep 4 (faultLast_setModeField _)

theorem faultLast_plhdRead (sel : PlhdSel) : FaultLast (plhdRead sel) :=
  faultLast_bind faultLast_getParams fun _ => faultLast_plhdReadFrom _ _

theorem faultLast_runHandler (h : Handler) : FaultLast (runHandler h) := by
  have hclear : ∀ tag f, FaultLast (handleNoPayload tag f) := fun _ _ => faultLast_bind faultLast_clearIrq fun _ => faultLast_pure _
  cases h with
  | plhd =>
    exact faultLast_bind faultLast_getParams fun _ => faultLast_bind (faultLast_plhdRead _) fun _ =>
      faultLast_bind faultLast_clearIrq fun _ => faultLast_bind (faultLast_bind faultLast_getParams fun _ =>
        faultLast_thenDropPage (faultLast_modeStep 1 (faultLast_resetActions _))) fun _ => faultLast_pure _
  | rxDone =>
    exact faultLast_bind (faultLast_bind faultLast_getParams fun _ => faultLast_bind (faultLast_readAll _) fun _ =>
        faultLast_pure _) fun _ =>
      faultLast_bind faultLast_drainFrame fun _ => faultLast_bind faultLast_clearIrq fun _ => faultLast_pure _
  | crcErr => exact hclear _ _
  | rxTo => exact hclear _ _
  | txDone => exact hclear _ _
  | none => exact faultLast_pure _

theorem faultLast_setResult (v : Half) : FaultLast (change fun s => s.setResult v) := faultLast_change fun _ => rfl

theorem faultLast_crcCommand (crc : List Byte → Half) (buf : Buf) (off len : Byte) :
    FaultLast (crcCommand crc buf off len) :=
  faultLast_bind (faultLast_readBuffer _ _ _) fun _ => faultLast_setResult _

theorem faultLast_dispatchCommand : FaultLast dispatchCommand :=
  faultLast_bind (faultLast_change fun _ => rfl) fun _ => faultLast_bind faultLast_getParams fun _ =>
  faultLast_bind (faultLast_pagedRead _) fun _ => faultLast_bind (faultLast_runHandler _) fun _ =>
  faultLast_change fun s => (kept_deliver s _ _).1.log

/-- In every command a bus fault is the last output, and what raises the error that reports one. -/
theorem faultLast_commandOf (i : Instr) : FaultLast (commandOf i) := by
  cases i with
  | nop => exact faultLast_pure ()
  | crcCcitt buf off len => exact faultLast_crcCommand _ _ _ _
  | crcIbm buf off len => exact faultLast_crcCommand _ _ _ _
  | regRead page addr => exact faultLast_bind (faultLast_pagedRead _) fun _ => faultLast_setResult _
  | regWrite page addr value => exact faultLast_pagedWrite _ _
  | fifoWrite faddr off len =>
    refine faultLast_bind (faultLast_readBuffer _ _ _) fun d => ?_
    split
    · exact faultLast_pure ()
    · exact faultLast_busBurstWrite _ _
  | fifoRead faddr off len =>
    simp only [commandOf, fifoReadCommand]
    split
    · exact faultLast_pure ()
    · exact faultLast_burstIntoRbuf _ _ _
  | pageSync => exact faultLast_change fun _ => rfl
  | wakeDeep => exact faultLast_wakeSeq
  | wakeSleep => exact faultLast_wakeSeq
  | sleep => exact faultLast_sleepSeq _
  | deepSleep => exact faultLast_sleepSeq _
  | setMode m => exact faultLast_modeStep 1 (faultLast_setModeField m)
  | getMode =>
    exact faultLast_bind faultLast_getParams fun _ => faultLast_bind (faultLast_pagedRead _) fun _ => faultLast_setResult _
  | setTxsub sub => exact faultLast_bind faultLast_getParams fun _ => faultLast_setField _ _
  | setRxsub sub => exact faultLast_bind faultLast_getParams fun _ => faultLast_setField _ _
  | send len =>
    exact faultLast_bind (faultLast_readBuffer _ _ _) fun _ => faultLast_bind faultLast_getParams fun _ =>
      faultLast_bind (faultLast_pagedWrite _ _) fun _ =>
      faultLast_bind (faultLast_modeStep 2 (faultLast_setModeField _)) fun _ => faultLast_busBurstWrite _ _
  | receive =>
    exact faultLast_bind faultLast_drainFrame fun _ => faultLast_bind faultLast_clearIrq fun _ => faultLast_setResult _
  | recvPlhd sel =>
    exact faultLast_bind (faultLast_plhdRead _) fun _ => faultLast_bind faultLast_clearIrq fun _ => faultLast_setResult _
  | clrIrq => exact faultLast_clearIrq
  | dispatch => exact faultLast_dispatchCommand
  | setRxflag f => exact faultLast_change fun s => (kept_applyFlag s _).log
  | setTxflag f => exact faultLast_change fun s => (kept_applyFlag s _).log

/-! ## What the command reports -/

section
variable {s t u : State} {e : Error}

/-- STATUS reports a bus fault: as BUS_ERROR, or as the cause of a MODE_ERROR. -/
def State.reportsBus (t : State) : Prop := t.err = .busError ∨ t.err = .modeError ∧ t.cause = .bus

/-- The errors that report a bus fault are those STATUS shows as one. -/
theorem report_reportsBus (s : State) (he : e.isBus) : (s.report e).reportsBus := by
  rcases he with rfl | ⟨k, rfl⟩
  · exact .inl rfl
  · exact .inr ⟨rfl, rfl⟩

/-- A command that raised an error reports it, unless reset abandons it at its last boundary, with BUSY = 1. -/
theorem exec_raised_reports {i : Instr} (h : exec i s = .next t)
    (hr : commandOf i s.beginCommand = .error (.raised e) u) (hb : t.busy = false) : ∃ w : State, t = (w.report e).endCommand := by
  have hc := carries_commandOf i s.beginCommand rfl
  rw [hr, endState_error] at hc
  have hub : u.busy = true := hc.busy (permOf_status i)
  have hbusy := carries_boundary (p := {}) rfl u hub
  rw [exec_eq_run, runCommand, hr] at h
  cases h
  rw [commandResult, State.closeCommand] at hb ⊢
  cases hw : boundary u with
  | ok x w => exact ⟨w, rfl⟩
  | error x w =>
    rw [hw, endState_error] at hbusy
    rw [hw, State.abandon_busy, hbusy.busy rfl, hub] at hb
    cases hb

/-- A command that STATUS shows to have ended in a bus fault raised the error that reports one. -/
theorem raised_of_reportsBus {i : Instr} (h : exec i s = .next t) (ht : t.reportsBus) :
    ∃ e u, commandOf i s.beginCommand = .error (.raised e) u ∧ e.isBus := by
  have hok : t.err ≠ .ok := by
    rcases ht with h | ⟨h, -⟩ <;> simp [h]
  rcases runCommand_status (permOf_status i) (carries_commandOf i) (exec_eq_run i s ▸ h) with
    ⟨-, he, -⟩ | ⟨-, -, he, -⟩ | ⟨e, u, hr, -, -, he, -, hcause⟩
  · exact absurd he hok
  · exact absurd he hok
  · refine ⟨e, u, hr, ?_⟩
    rw [State.reportsBus, he, hcause] at ht
    cases e with
    | bus => exact .inl rfl
    | verify r => rcases ht with h | ⟨h, -⟩ <;> cases h
    | mode k c =>
      rcases ht with h | ⟨-, h⟩
      · cases h
      · exact .inr ⟨k, congrArg _ h⟩

end

/-- Settles O30: the outputs are those of the command's parts, of which a fault is the last, and its error is what STATUS
reports. -/
theorem busFaultIsLast : Obligations.BusFaultIsLast := by
  intro i s t evs h hlog
  obtain ⟨hl, hp⟩ := exec_outputs h
  obtain ⟨evs', hl', hends⟩ := faultLast_commandOf i s.beginCommand
  have heq : evs' = evs := List.append_cancel_left (hl'.symm.trans (hl.symm.trans hlog))
  subst heq
  rcases hends with ⟨hno, hraise⟩ | ⟨hend, e, u, hr, hbus, hpage⟩
  · refine ⟨fun ⟨e, he, hf⟩ => ?_, fun hrep => ?_⟩
    · rw [hno e he] at hf
      cases hf
    · obtain ⟨e, u, hr, hbus⟩ := raised_of_reportsBus h hrep
      exact absurd hbus (hraise e u hr)
  · refine ⟨fun _ => ⟨hend, ?_, fun hb => ?_⟩, fun _ => ?_⟩
    · rw [hp, hr]
      exact hpage
    · obtain ⟨w, rfl⟩ := exec_raised_reports h hr hb
      exact report_reportsBus w hbus
    · obtain ⟨pre, e, rfl, hf, -⟩ := hend
      exact ⟨e, List.mem_append_right _ List.mem_cons_self, hf⟩

end Sys2Proof.Machine
end

section
/-! The encoding of command words (30_encoding.md R71 to R82): a packed word gives its fields back, what each row of the opcode
table accepts, and from these the statements about `decode` and `encode`. -/

namespace Sys2Proof

open Laws.OpcodeField

/-! ## The fields of a word (R71) -/

section
variable (w : Word)

theorem fieldA_toNat : (fieldA w).toNat = w.toNat / 2 ^ 16 % 256 := by
  simp only [fieldA, BitVec.extractLsb'_toNat, Nat.shiftRight_eq_div_pow]

theorem fieldB_toNat : (fieldB w).toNat = w.toNat / 2 ^ 8 % 256 := by
  simp only [fieldB, BitVec.extractLsb'_toNat, Nat.shiftRight_eq_div_pow]

theorem fieldC_toNat : (fieldC w).toNat = w.toNat % 256 := by
  simp only [fieldC, BitVec.extractLsb'_toNat, Nat.shiftRight_zero]

/-- A word is its four fields and nothing else. -/
theorem packWord_fields : packWord (opcOf w).toNat (fieldA w).toNat (fieldB w).toNat (fieldC w).toNat = w := by
  apply BitVec.eq_of_toNat_eq
  rw [packWord_toNat _ _ _ _ (BitVec.isLt _) (BitVec.isLt _) (BitVec.isLt _) (BitVec.isLt _), opcOf_toNat, fieldA_toNat,
    fieldB_toNat, fieldC_toNat]
  omega

end

section
variable {opc a b c : Nat} (ho : opc < 256) (ha : a < 256) (hb : b < 256) (hc : c < 256)
include ho ha hb hc

/-- The operand fields of a packed word, its fields being bytes. -/
@[simp] theorem fieldA_packWord : fieldA (packWord opc a b c) = BitVec.ofNat 8 a := by
  apply BitVec.eq_of_toNat_eq
  rw [fieldA_toNat, packWord_toNat opc a b c ho ha hb hc, BitVec.toNat_ofNat]
  omega

@[simp] theorem fieldB_packWord : fieldB (packWord opc a b c) = BitVec.ofNat 8 b := by
  apply BitVec.eq_of_toNat_eq
  rw [fieldB_toNat, packWord_toNat opc a b c ho ha hb hc, BitVec.toNat_ofNat]
  omega

@[simp] theorem fieldC_packWord : fieldC (packWord opc a b c) = BitVec.ofNat 8 c := by
  apply BitVec.eq_of_toNat_eq
  rw [fieldC_toNat, packWord_toNat opc a b c ho ha hb hc, BitVec.toNat_ofNat]
  omega

end

/-! ## The numbers an operand field may hold (10_state.md R21, R23; 30_encoding.md R73) -/

/-- `named` reads the numbers 0 to `k`, and no other, as the values `number` numbers so. -/
structure Numbering {α : Type} (named : Nat → Option α) (number : α → Nat) (k : Nat) : Prop where
  eq_some : ∀ n x, named n = some x ↔ number x = n
  exists_iff : ∀ n, (∃ x, named n = some x) ↔ n ≤ k

theorem Buf.numbering : Numbering Buf.ofNumber Buf.number 1 where
  eq_some n x := ⟨by unfold Buf.ofNumber; split <;> rintro ⟨⟩ <;> rfl, by rintro rfl; cases x <;> rfl⟩
  exists_iff n := by unfold Buf.ofNumber; split <;> simp_all; omega

theorem Mode.numbering : Numbering Mode.ofNumber Mode.number 6 where
  eq_some n x := ⟨by unfold Mode.ofNumber; split <;> rintro ⟨⟩ <;> rfl, by rintro rfl; cases x <;> rfl⟩
  exists_iff n := by unfold Mode.ofNumber; split <;> simp_all; omega

theorem TxSub.numbering : Numbering TxSub.ofNumber TxSub.number 1 where
  eq_some n x := ⟨by unfold TxSub.ofNumber; split <;> rintro ⟨⟩ <;> rfl, by rintro rfl; cases x <;> rfl⟩
  exists_iff n := by unfold TxSub.ofNumber; split <;> simp_all; omega

theorem RxSub.numbering : Numbering RxSub.ofNumber RxSub.number 2 where
  eq_some n x := ⟨by unfold RxSub.ofNumber; split <;> rintro ⟨⟩ <;> rfl, by rintro rfl; cases x <;> rfl⟩
  exists_iff n := by unfold RxSub.ofNumber; split <;> simp_all; omega

theorem PlhdSel.numbering : Numbering PlhdSel.ofNumber PlhdSel.number 1 where
  eq_some n x := ⟨by unfold PlhdSel.ofNumber; split <;> rintro ⟨⟩ <;> rfl, by rintro rfl; cases x <;> rfl⟩
  exists_iff n := by unfold PlhdSel.ofNumber; split <;> simp_all; omega

theorem Flag.numbering : Numbering Flag.ofCode Flag.code 5 where
  eq_some n x := ⟨by unfold Flag.ofCode; split <;> rintro ⟨⟩ <;> rfl, by rintro rfl; cases x <;> rfl⟩
  exists_iff n := by unfold Flag.ofCode; split <;> simp_all; omega

theorem pageNumbering : Numbering pageOfNumber BitVec.toNat 3 where
  eq_some n x := by
    have := x.isLt
    unfold pageOfNumber
    split
    · rw [Option.some.injEq, ← BitVec.toNat_inj, BitVec.toNat_ofNat]
      omega
    · simp only [reduceCtorEq, false_iff]
      omega
  exists_iff n := by
    unfold pageOfNumber
    split <;> simp_all

theorem pageOfNumber_setWidth (x : Page) : pageOfNumber (x.setWidth 8).toNat = some x :=
  (pageNumbering.eq_some _ _).2 (BitVec.toNat_setWidth_of_le (by decide)).symm

theorem send_wf {p : Params} {len : Byte} :
    (Instr.send len).wf p = true ↔ 1 ≤ len.toNat ∧ len.toNat ≤ p.maxPayload.toNat := by
  simp [Instr.wf]

/-- The command is well formed and its word has these fields. -/
def Instr.Encodes (p : Params) (o : Nat) (a b c : Byte) (i : Instr) : Prop :=
  i.wf p = true ∧ encode i = packWord o a.toNat b.toNat c.toNat

/-! ## What each row accepts (R72, R73) -/

section
variable {α : Type} {p : Params} {a b c : Byte} {i j : Instr} {named : Nat → Option α} {mk : α → Instr}
  {number : α → Nat} {k o : Nat} {mkCrc : Buf → Byte → Byte → Instr} {mkFifo : Byte → Byte → Byte → Instr}

theorem row0_eq_ok : row0 a b c j = .ok i ↔ (a = 0 ∧ b = 0 ∧ c = 0) ∧ j = i := by
  unfold row0
  split <;> simp_all

theorem rowC_eq_ok : rowC a b c named mk = .ok i ↔ (a = 0 ∧ b = 0) ∧ ∃ x, named c.toNat = some x ∧ mk x = i := by
  unfold rowC
  split
  · split <;> simp_all
  · simp_all

theorem rowCrc_eq_ok :
    rowCrc a b c mkCrc = .ok i ↔ ∃ x, Buf.ofNumber a.toNat = some x ∧ rangeOk b c = true ∧ mkCrc x b c = i := by
  unfold rowCrc rangeOk
  split
  · split <;> simp_all
  · simp_all

theorem rowFifo_eq_ok : rowFifo a b c mkFifo = .ok i ↔ rangeOk b c = true ∧ mkFifo a b c = i := by
  unfold rowFifo rangeOk
  split <;> simp_all

theorem rowRegRead_eq_ok : rowRegRead a b c = .ok i ↔ c = 0 ∧ ∃ x, pageOfNumber a.toNat = some x ∧ .regRead x b = i := by
  unfold rowRegRead
  split
  · split <;> simp_all
  · simp_all

theorem rowRegWrite_eq_ok :
    rowRegWrite p a b c = .ok i ↔ b ≠ p.fifoAddr ∧ ∃ x, pageOfNumber a.toNat = some x ∧ .regWrite x b c = i := by
  unfold rowRegWrite
  split
  · split <;> simp_all
  · simp_all

theorem rowSend_eq_ok :
    rowSend p a b c = .ok i ↔ (a = 0 ∧ b = 0) ∧ (1 ≤ c.toNat ∧ c.toNat ≤ p.maxPayload.toNat) ∧ .send c = i := by
  unfold rowSend
  split
  · split <;> simp_all
  · simp_all

/-! The same as the constraints of R73 on the fields as numbers. -/

theorem exists_row0 : (∃ i, row0 a b c j = .ok i) ↔ a.toNat = 0 ∧ b.toNat = 0 ∧ c.toNat = 0 := by
  simp [row0_eq_ok, ← BitVec.toNat_inj]

theorem exists_rowC (hn : Numbering named number k) :
    (∃ i, rowC a b c named mk = .ok i) ↔ a.toNat = 0 ∧ b.toNat = 0 ∧ c.toNat ≤ k := by
  simp [rowC_eq_ok, ← BitVec.toNat_inj, ← hn.exists_iff, and_assoc]

theorem exists_rowCrc : (∃ i, rowCrc a b c mkCrc = .ok i) ↔ a.toNat ≤ 1 ∧ b.toNat + c.toNat ≤ 256 := by
  simp [rowCrc_eq_ok, ← Buf.numbering.exists_iff, rangeOk]

theorem exists_rowFifo : (∃ i, rowFifo a b c mkFifo = .ok i) ↔ b.toNat + c.toNat ≤ 256 := by
  simp [rowFifo_eq_ok, rangeOk]

theorem exists_rowRegRead : (∃ i, rowRegRead a b c = .ok i) ↔ a.toNat ≤ 3 ∧ c.toNat = 0 := by
  simp [rowRegRead_eq_ok, ← BitVec.toNat_inj, ← pageNumbering.exists_iff, and_comm]

theorem exists_rowRegWrite : (∃ i, rowRegWrite p a b c = .ok i) ↔ a.toNat ≤ 3 ∧ b.toNat ≠ p.fifoAddr.toNat := by
  simp [rowRegWrite_eq_ok, ← BitVec.toNat_inj, ← pageNumbering.exists_iff, and_comm]

theorem exists_rowSend :
    (∃ i, rowSend p a b c = .ok i) ↔ a.toNat = 0 ∧ b.toNat = 0 ∧ 1 ≤ c.toNat ∧ c.toNat ≤ p.maxPayload.toNat := by
  simp [rowSend_eq_ok, ← BitVec.toNat_inj, and_assoc]

/-! A command a row answers is well formed, and its word has the row's opcode and the fields the row was given. -/

theorem row0_encodes (hw : j.wf p = true) (he : encode j = packWord o 0 0 0) (h : row0 a b c j = .ok i) :
    i.Encodes p o a b c := by
  obtain ⟨⟨rfl, rfl, rfl⟩, rfl⟩ := row0_eq_ok.1 h
  exact ⟨hw, he⟩

theorem rowC_encodes (hn : Numbering named number k) (hw : ∀ x, (mk x).wf p = true)
    (he : ∀ x, encode (mk x) = packWord o 0 0 (number x)) (h : rowC a b c named mk = .ok i) : i.Encodes p o a b c := by
  obtain ⟨⟨rfl, rfl⟩, x, hx, rfl⟩ := rowC_eq_ok.1 h
  exact ⟨hw x, (hn.eq_some _ _).1 hx ▸ he x⟩

theorem rowCrc_encodes (hw : ∀ x, (mkCrc x b c).wf p = rangeOk b c)
    (he : ∀ x, encode (mkCrc x b c) = packWord o x.number b.toNat c.toNat) (h : rowCrc a b c mkCrc = .ok i) :
    i.Encodes p o a b c := by
  obtain ⟨x, hx, hr, rfl⟩ := rowCrc_eq_ok.1 h
  exact ⟨(hw x).trans hr, (Buf.numbering.eq_some _ _).1 hx ▸ he x⟩

theorem rowFifo_encodes (hw : (mkFifo a b c).wf p = rangeOk b c)
    (he : encode (mkFifo a b c) = packWord o a.toNat b.toNat c.toNat) (h : rowFifo a b c mkFifo = .ok i) :
    i.Encodes p o a b c := by
  obtain ⟨hr, rfl⟩ := rowFifo_eq_ok.1 h
  exact ⟨hw.trans hr, he⟩

theorem rowRegRead_encodes (h : rowRegRead a b c = .ok i) : i.Encodes p 0x20 a b c := by
  obtain ⟨rfl, x, hx, rfl⟩ := rowRegRead_eq_ok.1 h
  exact ⟨rfl, (pageNumbering.eq_some _ _).1 hx ▸ rfl⟩

theorem rowRegWrite_encodes (h : rowRegWrite p a b c = .ok i) : i.Encodes p 0x21 a b c := by
  obtain ⟨hb, x, hx, rfl⟩ := rowRegWrite_eq_ok.1 h
  exact ⟨bne_iff_ne.2 hb, (pageNumbering.eq_some _ _).1 hx ▸ rfl⟩

theorem rowSend_encodes (h : rowSend p a b c = .ok i) : i.Encodes p 0x40 a b c := by
  obtain ⟨⟨rfl, rfl⟩, hc, rfl⟩ := rowSend_eq_ok.1 h
  exact ⟨send_wf.2 hc, rfl⟩

/-! No row answers that its opcode is reserved (R74). -/

theorem row0_ne_reserved : row0 a b c j ≠ .illegal .reservedOpcode := by
  unfold row0
  split <;> nofun

theorem rowC_ne_reserved : rowC a b c named mk ≠ .illegal .reservedOpcode := by
  unfold rowC
  split
  · split <;> nofun
  · nofun

theorem rowCrc_ne_reserved : rowCrc a b c mkCrc ≠ .illegal .reservedOpcode := by
  unfold rowCrc
  split
  · split <;> nofun
  · nofun

theorem rowFifo_ne_reserved : rowFifo a b c mkFifo ≠ .illegal .reservedOpcode := by
  unfold rowFifo
  split <;> nofun

theorem rowRegRead_ne_reserved : rowRegRead a b c ≠ .illegal .reservedOpcode := by
  unfold rowRegRead
  split
  · split <;> nofun
  · nofun

theorem rowRegWrite_ne_reserved : rowRegWrite p a b c ≠ .illegal .reservedOpcode := by
  unfold rowRegWrite
  split
  · split <;> nofun
  · nofun

theorem rowSend_ne_reserved : rowSend p a b c ≠ .illegal .reservedOpcode := by
  unfold rowSend
  split
  · split <;> nofun
  · nofun

end

/-! ## The statements -/

/-- Settles O1: the fields of the packed word are the operands, and the row takes them as they meet its constraints. -/
theorem decodeOfEncode : Obligations.DecodeOfEncode := by
  intro p i hi
  cases i
  case nop | pageSync | wakeDeep | wakeSleep | sleep | deepSleep | getMode | receive | clrIrq | dispatch => rfl
  case setMode x | setTxsub x | setRxsub x | recvPlhd x | setRxflag x | setTxflag x => cases x <;> rfl
  all_goals
    simp (disch := first | omega | exact buf_lt _) only [encode, decode, opcOf_packWord, fieldA_packWord, fieldB_packWord,
      fieldC_packWord, BitVec.ofNat_toNat, BitVec.setWidth_eq, BitVec.reduceToNat]
  case crcCcitt buf off len | crcIbm buf off len =>
    exact rowCrc_eq_ok.2 ⟨buf, (Buf.numbering.eq_some _ _).2 (Nat.mod_eq_of_lt (buf_lt buf)).symm, hi, rfl⟩
  case regRead page addr => exact rowRegRead_eq_ok.2 ⟨rfl, page, pageOfNumber_setWidth page, rfl⟩
  case regWrite page addr value =>
    exact rowRegWrite_eq_ok.2 ⟨bne_iff_ne.1 hi, page, pageOfNumber_setWidth page, rfl⟩
  case fifoWrite faddr off len | fifoRead faddr off len => exact rowFifo_eq_ok.2 ⟨hi, rfl⟩
  case send len => exact rowSend_eq_ok.2 ⟨⟨rfl, rfl⟩, send_wf.1 hi, rfl⟩

/-- Settles O2: the fields of the word are those of the command's word, and a word is its fields. -/
theorem encodeOfDecode : Obligations.EncodeOfDecode := by
  intro p w i h
  suffices he : i.Encodes p (opcOf w).toNat (fieldA w) (fieldB w) (fieldC w) by
    rwa [Instr.Encodes, packWord_fields] at he
  simp only [decode] at h
  generalize (opcOf w).toNat = o, fieldA w = a, fieldB w = b, fieldC w = c at h ⊢
  split at h
  case h_1 | h_8 | h_9 | h_10 | h_11 | h_12 | h_14 | h_18 | h_20 | h_21 => exact row0_encodes rfl rfl h
  case h_2 | h_3 => exact rowCrc_encodes (fun _ => rfl) (fun _ => rfl) h
  case h_4 => exact rowRegRead_encodes h
  case h_5 => exact rowRegWrite_encodes h
  case h_6 | h_7 => exact rowFifo_encodes rfl rfl h
  case h_13 => exact rowC_encodes Mode.numbering (fun _ => rfl) (fun _ => rfl) h
  case h_15 => exact rowC_encodes TxSub.numbering (fun _ => rfl) (fun _ => rfl) h
  case h_16 => exact rowC_encodes RxSub.numbering (fun _ => rfl) (fun _ => rfl) h
  case h_17 => exact rowSend_encodes h
  case h_19 => exact rowC_encodes PlhdSel.numbering (fun _ => rfl) (fun _ => rfl) h
  case h_22 | h_23 => exact rowC_encodes Flag.numbering (fun _ => rfl) (fun _ => rfl) h
  case h_24 => cases h

/-- Settles O5: row by row, what the row accepts; a word of no row is not accepted. -/
theorem constraintsDecideDecoding : Obligations.ConstraintsDecideDecoding := by
  intro p w
  simp only [← opcOf_toNat, ← fieldA_toNat, ← fieldB_toNat, ← fieldC_toNat, decode]
  generalize (opcOf w).toNat = o, fieldA w = a, fieldB w = b, fieldC w = c
  split
  case h_24 => simp_all -- an opcode that is in no row
  all_goals
    simp [exists_row0, exists_rowC Mode.numbering, exists_rowC TxSub.numbering, exists_rowC RxSub.numbering,
      exists_rowC PlhdSel.numbering, exists_rowC Flag.numbering, exists_rowCrc, exists_rowFifo, exists_rowRegRead,
      exists_rowRegWrite, exists_rowSend]

/-- Settles O4: no row answers that its opcode is reserved, and the six ranges are the bytes that have no row. -/
theorem reservedOpcodesIllegal : Obligations.ReservedOpcodesIllegal := by
  intro p w
  have hbyte := (opcOf w).isLt
  simp only [← opcOf_toNat, decode]
  generalize (opcOf w).toNat = o at hbyte ⊢
  split
  case h_24 =>
    refine iff_of_true rfl ?_
    simp only [imp_false] at *
    omega
  all_goals
    simp [row0_ne_reserved, rowC_ne_reserved, rowCrc_ne_reserved, rowFifo_ne_reserved, rowRegRead_ne_reserved,
      rowRegWrite_ne_reserved, rowSend_ne_reserved]

/-- Settles O3: the eight words, decoded. -/
theorem specWordsDecode : Obligations.SpecWordsDecode := by
  unfold Obligations.SpecWordsDecode
  decide

end Sys2Proof
end

section
/-! A command word that decodes to ILLEGAL: how it ends, and what its step leaves. -/

namespace Sys2Proof.Machine

/-- A step on a write of CMD while idle, outside reset, starts the word. -/
theorem step_cmdWrite {s : State} {w : Word} {rest : List Input} (hi : s.inputs = .hostWrite (cmdAddr s.params) 4 w :: rest)
    (hb : s.busy = false) (hr : s.inReset = false) : step s = startCommand w { s with inputs := rest } := by
  have ha : ({ s with inputs := rest } : State).admits (cmdAddr s.params) 4 = some 0x200 :=
    admits_some (s := { s with inputs := rest }) (.inr ⟨rfl, by decide, by decide⟩)
  have hw : ({ s with inputs := rest } : State).startWord (.hostWrite (cmdAddr s.params) 4 w) = some w :=
    startWord_cmd hr hb ha w
  simp only [step, hi, hw]

/-- A word that is no command, with nothing arriving before BUSY clears. -/
theorem illegalCommand_quiet {s : State} (h : s.during = []) :
    s.illegalCommand = { s with busy := false, seq := none, err := .illegalCmd, stepIx := 0, cause := .none } := by
  rw [State.illegalCommand, closeCommand_quiet (s := s.beginCommand) h]
  rfl

/-- A word that is no command issues nothing, leaves PCACHE, and where BUSY clears reports ILLEGAL_CMD. -/
theorem illegalCommand_ends (s : State) :
    s.illegalCommand.log = s.log ∧ s.illegalCommand.pcache = s.pcache
      ∧ (s.illegalCommand.busy = false → s.illegalCommand.err = .illegalCmd) := by
  obtain ⟨hlog, hpcache, -⟩ := boundary_outputs s.beginCommand
  have hbusy := (carries_boundary (p := {}) rfl s.beginCommand rfl).busy rfl
  unfold State.illegalCommand State.closeCommand
  cases hres : boundary s.beginCommand <;> rw [hres] at hlog hpcache hbusy
  case ok => exact ⟨hlog, hpcache, fun _ => rfl⟩
  case error => exact ⟨hlog, hpcache, fun hb => nomatch hbusy.symm.trans hb⟩

section
variable {p : Perm} {s t : State} (hc : Carried p s t)
include hc

theorem Carried.eventWord (h : p.mailbox = false) : t.eventWord = s.eventWord := by
  simp only [State.eventWord, hc.tag h, hc.len h]

theorem Carried.flagsWord (hrx : p.rxFlag = false) (htx : p.txFlag = false) : t.flagsWord = s.flagsWord := by
  simp only [State.flagsWord, hc.rxFlag hrx, hc.txFlag htx]

end

/-- Settles O7: with nothing arriving the one boundary does nothing; whatever arrives there, the frame of a running command
holds. -/
theorem illegalWordSetsErrOnly : Obligations.IllegalWordSetsErrOnly := by
  intro s w rest why hi hb hr hd
  have hstep : step s = .next ({ s with inputs := rest, cmd := w } : State).illegalCommand := by
    rw [step_cmdWrite hi hb hr]
    simp only [startCommand, hd]
  constructor
  · intro hq
    rw [hstep, illegalCommand_quiet (s := { s with inputs := rest, cmd := w }) hq, hb]
  · obtain ⟨hc, -, hstepIx, hcause, hseq⟩ := illegalCommand_status { s with inputs := rest, cmd := w }
    obtain ⟨hlog, hpcache, herr⟩ := illegalCommand_ends { s with inputs := rest, cmd := w }
    exact ⟨_, hstep, hc.cmd, hlog, hc.memSame (Nat.le_refl _), hc.result rfl, hc.eventWord rfl, hc.rssi rfl, hc.snr rfl,
      hc.flagsWord rfl rfl, hpcache, hseq, fun hidle => ⟨herr hidle, hstepIx, hcause⟩⟩

end Sys2Proof.Machine
end

section
/-! The CRC-16 engine: the CRC16 commands answer the register of the bit loop of 40_crc.md R100, and a register run over its own
two bytes, high byte first, is 0. -/

namespace Sys2Proof.Machine

section
variable {poly : Half} {c : Nat → Half}

/-! ## The register bit by bit -/

/-- `c n` is the register of R100's loop over `d` after n bits, each byte most significant bit first. -/
def CrcTrace (poly : Half) (d : List Byte) (c : Nat → Half) : Prop :=
  ∀ k (h : k < d.length) i, i < 8 → c (8 * k + i + 1) = crcBit poly (c (8 * k + i)) (d[k].getLsbD (7 - i))

/-- Eight bits of the loop are one byte of the model's CRC. -/
theorem crcByte_eq_of_bits {n : Nat} {b : Byte}
    (h : ∀ i, i < 8 → c (n + i + 1) = crcBit poly (c (n + i)) (b.getLsbD (7 - i))) : crcByte poly (c n) b = c (n + 8) := by
  rw [h 7 (by decide), h 6 (by decide), h 5 (by decide), h 4 (by decide), h 3 (by decide), h 2 (by decide), h 1 (by decide),
    h 0 (by decide)]
  rfl

theorem crcRegister_append (poly x : Half) (d e : List Byte) :
    crcRegister poly x (d ++ e) = crcRegister poly (crcRegister poly x d) e := List.foldl_append

theorem crcRegister_singleton (poly x : Half) (b : Byte) : crcRegister poly x [b] = crcByte poly x b := rfl

/-- The register after the first k bytes is the one after 8k bits. -/
theorem CrcTrace.register_take {d : List Byte} (h : CrcTrace poly d c) (k : Nat) (hk : k ≤ d.length) :
    crcRegister poly (c 0) (d.take k) = c (8 * k) := by
  induction k with
  | zero => rfl
  | succ k ih =>
    rw [List.take_succ_eq_append_getElem hk, crcRegister_append, ih (Nat.le_of_lt hk), crcRegister_singleton]
    exact crcByte_eq_of_bits (h k hk)

theorem CrcTrace.register_eq {d : List Byte} (h : CrcTrace poly d c) : crcRegister poly (c 0) d = c (8 * d.length) := by
  simpa only [List.take_length] using h.register_take d.length le_rfl

end

/-! ## The commands -/

/-- A CRC16 command over written bytes leaves their CRC in RESULT. -/
theorem exec_crc {i : Instr} {crc : List Byte → Half} {buf : Buf} {off len : Byte} {s : State} {d : List Byte} (hq : s.quiet)
    (hi : commandOf i = crcCommand crc buf off len) (hlen : d.length = len.toNat)
    (hd : ∀ k (h : k < d.length), s.mem.read (bufBase buf + off.toNat + k) = some d[k]) :
    exec i s = .next { s.endingOk with result := crc d } := by
  have hr : readBuffer buf off.toNat len.toNat s.beginCommand = .ok d s.beginCommand := hlen ▸ readBuffer_listed hd
  exact (exec_ok (u := s.beginCommand.setResult (crc d)) (by rw [hi, crcCommand, bind_ok hr]; rfl) hq).1

/-- Settles O21. -/
theorem crcCcittResult : Obligations.CrcCcittResult := by
  intro s buf off len d c hq hlen hd h0 hc
  have hreg : crcRegister 0x1021 (c 0) d = c (8 * d.length) := CrcTrace.register_eq hc
  have hcrc : crcCcitt d = ~~~ (c (8 * len.toNat)) := by
    rw [← hlen, ← hreg, h0]
    rfl
  rw [exec_crc hq rfl hlen hd, hcrc]

/-- Settles O22. -/
theorem crcIbmResult : Obligations.CrcIbmResult := by
  intro s buf off len d c hq hlen hd h0 hc
  have hreg : crcRegister 0x8005 (c 0) d = c (8 * d.length) := CrcTrace.register_eq hc
  have hcrc : crcIbm d = c (8 * len.toNat) := by
    rw [← hlen, ← hreg, h0]
    rfl
  rw [exec_crc hq rfl hlen hd, hcrc]

/-! ## The residue -/

/-- A data bit equal to the register's top bit gives no feedback. -/
theorem crcBit_topBit (poly c : Half) : crcBit poly c (c.getLsbD 15) = c <<< 1 := by
  rw [crcBit, Bool.xor_self, if_neg Bool.false_ne_true]

theorem getLsbD_highByte (c : Half) {i : Nat} (hi : i < 8) : (c.extractLsb' 8 8).getLsbD i = c.getLsbD (8 + i) := by
  rw [BitVec.getLsbD_extractLsb', decide_eq_true hi, Bool.true_and]

theorem getLsbD_shiftLeft_add (c : Half) {n i : Nat} (h : n + i < 16) : (c <<< n).getLsbD (n + i) = c.getLsbD i := by
  simp only [BitVec.getLsbD_shiftLeft, h, Nat.not_lt.2 (Nat.le_add_right n i), Nat.add_sub_cancel_left, decide_true,
    decide_false, Bool.not_false, Bool.true_and]

/-- The loop over the register's own high byte only shifts: each data bit is the register's top bit when it comes. -/
theorem crcByte_highByte (poly c : Half) : crcByte poly c (c.extractLsb' 8 8) = c <<< 8 := by
  have hbit : ∀ i, i < 8 → c <<< (0 + i + 1) = crcBit poly (c <<< (0 + i)) ((c.extractLsb' 8 8).getLsbD (7 - i)) := by
    intro i hi
    have h15 : 15 = 0 + i + (8 + (7 - i)) := by omega
    have htop : (c <<< (0 + i)).getLsbD 15 = (c.extractLsb' 8 8).getLsbD (7 - i) := by
      rw [h15, getLsbD_shiftLeft_add c (by omega), getLsbD_highByte c (by omega)]
    rw [← htop, crcBit_topBit, BitVec.shiftLeft_add]
  simpa only [BitVec.shiftLeft_zero] using crcByte_eq_of_bits (c := fun n => c <<< n) hbit

/-- The register run over its own two bytes, high byte first, is 0, whatever the polynomial. -/
theorem crcRegister_ownBytes (poly c : Half) : crcRegister poly c [c.extractLsb' 8 8, c.extractLsb' 0 8] = 0 := by
  have hlow : c.extractLsb' 0 8 = (c <<< 8).extractLsb' 8 8 := by
    refine BitVec.eq_of_getLsbD_eq fun i hi => ?_
    rw [getLsbD_highByte _ hi, getLsbD_shiftLeft_add c (by omega), BitVec.getLsbD_extractLsb', decide_eq_true hi,
      Bool.true_and, Nat.zero_add]
  calc crcByte poly (crcByte poly c (c.extractLsb' 8 8)) (c.extractLsb' 0 8)
    _ = crcByte poly (c <<< 8) ((c <<< 8).extractLsb' 8 8) := by rw [crcByte_highByte, hlow]
    _ = c <<< 8 <<< 8 := crcByte_highByte poly (c <<< 8)
    _ = 0 := by rw [← BitVec.shiftLeft_add, BitVec.shiftLeft_eq_zero le_rfl]; rfl

/-- Settles O23: after `d` the IBM register is the CRC itself, so the two bytes shift it out. -/
theorem crcIbmResidue : Obligations.CrcIbmResidue := fun d =>
  calc crcIbm (d ++ [(crcIbm d).extractLsb' 8 8, (crcIbm d).extractLsb' 0 8])
    _ = crcRegister 0x8005 (crcIbm d) [(crcIbm d).extractLsb' 8 8, (crcIbm d).extractLsb' 0 8] := crcRegister_append _ _ _ _
    _ = 0 := crcRegister_ownBytes _ _

end Sys2Proof.Machine
end

section
/-! REG_READ and REG_WRITE up to a read-back, while nothing else acts: the one of the page switch, and the one of the write
(41_register_bus.md R111, R113). PAGE_SYNC. -/

namespace Sys2Proof.Machine

/-- Settles O20: the command drops the page and issues nothing. -/
theorem pageSyncForgets : Obligations.PageSyncForgets := fun s hq =>
  (exec_ok (i := .pageSync) (u := s.beginCommand.dropPage) rfl hq).1

/-- Both register commands begin with the page switch: an error that ends it ends the command. -/
theorem commandOf_switchError {s u : State} {i : Instr} {pg : Page} {a x : Byte} {e : Stop}
    (hi : i = .regRead pg a ∨ i = .regWrite pg a x) (h : switchPage pg s = .error e u) : commandOf i s = .error e u := by
  rcases hi with rfl | rfl
  · have hread : pagedRead ⟨pg, a⟩ s = .error e u := bind_error h
    exact bind_error hread
  · exact bind_error h

/-- Settles O26. -/
theorem switchVerifyFails : Obligations.SwitchVerifyFails := by
  rintro s pg a x v r i hq hn hi hr ⟨rest, ha⟩
  obtain ⟨u, h, q, hp⟩ := switchPage_mismatch (s := s.beginCommand) rfl hq hn hr ha
  obtain ⟨he, hend⟩ := exec_raised (commandOf_switchError hi h) q.during
  exact ⟨_, he, hend, hp, q.carried.result rfl, q.log⟩

/-- Settles O27: the switch, if any, the write, and what its read-back says. -/
theorem regWriteVerifies : Obligations.RegWriteVerifies := by
  intro s pg a v g v0 sw hq hsw
  obtain ⟨ans, rest, hs, ha⟩ : ∃ ans rest, SwitchAnswers s.beginCommand pg ans sw
      ∧ s.beginCommand.chip.answers = ans ++ .force [] :: .force [g] :: rest := by
    rcases hsw with ⟨hc, ⟨rest, ha⟩, rfl⟩ | ⟨hn, ⟨rest, ha⟩, rfl⟩
    · exact ⟨_, rest, .cached hc, ha⟩
    · exact ⟨_, rest, .switched v0 hn, ha⟩
  obtain ⟨-, u, h, q, hp, -⟩ := pagedWrite_answered (s := s.beginCommand) (r := ⟨pg, a⟩) rfl hq v hs ha
  by_cases hg : g = v
  · rw [if_pos hg] at h
    obtain ⟨he, hend⟩ := exec_ok (i := .regWrite pg a v) h q.during
    exact ⟨_, he, q.carried.result rfl, q.log, hp, fun _ => hend, fun hn => absurd hg hn⟩
  · rw [if_neg hg] at h
    obtain ⟨he, hend⟩ := exec_raised (i := .regWrite pg a v) h q.during
    exact ⟨_, he, q.carried.result rfl, q.log, hp, fun h => absurd h hg, fun _ => hend⟩

end Sys2Proof.Machine
end

section
/-! The sleep table of 42_mode_sequencer.md R137 on the test double. -/

namespace Sys2Proof.Machine

section
variable {s : State}

/-- Of an update of the mode-control register the write alone is a step. -/
theorem steps_updateOf {p : Params} (hp : p.wf = true) (v v2 : Byte) :
    (updateOf p v v2).filter (BusEvent.isStep p) = [.write p.modectlAddr v2 true] := by
  have hne : p.modectlAddr ≠ p.sysctlAddr := (Params.plain_of_wf hp).1.2
  simp [updateOf, List.filter_cons, BusEvent.isStep, hne]

/-- A step of a mode table that writes the mode and then waits. -/
theorem modeStep_delay_bench {p : Params} (hps : s.params = p) (h : Bench s) (k : BitVec 4) (m : Mode) (t : Nat) {v : Byte}
    (hv : s.regValue p.modectlPage p.modectlAddr = some v) :
    let v2 := setFieldValue p .mode v (modeCodeOf p m)
    ∃ u d, (∀ c : Cmd Unit, (do modeStep k (setModeField m); delay t; c) s = c u) ∧ t ≤ d
      ∧ Ran {} [modectl p] (updateOf p v v2 ++ [.delay t d]) s u ∧ Bench u ∧ u.params = p
      ∧ u.regValue p.modectlPage p.modectlAddr = some v2
      ∧ u.faults = (if legal (decodeMode p v) (some m) then s.faults else { s.faults with illegalTransition := true }) := by
  subst hps
  obtain ⟨u1, h1, r1, b1, -, -, g1, -, f1⟩ := setModeField_bench h m hv
  obtain ⟨u2, d, h2, hd, r2, b2, -, -, g2, f2, -⟩ := delay_bench b1 t
  have r := r1.trans r2
  exact ⟨u2, d, fun c => (bind_ok (modeStep_ok k h1)).trans (bind_ok h2), hd, r, b2, r.params, (g2 _ _).trans g1, f2.trans f1⟩

/-- The sleep guard on the bench, where it lets the command go on: it reads at most, and leaves the register. -/
theorem sleepGuardStep_bench (h : Bench s) {v : Byte}
    (hv : s.regValue s.params.modectlPage s.params.modectlAddr = some v)
    (hg : decodeMode s.params v = some .standby3 ∨ s.params.sleepGuard = .unguarded) :
    ∃ u e, sleepGuardStep s = .ok () u ∧ Ran {} [] e s u ∧ Bench u ∧ u.faults = s.faults
      ∧ u.regValue s.params.modectlPage s.params.modectlAddr = some v ∧ e.filter (BusEvent.isStep s.params) = [] := by
  rw [sleepGuardStep, getParams_bind]
  cases hs : s.params.sleepGuard with
  | unguarded =>
    exact ⟨s, [], rfl, ⟨h.toReady, .refl _ s, ⟨[], by simp, rfl⟩, fun _ _ _ _ => rfl⟩, h, rfl, hv, rfl⟩
  | reject =>
    have hd : decodeMode s.params v = some .standby3 := hg.resolve_right (by simp [hs])
    have hpl := (Params.plain_of_wf h.params).1
    obtain ⟨u, h1, r, b, -, -, f, -⟩ := pagedRead_bench h (r := modectl s.params) hpl hv
    refine ⟨u, _, (bind_ok (modeStep_ok 0 h1)).trans ?_, r, b, f, (r.regs _ _ hpl.2 (by simp)).trans hv, rfl⟩
    exact congrFun (if_pos hd) u

/-- Steps 1 to 4 on the bench. The two writes after the first are legal, as each finds the mode the one before it wrote. -/
theorem sleepSteps_bench {p : Params} (hps : s.params = p) (h : Bench s) {target : Mode}
    (ht : legal (some .standby1) (some target) = true) {v : Byte}
    (hv : s.regValue p.modectlPage p.modectlAddr = some v) :
    let v1 := setFieldValue p .mode v (modeCodeOf p .standby2)
    let v2 := setFieldValue p .mode v1 (modeCodeOf p .standby1)
    let v3 := setFieldValue p .mode v2 (modeCodeOf p target)
    ∃ u w e d1 d2, sleepSteps target s = .ok () u ∧ Ran { tcxo := true } w e s u
      ∧ e.filter (BusEvent.isStep p) = [.write p.modectlAddr v1 true, .delay p.tDn d1, .write p.modectlAddr v2 true,
          .delay p.tDn d2, .cap .disableTcxo, .write p.modectlAddr v3 true]
      ∧ Bench u ∧ u.tcxo = false ∧ u.chipMode = some target ∧ u.regValue p.modectlPage p.modectlAddr = some v3
      ∧ u.faults = (if legal (decodeMode p v) (some .standby2) then s.faults
        else { s.faults with illegalTransition := true })
      ∧ p.tDn ≤ d1 ∧ p.tDn ≤ d2 := by
  intro v1 v2 v3
  have hp : p.wf = true := hps ▸ h.params
  obtain ⟨u1, d1, h1, hd1, r1, b1, p1, g1, f1⟩ := modeStep_delay_bench hps h 1 .standby2 p.tDn hv
  obtain ⟨u2, d2, h2, hd2, r2, b2, p2, g2, f2⟩ := modeStep_delay_bench p1 b1 2 .standby1 p.tDn g1
  obtain ⟨u3, h3, r3, b3, -, -, g3, t3, f3, -⟩ := callCap_bench b2 .disableTcxo
  have p3 : u3.params = p := r3.params.trans p2
  obtain ⟨u4, h4, r4, b4, -, -, g4, m4, f4⟩ := setModeField_bench (s := u3) b3 target
    (by rw [p3]; exact (g3 _ _).trans g2)
  rw [p3] at r4 g4 f4
  rw [decodeMode_setMode hp, if_pos (by rfl)] at f2
  rw [decodeMode_setMode hp, if_pos ht] at f4
  refine ⟨u4, _, _, d1, d2, ?_, ((r1.trans r2).weaken.trans r3).trans r4.weaken, ?_, b4, (r4.carried.tcxo rfl).trans t3, m4,
    g4, f4.trans (f3.trans (f2.trans f1)), hd1, hd2⟩
  · rw [sleepSteps, getParams_bind, hps, h1, h2, bind_ok h3]
    exact modeStep_ok 4 h4
  · simp only [List.filter_append, steps_updateOf hp]
    rfl

end

/-- Settles O38: the guard, then the table's steps. -/
theorem sleepCompletes : Obligations.SleepCompletes := by
  intro s i target v hi hs hv hg p v1 v2 v3
  obtain ⟨hcmd, ht⟩ : commandOf i = sleepSeq target ∧ legal (some .standby1) (some target) = true := by
    rcases hi with ⟨rfl, rfl⟩ | ⟨rfl, rfl⟩ <;> exact ⟨rfl, rfl⟩
  obtain ⟨u, e, h1, r1, b1, f1, g1, hno⟩ := sleepGuardStep_bench (bench_begin hs) hv hg
  obtain ⟨t, w, e', d1, d2, h2, r2, hst, b2, ht2, hm, hr, hf, hd1, hd2⟩ := sleepSteps_bench (p := p) r1.params b1 ht g1
  have hc : commandOf i s.beginCommand = .ok () t.dropPage := by
    rw [hcmd, sleepSeq, bind_ok h1, thenDropPage_ok h2]
  obtain ⟨he, hend, evs, hl, -, hsteps⟩ := exec_bench hc ((r1.weaken.trans r2).trans (dropPage_bench b2).1.weaken)
  rw [State.beginCommand_params] at hno
  rw [List.append_nil, List.filter_append, hno] at hsteps
  rw [f1] at hf
  exact ⟨_, evs, d1, d2, he, hend, ht2, rfl, hm, hr, hf, hl, hsteps.trans hst, hd1, hd2⟩

end Sys2Proof.Machine
end

section
/-! The transition table of 42_mode_sequencer.md R130: which writes of the mode-control register record the fault, and that
SET_MODE makes them all the same. -/

namespace Sys2Proof.Machine

/-- A mode or UNKNOWN is one of eight. -/
theorem mem_none_cons_all (m : Option Mode) : m ∈ none :: Mode.all.map some := by
  rcases m with _ | m
  · exact List.mem_cons_self
  · cases m <;> decide

/-- What holds of each of the 64 pairs holds of any two, UNKNOWN among them. -/
theorem forall_modePairs {P : Option Mode → Option Mode → Prop}
    (h : ∀ m ∈ none :: Mode.all.map some, ∀ m2 ∈ none :: Mode.all.map some, P m m2) (m m2 : Option Mode) : P m m2 :=
  h m (mem_none_cons_all m) m2 (mem_none_cons_all m2)

/-- An access to the mode-control register is judged, and its mode taken, where it stands: no page is drawn for it. -/
theorem monitorWrite_modeAccess {s : State} {a : Byte} (h : s.modeAccess a = true) (v : Byte) :
    s.monitorWrite a v = (if legal s.chipMode (decodeMode s.params v) then s else s.recordIllegal).setChipMode
      (decodeMode s.params v) := by
  have hp : s.chipPage = some s.params.modectlPage := by
    simp only [State.modeAccess, Bool.and_eq_true, beq_iff_eq] at h
    exact h.2
  have hd : s.pageDrawn a = s := pageDrawn_known s (by simp [hp])
  simp only [State.monitorWrite, hd, h, if_true]

/-- Settles O36: the table pair by pair; the judgement of a write; and SET_MODE with the page cached, which writes and judges. -/
theorem legalTransitions : Obligations.LegalTransitions := by
  refine ⟨forall_modePairs (by decide), fun s a v h => ?_, fun s m v g hp hco hq hc ha hl => ?_⟩
  · rw [monitorWrite_modeAccess h]
    cases hl : legal s.chipMode (decodeMode s.params v) <;> simp
  · obtain ⟨t, he, -, hlog, hcoherent, -⟩ := setModeWrites s m v g 0 0 [] [] [] [] hp hq (.inl ⟨hc, rfl, rfl⟩)
      (.inl ⟨⟨hc.1, rfl⟩, rfl, rfl⟩) ha
    refine ⟨t, he, ?_, ?_⟩
    · rw [(hcoherent hco).2, hl]
      rfl
    · rw [hlog]
      simp

end Sys2Proof.Machine
end

section
/-! The capability calls and the delays of each command (42_mode_sequencer.md R133, R137; 70_reset_and_hazards.md R243, R244). -/

namespace Sys2Proof.Machine

/-- The capability calls a command's sequence lists, in order (42_mode_sequencer.md R133, R137). -/
def capsOf : Instr → List Cap
  | .wakeDeep => [.enableTcxo]
  | .wakeSleep => [.enableTcxo]
  | .sleep => [.disableTcxo]
  | .deepSleep => [.disableTcxo]
  | _ => []

/-- The minima of the delays a command's sequence lists, in order (42_mode_sequencer.md R133, R137). -/
def delaysOf (p : Params) : Instr → List Nat
  | .wakeDeep => [p.tOsc, p.tStb1, p.tStb2, p.tStb3]
  | .wakeSleep => [p.tOsc, p.tStb1, p.tStb2, p.tStb3]
  | .sleep => [p.tDn, p.tDn]
  | .deepSleep => [p.tDn, p.tDn]
  | _ => []

section
variable {α β : Type} {k : Params → List Cap} {d : Params → List Nat}

/-- A part without ports before one with them. -/
theorem ports_after {c : Cmd α} {f : α → Cmd β} (hc : NoPorts c) (hf : ∀ a, Ports (f a) k d) : Ports (c >>= f) k d :=
  ports_bind hc hf

/-- A capability call before what follows it. -/
theorem ports_callCap_bind (c : Cap) {f : Unit → Cmd β} (hf : ∀ a, Ports (f a) k d) :
    Ports (callCap c >>= f) (fun p => c :: k p) d :=
  ports_bind (ports_callCap c) hf

/-- A delay before what follows it. -/
theorem ports_delay_bind (t : Nat) {f : Unit → Cmd β} (hf : ∀ a, Ports (f a) k d) :
    Ports (delay t >>= f) k (fun p => t :: d p) :=
  ports_bind (ports_delay t) hf

theorem noPorts_setResult (v : Half) : NoPorts (change fun s => s.setResult v) := noPorts_change fun _ => ⟨rfl, rfl⟩

theorem noPorts_applyFlag (f : FlagUpdate) : NoPorts (change fun s => s.applyFlag f) :=
  noPorts_change fun s => ⟨(kept_applyFlag s f).log, (kept_applyFlag s f).params⟩

theorem noPorts_deliver (status : Byte) (x : Delivery) : NoPorts (change fun s => s.deliver status x) :=
  noPorts_change fun s => ⟨(kept_deliver s status x).1.log, (kept_deliver s status x).1.params⟩

end

theorem ports_wakeSeq : Ports wakeSeq (fun _ => [.enableTcxo]) fun p => [p.tOsc, p.tStb1, p.tStb2, p.tStb3] :=
  ports_after (noPorts_change fun _ => ⟨rfl, rfl⟩) fun _ => ports_getParams_bind fun _ =>
  ports_after (ports_modeStep 1 (noPorts_pagedWrite _ _)) fun _ =>
  ports_after (ports_modeStep 2 (noPorts_pagedWrite _ _)) fun _ =>
  ports_callCap_bind _ fun _ => ports_delay_bind _ fun _ =>
  ports_after (ports_modeStep 4 (noPorts_setModeField _)) fun _ => ports_delay_bind _ fun _ =>
  ports_after (ports_modeStep 5 (noPorts_setModeField _)) fun _ => ports_delay_bind _ fun _ =>
  ports_after (ports_modeStep 6 (noPorts_setModeField _)) fun _ => ports_delay _

theorem noPorts_sleepGuardStep : NoPorts sleepGuardStep := by
  refine noPorts_bind noPorts_getParams fun p => ?_
  split
  · exact noPorts_pure ()
  · refine noPorts_bind (ports_modeStep 0 (noPorts_pagedRead _)) fun v => ?_
    split
    · exact noPorts_pure ()
    · exact noPorts_raiseError _

theorem ports_sleepSeq (m : Mode) : Ports (sleepSeq m) (fun _ => [.disableTcxo]) fun p => [p.tDn, p.tDn] :=
  ports_after noPorts_sleepGuardStep fun _ => ports_thenDropPage <| ports_getParams_bind fun _ =>
  ports_after (ports_modeStep 1 (noPorts_setModeField _)) fun _ => ports_delay_bind _ fun _ =>
  ports_after (ports_modeStep 2 (noPorts_setModeField _)) fun _ => ports_delay_bind _ fun _ =>
  ports_callCap_bind _ fun _ => ports_modeStep 4 (noPorts_setModeField _)

theorem noPorts_plhdRead (sel : PlhdSel) : NoPorts (plhdRead sel) :=
  noPorts_bind noPorts_getParams fun _ => noPorts_plhdReadFrom _ _

theorem noPorts_runHandler (h : Handler) : NoPorts (runHandler h) := by
  have hclear : ∀ tag f, NoPorts (handleNoPayload tag f) := fun _ _ => noPorts_bind noPorts_clearIrq fun _ => noPorts_pure _
  cases h with
  | plhd =>
    exact noPorts_bind noPorts_getParams fun _ => noPorts_bind (noPorts_plhdRead _) fun _ =>
      noPorts_bind noPorts_clearIrq fun _ => noPorts_bind (noPorts_bind noPorts_getParams fun _ =>
        ports_thenDropPage (ports_modeStep 1 (noPorts_resetActions _))) fun _ => noPorts_pure _
  | rxDone =>
    exact noPorts_bind (noPorts_bind noPorts_getParams fun _ => noPorts_bind (noPorts_readAll _) fun _ =>
        noPorts_pure _) fun _ =>
      noPorts_bind noPorts_drainFrame fun _ => noPorts_bind noPorts_clearIrq fun _ => noPorts_pure _
  | crcErr => exact hclear _ _
  | rxTo => exact hclear _ _
  | txDone => exact hclear _ _
  | none => exact noPorts_pure _

/-- Every command issues the calls and the delays its sequence lists, as far as it gets. -/
theorem ports_commandOf (i : Instr) : Ports (commandOf i) (fun _ => capsOf i) fun p => delaysOf p i := by
  cases i with
  | nop => exact noPorts_pure ()
  | crcCcitt buf off len => exact noPorts_bind (noPorts_readBuffer _ _ _) fun _ => noPorts_setResult _
  | crcIbm buf off len => exact noPorts_bind (noPorts_readBuffer _ _ _) fun _ => noPorts_setResult _
  | regRead page addr => exact noPorts_bind (noPorts_pagedRead _) fun _ => noPorts_setResult _
  | regWrite page addr value => exact noPorts_pagedWrite _ _
  | fifoWrite faddr off len =>
    refine noPorts_bind (noPorts_readBuffer _ _ _) fun d => ?_
    split
    · exact noPorts_pure ()
    · exact noPorts_busBurstWrite _ _
  | fifoRead faddr off len =>
    simp only [commandOf, fifoReadCommand]
    split
    · exact noPorts_pure ()
    · exact noPorts_burstIntoRbuf _ _ _
  | pageSync => exact noPorts_change fun _ => ⟨rfl, rfl⟩
  | wakeDeep => exact ports_wakeSeq
  | wakeSleep => exact ports_wakeSeq
  | sleep => exact ports_sleepSeq _
  | deepSleep => exact ports_sleepSeq _
  | setMode m => exact ports_modeStep 1 (noPorts_setModeField m)
  | getMode =>
    exact noPorts_bind noPorts_getParams fun _ => noPorts_bind (noPorts_pagedRead _) fun _ => noPorts_setResult _
  | setTxsub sub => exact noPorts_bind noPorts_getParams fun _ => noPorts_setField _ _
  | setRxsub sub => exact noPorts_bind noPorts_getParams fun _ => noPorts_setField _ _
  | send len =>
    exact noPorts_bind (noPorts_readBuffer _ _ _) fun _ => noPorts_bind noPorts_getParams fun _ =>
      noPorts_bind (noPorts_pagedWrite _ _) fun _ =>
      noPorts_bind (ports_modeStep 2 (noPorts_setModeField _)) fun _ => noPorts_busBurstWrite _ _
  | receive =>
    exact noPorts_bind noPorts_drainFrame fun _ => noPorts_bind noPorts_clearIrq fun _ => noPorts_setResult _
  | recvPlhd sel =>
    exact noPorts_bind (noPorts_plhdRead _) fun _ => noPorts_bind noPorts_clearIrq fun _ => noPorts_setResult _
  | clrIrq => exact noPorts_clearIrq
  | dispatch =>
    exact noPorts_bind (noPorts_change fun _ => ⟨rfl, rfl⟩) fun _ => noPorts_bind noPorts_getParams fun _ =>
      noPorts_bind (noPorts_pagedRead _) fun _ => noPorts_bind (noPorts_runHandler _) fun _ => noPorts_deliver _ _
  | setRxflag f => exact noPorts_applyFlag _
  | setTxflag f => exact noPorts_applyFlag _

/-- The outputs of a command, however it ends. -/
theorem exec_ports {i : Instr} {s t : State} {evs : List BusEvent} (h : exec i s = .next t) (hl : t.log = s.log ++ evs) :
    evs.filterMap BusEvent.cap? <+: capsOf i ∧ evs.filterMap BusEvent.delay? <+: delaysOf s.params i
      ∧ ∀ lo lasted, .delay lo lasted ∈ evs → lo ≤ lasted := by
  obtain ⟨evs', hlog, -, hlast, hcaps, hdelays, -⟩ := ports_commandOf i s.beginCommand
  obtain rfl : evs' = evs := List.append_cancel_left ((hlog.symm.trans (exec_outputs h).1.symm).trans hl)
  exact ⟨hcaps, hdelays, hlast⟩

/-- Settles O43: the calls and delays of the command's parts, and the sequence each command lists. -/
theorem capsAndDelays : Obligations.CapsAndDelays := by
  intro i s t evs h hl p
  obtain ⟨hcaps, hdelays, hlast⟩ := exec_ports h hl
  refine ⟨?_, ?_, fun h1 h2 h3 h4 => ?_, hlast⟩
  · rintro (rfl | rfl) <;> exact ⟨hcaps, hdelays⟩
  · rintro (rfl | rfl) <;> exact ⟨hcaps, hdelays⟩
  · have hnone : capsOf i = [] ∧ delaysOf s.params i = [] := by
      cases i with
      | wakeDeep => exact absurd rfl h1
      | wakeSleep => exact absurd rfl h2
      | sleep => exact absurd rfl h3
      | deepSleep => exact absurd rfl h4
      | _ => exact ⟨rfl, rfl⟩
    rw [hnone.1] at hcaps
    rw [hnone.2] at hdelays
    exact ⟨List.prefix_nil.1 hcaps, List.prefix_nil.1 hdelays⟩

end Sys2Proof.Machine
end

section
/-! The wake table of 42_mode_sequencer.md R133 on the test double. -/

namespace Sys2Proof.Machine

/-- The register a (page, offset, value) triple writes. -/
abbrev regOf (w : RegWrite) : RegAt := ⟨w.page, w.addr⟩

/-- The trim pair and the mode-control register are three registers (10_state.md R38, R43). -/
theorem Params.trims_distinct {p : Params} (hp : p.wf = true) :
    regOf p.xtalTrim0 ≠ modectl p ∧ regOf p.xtalTrim1 ≠ modectl p ∧ regOf p.xtalTrim0 ≠ regOf p.xtalTrim1 := by
  have h := (Params.wf_parts hp).2.2.2
  simp only [Params.regsOk, decide_eq_true_eq, List.nodup_cons, List.mem_cons, not_or, Prod.mk.injEq] at h
  obtain ⟨⟨-, -, h0, h1, -⟩, -, -, ⟨h01, -⟩, -⟩ := h
  simp only [modectl, ne_eq, RegAt.mk.injEq]
  exact ⟨fun h => h0 ⟨h.1.symm, h.2.symm⟩, fun h => h1 ⟨h.1.symm, h.2.symm⟩, h01⟩

section
variable {s : State}

/-- A trim step on the bench: a verified write that is no mode write. -/
theorem modeStep_triple_bench {p : Params} (hps : s.params = p) (h : Bench s) (k : BitVec 4) {w : RegWrite}
    (hw : (regOf w).plain p) (hm : regOf w ≠ modectl p) :
    ∃ u, (∀ c : Cmd Unit, (do modeStep k (pagedWriteTriple w); c) s = c u)
      ∧ Ran {} [regOf w] [.write w.addr w.value true, .read w.addr (some w.value)] s u ∧ Bench u ∧ u.params = p
      ∧ u.regValue w.page w.addr = some w.value ∧ u.faults = s.faults := by
  subst hps
  obtain ⟨u, h1, r, b, -, -, g, f, -⟩ := pagedWrite_bench h hw w.value
  exact ⟨u, fun c => bind_ok (modeStep_ok k h1), r, b, r.params, g, f.trans (if_neg fun hc => hm hc.1)⟩

/-- Steps 1 and 2 on the bench: the trim pair is written, and the mode-control register not. -/
theorem wakeTrims_bench {p : Params} (hps : s.params = p) (h : Bench s) :
    ∃ u e, (∀ c : Cmd Unit, (do
        modeStep 1 (pagedWriteTriple p.xtalTrim0)
        modeStep 2 (pagedWriteTriple p.xtalTrim1)
        c) s = c u)
      ∧ Ran {} [regOf p.xtalTrim0, regOf p.xtalTrim1] e s u ∧ Bench u ∧ u.params = p
      ∧ e.filter (BusEvent.isStep p) =
        [.write p.xtalTrim0.addr p.xtalTrim0.value true, .write p.xtalTrim1.addr p.xtalTrim1.value true]
      ∧ u.regValue p.xtalTrim0.page p.xtalTrim0.addr = some p.xtalTrim0.value
      ∧ u.regValue p.xtalTrim1.page p.xtalTrim1.addr = some p.xtalTrim1.value ∧ u.faults = s.faults := by
  have hp : p.wf = true := hps ▸ h.params
  obtain ⟨n0, n1, n01⟩ := Params.trims_distinct hp
  obtain ⟨-, -, -, -, -, hp0, hp1⟩ := Params.plain_of_wf hp
  obtain ⟨u1, h1, r1, b1, p1, g1, f1⟩ := modeStep_triple_bench hps h 1 hp0 n0
  obtain ⟨u2, h2, r2, b2, p2, g2, f2⟩ := modeStep_triple_bench p1 b1 2 hp1 n1
  refine ⟨u2, _, fun c => (h1 _).trans (h2 c), r1.trans r2, b2, p2, ?_, ?_, g2, f2.trans f1⟩
  · simp [List.filter_cons, BusEvent.isStep, hp0.2, hp1.2]
  · exact (r2.regs _ _ (by rw [p1]; exact hp0.2) (by simpa using n01)).trans g1

/-- Steps 3 to 6 of `WakeSeq`: the oscillator, then the three mode writes, each with its delay. -/
def wakeModes (p : Params) : Cmd Unit := do
  callCap .enableTcxo
  delay p.tOsc
  modeStep 4 (setModeField .standby1)
  delay p.tStb1
  modeStep 5 (setModeField .standby2)
  delay p.tStb2
  modeStep 6 (setModeField .standby3)
  delay p.tStb3

theorem wakeSeq_eq {p : Params} (hps : s.params = p) :
    wakeSeq s = (do
      modeStep 1 (pagedWriteTriple p.xtalTrim0)
      modeStep 2 (pagedWriteTriple p.xtalTrim1)
      wakeModes p : Cmd Unit) s.dropPage := by
  subst hps
  rfl

/-- Steps 3 to 6 on the bench. The two mode writes after the first are legal, as each finds the mode the one before it wrote. -/
theorem wakeModes_bench {p : Params} (hps : s.params = p) (h : Bench s) {v : Byte}
    (hv : s.regValue p.modectlPage p.modectlAddr = some v) :
    let v1 := setFieldValue p .mode v (modeCodeOf p .standby1)
    let v2 := setFieldValue p .mode v1 (modeCodeOf p .standby2)
    let v3 := setFieldValue p .mode v2 (modeCodeOf p .standby3)
    ∃ u e d1 d2 d3 d4, wakeModes p s = .ok () u ∧ Ran { tcxo := true } (List.replicate 3 (modectl p)) e s u
      ∧ e.filter (BusEvent.isStep p) =
        [.cap .enableTcxo, .delay p.tOsc d1, .write p.modectlAddr v1 true, .delay p.tStb1 d2,
          .write p.modectlAddr v2 true, .delay p.tStb2 d3, .write p.modectlAddr v3 true, .delay p.tStb3 d4]
      ∧ u.tcxo = true ∧ u.pcache = some p.modectlPage ∧ u.chipMode = some .standby3
      ∧ u.regValue p.modectlPage p.modectlAddr = some v3
      ∧ u.faults = (if legal (decodeMode p v) (some .standby1) then s.faults
        else { s.faults with illegalTransition := true })
      ∧ p.tOsc ≤ d1 ∧ p.tStb1 ≤ d2 ∧ p.tStb2 ≤ d3 ∧ p.tStb3 ≤ d4 := by
  intro v1 v2 v3
  have hp : p.wf = true := hps ▸ h.params
  obtain ⟨u1, h1, r1, b1, -, -, g1, t1, f1, -⟩ := callCap_bench h .enableTcxo
  obtain ⟨u2, d1, h2, hd1, r2, b2, -, -, g2, f2, -⟩ := delay_bench b1 p.tOsc
  have p2 : u2.params = p := r2.params.trans (r1.params.trans hps)
  obtain ⟨u3, d2, h3, hd2, r3, b3, p3, g3, f3⟩ := modeStep_delay_bench p2 b2 4 .standby1 p.tStb1
    ((g2 _ _).trans ((g1 _ _).trans hv))
  obtain ⟨u4, d3, h4, hd3, r4, b4, p4, g4, f4⟩ := modeStep_delay_bench p3 b3 5 .standby2 p.tStb2 g3
  obtain ⟨u5, h5, r5, b5, -, c5, g5, m5, f5⟩ := setModeField_bench (s := u4) b4 .standby3 (by rw [p4]; exact g4)
  obtain ⟨u6, d4, h6, hd4, r6, b6, -, c6, g6, f6, m6⟩ := delay_bench b5 p.tStb3
  rw [p4] at r5 c5 g5 f5
  rw [decodeMode_setMode hp, if_pos (by rfl)] at f4 f5
  refine ⟨u6, _, d1, d2, d3, d4, ?_, r1.trans ((r2.trans r3).trans ((r4.trans r5).trans r6)).weaken, ?_, ?_, c6.trans c5,
    m6.trans m5, (g6 _ _).trans g5, ?_, hd1, hd2, hd3, hd4⟩
  · rw [wakeModes, bind_ok h1, bind_ok h2, h3, h4, bind_ok (modeStep_ok 6 h5)]
    exact h6
  · simp only [List.filter_append, steps_updateOf hp]
    rfl
  · exact ((((r2.trans r3).trans ((r4.trans r5).trans r6))).carried.tcxo rfl).trans t1
  · rw [f6, f5, f4, f3, f2, f1]

end

/-- Settles O37: the trim pair, then the oscillator and the three mode writes. -/
theorem wakeCompletes : Obligations.WakeCompletes := by
  intro s i v hi hs hv p v1 v2 v3
  obtain ⟨n0, n1, -⟩ := Params.trims_distinct hs.params
  obtain ⟨hpm, -, -, -, -, hp0, hp1⟩ := Params.plain_of_wf hs.params
  obtain ⟨r0, b0⟩ := dropPage_bench (bench_begin hs)
  obtain ⟨u, e, h1, r1, b1, p1, hst1, g0, g1, f1⟩ := wakeTrims_bench (s := s.beginCommand.dropPage) (p := p) rfl b0
  have hvu : u.regValue p.modectlPage p.modectlAddr = some v :=
    (r1.regs _ _ hpm.2 (by simpa [modectl] using And.intro n0.symm n1.symm)).trans hv
  obtain ⟨t, e', d1, d2, d3, d4, h2, r2, hst2, ht, hpc, hm, hr, hf, hd⟩ := wakeModes_bench p1 b1 hvu
  have hc : commandOf i s.beginCommand = .ok () t := by
    have hw : wakeSeq s.beginCommand = .ok () t := (wakeSeq_eq rfl).trans ((h1 _).trans h2)
    rcases hi with rfl | rfl <;> exact hw
  obtain ⟨he, hend, evs, hl, -, hsteps⟩ := exec_bench hc ((r0.trans r1).weaken.trans r2)
  rw [List.nil_append, List.filter_append, hst1, hst2] at hsteps
  refine ⟨_, evs, d1, d2, d3, d4, he, hend, ht, hpc, hm, hr, ?_, ?_, hf.trans (by rw [f1]; rfl), hl, hsteps, hd⟩
  · exact (r2.regs _ _ (by rw [p1]; exact hp0.2) (by simpa using n0)).trans g0
  · exact (r2.regs _ _ (by rw [p1]; exact hp1.2) (by simpa using n1)).trans g1

end Sys2Proof.Machine
end

section
/-! The frame commands of 43_frame_fifo.md on the test double: SEND (R161), RECEIVE (R162) and RECV_PLHD (R165). -/

namespace Sys2Proof.Machine

/-- The transmit-length register is not the mode-control register (10_state.md R38, R40). -/
theorem Params.txlen_ne_modectl {p : Params} (hp : p.wf = true) : p.txlen ≠ modectl p := by
  have h := (Params.wf_parts hp).2.2.2
  simp only [Params.regsOk, decide_eq_true_eq, List.nodup_cons, List.mem_cons, not_or] at h
  exact fun heq => h.1.1 (by rw [heq]; rfl)

/-- Of a verified write the write alone is a step. -/
theorem steps_verifiedWrite {p : Params} {r : RegAt} (hr : r.plain p) (v : Byte) :
    [.write r.addr v true, .read r.addr (some v)].filter (BusEvent.isStep p) = [.write r.addr v true] := by
  simp [List.filter_cons, BusEvent.isStep, hr.2]

/-- RESULT may be written last, where the command may write it. -/
theorem Ran.setResult {p : Perm} {w : List RegAt} {e : List BusEvent} {s u : State} (h : Ran p w e s u) (v : Half) :
    Ran { p with result := true } w e s (u.setResult v) where
  ready := ⟨h.ready.busy, h.ready.oracle, h.ready.quiet⟩
  carried := { h.carried with result := nofun }
  log := h.log
  regs := h.regs

section
variable {s : State}

/-- What SEND does once its frame is read: length, mode, burst. The mode write alone is judged. -/
theorem sendFrame_bench (h : Bench s) (len : Byte) (d : List Byte) {v : Byte}
    (hv : s.regValue s.params.modectlPage s.params.modectlAddr = some v) :
    let p := s.params
    let v2 := setFieldValue p .mode v (modeCodeOf p .tx)
    ∃ u e, (do
        pagedWrite p.txlen len
        modeStep 2 (setModeField .tx)
        busBurstWrite p.fifoAddr d : Cmd Unit) s = .ok () u
      ∧ Ran {} [p.txlen, modectl p] e s u ∧ u.chip.txq = s.chip.txq ++ d
      ∧ u.regValue p.txlen.page p.txlen.addr = some len ∧ u.regValue p.modectlPage p.modectlAddr = some v2
      ∧ u.chipMode = some .tx
      ∧ u.faults = (if legal (decodeMode p v) (some .tx) then s.faults else { s.faults with illegalTransition := true })
      ∧ e.filter (BusEvent.isStep p) =
        [.write p.txlen.addr len true, .write p.modectlAddr v2 true, .burstWrite p.fifoAddr d true] := by
  intro p v2
  have hne : p.txlen ≠ modectl p := Params.txlen_ne_modectl h.params
  obtain ⟨hmode, hlen, -⟩ := Params.plain_of_wf h.params
  obtain ⟨u1, h1, r1, b1, q1, -, g1, f1, -⟩ := pagedWrite_bench h hlen len
  rw [if_neg fun hc => hne hc.1] at f1
  have p1 : u1.params = p := r1.params
  have hv1 : u1.regValue p.modectlPage p.modectlAddr = some v :=
    (r1.regs _ _ hmode.2 (by simpa [modectl] using hne.symm)).trans hv
  obtain ⟨u2, h2, r2, b2, q2, -, g2, m2, f2⟩ := setModeField_bench (s := u1) b1 .tx (by rw [p1]; exact hv1)
  rw [p1] at r2 g2 f2
  have p2 : u2.params = p := r2.params.trans p1
  obtain ⟨u3, h3, r3, -, t3, -, -, g3, f3, m3⟩ := busBurstWrite_bench b2 d
  rw [p2] at h3 r3
  have hlen2 : u2.regValue p.txlen.page p.txlen.addr = some len :=
    (r2.regs _ _ (by rw [p1]; exact hlen.2) (by simpa using hne)).trans g1
  refine ⟨u3, _, ?_, (r1.trans r2).trans r3, ?_, (g3 _ _).trans hlen2, (g3 _ _).trans g2, m3.trans m2, ?_, ?_⟩
  · rw [bind_ok h1, bind_ok (modeStep_ok 2 h2)]
    exact h3
  · rw [t3, q2.1, q1.1]
  · rw [f3, f2, f1]
  · rw [List.filter_append, List.filter_append, steps_verifiedWrite hlen, steps_updateOf h.params]
    rfl

/-- A command that ends with the IRQ clear and RESULT, as RECEIVE and RECV_PLHD do, from what it did before. -/
theorem exec_clearIrq_setResult {i : Instr} {α : Type} {c : Cmd α} {f : α → Half} {a : α} {u : State} {p : Perm}
    {w : List RegAt} {e : List BusEvent}
    (hi : commandOf i = do let a ← c; clearIrq; change fun s => s.setResult (f a))
    (hc : c s.beginCommand = .ok a u) (hr : Ran p w e s.beginCommand u) (hb : Bench u) :
    let q := s.params
    ∃ t evs, exec i s = .next t ∧ t.endedOk ∧ t.result = f a ∧ t.mem = u.mem ∧ t.chip.rxq = u.chip.rxq
      ∧ t.pcache = some q.irqClr.page ∧ t.regValue q.irqClr.page q.irqClr.addr = some q.irqClr.value
      ∧ t.log = s.log ++ evs
      ∧ evs.filter (BusEvent.isAccess q) =
        e ++ [.write q.irqClr.addr q.irqClr.value true, .read q.irqClr.addr (some q.irqClr.value)]
      ∧ evs.filter (BusEvent.isStep q) = e.filter (BusEvent.isStep q) ++ [.write q.irqClr.addr q.irqClr.value true] := by
  intro q
  have hq : u.params = q := hr.params
  have hpl := (Params.plain_of_wf hb.params).2.2.2.2.1
  obtain ⟨t, h1, r1, -, qs, hp, hg, -⟩ := clearIrq_bench hb
  rw [hq] at hpl r1 hp hg
  have hcmd : commandOf i s.beginCommand = .ok () (t.setResult (f a)) := by
    rw [hi, bind_ok hc, bind_ok h1]
    rfl
  obtain ⟨he, hend, evs, hl, hacc, hsteps⟩ := exec_bench hcmd ((hr.trans r1.weaken).setResult (f a))
  rw [List.filter_append, steps_verifiedWrite hpl] at hsteps
  exact ⟨_, evs, he, hend, rfl, r1.carried.memSame le_rfl, qs.2, hp, hg, hl, hacc, hsteps⟩

end

/-- Settles O44: the frame is read from TBUF, then sent. -/
theorem sendCompletes : Obligations.SendCompletes := by
  intro s len v d hs _ hlen hd hv p v2
  obtain ⟨u, e, h, r, ht, hl, hm, hc, hf, hst⟩ := sendFrame_bench (bench_begin hs) len d hv
  have hbuf : readBuffer .tbuf 0 len.toNat s.beginCommand = .ok d s.beginCommand := by
    rw [← hlen]
    exact readBuffer_listed (by simpa only [bufBase, Nat.zero_add, State.beginCommand_mem] using hd)
  have hcmd : commandOf (.send len) s.beginCommand = .ok () u := by
    rw [commandOf, sendCommand, bind_ok hbuf, getParams_bind]
    exact h
  obtain ⟨he, hend, evs, hlog, -, hsteps⟩ := exec_bench hcmd r
  exact ⟨_, evs, he, hend, ht, hl, hm, hc, hf, hlog, hsteps.trans hst⟩

/-- Settles O45: the drain, then the clear. -/
theorem receiveCompletes : Obligations.ReceiveCompletes := by
  intro s n bs more hs hn hq hl p
  obtain ⟨u, h, r, b, hrx, -, hmem⟩ := drainFrame_bench (bench_begin hs) hn hq hl
  obtain ⟨t, evs, he, hend, hres, hm, hx, hp, hg, hlog, -, hsteps⟩ :=
    exec_clearIrq_setResult (i := .receive) (f := fun n => n.setWidth 16) rfl h r b
  refine ⟨t, evs, he, hend, hres, hm.trans hmem, hx.trans hrx, hg, hp, hlog, hsteps.trans ?_⟩
  by_cases h0 : n = 0 <;> simp [h0, BusEvent.isStep, p]

/-- Settles O46: the reads of the map, then the clear. -/
theorem recvPlhdCompletes : Obligations.RecvPlhdCompletes := by
  intro s sel map bs hs hmap hpl hv p
  obtain rfl : map = plhdMap p sel := by
    rcases hmap with ⟨rfl, rfl⟩ | ⟨rfl, rfl⟩ <;> rfl
  obtain ⟨u, h, r, b, -, hmem⟩ := plhdReadFrom_bench (plhdMap p sel) 0 (bench_begin hs)
    (p := { lo := 0x100, hi := 0x100 + plhdCount sel }) rfl le_rfl (by rw [plhdMap_length]) hpl hv
  obtain ⟨t, evs, he, hend, hres, hm, -, hp, hg, hlog, hacc, -⟩ :=
    exec_clearIrq_setResult (i := .recvPlhd sel) (f := fun _ => BitVec.ofNat 16 (plhdCount sel)) (c := plhdRead sel) rfl h r b
  refine ⟨t, evs, he, hend, ?_, hm.trans hmem, hp, hg, hlog, hacc⟩
  rw [hres]
  cases sel <;> rfl

end Sys2Proof.Machine
end

section
/-! The dispatcher's choice of a handler (44_irq_dispatch.md R181), NOP and the flag commands (R189-R191). -/

namespace Sys2Proof.Machine

/-- Settles O18: it issues nothing between its start and its end. -/
theorem nopOnlyEndsOk : Obligations.NopOnlyEndsOk := fun s hq => (exec_ok (i := .nop) (u := s.beginCommand) rfl hq).1

/-- Settles O19. -/
theorem setFlags : Obligations.SetFlags := fun s f hq =>
  ⟨(exec_ok (i := .setRxflag f) (u := s.beginCommand.applyFlag (.rx f)) rfl hq).1,
    (exec_ok (i := .setTxflag f) (u := s.beginCommand.applyFlag (.tx f)) rfl hq).1⟩

/-- Settles O48: by the first event bit that is set, in the source's order. -/
theorem selectPriority : Obligations.SelectPriority := by
  intro p st
  unfold selectHandler
  dsimp only
  generalize st.getLsbD p.irqBitPlhd.val = plhd
  generalize st.getLsbD p.irqBitRxDone.val = rxDone
  generalize st.getLsbD p.irqBitCrcErr.val = crcErr
  generalize st.getLsbD p.irqBitRxTo.val = rxTo
  generalize st.getLsbD p.irqBitTxDone.val = txDone
  cases plhd
  case true => simp
  cases rxDone
  case true => simp
  cases crcErr
  case true => simp
  cases rxTo
  case true => simp
  cases txDone
  case true => simp
  simp

end Sys2Proof.Machine
end

section
/-! DISPATCH of a status without an event bit (44_irq_dispatch.md R186), and the DISPATCH that ends in an error (R180;
70_reset_and_hazards.md R250). -/

namespace Sys2Proof.Machine

section
variable {s t u v : State} {st : Byte}

/-- DISPATCH whose status read and handler run to their ends commits. -/
theorem dispatchCommand_ok (hr : pagedRead s.params.irqReg { s with irqPend := false } = .ok st u) {d : Delivery}
    (hh : runHandler (selectHandler s.params st) u = .ok d v) : dispatchCommand s = .ok () (v.deliver st d) := by
  rw [dispatchCommand, change_bind, getParams_bind, bind_ok hr, bind_ok hh]
  rfl

theorem irqPend_pageDrawn (s : State) (a : Byte) : (s.pageDrawn a).irqPend = s.irqPend := by
  unfold State.pageDrawn
  split <;> rfl

theorem irqPend_chipByte (s : State) (a : Byte) (l : List Byte) : (s.chipByte a l).2.irqPend = s.irqPend := by
  have consumed (u : State) : (u.consumed a).irqPend = u.irqPend := by
    unfold State.consumed
    split <;> rfl
  have own : (if s.chip.oracle then s.oracleByte a else s.drawByte).2.irqPend = s.irqPend := by
    unfold State.oracleByte State.regOrDraw
    repeat' split
    all_goals rfl
  exact (consumed _).trans own

theorem irqPend_monitorRead (s : State) (a x : Byte) : (s.monitorRead a x).irqPend = s.irqPend := by
  unfold State.monitorRead
  split <;> rfl

/-- A good read is no edge, whoever answers. -/
theorem busRead_irqPend (hq : s.during = []) {bs : List Byte} {rest : List Answer}
    (ha : s.chip.answers = .force bs :: rest) {a x : Byte} (h : busRead a s = .ok x u) : u.irqPend = s.irqPend := by
  have hrun : busRead a s = _ := transact_good (before := fun s => s.pageDrawn a) hq
    (nextAnswer_force (s.pageDrawn a).advance ((kept_pageDrawn s a).answers.trans ha))
  rw [h] at hrun
  cases hrun
  rw [irqPend_monitorRead, State.logged_irqPend, irqPend_chipByte]
  exact irqPend_pageDrawn s a

/-- EVENT reads 0 where no event is delivered (10_state.md R28). -/
theorem eventWord_none (ht : s.eventTag = .none) (hl : s.eventLen = 0) : s.eventWord = 0 := by
  simp [State.eventWord, ht, hl, EventTag.code]

/-- Settles O49: the switch, if any, the status read, and the commit of no event. -/
theorem dispatchNoEvent : Obligations.DispatchNoEvent := by
  intro s st v sw hq h1 h2 h3 h4 h5 p v2 hsw
  have hsel : selectHandler p st = .none := by
    obtain ⟨-, -, -, -, -, hnone⟩ := selectPriority p st
    exact hnone.2 ⟨ne_true_of_eq_false h1, ne_true_of_eq_false h2, ne_true_of_eq_false h3, ne_true_of_eq_false h4,
      ne_true_of_eq_false h5⟩
  set s0 : State := { s.beginCommand with irqPend := false }
  obtain ⟨ans, rest, hs, ha⟩ : ∃ ans rest, SwitchAnswers s0 p.irqReg.page ans sw
      ∧ s0.chip.answers = ans ++ .force [st] :: rest := by
    rcases hsw with ⟨hc, ⟨rest, ha⟩, rfl⟩ | ⟨hc, ⟨rest, ha⟩, rfl⟩
    · exact ⟨_, rest, .cached hc, ha⟩
    · exact ⟨_, rest, .switched v hc, ha⟩
  obtain ⟨-, u, hread, q, -⟩ := pagedRead_forced (s := s0) (r := p.irqReg) rfl hq hs ha
  have hcmd : dispatchCommand s.beginCommand = .ok () (u.deliver st ⟨.none, 0, .keep, none⟩) :=
    dispatchCommand_ok hread (congrFun (congrArg runHandler hsel) u)
  obtain ⟨he, hend⟩ := exec_ok (i := .dispatch) hcmd q.during
  refine ⟨_, he, hend, q.log, rfl, eventWord_none rfl rfl, q.carried.rssi rfl, q.carried.snr rfl, q.carried.rxFlag rfl,
    q.carried.txFlag rfl, ?_⟩
  rintro (ho | hc)
  · obtain ⟨hquiet, -⟩ := dispatchAndIrqPend.1 s _ ho he
    exact hquiet hq
  · have hread : busRead p.irqReg.addr s0 = .ok st u :=
      (bind_ok (f := fun _ => busRead p.irqReg.addr) (switchPage_cached (s := s0) hc)).symm.trans hread
    cases hs with
    | cached => exact busRead_irqPend (s := s0) (u := u) hq ha hread
    | switched _ hn => exact absurd hc hn

/-- The end of a command leaves the edge detector's sample, with nothing arriving. -/
theorem commandResult_irqPrev {r : EStateM.Result Stop State Unit} (h : (endState r).during = []) :
    (commandResult r).irqPrev = (endState r).irqPrev := by
  have close (u : State) (hu : u.during = []) {f : State → State} (hf : (f u).irqPrev = u.irqPrev) :
      (u.closeCommand f).irqPrev = u.irqPrev := by
    rw [closeCommand_quiet hu]
    exact hf
  cases r with
  | ok a u => exact close u h rfl
  | error e u =>
    cases e with
    | raised e => exact close u h (by cases e <;> rfl)
    | unwritten => exact close u h rfl
    | abandoned => rfl
    | hung => rfl

/-- A DISPATCH that reports an error did not reach its commit. -/
theorem dispatch_error_carried (h : exec .dispatch s = .next t) (he : t.err ≠ .ok) :
    Carried { status := true, pend := true, lo := 0x100, hi := 0x200 } s t := by
  rw [exec_eq_run] at h
  obtain ⟨e, w, hw⟩ : ∃ e w, dispatchCommand s.beginCommand = .error (.raised e) w := by
    rcases runCommand_status rfl carries_dispatchCommand h with ⟨-, hok, -⟩ | ⟨-, -, hok, -⟩ | ⟨e, w, hw, -⟩
    · exact absurd hok he
    · exact absurd hok he
    · exact ⟨e, w, hw⟩
  cases h
  rcases dispatch_ends s.beginCommand rfl with ⟨d, st, u0, u, -, -, hc⟩ | ⟨e', u, hu, hc⟩
  · rw [hc] at hw
    cases hw
  · have hb : u.busy = true := hu.busy rfl
    have hstart : Carried { status := true, pend := true, lo := 0x100, hi := 0x200 } s s.beginCommand :=
      { Carried.refl _ s with busy := nofun, err := nofun, stepIx := nofun, cause := nofun }
    have hend := carried_commandResult (p := { pend := true, lo := 0x100, hi := 0x200 }) rfl (.error e' u) hb
    change Carried _ s (commandResult (dispatchCommand s.beginCommand))
    rw [hc]
    exact (hstart.trans hu.status_of).trans hend

/-- Settles O53: without its commit DISPATCH delivers nothing, and without a clear that has read back no line moves. -/
theorem dispatchErrorDeliversNothing : Obligations.DispatchErrorDeliversNothing := by
  intro s t h he
  have hc := dispatch_error_carried h he
  refine ⟨hc.result rfl, hc.tag rfl, hc.len rfl, hc.rssi rfl, hc.snr rfl, hc.rxFlag rfl, hc.txFlag rfl,
    fun evs hq ho hlog hn => ?_⟩
  obtain ⟨evs', hl, -, hd, -, -, hline⟩ := lineKept_commandOf (p := s.params) .dispatch s.beginCommand rfl hq ho
  obtain rfl : evs' = evs := List.append_cancel_left ((hl.symm.trans (exec_outputs h).1.symm).trans hlog)
  obtain ⟨hline, hprev⟩ := hline hn
  obtain ⟨hpend, -⟩ := dispatchAndIrqPend.1 s t ho h
  rw [exec_eq_run] at h
  cases h
  exact ⟨(congrArg Chip.irqLine (commandResult_quiet hd).1).trans hline, (commandResult_irqPrev hd).trans hprev, hpend hq⟩

end

end Sys2Proof.Machine
end

section
/-! DISPATCH on the test double: the status read, what each handler does, and the commit (44_irq_dispatch.md R180-R188). -/

namespace Sys2Proof.Machine

/-- The clear register is not the mode-control register (10_state.md R38; 43_frame_fifo.md R163). -/
theorem Params.irqClr_ne_modectl {p : Params} (hp : p.wf = true) : regOf p.irqClr ≠ modectl p := by
  have h := (Params.wf_parts hp).2.2.2
  simp only [Params.regsOk, decide_eq_true_eq, List.nodup_cons, List.mem_cons, not_or, Prod.mk.injEq] at h
  obtain ⟨⟨-, hne, -⟩, -⟩ := h
  simp only [modectl, ne_eq, RegAt.mk.injEq]
  exact fun h => hne ⟨h.1.symm, h.2.symm⟩

/-- A part that leaves IRQ_PEND runs as well where the command may clear it. -/
theorem Ran.mayPend {p : Perm} {w : List RegAt} {e : List BusEvent} {s t : State} (h : Ran p w e s t) :
    Ran { p with pend := true } w e s t :=
  { h with carried := { h.carried with pend := nofun } }

section
variable {s u v : State} {st : Byte}

/-! ## The status read and the commit -/

/-- DISPATCH of `s` has read the status `st` on the bench; its handler begins from `u`. -/
structure StatusRead (s : State) (st : Byte) (u : State) : Prop where
  read   : pagedRead s.params.irqReg { s.beginCommand with irqPend := false } = .ok st u
  ran    : ∀ p : Perm, p.status = false → p.pend = true → Ran p [] [.read s.params.irqReg.addr (some st)] s.beginCommand u
  bench  : Bench u
  queues : SameQueues s u

theorem statusRead_bench (hs : s.OnBench) (hst : s.regValue s.params.irqReg.page s.params.irqReg.addr = some st) :
    ∃ u, StatusRead s st u := by
  have hclear (p : Perm) (hp : p.status = false) (hpend : p.pend = true) :=
    local_bench (p := p) (bench_begin hs) (u := { s.beginCommand with irqPend := false }) (evs := [])
      (List.append_nil _).symm nofun rfl rfl rfl hp { Carried.refl p _ with pend := fun h => absurd hpend (by simp [h]) }
  obtain ⟨-, -, -, hpl, -⟩ := Params.plain_of_wf hs.params
  obtain ⟨-, b0, -⟩ := hclear { pend := true } rfl rfl
  obtain ⟨u, h, r, b, q, -⟩ := pagedRead_bench b0 hpl hst
  refine ⟨u, h, fun p hp hpend => ?_, b, q⟩
  obtain ⟨r0, -⟩ := hclear p hp hpend
  exact r0.trans r.weaken

theorem StatusRead.params (h : StatusRead s st u) : u.params = s.params := (h.ran { pend := true } rfl rfl).params

theorem StatusRead.mem (h : StatusRead s st u) : u.mem = s.mem := (h.ran { pend := true } rfl rfl).carried.memSame le_rfl

/-- The registers are as before the status read. -/
theorem StatusRead.reg (h : StatusRead s st u) {r : RegAt} (hr : r.plain s.params) :
    u.regValue r.page r.addr = s.regValue r.page r.addr :=
  (h.ran { pend := true } rfl rfl).regs r.page r.addr hr.2 List.not_mem_nil

theorem StatusRead.regs (h : StatusRead s st u) {rs : List RegAt} (hr : ∀ r ∈ rs, r.plain s.params) :
    rs.map (fun r => u.regValue r.page r.addr) = rs.map fun r => s.regValue r.page r.addr :=
  List.map_congr_left fun r hm => h.reg (hr r hm)

/-- A handler that runs to its end on the bench is committed. -/
theorem StatusRead.commit (h : StatusRead s st u) {x : Handler} (hx : selectHandler s.params st = x) {d : Delivery} {p : Perm}
    {w : List RegAt} {e : List BusEvent} (hh : runHandler x u = .ok d v) (hr : Ran p w e u v) (hp : p.status = false)
    (hpend : p.pend = true) :
    let t := (v.deliver st d).endCommand
    exec .dispatch s = .next t ∧ t.endedOk ∧ Carried p s.beginCommand v
      ∧ ∃ evs, t.log = s.log ++ evs ∧ evs.filter (BusEvent.isAccess s.params) = .read s.params.irqReg.addr (some st) :: e := by
  subst hx
  have hran := (h.ran p hp hpend).trans hr
  obtain ⟨hk, -⟩ := kept_deliver v st d
  obtain ⟨he, hend⟩ := exec_ok (i := .dispatch) (dispatchCommand_ok (s := s.beginCommand) h.read hh)
    (hk.during.trans hr.ready.quiet)
  obtain ⟨evs, hl, hf⟩ := hran.log
  exact ⟨he, hend, hran.carried, evs, hk.log.trans hl, hf⟩

/-! ## The handlers -/

/-- The handlers of CRC-error, RX-timeout and TX-done: the clear. -/
theorem handleNoPayload_bench {p : Params} (hps : s.params = p) (h : Bench s) (tag : EventTag) (f : FlagUpdate) :
    ∃ u, handleNoPayload tag f s = .ok ⟨tag, 0, f, none⟩ u ∧ Ran {} [regOf p.irqClr] (clearPair p) s u ∧ SameQueues s u
      ∧ u.regValue p.irqClr.page p.irqClr.addr = some p.irqClr.value := by
  subst hps
  obtain ⟨u, h1, r, -, q, -, g, -⟩ := clearIrq_bench h
  exact ⟨u, (bind_ok h1).trans rfl, r, q, g⟩

/-- The handler of RX-done: the metrics, the frame, the clear. -/
theorem handleRxDone_bench {p : Params} (hps : s.params = p) (h : Bench s) {n : Byte} {ys bs more : List Byte}
    (hpl : ∀ r ∈ p.lmReads, r.plain p) (hys : p.lmReads.map (fun r => s.regValue r.page r.addr) = ys.map some)
    (hn : s.regValue p.rxlen.page p.rxlen.addr = some n) (hq : s.chip.rxq = bs ++ more) (hl : bs.length = n.toNat) :
    ∃ u, handleRxDone s = .ok ⟨.rxDone, n, .rx .rxDone, some (lmApply p.lmFn ys)⟩ u
      ∧ Ran { lo := 0x100, hi := 0x200 } [regOf p.irqClr] (readsOf p.lmReads ys ++ .read p.rxlen.addr (some n)
          :: (if n = 0 then [] else [.burstRead p.fifoAddr n.toNat (some bs)]) ++ clearPair p) s u
      ∧ u.chip.rxq = more ∧ u.mem = s.mem.writeList 0x100 bs
      ∧ u.regValue p.irqClr.page p.irqClr.addr = some p.irqClr.value := by
  subst hps
  obtain ⟨u1, h1, r1, b1, q1⟩ := readAll_bench s.params.lmReads h hpl hys
  have p1 := r1.params
  obtain ⟨-, -, hrxlen, -⟩ := Params.plain_of_wf h.params
  have hn1 : u1.regValue s.params.rxlen.page s.params.rxlen.addr = some n :=
    (r1.regs _ _ hrxlen.2 List.not_mem_nil).trans hn
  obtain ⟨u2, h2, r2, b2, q2, -, m2⟩ := drainFrame_bench (n := n) b1 (by rw [p1]; exact hn1) (q1.2.trans hq) hl
  have p2 := r2.params.trans p1
  obtain ⟨u3, h3, r3, -, q3, -, g3, -⟩ := clearIrq_bench b2
  rw [p1] at r2
  rw [p2] at r3 g3
  have hmetrics : linkMetrics s = .ok (lmApply s.params.lmFn ys) u1 := by
    rw [linkMetrics, getParams_bind, bind_ok h1]
    rfl
  refine ⟨u3, ?_, (r1.weaken.trans r2).trans r3.weaken, q3.2.trans q2, ?_, g3⟩
  · rw [handleRxDone, bind_ok hmetrics, bind_ok h2, bind_ok h3]
    rfl
  · rw [r3.carried.memSame le_rfl, m2, r1.carried.memSame le_rfl]

/-- The mode reset in its REF form: the mode written, the page unknown afterwards. -/
theorem modeReset_bench {p : Params} (hps : s.params = p) (h : Bench s) {m : Mode} (hm : p.modeReset = [.setMode m]) {x : Byte}
    (hx : s.regValue p.modectlPage p.modectlAddr = some x) :
    let x2 := setFieldValue p .mode x (modeCodeOf p m)
    ∃ u, modeReset s = .ok () u ∧ Ran {} [modectl p] (updateOf p x x2) s u ∧ u.pcache = none ∧ u.chipMode = some m
      ∧ u.regValue p.modectlPage p.modectlAddr = some x2 := by
  subst hps
  intro x2
  obtain ⟨u, h1, r, b, -, -, g, c, -⟩ := setModeField_bench h m hx
  obtain ⟨r2, -⟩ := dropPage_bench b
  have hactions : resetActions s.params.modeReset s = .ok () u := by
    rw [hm]
    exact bind_ok h1
  refine ⟨u.dropPage, ?_, by simpa using r.trans r2, rfl, c, g⟩
  rw [modeReset, getParams_bind]
  exact thenDropPage_ok (modeStep_ok 1 hactions)

/-- The handler of PLHD-done with that mode reset: the bytes of the map, the clear, the mode write. -/
theorem handlePlhd_bench {p : Params} (hps : s.params = p) (h : Bench s) {m : Mode} (hm : p.modeReset = [.setMode m]) {x : Byte}
    {bs : List Byte} (hpl : ∀ r ∈ plhdMap p p.plhdLen, r.plain p)
    (hbs : (plhdMap p p.plhdLen).map (fun r => s.regValue r.page r.addr) = bs.map some)
    (hx : s.regValue p.modectlPage p.modectlAddr = some x) :
    let x2 := setFieldValue p .mode x (modeCodeOf p m)
    ∃ u, handlePlhd s = .ok ⟨.plhdDone, BitVec.ofNat 8 (plhdCount p.plhdLen), .rx .plhdRxDone, none⟩ u
      ∧ Ran { lo := 0x100, hi := 0x200 } [regOf p.irqClr, modectl p]
        (readsOf (plhdMap p p.plhdLen) bs ++ (clearPair p ++ updateOf p x x2)) s u
      ∧ u.pcache = none ∧ u.chipMode = some m ∧ u.mem = s.mem.writeList 0x100 bs
      ∧ u.regValue p.modectlPage p.modectlAddr = some x2
      ∧ u.regValue p.irqClr.page p.irqClr.addr = some p.irqClr.value := by
  subst hps
  intro x2
  have hne := Params.irqClr_ne_modectl h.params
  obtain ⟨hmode, -, -, -, hclr, -⟩ := Params.plain_of_wf h.params
  have hlen : (plhdMap s.params s.params.plhdLen).length ≤ 16 := by
    rw [plhdMap_length]
    cases s.params.plhdLen <;> decide
  obtain ⟨u1, h1, r1, b1, -, m1⟩ := plhdReadFrom_bench (p := { lo := 0x100, hi := 0x200 }) _ 0 h rfl le_rfl
    (by dsimp only; omega) hpl hbs
  have p1 := r1.params
  obtain ⟨u2, h2, r2, b2, -, -, g2, -⟩ := clearIrq_bench b1
  have p2 := r2.params.trans p1
  rw [p1] at r2 g2
  have hx2 : u2.regValue s.params.modectlPage s.params.modectlAddr = some x :=
    (r2.regs _ _ (by rw [p1]; exact hmode.2) (by simpa [modectl] using hne.symm)).trans
      ((r1.regs _ _ hmode.2 List.not_mem_nil).trans hx)
  obtain ⟨u3, h3, r3, c3, k3, g3⟩ := modeReset_bench p2 b2 hm hx2
  have hclr3 : u3.regValue s.params.irqClr.page s.params.irqClr.addr = some s.params.irqClr.value :=
    (r3.regs _ _ (by rw [p2]; exact hclr.2) (by simpa using hne)).trans g2
  have hread : plhdRead s.params.plhdLen s = .ok () u1 := h1
  refine ⟨u3, ?_, r1.trans (r2.trans r3).weaken, c3, k3, ?_, g3, hclr3⟩
  · rw [handlePlhd, getParams_bind, bind_ok hread, bind_ok h2, bind_ok h3]
    rfl
  · rw [(r2.trans r3).carried.memSame le_rfl, m1]

end

/-- DISPATCH of an event without payload on the bench. -/
theorem dispatch_noPayload_bench {s : State} {st : Byte} (hs : s.OnBench)
    (hst : s.regValue s.params.irqReg.page s.params.irqReg.addr = some st) {tag : EventTag} {f : FlagUpdate}
    (hx : runHandler (selectHandler s.params st) = handleNoPayload tag f) :
    let p := s.params
    ∃ t evs, exec .dispatch s = .next t ∧ t.endedOk ∧ t.result = st.setWidth 16 ∧ t.eventTag = tag ∧ t.eventLen = 0
      ∧ t.rxFlag = (s.applyFlag f).rxFlag ∧ t.txFlag = (s.applyFlag f).txFlag ∧ t.rssi = s.rssi ∧ t.snr = s.snr
      ∧ t.mem = s.mem ∧ t.chip.rxq = s.chip.rxq ∧ t.chip.txq = s.chip.txq
      ∧ t.regValue p.irqClr.page p.irqClr.addr = some p.irqClr.value ∧ t.log = s.log ++ evs
      ∧ evs.filter (BusEvent.isAccess p) = .read p.irqReg.addr (some st) :: clearPair p := by
  intro p
  obtain ⟨u, hu⟩ := statusRead_bench hs hst
  obtain ⟨v, hh, hr, hq, hg⟩ := handleNoPayload_bench hu.params hu.bench tag f
  obtain ⟨he, hend, hc, evs, hl, hf⟩ := hu.commit rfl (by rw [hx]; exact hh) hr.mayPend rfl rfl
  have hrx : (v.applyFlag f).rxFlag = (s.applyFlag f).rxFlag := by
    cases f <;> simp [State.applyFlag, hc.rxFlag]
  have htx : (v.applyFlag f).txFlag = (s.applyFlag f).txFlag := by
    cases f <;> simp [State.applyFlag, hc.txFlag]
  obtain ⟨hqt, hqr⟩ := hu.queues.trans hq
  refine ⟨_, evs, he, hend, ?_⟩
  cases f <;>
    exact ⟨rfl, rfl, rfl, hrx, htx, hc.rssi rfl, hc.snr rfl, hc.memSame le_rfl, hqr, hqt, hg, hl, hf⟩

/-- Settles O50. -/
theorem dispatchNoPayload : Obligations.DispatchNoPayload := by
  intro s st h tag rx tx hs hst hsel hcase
  rcases hcase with ⟨rfl, rfl, rfl, rfl⟩ | ⟨rfl, rfl, rfl, rfl⟩ | ⟨rfl, rfl, rfl, rfl⟩
  · exact dispatch_noPayload_bench hs hst (f := .rx .rxErr) (by rw [hsel]; rfl)
  · exact dispatch_noPayload_bench hs hst (f := .rx .rxTimeout) (by rw [hsel]; rfl)
  · exact dispatch_noPayload_bench hs hst (f := .tx .txDone) (by rw [hsel]; rfl)

/-- Settles O51: the metrics, the frame, the clear, then the commit. -/
theorem dispatchRxDone : Obligations.DispatchRxDone := by
  intro s st n ys bs more hs hst hsel hpl hys hn hq hlen p
  obtain ⟨-, -, hrxlen, -⟩ := Params.plain_of_wf hs.params
  obtain ⟨u, hu⟩ := statusRead_bench hs hst
  obtain ⟨v, hh, hr, hrxq, hmem, hg⟩ := handleRxDone_bench hu.params hu.bench hpl ((hu.regs hpl).trans hys)
    ((hu.reg hrxlen).trans hn) (hu.queues.2.trans hq) hlen
  obtain ⟨he, hend, hc, evs, hl, hf⟩ := hu.commit hsel hh hr.mayPend rfl rfl
  exact ⟨_, evs, he, hend, rfl, rfl, rfl, rfl, rfl, hc.txFlag rfl, hmem.trans (by rw [hu.mem]), hrxq, hg, hl, hf⟩

/-- Settles O52: the PLHD bytes, the clear, the mode reset, then the commit. -/
theorem dispatchPlhd : Obligations.DispatchPlhd := by
  intro s st x map bs hs hm hst hsel hmap hpl hbs hx p x2
  obtain rfl : map = plhdMap p p.plhdLen := by
    rcases hmap with ⟨hlen, rfl⟩ | ⟨hlen, rfl⟩ <;> rw [hlen] <;> rfl
  obtain ⟨hmode, -⟩ := Params.plain_of_wf hs.params
  obtain ⟨u, hu⟩ := statusRead_bench hs hst
  obtain ⟨v, hh, hr, hpc, hcm, hmem, hgm, hg⟩ := handlePlhd_bench hu.params hu.bench hm hpl ((hu.regs hpl).trans hbs)
    ((hu.reg hmode).trans hx)
  obtain ⟨he, hend, hc, evs, hl, hf⟩ := hu.commit hsel hh hr.mayPend rfl rfl
  have hcount : (BitVec.ofNat 8 (plhdCount p.plhdLen)).toNat = plhdCount p.plhdLen := by
    cases p.plhdLen <;> rfl
  exact ⟨_, evs, he, hend, rfl, rfl, hcount, rfl, hc.txFlag rfl, hc.rssi rfl, hc.snr rfl, hmem.trans (by rw [hu.mem]), hpc, hcm,
    hgm, hg, hl, hf⟩

end Sys2Proof.Machine
end

section
/-! Which errors each command reports, with which step and cause (60_exceptions.md R201, R202, R204): from the errors its parts
can raise to what STATUS shows. -/

namespace Sys2Proof.Machine

/-- The errors a command may raise: the columns "raised by" of R201, with the failing steps of 42_mode_sequencer.md R133 and
R137, of SET_MODE, of the PLHD mode reset and of SEND (R204). -/
def errorsOf (i : Instr) (e : Error) : Prop :=
  match i with
  | .nop => False
  | .crcCcitt _ _ _ => False
  | .crcIbm _ _ _ => False
  | .pageSync => False
  | .setRxflag _ => False
  | .setTxflag _ => False
  | .fifoWrite _ _ _ => e = .bus
  | .fifoRead _ _ _ => e = .bus
  | .wakeDeep => e.isStep [1, 2, 4, 5, 6]
  | .wakeSleep => e.isStep [1, 2, 4, 5, 6]
  | .sleep => e.isStep [0, 1, 2, 4] ∨ e = .mode 0 .wrongMode
  | .deepSleep => e.isStep [0, 1, 2, 4] ∨ e = .mode 0 .wrongMode
  | .setMode _ => e.isStep [1]
  | .send _ => e.isPlain ∨ e.isStep [2]
  | .dispatch => e.isPlain ∨ e.isStep [1]
  | .regRead _ _ => e.isPlain
  | .regWrite _ _ _ => e.isPlain
  | .getMode => e.isPlain
  | .setTxsub _ => e.isPlain
  | .setRxsub _ => e.isPlain
  | .receive => e.isPlain
  | .recvPlhd _ => e.isPlain
  | .clrIrq => e.isPlain

theorem raises_crcCommand {E : Error → Prop} (crc : List Byte → Half) (buf : Buf) (off len : Byte) :
    RaisesOnly E (crcCommand crc buf off len) :=
  raises_bind (raises_readBuffer _ _ _) fun _ => raises_change _

theorem raises_fifoWriteCommand (fa off len : Byte) : RaisesOnly (· = .bus) (fifoWriteCommand fa off len) := by
  refine raises_bind (raises_readBuffer _ _ _) fun d => ?_
  split
  · exact raises_pure _
  · exact raises_busBurstWrite (E := (· = .bus)) rfl _ _

theorem raises_fifoReadCommand (fa off len : Byte) : RaisesOnly (· = .bus) (fifoReadCommand fa off len) := by
  unfold fifoReadCommand
  split
  · exact raises_pure _
  · exact raises_burstIntoRbuf (E := (· = .bus)) rfl _ _ _

/-- A command raises no other error than its rule names. -/
theorem raises_commandOf (i : Instr) : RaisesOnly (errorsOf i) (commandOf i) := by
  cases i with
  | nop => exact raises_pure _
  | crcCcitt buf off len => exact raises_crcCommand _ _ _ _
  | crcIbm buf off len => exact raises_crcCommand _ _ _ _
  | regRead pg a => exact raises_bind (raises_pagedRead _) fun _ => raises_change _
  | regWrite pg a v => exact raises_pagedWrite _ _
  | fifoWrite fa off len => exact raises_fifoWriteCommand _ _ _
  | fifoRead fa off len => exact raises_fifoReadCommand _ _ _
  | pageSync => exact raises_change _
  | wakeDeep => exact raises_wakeSeq
  | wakeSleep => exact raises_wakeSeq
  | sleep => exact raises_sleepSeq _
  | deepSleep => exact raises_sleepSeq _
  | setMode m => exact raises_modeStep 1 (raises_setModeField m)
  | getMode => exact raises_bind raises_getParams fun _ => raises_bind (raises_pagedRead _) fun _ => raises_change _
  | setTxsub sub => exact raises_bind raises_getParams fun _ => raises_setField _ _
  | setRxsub sub => exact raises_bind raises_getParams fun _ => raises_setField _ _
  | send len => exact raises_sendCommand len
  | receive => exact raises_bind raises_drainFrame fun _ => raises_bind raises_clearIrq fun _ => raises_change _
  | recvPlhd sel => exact raises_bind (raises_plhdRead sel) fun _ => raises_bind raises_clearIrq fun _ => raises_change _
  | clrIrq => exact raises_clearIrq
  | dispatch => exact raises_dispatchCommand
  | setRxflag f => exact raises_change _
  | setTxflag f => exact raises_change _

section
variable {i : Instr} {s t : State}

/-- STATUS reports no error, or one that the command may raise. -/
theorem exec_reports (h : exec i s = .next t) : t.err = .ok ∨ ∃ e, errorsOf i e
    ∧ t.err = (s.beginCommand.report e).err ∧ t.stepIx = (s.beginCommand.report e).stepIx
    ∧ t.cause = (s.beginCommand.report e).cause := by
  rcases runCommand_status (permOf_status i) (carries_commandOf i) (exec_eq_run i s ▸ h) with
    ⟨-, hok, -⟩ | ⟨-, -, hok, -⟩ | ⟨e, u, hr, -, -, he, hk, hc⟩
  · exact .inl hok
  · exact .inl hok
  · exact .inr ⟨e, raises_commandOf i _ _ _ hr, he, hk, hc⟩

/-- The codes a report can show. -/
theorem report_err (s : State) (e : Error) :
    (s.report e).err = .busError ∨ (s.report e).err = .verifyError ∨ (s.report e).err = .modeError := by
  cases e with
  | bus => exact .inl rfl
  | verify r => exact .inr (.inl rfl)
  | mode k c => exact .inr (.inr rfl)

/-- A command that never touches the chip raises nothing. -/
theorem errorsOf_isLocal (hi : i.isLocal) (e : Error) : ¬ errorsOf i e := by
  rcases hi with rfl | rfl | ⟨_, _, _, rfl⟩ | ⟨_, _, _, rfl⟩ | ⟨_, rfl⟩ | ⟨_, rfl⟩ <;> exact id

theorem Error.isStep.exists_mode {ks : List (BitVec 4)} {e : Error} (h : e.isStep ks) : ∃ k c, e = .mode k c := by
  obtain ⟨k, -, rfl | rfl⟩ := h
  · exact ⟨k, _, rfl⟩
  · exact ⟨k, _, rfl⟩

/-- A mode sequence raises mode errors alone. -/
theorem errorsOf_isSequence (hi : i.isSequence) {e : Error} (he : errorsOf i e) : ∃ k c, e = .mode k c := by
  have sleeps (h : e.isStep [0, 1, 2, 4] ∨ e = .mode 0 .wrongMode) : ∃ k c, e = .mode k c :=
    h.elim Error.isStep.exists_mode fun h => ⟨_, _, h⟩
  rcases hi with rfl | rfl | rfl | rfl | ⟨m, rfl⟩
  · exact Error.isStep.exists_mode he
  · exact Error.isStep.exists_mode he
  · exact sleeps he
  · exact sleeps he
  · exact Error.isStep.exists_mode he

theorem not_isPlain_mode (k : BitVec 4) (c : Cause) : ¬ (Error.mode k c).isPlain := by
  rintro (h | ⟨r, h⟩) <;> cases h

theorem isStep_mode {ks : List (BitVec 4)} {k : BitVec 4} {c : Cause} (h : (Error.mode k c).isStep ks) :
    k ∈ ks ∧ (c = .bus ∨ c = .verify) := by
  obtain ⟨j, hj, h | h⟩ := h <;> cases h
  · exact ⟨hj, .inl rfl⟩
  · exact ⟨hj, .inr rfl⟩

/-- The causes of a mode error (R202): a bus fault or a verify in a step, or, for the sleep guard alone, the wrong mode. -/
def modeCause (i : Instr) (k : BitVec 4) (c : Cause) : Prop :=
  c = .bus ∨ c = .verify ∨ c = .wrongMode ∧ k = 0 ∧ (i = .sleep ∨ i = .deepSleep)

/-- The failing steps of a mode error, by the tables of R133 and R137 and the single steps of the other commands. -/
def failingStep (i : Instr) (k : BitVec 4) : Prop :=
  (i = .wakeDeep ∨ i = .wakeSleep) ∧ k ∈ [1, 2, 4, 5, 6]
    ∨ (i = .sleep ∨ i = .deepSleep) ∧ k ∈ [0, 1, 2, 4]
    ∨ (∃ m, i = .setMode m) ∧ k = 1
    ∨ i = .dispatch ∧ k = 1
    ∨ (∃ n, i = .send n) ∧ k = 2

/-- A mode error a command may raise has its cause and its failing step from the command's table. -/
theorem errorsOf_mode {k : BitVec 4} {c : Cause} (h : errorsOf i (.mode k c)) : modeCause i k c ∧ failingStep i k := by
  have step {ks : List (BitVec 4)} (hs : (Error.mode k c).isStep ks) (hq : k ∈ ks → failingStep i k) :
      modeCause i k c ∧ failingStep i k :=
    have ⟨hk, hc⟩ := isStep_mode hs
    ⟨hc.imp_right .inl, hq hk⟩
  have guarded (hi : i = .sleep ∨ i = .deepSleep)
      (hs : (Error.mode k c).isStep [0, 1, 2, 4] ∨ Error.mode k c = .mode 0 .wrongMode) :
      modeCause i k c ∧ failingStep i k := by
    rcases hs with hs | hs
    · exact step hs fun hk => .inr (.inl ⟨hi, hk⟩)
    · cases hs
      exact ⟨.inr (.inr ⟨rfl, rfl, hi⟩), .inr (.inl ⟨hi, List.mem_cons_self⟩)⟩
  cases i with
  | wakeDeep => exact step h fun hk => .inl ⟨.inl rfl, hk⟩
  | wakeSleep => exact step h fun hk => .inl ⟨.inr rfl, hk⟩
  | sleep => exact guarded (.inl rfl) h
  | deepSleep => exact guarded (.inr rfl) h
  | setMode m => exact step h fun hk => .inr (.inr (.inl ⟨⟨m, rfl⟩, List.mem_singleton.1 hk⟩))
  | dispatch =>
    exact step (h.resolve_left (not_isPlain_mode k c)) fun hk => .inr (.inr (.inr (.inl ⟨rfl, List.mem_singleton.1 hk⟩)))
  | send n =>
    exact step (h.resolve_left (not_isPlain_mode k c)) fun hk =>
      .inr (.inr (.inr (.inr ⟨⟨n, rfl⟩, List.mem_singleton.1 hk⟩)))
  | fifoWrite fa off len => cases h
  | fifoRead fa off len => cases h
  | nop => exact h.elim
  | crcCcitt buf off len => exact h.elim
  | crcIbm buf off len => exact h.elim
  | pageSync => exact h.elim
  | setRxflag f => exact h.elim
  | setTxflag f => exact h.elim
  | _ => exact absurd h (not_isPlain_mode k c)

end

/-- Settles O31: STATUS shows no error or one of `errorsOf`, which names the codes, steps and causes of each command. -/
theorem errorsByCommand : Obligations.ErrorsByCommand := by
  intro i s t h
  obtain ⟨⟨hfreq, hsf⟩, hzero, -⟩ := exec_status_shape h
  have hrep := exec_reports h
  refine ⟨?_, hfreq, hsf, fun hl => ?_, fun hq => ?_, fun hf => ?_, hzero, fun hm => ?_⟩
  · rcases hrep with hok | ⟨e, -, he, -⟩
    · simp [hok]
    · rcases report_err s.beginCommand e with h | h | h <;> simp [he, h]
  · exact hrep.resolve_right fun ⟨e, he, _⟩ => errorsOf_isLocal hl e he
  · refine hrep.imp_right fun ⟨e, he, herr, _⟩ => ?_
    obtain ⟨k, c, rfl⟩ := errorsOf_isSequence hq he
    exact herr
  · refine hrep.imp_right fun ⟨e, he, herr, _⟩ => ?_
    obtain ⟨fa, off, len, rfl | rfl⟩ := hf <;> cases he <;> exact herr
  · rcases hrep with hok | ⟨e, he, herr, hk, hc⟩
    · cases hm.symm.trans hok
    · cases e with
      | bus => cases hm.symm.trans herr
      | verify r => cases hm.symm.trans herr
      | mode k c =>
        rw [hk, hc]
        exact errorsOf_mode he

end Sys2Proof.Machine
end

section
/-! A step always answers a next state (60_exceptions.md R205); and a transaction that never completes (93 I26): which state a
command leaves that stalls in its first one, that with nothing arriving only such a transaction leaves BUSY = 1, and that BUSY
and the position then stay until reset is released. -/

namespace Sys2Proof.Machine

/-! ## With nothing arriving no command is abandoned -/

/-- A part of a command that begins with nothing arriving ends so, and not by reset. -/
def Undisturbed (p : Params) (α : Type) (c : Cmd α) : Prop := ∀ s, Quiets p s →
  Quiets p (endState (c s)) ∧ ∀ u, c s ≠ .error .abandoned u

section
variable {α β : Type} {p : Params}

theorem undisturbed_bind {c : Cmd α} {f : α → Cmd β} (hc : Undisturbed p α c) (hf : ∀ a, Undisturbed p β (f a)) :
    Undisturbed p β (c >>= f) := by
  intro s hs
  obtain ⟨hq, hn⟩ := hc s hs
  cases hr : c s with
  | ok a t =>
    rw [bind_ok hr]
    rw [hr] at hq
    exact hf a t hq
  | error e t =>
    rw [bind_error hr]
    rw [hr] at hq
    exact ⟨hq, fun u h => hn u (by cases h; exact hr)⟩

theorem undisturbed_change {f : State → State} (h : ∀ s, (f s).params = s.params ∧ (f s).during = s.during) :
    Undisturbed p Unit (change f) := fun s hs => ⟨⟨(h s).1.trans hs.1, (h s).2.trans hs.2⟩, fun _ => nofun⟩

theorem undisturbed_kept {f : State → State} (h : ∀ s, Kept s (f s)) : Undisturbed p Unit (change f) :=
  undisturbed_change fun s => ⟨(h s).params, (h s).during⟩

theorem undisturbed_raise (e : Error) : Undisturbed p α (raiseError e) := fun _ hs => ⟨hs, fun _ => nofun⟩

theorem undisturbed_boundary : Undisturbed p Unit boundary := fun s hs => by
  rw [boundary_quiet hs.2]
  exact ⟨hs, fun _ => nofun⟩

/-- A part that ends where another does on the block's side, and is abandoned only where the other is. -/
theorem Undisturbed.of_end {c : Cmd α} {d : Cmd β} (hc : Undisturbed p α c)
    (hl : ∀ s, Local (endState (c s)) (endState (d s)))
    (ha : ∀ s u, d s = .error .abandoned u → ∃ w, c s = .error .abandoned w) : Undisturbed p β d := fun s hs =>
  ⟨(held_quiets p).same _ _ (hc s hs).1 (hl s), fun u hu => have ⟨w, hw⟩ := ha s u hu; (hc s hs).2 w hw⟩

/-- A transaction whose boundary is quiet ends good, faulted or hung. -/
theorem undisturbed_transact {before : State → State} {good : List Byte → State → α × State} {lost : State → State}
    {failed : BusEvent} (hb : ∀ s, Kept s (before s))
    (hg : ∀ l s, (good l s).2.params = s.params ∧ (good l s).2.during = s.during) (hl : ∀ s, Kept s (lost s)) :
    Undisturbed p α (transact before good lost failed) := by
  refine undisturbed_bind undisturbed_boundary fun _ s hs => ?_
  have h := quiets_nextAnswer (quiets_kept hs (hb s))
  dsimp only
  split
  · exact ⟨⟨(hg _ _).1.trans h.1, (hg _ _).2.trans h.2⟩, fun _ => nofun⟩
  · exact ⟨⟨(hl _).params.trans h.1, (hl _).during.trans h.2⟩, fun _ => nofun⟩
  · exact ⟨quiets_kept h (hl _), fun _ => nofun⟩

theorem undisturbed_busRead (a : Byte) : Undisturbed p Byte (busRead a) :=
  undisturbed_transact (fun s => kept_pageDrawn s a)
    (fun l s => ⟨(kept_monitorRead _ a _).params.trans (kept_chipByte s a l).params,
      (kept_monitorRead _ a _).during.trans (kept_chipByte s a l).during⟩)
    fun s => kept_chipReadLost s a 1

theorem undisturbed_busWrite (a v : Byte) : Undisturbed p Unit (busWrite a v) :=
  undisturbed_transact (fun s => kept_monitorWrite s a v)
    (fun _ s => ⟨(kept_chipWrite s a v).params, (kept_chipWrite s a v).during⟩) fun s => kept_busWriteLost s a

theorem undisturbed_busBurstWrite (a : Byte) (bs : List Byte) : Undisturbed p Unit (busBurstWrite a bs) := by
  refine undisturbed_transact (fun s => ?_)
    (fun _ s => ⟨(kept_chipBurst s a bs).params, (kept_chipBurst s a bs).during⟩) fun s => kept_chipBurstLost s a
  split
  · exact Kept.refl s
  · exact kept_monitorWrite s a _

theorem undisturbed_busBurstRead (a : Byte) (n : Nat) : Undisturbed p (List Byte) (busBurstRead a n) :=
  have hk (s : State) (l : List Byte) := (kept_chipBytes s a l n).trans (kept_chipBurstRead _ a n)
  undisturbed_transact Kept.refl (fun l s => ⟨(hk s l).params, (hk s l).during⟩)
    fun s => (kept_chipReadLost s a n).trans (kept_chipBurstRead _ a n)

theorem undisturbed_burstIntoRbuf (a : Byte) (off n : Nat) : Undisturbed p Unit (burstIntoRbuf a off n) :=
  (undisturbed_busBurstRead a n).of_end (local_burstIntoRbuf a off n) fun s u h => by
    unfold burstIntoRbuf at h
    split at h <;> cases h
    exact ⟨_, ‹_›⟩

theorem undisturbed_modeStep {c : Cmd α} (k : BitVec 4) (hc : Undisturbed p α c) : Undisturbed p α (modeStep k c) :=
  hc.of_end (local_modeStep k c) fun s u h => by
    unfold modeStep at h
    split at h <;> cases h
    exact ⟨_, ‹_›⟩

theorem undisturbed_thenDropPage {c : Cmd Unit} (hc : Undisturbed p Unit c) : Undisturbed p Unit (thenDropPage c) :=
  hc.of_end (local_thenDropPage c) fun s u h => by
    unfold thenDropPage at h
    split at h <;> cases h
    exact ⟨_, ‹_›⟩

theorem undisturbed_switchPage (pg : Page) : Undisturbed p Unit (switchPage pg) := by
  intro s hs
  unfold switchPage
  split
  · exact ⟨hs, fun _ => nofun⟩
  · refine (undisturbed_bind (undisturbed_busRead _) fun v => undisturbed_bind (undisturbed_busWrite _ _) fun _ =>
      undisturbed_bind (undisturbed_busRead _) fun r => ?_) s hs
    split
    · exact undisturbed_change fun _ => ⟨rfl, rfl⟩
    · exact undisturbed_bind
        (undisturbed_change fun u => ⟨(kept_unverified u _).params, (kept_unverified u _).during⟩) fun _ =>
        undisturbed_raise _

theorem undisturbed_pagedRead (r : RegAt) : Undisturbed p Byte (pagedRead r) :=
  undisturbed_bind (undisturbed_switchPage _) fun _ => undisturbed_busRead _

theorem undisturbed_pagedWrite (r : RegAt) (v : Byte) : Undisturbed p Unit (pagedWrite r v) := by
  refine undisturbed_bind (undisturbed_switchPage _) fun _ => undisturbed_bind (undisturbed_busWrite _ _) fun _ =>
    undisturbed_bind (undisturbed_change fun s => ?_) fun _ => undisturbed_bind (undisturbed_busRead _) fun got => ?_
  · split <;> exact ⟨rfl, rfl⟩
  · split
    · exact undisturbed_kept fun s => kept_writeVerified s r.addr v
    · exact undisturbed_bind (undisturbed_kept fun s => (kept_unverified s _).trans (kept_clearFailed _ _ _ _)) fun _ =>
        undisturbed_raise _

/-- The procedures every command is made of. -/
theorem closed_undisturbed (p : Params) :
    Closed (Undisturbed p) p (fun _ => True) (fun _ => True) (fun _ => True) (fun _ => True) where
  pure _ := fun _ hs => ⟨hs, fun _ => nofun⟩
  bind := undisturbed_bind
  params h := fun s hs => by
    rw [getParams_bind, hs.1]
    exact h s hs
  raise := undisturbed_raise
  dropPage := undisturbed_change fun _ => ⟨rfl, rfl⟩
  setResult _ := undisturbed_change fun _ => ⟨rfl, rfl⟩
  storeRbuf _ _ := undisturbed_change fun _ => ⟨rfl, rfl⟩
  clearPend := undisturbed_change fun _ => ⟨rfl, rfl⟩
  deliver st d := undisturbed_kept fun s => (kept_deliver s st d).1
  applyFlag f := undisturbed_kept fun s => kept_applyFlag s f
  readBuffer buf off len := fun s hs => by
    unfold readBuffer
    split
    · exact ⟨hs, fun _ => nofun⟩
    · exact ⟨hs, fun _ => nofun⟩
  pagedRead r _ := undisturbed_pagedRead r
  pagedWrite r v _ := undisturbed_pagedWrite r v
  burstWrite a l _ := undisturbed_busBurstWrite a l
  burstRead a off n _ := undisturbed_burstIntoRbuf a off (n + 1)
  callCap _ := undisturbed_bind undisturbed_boundary fun _ => undisturbed_change fun _ => ⟨rfl, rfl⟩
  delay _ := undisturbed_bind undisturbed_boundary fun _ => undisturbed_change fun _ => ⟨rfl, rfl⟩
  modeStep := undisturbed_modeStep
  thenDropPage := undisturbed_thenDropPage

theorem undisturbed_commandOf (i : Instr) : Undisturbed p Unit (commandOf i) :=
  (closed_undisturbed p).commandOf i (fun _ _ => trivial) (fun _ _ => trivial) (fun _ _ => trivial) fun _ _ => trivial

end

/-- With nothing arriving, a command that leaves BUSY = 1 is one with a transaction that never completed. -/
theorem exec_busy_hung {i : Instr} {s t : State} (hq : s.quiet) (h : exec i s = .next t) (hb : t.busy = true) :
    commandOf i s.beginCommand = .error .hung t := by
  obtain ⟨⟨-, hd⟩, hn⟩ := undisturbed_commandOf (p := s.params) i s.beginCommand ⟨rfl, hq⟩
  have ended {u : State} (hu : exec i s = .next u.endCommand) : False := by
    cases hu.symm.trans h
    cases hb
  cases hr : commandOf i s.beginCommand with
  | ok a u =>
    rw [hr] at hd
    exact (ended (exec_ok hr hd).1).elim
  | error e u =>
    rw [hr] at hd
    cases e with
    | raised e => exact (ended (exec_raised hr hd).1).elim
    | unwritten => exact (ended (exec_unwritten hr hd)).elim
    | abandoned => exact absurd hr (hn u)
    | hung =>
      cases (exec_hung hr).symm.trans h
      rfl

/-! ## What a command delivers, it delivers at its end -/

/-- A part of a command that is stopped before its end carries over what `p` does not permit it to change. -/
def StoppedCarries {α : Type} (p : Perm) (c : Cmd α) : Prop :=
  ∀ s e u, s.busy = true → c s = .error e u → Carried p s u

section
variable {α β : Type} {p : Perm}

theorem Carries.stopped {c : Cmd α} (h : Carries p c) : StoppedCarries p c := fun s e u hs he => by
  have hc := h s hs
  rw [he] at hc
  exact hc

/-- A change of the state is never stopped, whatever it changes. -/
theorem stopped_change (f : State → State) : StoppedCarries p (change f) := fun _ _ _ _ h => nomatch h

theorem stopped_bind (hp : p.status = false) {c : Cmd α} {f : α → Cmd β} (hc : Carries p c)
    (hf : ∀ a, StoppedCarries p (f a)) : StoppedCarries p (c >>= f) := by
  intro s e u hs he
  have hs1 := hc s hs
  cases hr : c s with
  | ok a t =>
    rw [hr] at hs1
    rw [bind_ok hr] at he
    exact hs1.trans (hf a t e u ((hs1.busy hp).trans hs) he)
  | error e' t =>
    rw [hr] at hs1
    rw [bind_error hr] at he
    cases he
    exact hs1

end

/-- What a command may have changed where it is stopped: no result, no mailbox, no flag. -/
def stoppedPerm (i : Instr) : Perm :=
  { permOf i with result := false, mailbox := false, rxFlag := false, txFlag := false }

/-- A command that does not reach its end delivers nothing. -/
theorem stopped_commandOf (i : Instr) : StoppedCarries (stoppedPerm i) (commandOf i) := by
  have last {α : Type} {p : Perm} {c : Cmd α} (hp : p.status = false) (hc : Carries p c) (f : α → State → State) :
      StoppedCarries p (c >>= fun a => change (f a)) := stopped_bind hp hc fun _ => stopped_change _
  cases i with
  | crcCcitt buf off len => exact last rfl (carries_readBuffer _ _ _) _
  | crcIbm buf off len => exact last rfl (carries_readBuffer _ _ _) _
  | regRead pg a => exact last rfl (carries_pagedRead rfl _) _
  | getMode => exact stopped_bind rfl carries_getParams fun _ => last rfl (carries_pagedRead rfl _) _
  | receive =>
    exact stopped_bind rfl (carries_drainFrame rfl le_rfl le_rfl) fun _ => last rfl (carries_clearIrq rfl) _
  | recvPlhd sel =>
    exact stopped_bind rfl (carries_plhdRead rfl sel le_rfl le_rfl) fun _ => last rfl (carries_clearIrq rfl) _
  | dispatch =>
    exact stopped_bind rfl (carries_change fun s => { Carried.refl _ s with pend := nofun }) fun _ =>
      stopped_bind rfl carries_getParams fun _ => stopped_bind rfl (carries_pagedRead rfl _) fun _ =>
      last rfl (carries_runHandler rfl le_rfl le_rfl _) _
  | setRxflag f => exact stopped_change _
  | setTxflag f => exact stopped_change _
  | _ => exact (carries_commandOf _).stopped

/-- What a stalled command leaves, with nothing arriving, whichever transaction it is that never completes. -/
theorem exec_busy_leaves {i : Instr} {s t : State} (hq : s.quiet) (h : exec i s = .next t) (hb : t.busy = true) :
    t.seq ≠ none ∧ t.err = .ok ∧ t.stepIx = 0 ∧ t.cause = .none ∧ t.result = s.result ∧ t.eventWord = s.eventWord
      ∧ t.rssi = s.rssi ∧ t.snr = s.snr ∧ t.flagsWord = s.flagsWord := by
  have hr := exec_busy_hung hq h hb
  have hp : (stoppedPerm i).status = false := permOf_status i
  have hc := stopped_commandOf i s.beginCommand _ t rfl hr
  have hseq := (positioned_commandOf i s.beginCommand rfl nofun).2
  rw [hr] at hseq
  exact ⟨hseq, hc.err hp, hc.stepIx hp, hc.cause hp, hc.result rfl, hc.eventWord rfl, hc.rssi rfl, hc.snr rfl,
    hc.flagsWord rfl rfl⟩

/-! ## A first transaction that never completes -/

section
variable {i : Instr} {s t : State}

/-- What a command changes before its first transaction: a wake drops the page, DISPATCH takes IRQ_PEND. -/
def State.beforeFirst (s : State) (i : Instr) : State :=
  match i with
  | .wakeDeep => s.dropPage
  | .wakeSleep => s.dropPage
  | .dispatch => { s with irqPend := false }
  | _ => s

theorem beforeFirst_leaves (s : State) (i : Instr) :
    (s.beforeFirst i).busy = s.busy ∧ (s.beforeFirst i).seq = s.seq ∧ (s.beforeFirst i).log = s.log
      ∧ (s.beforeFirst i).result = s.result ∧ (s.beforeFirst i).mem = s.mem := by
  unfold State.beforeFirst
  split <;> exact ⟨rfl, rfl, rfl, rfl, rfl⟩

theorem beforeFirst_pcache (s : State) (i : Instr) :
    (s.beforeFirst i).pcache = if i = .wakeDeep ∨ i = .wakeSleep then none else s.pcache := by
  cases i <;> simp [State.beforeFirst]

/-- A written range of TBUF reads. -/
theorem readBuffer_written {b : Buf} {off n : Nat} (h : ∀ k, k < n → s.mem.read (bufBase b + off + k) ≠ none) :
    ∃ d, readBuffer b off n s = .ok d s := by
  cases hr : s.mem.readRange (bufBase b + off) n with
  | none =>
    obtain ⟨k, hk, hn⟩ := (Memory.readRange_eq_none _ _ _).1 hr
    exact absurd hn (h k hk)
  | some d => exact ⟨d, by simp only [readBuffer, hr]⟩

/-- A part whose first transaction comes after a change of the block's own state. -/
theorem hung_after_change (g : State → State) {f : Unit → Cmd Unit} (hf : Hangs (f ())) (hb : (g s).busy = true)
    (hq : (g s).quiet) (ha : ∃ rest, (g s).chip.answers = .hang :: rest) :
    ∃ t, (change g >>= f) s = .error .hung t ∧ Stalled (g s) t := hf (g s) hb hq ha

theorem hung_wakeSeq (hb : s.busy = true) (hq : s.quiet) (ha : ∃ rest, s.chip.answers = .hang :: rest) :
    ∃ t, wakeSeq s = .error .hung t ∧ Stalled s.dropPage t :=
  hung_after_change State.dropPage (hangs_getParams fun _ => hangs_bind (hangs_modeStep 1 (hangs_pagedWrite _ _)) _) hb hq ha

/-- Every command with a transaction gets to its first one and stops there, where that one never completes. -/
theorem commandOf_hung {rest : List Answer} (hq : s.quiet) (ha : s.chip.answers = .hang :: rest) (hl : ¬ i.isLocal)
    (hr : ∀ fa off len, i = .fifoRead fa off len → len ≠ 0)
    (hw : ∀ fa off len, i = .fifoWrite fa off len → len ≠ 0 ∧ ∀ k, k < len.toNat → s.mem.read (off.toNat + k) ≠ none)
    (hs : ∀ len, i = .send len → ∀ k, k < len.toNat → s.mem.read k ≠ none) :
    ∃ t, commandOf i s.beginCommand = .error .hung t ∧ Stalled (s.beginCommand.beforeFirst i) t := by
  have run {c : Cmd Unit} (hc : Hangs c) : ∃ t, c s.beginCommand = .error .hung t ∧ Stalled s.beginCommand t :=
    hc _ rfl hq ⟨rest, ha⟩
  cases i with
  | regRead pg a => exact run (hangs_bind (hangs_pagedRead _) _)
  | regWrite pg a v => exact run (hangs_pagedWrite _ _)
  | fifoWrite fa off len =>
    obtain ⟨hne, hm⟩ := hw fa off len rfl
    obtain ⟨d, hd⟩ := readBuffer_written (s := s.beginCommand) (b := .tbuf) (off := off.toNat) (n := len.toNat)
      (by simpa [bufBase] using hm)
    rw [commandOf, (fifoWriteCommand_listed hd).2 hne]
    exact run (hangs_busBurstWrite _ _)
  | fifoRead fa off len =>
    rw [commandOf, fifoReadCommand_nonzero (hr fa off len rfl)]
    exact run (hangs_burstIntoRbuf _ _ _)
  | wakeDeep => exact hung_wakeSeq rfl hq ⟨rest, ha⟩
  | wakeSleep => exact hung_wakeSeq rfl hq ⟨rest, ha⟩
  | sleep => exact run (hangs_sleepSeq _)
  | deepSleep => exact run (hangs_sleepSeq _)
  | setMode m => exact run (hangs_modeStep 1 (hangs_setModeField _))
  | getMode => exact run (hangs_getParams fun _ => hangs_bind (hangs_pagedRead _) _)
  | setTxsub sub => exact run (hangs_getParams fun _ => hangs_setField _ _)
  | setRxsub sub => exact run (hangs_getParams fun _ => hangs_setField _ _)
  | send len =>
    obtain ⟨d, hd⟩ := readBuffer_written (s := s.beginCommand) (b := .tbuf) (off := 0) (n := len.toNat)
      (by simpa [bufBase] using hs len rfl)
    rw [commandOf, sendCommand, bind_ok hd]
    exact run (hangs_getParams fun _ => hangs_bind (hangs_pagedWrite _ _) _)
  | receive => exact run (hangs_bind hangs_drainFrame _)
  | recvPlhd sel => exact run (hangs_bind (hangs_plhdRead sel) _)
  | clrIrq => exact run hangs_clearIrq
  | dispatch =>
    exact hung_after_change (fun s => { s with irqPend := false })
      (hangs_getParams fun _ => hangs_bind (hangs_pagedRead _) _) rfl hq ⟨rest, ha⟩
  | _ => exact absurd (by simp [Instr.isLocal]) hl

/-- What a command leaves that stalls in its first transaction. -/
theorem exec_firstHung {u : State} (h : commandOf i s.beginCommand = .error .hung u)
    (hst : Stalled (s.beginCommand.beforeFirst i) u) :
    exec i s = .next u ∧ u.busy = true ∧ u.seq ≠ none ∧ u.log = s.log ∧ u.result = s.result ∧ u.mem = s.mem
      ∧ u.pcache = if i = .wakeDeep ∨ i = .wakeSleep then none else s.pcache := by
  obtain ⟨hb, hseq, hlog, hres, hmem⟩ := beforeFirst_leaves s.beginCommand i
  have hc := hst.carried
  exact ⟨exec_hung h, (hc.busy rfl).trans hb, hst.seq (hseq ▸ nofun), hst.log.trans hlog, (hc.result rfl).trans hres,
    (hc.memSame le_rfl).trans hmem, hst.pcache.trans (beforeFirst_pcache _ i)⟩

/-! ## Steps -/

/-- No step stops the machine: a command answers a next state, and so does every other input. -/
theorem step_next (s : State) : ∃ t, step s = .next t := by
  unfold step
  split
  · exact ⟨s, rfl⟩
  · split
    · unfold startCommand
      split
      · exact exec_next _ _
      · exact ⟨_, rfl⟩
    · exact ⟨_, rfl⟩

/-- While BUSY = 1 only a release of reset clears it or moves the position. -/
theorem step_busy (hb : s.busy = true) (hr : ¬ s.releasing) (h : step s = .next t) : t.busy = true ∧ t.seq = s.seq := by
  rcases step_cases h with rfl | ⟨i, rest, hi, rfl⟩ | ⟨_, _, _, _, _, -, hidle, -⟩ | ⟨_, _, _, _, -, hidle, -⟩
  · exact ⟨hb, rfl⟩
  · have hi' : ∀ b, i ≠ .resetRelease b := by
      rintro b rfl
      exact hr ⟨b, rest, hi⟩
    exact ⟨((carried_arrive_any _ i hi').busy rfl).trans hb, (kept_arrive _ i hi').seq⟩
  · cases hb.symm.trans hidle
  · cases hb.symm.trans hidle

end

/-- Settles O8: a first transaction that never completes ends the command's run there; a later one does before the command
delivers; and BUSY = 1 keeps any other command from starting. -/
theorem stepAnswersNext : Obligations.StepAnswersNext := by
  refine ⟨step_next, fun i s rest hq ha hl hr hw hs => ?_, fun i s t => exec_busy_leaves, fun s t => step_busy⟩
  obtain ⟨t, ht, hst⟩ := commandOf_hung hq ha hl hr hw hs
  exact ⟨t, exec_firstHung ht hst⟩

end Sys2Proof.Machine
end

section
/-! What arrives while a command runs is read at its boundaries alone: every operation on the chip, every draw and every answer
is the same whatever is still to come (log 1). -/

namespace Sys2Proof.Machine

/-- The state with other arrivals still to come while the command runs. -/
def State.meeting (s : State) (d : List (List Input)) : State := { s with during := d }

section
variable (s : State) (d : List (List Input))

@[simp] theorem meeting_chip : (s.meeting d).chip = s.chip := rfl
@[simp] theorem meeting_params : (s.meeting d).params = s.params := rfl
@[simp] theorem meeting_chipPage : (s.meeting d).chipPage = s.chipPage := rfl
@[simp] theorem meeting_regValue (pg : Page) (a : Byte) : (s.meeting d).regValue pg a = s.regValue pg a := rfl

@[simp] theorem meeting_setRegs (m : Memory) : (s.meeting d).setRegs m = (s.setRegs m).meeting d := rfl
@[simp] theorem meeting_setChipMode (m : Option Mode) : (s.meeting d).setChipMode m = (s.setChipMode m).meeting d := rfl
@[simp] theorem meeting_drawByte : (s.meeting d).drawByte = (s.drawByte.1, s.drawByte.2.meeting d) := rfl
@[simp] theorem meeting_drawBit : (s.meeting d).drawBit = (s.drawBit.1, s.drawBit.2.meeting d) := rfl
@[simp] theorem meeting_txqDrawn : (s.meeting d).txqDrawn = s.txqDrawn.meeting d := rfl
@[simp] theorem meeting_rxqDrawn (n : Nat) : (s.meeting d).rxqDrawn n = (s.rxqDrawn n).meeting d := rfl
@[simp] theorem meeting_forgetFrom (a : Byte) : (s.meeting d).forgetFrom a = (s.forgetFrom a).meeting d := rfl

/-- A branch of the model: its condition does not see what is to come, by definition. -/
theorem meeting_ite (c : Prop) [Decidable c] (t : State) :
    (if c then s else t).meeting d = if c then s.meeting d else t.meeting d := apply_ite (State.meeting · d) c s t

@[simp] theorem meeting_setLine (level : Bool) : (s.meeting d).setLine level = (s.setLine level).meeting d := by
  simp only [State.setLine, meeting_ite]
  rfl

@[simp] theorem meeting_oracleLine : (s.meeting d).oracleLine = s.oracleLine.meeting d := meeting_setLine s d _

@[simp] theorem meeting_storeReg (pg : Page) (a v : Byte) :
    (s.meeting d).storeReg pg a v = (s.storeReg pg a v).meeting d := by
  simp only [State.storeReg, meeting_ite, ← meeting_oracleLine]
  rfl

@[simp] theorem meeting_unverified (a : Byte) : (s.meeting d).unverified a = (s.unverified a).meeting d := by
  simp only [State.unverified, meeting_ite]
  rfl

@[simp] theorem meeting_regOrDraw (r : RegAt) :
    (s.meeting d).regOrDraw r = ((s.regOrDraw r).1, (s.regOrDraw r).2.meeting d) := by
  simp only [State.regOrDraw, meeting_regValue]
  split <;> rfl

@[simp] theorem meeting_irqCleared : (s.meeting d).irqCleared = s.irqCleared.meeting d := by
  by_cases h : clearsItself s.params
  · simp only [State.irqCleared, meeting_params, h, if_true, meeting_ite, meeting_drawBit, meeting_setRegs,
      meeting_setLine]
    rfl
  · simp only [State.irqCleared, meeting_params, h, if_false, Bool.false_eq_true, meeting_ite, meeting_drawByte,
      meeting_drawBit, meeting_setRegs, meeting_setLine]
    rfl

@[simp] theorem meeting_writeVerified (a v : Byte) : (s.meeting d).writeVerified a v = (s.writeVerified a v).meeting d := by
  cases hg : s.chipPage with
  | none =>
    simp only [State.writeVerified, meeting_chipPage, hg, meeting_ite, meeting_drawBit, meeting_irqCleared]
    rfl
  | some q =>
    simp only [State.writeVerified, meeting_chipPage, hg, meeting_ite, meeting_irqCleared]
    rfl

@[simp] theorem meeting_clearFailed (a v got : Byte) :
    (s.meeting d).clearFailed a v got = (s.clearFailed a v got).meeting d := by
  simp only [State.clearFailed, meeting_setRegs, meeting_oracleLine, meeting_ite]
  rfl

@[simp] theorem meeting_chipWrite (a v : Byte) : (s.meeting d).chipWrite a v = (s.chipWrite a v).meeting d := by
  cases hg : s.chipPage with
  | none =>
    simp only [State.chipWrite, meeting_chipPage, hg, meeting_ite, meeting_storeReg]
    rfl
  | some q =>
    simp only [State.chipWrite, meeting_chipPage, hg, meeting_ite, meeting_storeReg]
    rfl

@[simp] theorem meeting_consumed (a : Byte) : (s.meeting d).consumed a = (s.consumed a).meeting d := by
  simp only [State.consumed, meeting_ite]
  rfl

@[simp] theorem meeting_oracleByte (a : Byte) :
    (s.meeting d).oracleByte a = ((s.oracleByte a).1, (s.oracleByte a).2.meeting d) := by
  by_cases h : a = s.params.fifoAddr
  · simp [State.oracleByte, h]
  · cases hg : s.chipPage <;> simp [State.oracleByte, h, hg]

@[simp] theorem meeting_chipByte (a : Byte) (l : List Byte) :
    (s.meeting d).chipByte a l = ((s.chipByte a l).1, (s.chipByte a l).2.meeting d) := by
  by_cases h : s.chip.oracle <;> simp [State.chipByte, h]

@[simp] theorem meeting_chipBytes (a : Byte) (l : List Byte) (n : Nat) :
    (s.meeting d).chipBytes a l n = ((s.chipBytes a l n).1, (s.chipBytes a l n).2.meeting d) := by
  induction n generalizing s l with
  | zero => rfl
  | succ n ih => simp [State.chipBytes, ih]

@[simp] theorem meeting_pageDrawn (a : Byte) : (s.meeting d).pageDrawn a = (s.pageDrawn a).meeting d := by
  simp only [State.pageDrawn, meeting_ite]
  rfl

@[simp] theorem meeting_monitorWrite (a v : Byte) : (s.meeting d).monitorWrite a v = (s.monitorWrite a v).meeting d := by
  simp only [State.monitorWrite, meeting_pageDrawn, ← meeting_setChipMode, meeting_ite]
  rfl

@[simp] theorem meeting_monitorRead (a r : Byte) : (s.meeting d).monitorRead a r = (s.monitorRead a r).meeting d := by
  simp only [State.monitorRead, meeting_ite]
  rfl

@[simp] theorem meeting_monitorLost (a : Byte) : (s.meeting d).monitorLost a = (s.monitorLost a).meeting d := by
  simp only [State.monitorLost, meeting_ite]
  rfl

@[simp] theorem meeting_burstHidesMode (a : Byte) : (s.meeting d).burstHidesMode a = (s.burstHidesMode a).meeting d := by
  simp only [State.burstHidesMode, meeting_ite]
  rfl

@[simp] theorem meeting_burstDisturbs (a : Byte) : (s.meeting d).burstDisturbs a = (s.burstDisturbs a).meeting d := by
  simp only [State.burstDisturbs, meeting_ite, meeting_burstHidesMode, meeting_forgetFrom]
  rfl

@[simp] theorem meeting_chipWrites (a : Byte) (bs : List Byte) :
    bs.foldl (fun u b => u.chipWrite a b) (s.meeting d) = (bs.foldl (fun u b => u.chipWrite a b) s).meeting d := by
  induction bs generalizing s with
  | nil => rfl
  | cons b bs ih => simp [ih]

@[simp] theorem meeting_chipBurst (a : Byte) (bs : List Byte) :
    (s.meeting d).chipBurst a bs = (s.chipBurst a bs).meeting d := by
  simp only [State.chipBurst, meeting_ite, meeting_burstDisturbs, meeting_chipWrites, meeting_txqDrawn]
  rfl

@[simp] theorem meeting_chipBurstLost (a : Byte) : (s.meeting d).chipBurstLost a = (s.chipBurstLost a).meeting d := by
  simp only [State.chipBurstLost, meeting_ite, meeting_burstHidesMode, meeting_forgetFrom, meeting_txqDrawn]
  rfl

@[simp] theorem meeting_chipWriteLost (a : Byte) : (s.meeting d).chipWriteLost a = (s.chipWriteLost a).meeting d := by
  simp only [State.chipWriteLost, meeting_ite]
  rfl

@[simp] theorem meeting_chipBurstRead (a : Byte) (n : Nat) :
    (s.meeting d).chipBurstRead a n = (s.chipBurstRead a n).meeting d := by
  simp only [State.chipBurstRead, meeting_ite, meeting_burstDisturbs, meeting_rxqDrawn]
  rfl

@[simp] theorem meeting_chipReadLost (a : Byte) (n : Nat) :
    (s.meeting d).chipReadLost a n = (s.chipReadLost a n).meeting d := by
  simp only [State.chipReadLost, meeting_ite]
  rfl

@[simp] theorem meeting_nextAnswer : (s.meeting d).nextAnswer = (s.nextAnswer.1, s.nextAnswer.2.meeting d) := by
  unfold State.nextAnswer State.meeting
  dsimp only
  split
  · rfl
  · rfl
  · rfl
  · split <;> rfl

@[simp] theorem meeting_drawList (n : Nat) :
    (s.meeting d).drawList n = ((s.drawList n).1, (s.drawList n).2.meeting d) := by
  induction n generalizing s with
  | zero => rfl
  | succ n ih => simp [State.drawList, ih]

@[simp] theorem meeting_applyFlag (f : FlagUpdate) : (s.meeting d).applyFlag f = (s.applyFlag f).meeting d := by
  cases f <;> rfl

@[simp] theorem meeting_deliver (st : Byte) (x : Delivery) : (s.meeting d).deliver st x = (s.deliver st x).meeting d := by
  obtain ⟨tag, len, flag, metrics⟩ := x
  cases metrics <;> cases flag <;> rfl

end
end Sys2Proof.Machine
end

section
/-! Reset asserted while a command runs (70_reset_and_hazards.md R230; log 12): every part of a command ends at the boundary at
which reset is asserted, having issued the outputs it issues with nothing arriving up to there, or is past its last boundary
by then. -/

namespace Sys2Proof.Machine

/-- Nothing arrives at `k` boundaries, and at the next one reset is asserted. -/
def resetAfter (k : Nat) (later : List (List Input)) : List (List Input) := List.replicate k [] ++ [.resetAssert] :: later

/-- The state where reset is asserted at the boundary after the `n`-th output, counted from the first the block ever made. -/
def State.resetAt (s : State) (n : Nat) (later : List (List Input)) : State := s.meeting (resetAfter (n - s.log.length) later)

section
variable {α β : Type} {p : Params} {s t : State} {n : Nat} {later : List (List Input)}

theorem boundary_resetAt_now : boundary (s.resetAt s.log.length later) =
    .error .abandoned { (s.meeting later).assertReset with inputs := s.inputs } := by
  rw [State.resetAt, Nat.sub_self]
  rfl

theorem boundary_resetAt_later (h : s.log.length < n) :
    boundary (s.resetAt n later) = .ok () (s.meeting (resetAfter (n - (s.log.length + 1)) later)) := by
  rw [State.resetAt, show n - s.log.length = n - (s.log.length + 1) + 1 by omega]
  rfl

/-- A part's end with other arrivals still to come. -/
def endMeeting (r : EStateM.Result Stop State α) (d : List (List Input)) : EStateM.Result Stop State α :=
  match r with
  | .ok a s => .ok a (s.meeting d)
  | .error e s => .error e (s.meeting d)

/-- A part that does not look at what arrives. -/
def Blind (c : Cmd α) : Prop := ∀ s d, c (s.meeting d) = endMeeting (c s) d

/-- How a part ends that would end as `r` with nothing arriving, where reset is asserted after the `n`-th output: as it would
and with the reset still to come, or abandoned, the outputs cut to the first `n`. A transaction that never ends has passed the
boundary before an output it does not make. -/
inductive UntilReset (n : Nat) (later : List (List Input)) :
    EStateM.Result Stop State α → EStateM.Result Stop State α → Prop where
  | passed {r} (hr : ∀ t, r ≠ .error .hung t) (hn : (endState r).log.length ≤ n) :
      UntilReset n later r (endMeeting r (resetAfter (n - (endState r).log.length) later))
  | stalled {t d} (hn : t.log.length < n) : UntilReset n later (.error .hung t) (.error .hung (t.meeting d))
  | cut {r w} (hn : n ≤ (endState r).log.length) (hlog : w.log = (endState r).log.take n) (hw : w.inReset = true) :
      UntilReset n later r (.error .abandoned w)

/-- What a part of a command does from a state, with nothing arriving and with a reset to come. -/
structure CutAt (p : Params) (c : Cmd α) (s : State) : Prop where
  quiet : Quiets p (endState (c s))
  grows : s.log <+: (endState (c s)).log
  cut : ∀ n later, s.log.length ≤ n → UntilReset n later (c s) (c (s.resetAt n later))

/-- A part of a command that a reset cuts at the boundary it is asserted at, and nowhere else. -/
def Cuts (p : Params) (α : Type) (c : Cmd α) : Prop := ∀ s, Quiets p s → CutAt p c s

/-! ## Sequencing, and the parts with no boundary -/

/-- A part cut before its own end stays so cut whatever the command would have done after it. -/
theorem UntilReset.grown {r : EStateM.Result Stop State α} {r2 : EStateM.Result Stop State β} {w : State}
    (hg : (endState r).log <+: (endState r2).log) (hn : n ≤ (endState r).log.length)
    (hlog : w.log = (endState r).log.take n) (hw : w.inReset = true) :
    UntilReset n later r2 (.error .abandoned w) := by
  refine .cut (hn.trans hg.length_le) ?_ hw
  obtain ⟨l, hl⟩ := hg
  rw [hlog, ← hl, List.take_append_of_le_length hn]

theorem cuts_bind {c : Cmd α} {f : α → Cmd β} (hc : Cuts p α c) (hf : ∀ a, Cuts p β (f a)) : Cuts p β (c >>= f) := by
  intro s hs
  obtain ⟨hq, hg, hcut⟩ := hc s hs
  cases hr : c s with
  | error e t =>
    have hb := bind_error (f := f) hr
    rw [hr] at hq hg hcut
    refine ⟨hb ▸ hq, hb ▸ hg, fun n later hn => ?_⟩
    have hu := hcut n later hn
    rw [hb]
    generalize hr' : c (s.resetAt n later) = r' at hu
    cases hu with
    | passed h h2 => exact bind_error (f := f) hr' ▸ .passed (fun u hu => h u (by cases hu; rfl)) h2
    | stalled h => exact bind_error (f := f) hr' ▸ .stalled h
    | cut h hl hw => exact bind_error (f := f) hr' ▸ .cut h hl hw
  | ok a t =>
    have hb := bind_ok (f := f) hr
    rw [hr] at hq hg hcut
    obtain ⟨hq2, hg2, hcut2⟩ := hf a t hq
    refine ⟨hb ▸ hq2, hb ▸ hg.trans hg2, fun n later hn => ?_⟩
    have hu := hcut n later hn
    rw [hb]
    generalize hr' : c (s.resetAt n later) = r' at hu
    cases hu with
    | passed _ h2 => exact bind_ok (f := f) hr' ▸ hcut2 n later h2
    | cut h hl hw => exact bind_error (f := f) hr' ▸ .grown (r := .ok a t) hg2 h hl hw

/-- A part without a boundary and without an output. -/
theorem cuts_silent {c : Cmd α} (hb : Blind c) (hq : ∀ s, Quiets p s → Quiets p (endState (c s)))
    (hl : ∀ s, (endState (c s)).log = s.log) (hh : ∀ s t, c s ≠ .error .hung t) : Cuts p α c := fun s hs =>
  ⟨hq s hs, (hl s).symm ▸ List.prefix_rfl, fun n later hn => by
    have h := UntilReset.passed (later := later) (hh s) ((hl s).symm ▸ hn)
    rw [State.resetAt, hb, ← hl s]
    exact h⟩

theorem cuts_change {f : State → State} (hb : ∀ s d, f (s.meeting d) = (f s).meeting d)
    (hk : ∀ s, (f s).params = s.params ∧ (f s).during = s.during ∧ (f s).log = s.log) : Cuts p Unit (change f) :=
  cuts_silent (fun s d => congrArg (EStateM.Result.ok ()) (hb s d)) (fun s hs => ⟨(hk s).1.trans hs.1, (hk s).2.1.trans hs.2⟩)
    (fun s => (hk s).2.2) fun _ _ => nofun

theorem cuts_kept {f : State → State} (hb : ∀ s d, f (s.meeting d) = (f s).meeting d) (hk : ∀ s, Kept s (f s)) :
    Cuts p Unit (change f) :=
  cuts_change hb fun s => ⟨(hk s).params, (hk s).during, (hk s).log⟩

theorem cuts_raise (e : Error) : Cuts p α (raiseError e) :=
  cuts_silent (fun _ _ => rfl) (fun _ hs => hs) (fun _ => rfl) fun _ _ => nofun

/-! ## Actions -/

/-- What stands behind a boundary: one output, or a transaction that never ends. -/
structure Action (p : Params) (c : Cmd α) : Prop where
  blind : Blind c
  quiet : ∀ s, Quiets p s → Quiets p (endState (c s))
  output : ∀ s, (∃ t, c s = .error .hung t ∧ t.log = s.log)
    ∨ (∀ t, c s ≠ .error .hung t) ∧ ∃ e, (endState (c s)).log = s.log ++ [e]

/-- Reset asserted at the boundary itself cuts the action off; asserted later, it leaves the action as it is. -/
theorem Action.cuts {c : Cmd α} (h : Action p c) : Cuts p α (boundary >>= fun _ => c) := by
  intro s hs
  have hrun := bind_ok (f := fun _ => c) (boundary_quiet hs.2)
  have hgrows : s.log <+: (endState (c s)).log := by
    rcases h.output s with ⟨t, ht, hl⟩ | ⟨-, e, he⟩
    · rw [ht, endState_error, hl]
    · exact ⟨[e], he.symm⟩
  refine ⟨hrun ▸ h.quiet s hs, hrun ▸ hgrows, fun n later hn => ?_⟩
  rw [hrun]
  rcases hn.eq_or_lt with rfl | hlt
  · rw [bind_error boundary_resetAt_now]
    exact .cut hgrows.length_le (List.prefix_iff_eq_take.1 hgrows) rfl
  · rw [bind_ok (boundary_resetAt_later hlt), h.blind]
    rcases h.output s with ⟨t, ht, hl⟩ | ⟨hne, e, he⟩
    · rw [ht]
      exact .stalled (hl ▸ hlt)
    · have hlen : (endState (c s)).log.length = s.log.length + 1 := by rw [he, List.length_append, List.length_singleton]
      exact hlen ▸ .passed hne (hlen ▸ hlt)

/-- A capability call or a delay. -/
theorem cuts_port {f : State → State} (hb : ∀ s d, f (s.meeting d) = (f s).meeting d)
    (hk : ∀ s, (f s).params = s.params ∧ (f s).during = s.during ∧ ∃ e, (f s).log = s.log ++ [e]) :
    Cuts p Unit (boundary >>= fun _ => change f) :=
  Action.cuts
    { blind := fun s d => congrArg (EStateM.Result.ok ()) (hb s d)
      quiet := fun s hs => ⟨(hk s).1.trans hs.1, (hk s).2.1.trans hs.2⟩
      output := fun s => .inr ⟨fun _ => nofun, (hk s).2.2⟩ }

/-- A transaction. -/
theorem cuts_transact {before : State → State} {good : List Byte → State → α × State} {lost : State → State}
    {failed : BusEvent} (hb : ∀ s, Kept s (before s)) (hbd : ∀ s d, before (s.meeting d) = (before s).meeting d)
    (hg : ∀ l s, (good l s).2.params = s.params ∧ (good l s).2.during = s.during ∧ ∃ e, (good l s).2.log = s.log ++ [e])
    (hgd : ∀ l s d, good l (s.meeting d) = ((good l s).1, (good l s).2.meeting d))
    (hl : ∀ s, Kept s (lost s)) (hld : ∀ s d, lost (s.meeting d) = (lost s).meeting d) :
    Cuts p α (transact before good lost failed) := by
  refine Action.cuts { blind := fun s d => ?_, quiet := fun s hs => ?_, output := fun s => ?_ }
  · have h : (before (s.meeting d)).advance.nextAnswer =
        ((before s).advance.nextAnswer.1, (before s).advance.nextAnswer.2.meeting d) := by
      rw [hbd]
      exact meeting_nextAnswer (before s).advance d
    dsimp only
    rw [h]
    dsimp only
    split
    · rw [hgd]
      rfl
    · rw [hld]
      rfl
    · rw [hld]
      rfl
  · have h := quiets_nextAnswer (quiets_kept hs (hb s))
    dsimp only
    split
    · exact ⟨(hg _ _).1.trans h.1, (hg _ _).2.1.trans h.2⟩
    · exact ⟨(hl _).params.trans h.1, (hl _).during.trans h.2⟩
    · exact quiets_kept h (hl _)
  · have h : (before s).advance.nextAnswer.2.log = s.log := (nextAnswer_log _).1.trans (hb s).log
    dsimp only
    split
    · obtain ⟨e, he⟩ := (hg (before s).advance.nextAnswer.1.2 (before s).advance.nextAnswer.2).2.2
      exact .inr ⟨fun _ => nofun, e, he.trans (congrArg (· ++ [e]) h)⟩
    · exact .inr ⟨fun _ => nofun, failed, congrArg (· ++ [failed]) ((hl _).log.trans h)⟩
    · exact .inl ⟨_, rfl, (hl _).log.trans h⟩

theorem cuts_busRead (a : Byte) : Cuts p Byte (busRead a) :=
  have hk (s : State) (l : List Byte) := kept_chipByte s a l
  cuts_transact (fun s => kept_pageDrawn s a) (fun s d => meeting_pageDrawn s d a)
    (fun l s => ⟨(kept_monitorRead _ a _).params.trans (hk s l).params, (kept_monitorRead _ a _).during.trans (hk s l).during,
      _, (kept_monitorRead _ a _).log.trans (congrArg (· ++ [_]) (hk s l).log)⟩)
    (fun l s d => by
      simp only [meeting_chipByte, ← meeting_monitorRead]
      rfl)
    (fun s => kept_chipReadLost s a 1) fun s d => meeting_chipReadLost s d a 1

theorem cuts_busWrite (a v : Byte) : Cuts p Unit (busWrite a v) :=
  cuts_transact (fun s => kept_monitorWrite s a v) (fun s d => meeting_monitorWrite s d a v)
    (fun _ s => ⟨(kept_chipWrite s a v).params, (kept_chipWrite s a v).during, _,
      congrArg (· ++ [_]) (kept_chipWrite s a v).log⟩)
    (fun _ s d => by
      rw [meeting_chipWrite]
      rfl)
    (fun s => kept_busWriteLost s a) fun s d => by rw [meeting_chipWriteLost, meeting_monitorLost]

theorem cuts_busBurstWrite (a : Byte) (bs : List Byte) : Cuts p Unit (busBurstWrite a bs) :=
  cuts_transact
    (fun s => by
      split
      · exact Kept.refl s
      · exact kept_monitorWrite s a _)
    (fun s d => by
      rw [meeting_monitorWrite, meeting_ite]
      rfl)
    (fun _ s => ⟨(kept_chipBurst s a bs).params, (kept_chipBurst s a bs).during, _,
      congrArg (· ++ [_]) (kept_chipBurst s a bs).log⟩)
    (fun _ s d => by
      rw [meeting_chipBurst]
      rfl)
    (fun s => kept_chipBurstLost s a) fun s d => meeting_chipBurstLost s d a

theorem cuts_busBurstRead (a : Byte) (n : Nat) : Cuts p (List Byte) (busBurstRead a n) :=
  have hk (s : State) (l : List Byte) := (kept_chipBytes s a l n).trans (kept_chipBurstRead _ a n)
  cuts_transact Kept.refl (fun _ _ => rfl)
    (fun l s => ⟨(hk s l).params, (hk s l).during, _, congrArg (· ++ [_]) (hk s l).log⟩)
    (fun l s d => by
      simp only [meeting_chipBytes, meeting_chipBurstRead]
      rfl)
    (fun s => (kept_chipReadLost s a n).trans (kept_chipBurstRead _ a n)) fun s d => by
      rw [meeting_chipReadLost, meeting_chipBurstRead]

/-! ## The paged accesses -/

theorem cuts_pure (a : α) : Cuts p α (pure a) :=
  cuts_silent (fun _ _ => rfl) (fun _ hs => hs) (fun _ => rfl) fun _ _ => nofun

/-- A part that does what another does from one state, whatever arrives there. -/
theorem CutAt.of_eq {c d : Cmd α} (h : CutAt p c s) (h0 : d s = c s) (hd : ∀ m, d (s.meeting m) = c (s.meeting m)) :
    CutAt p d s :=
  ⟨h0 ▸ h.quiet, h0 ▸ h.grows, fun n later hn => by
    rw [h0, State.resetAt, hd]
    exact h.cut n later hn⟩

theorem cuts_switchPage (pg : Page) : Cuts p Unit (switchPage pg) := by
  intro s hs
  by_cases hc : (s.params.pageCacheEnable && s.pcache == some pg) = true
  · exact (cuts_pure () s hs).of_eq (if_pos hc) fun _ => if_pos hc
  · refine (cuts_bind (cuts_busRead s.params.sysctlAddr) (fun v =>
      cuts_bind (cuts_busWrite s.params.sysctlAddr (setPageField s.params v pg)) fun _ =>
      cuts_bind (cuts_busRead s.params.sysctlAddr) fun r => ?_) s hs).of_eq (if_neg hc) fun _ => if_neg hc
    split
    · exact cuts_change (fun _ _ => rfl) fun _ => ⟨rfl, rfl, rfl⟩
    · refine cuts_bind (cuts_change (fun u d => ?_) fun u => ?_) fun _ => cuts_raise _
      · rw [meeting_unverified]
        rfl
      · exact ⟨(kept_unverified u _).params, (kept_unverified u _).during, (kept_unverified u _).log⟩

theorem cuts_pagedRead (r : RegAt) : Cuts p Byte (pagedRead r) :=
  cuts_bind (cuts_switchPage r.page) fun _ => cuts_busRead r.addr

theorem cuts_pagedWrite (r : RegAt) (v : Byte) : Cuts p Unit (pagedWrite r v) := by
  refine cuts_bind (cuts_switchPage _) fun _ => cuts_bind (cuts_busWrite _ _) fun _ =>
    cuts_bind (cuts_change (fun s d => ?_) fun s => ?_) fun _ => cuts_bind (cuts_busRead _) fun got => ?_
  · rw [meeting_ite]
    rfl
  · split <;> exact ⟨rfl, rfl, rfl⟩
  · split
    · exact cuts_kept (fun s d => meeting_writeVerified s d _ v) fun s => kept_writeVerified s _ v
    · exact cuts_bind (cuts_kept (fun s d => by rw [meeting_unverified, meeting_clearFailed])
        fun s => (kept_unverified s _).trans (kept_clearFailed _ _ v got)) fun _ => cuts_raise _

/-! ## Parts around a part -/

/-- A part that ends where another does but for the block's own state, and is abandoned and stalled where the other is. -/
theorem Cuts.of_end {c : Cmd α} {d : Cmd β} (hc : Cuts p α c)
    (hq : ∀ s, Local (endState (c s)) (endState (d s))) (hl : ∀ s, (endState (d s)).log = (endState (c s)).log)
    (hm : ∀ s s' m, c s' = endMeeting (c s) m → d s' = endMeeting (d s) m)
    (hh : ∀ s t, d s = .error .hung t ↔ c s = .error .hung t)
    (ha : ∀ s w, c s = .error .abandoned w → ∃ u, d s = .error .abandoned u ∧ u.log = w.log ∧ u.inReset = w.inReset) :
    Cuts p β d := by
  intro s hs
  obtain ⟨hquiet, hgrows, hcut⟩ := hc s hs
  refine ⟨(held_quiets p).same _ _ hquiet (hq s), hl s ▸ hgrows, fun n later hn => ?_⟩
  have hu := hcut n later hn
  generalize hr : c s = r at hu
  generalize hr' : c (s.resetAt n later) = r' at hu
  cases hu with
  | passed hne hn2 =>
    subst hr
    rw [hm s _ _ hr', ← hl s]
    exact .passed (fun t ht => hne t ((hh s t).1 ht)) ((hl s).symm ▸ hn2)
  | stalled hn2 =>
    rw [(hh s _).2 hr, (hh _ _).2 hr']
    exact .stalled hn2
  | cut hn2 hlog hw =>
    subst hr
    obtain ⟨u, hu, hul, hur⟩ := ha _ _ hr'
    rw [hu]
    exact .cut ((hl s).symm ▸ hn2) (by rw [hul, hlog, hl s]) (hur.trans hw)

theorem cuts_modeStep {c : Cmd α} (k : BitVec 4) (hc : Cuts p α c) : Cuts p α (modeStep k c) := by
  refine hc.of_end (local_modeStep k c) (fun s => (modeStep_outputs k c s).1) (fun s s' m h => ?_) (fun s t => ?_)
    fun s w h => ⟨w, by simp only [modeStep, h], rfl, rfl⟩
  · unfold modeStep
    rw [h]
    cases c s with
    | ok a u => rfl
    | error e u =>
      cases e with
      | raised e =>
        cases e with
        | verify r =>
          simp only [endMeeting, meeting_ite]
          rfl
        | _ => rfl
      | _ => rfl
  · unfold modeStep
    cases c s with
    | ok a u => simp
    | error e u =>
      cases e with
      | raised e => cases e <;> simp
      | _ => simp

theorem cuts_thenDropPage {c : Cmd Unit} (hc : Cuts p Unit c) : Cuts p Unit (thenDropPage c) := by
  refine hc.of_end (local_thenDropPage c) (fun s => (thenDropPage_outputs c s).1) (fun s s' m h => ?_) (fun s t => ?_)
    fun s w h => ⟨w.dropPage, by simp only [thenDropPage, h], rfl, rfl⟩
  · unfold thenDropPage
    rw [h]
    cases c s with
    | ok a u => rfl
    | error e u => cases e <;> rfl
  · unfold thenDropPage
    cases c s with
    | ok a u => simp
    | error e u => cases e <;> simp

theorem cuts_burstIntoRbuf (a : Byte) (off n : Nat) : Cuts p Unit (burstIntoRbuf a off n) := by
  refine (cuts_busBurstRead a n).of_end (local_burstIntoRbuf a off n) (fun s => ?_) (fun s s' m h => ?_) (fun s t => ?_)
    fun s w h => ⟨w, by simp only [burstIntoRbuf, h], rfl, rfl⟩
  · unfold burstIntoRbuf
    cases busBurstRead a n s with
    | ok bs u => rfl
    | error e u =>
      cases e with
      | raised e => exact (kept_drawList u n).log
      | _ => rfl
  · unfold burstIntoRbuf
    rw [h]
    cases busBurstRead a n s with
    | ok bs u => rfl
    | error e u =>
      cases e with
      | raised e =>
        simp only [endMeeting, meeting_drawList]
        rfl
      | _ => rfl
  · unfold burstIntoRbuf
    cases busBurstRead a n s with
    | ok bs u => simp
    | error e u => cases e <;> simp

/-! ## Commands -/

theorem closed_cuts (p : Params) :
    Closed (Cuts p) p (fun _ => True) (fun _ => True) (fun _ => True) (fun _ => True) where
  pure := cuts_pure
  bind := cuts_bind
  params h := fun s hs => (h s hs).of_eq (by rw [getParams_bind, hs.1]) fun m => by rw [getParams_bind, meeting_params, hs.1]
  raise := cuts_raise
  dropPage := cuts_change (fun _ _ => rfl) fun _ => ⟨rfl, rfl, rfl⟩
  setResult _ := cuts_change (fun _ _ => rfl) fun _ => ⟨rfl, rfl, rfl⟩
  storeRbuf _ _ := cuts_change (fun _ _ => rfl) fun _ => ⟨rfl, rfl, rfl⟩
  clearPend := cuts_change (fun _ _ => rfl) fun _ => ⟨rfl, rfl, rfl⟩
  deliver st x := cuts_kept (fun s d => meeting_deliver s d st x) fun s => (kept_deliver s st x).1
  applyFlag f := cuts_kept (fun s d => meeting_applyFlag s d f) fun s => kept_applyFlag s f
  readBuffer buf off len := by
    refine cuts_silent (fun s d => ?_) (fun s hs => ?_) (fun s => ?_) fun s t => ?_
    · simp only [readBuffer, show (s.meeting d).mem = s.mem from rfl]
      split <;> rfl
    all_goals
      unfold readBuffer
      split
    · exact hs
    · exact hs
    · rfl
    · rfl
    · exact nofun
    · exact nofun
  pagedRead r _ := cuts_pagedRead r
  pagedWrite r v _ := cuts_pagedWrite r v
  burstWrite a l _ := cuts_busBurstWrite a l
  burstRead a off n _ := cuts_burstIntoRbuf a off (n + 1)
  callCap c := cuts_port (fun _ _ => rfl) fun _ => ⟨rfl, rfl, _, rfl⟩
  delay t := cuts_port (fun _ _ => rfl) fun _ => ⟨rfl, rfl, _, rfl⟩
  modeStep := cuts_modeStep
  thenDropPage := cuts_thenDropPage

theorem cuts_commandOf (i : Instr) : Cuts p Unit (commandOf i) :=
  (closed_cuts p).commandOf i (fun _ _ => trivial) (fun _ _ => trivial) (fun _ _ => trivial) fun _ _ => trivial

/-! ## The end of a command -/

/-- After the last action reset is asserted at the one boundary left, or later than the command runs. -/
theorem closeCommand_resetAt (f : State → State) (hf : ∀ u, (f u).log = u.log) (hn : t.log.length ≤ n) :
    ((t.resetAt n later).closeCommand f).log = t.log
      ∧ (n ≤ t.log.length → ∃ w : State, (t.resetAt n later).closeCommand f = w.abandon ∧ w.inReset = true
        ∧ w.busy = t.busy) := by
  rcases hn.eq_or_lt with rfl | hlt
  · simp only [State.closeCommand, boundary_resetAt_now]
    exact ⟨rfl, fun _ => ⟨_, rfl, rfl, rfl⟩⟩
  · simp only [State.closeCommand, boundary_resetAt_later hlt]
    exact ⟨hf _, fun h => absurd hlt h.not_gt⟩

/-- A command's end, from the end of its last part. -/
theorem commandResult_untilReset {r r' : EStateM.Result Stop State Unit} (hu : UntilReset n later r r')
    (ha : ∀ u, r ≠ .error .abandoned u) : (commandResult r').log = (endState r).log.take n
      ∧ (n ≤ (endState r).log.length → ∃ w : State, commandResult r' = w.abandon ∧ w.inReset = true
        ∧ w.busy = (endState r').busy) := by
  cases hu with
  | passed hne hn =>
    rw [List.take_of_length_le hn]
    cases r with
    | ok a t => exact closeCommand_resetAt id (fun _ => rfl) hn
    | error e t =>
      cases e with
      | raised e => exact closeCommand_resetAt (fun u => u.report e) (fun u => by cases e <;> rfl) hn
      | unwritten => exact closeCommand_resetAt id (fun _ => rfl) hn
      | abandoned => exact absurd rfl (ha t)
      | hung => exact absurd rfl (hne t)
  | stalled hn => exact ⟨(List.take_of_length_le hn.le).symm, fun h => absurd hn h.not_gt⟩
  | cut hn hlog hw => exact ⟨hlog, fun _ => ⟨_, rfl, hw, rfl⟩⟩

/-- A command during which reset is asserted after `k` actions, and what it does with nothing arriving. -/
theorem exec_resetAfter {i : Instr} {u : State} {k : Nat} {evs : List BusEvent} (hd : s.during = resetAfter k later)
    (ht : exec i s = .next t) (hu : exec i (s.meeting []) = .next u) (hl : u.log = s.log ++ evs) :
    t.log = s.log ++ evs.take k ∧ (k ≤ evs.length → t.inReset = true ∧ t.busy = true ∧ t.seq = none) := by
  have hb : s.beginCommand = (s.beginCommand.meeting []).resetAt (s.log.length + k) later := by
    rw [State.resetAt, show (s.beginCommand.meeting []).log.length = s.log.length from rfl, Nat.add_sub_cancel_left, ← hd]
    rfl
  have hq : Quiets s.params (s.beginCommand.meeting []) := ⟨rfl, rfl⟩
  have hcut := (cuts_commandOf i _ hq).cut (s.log.length + k) later (Nat.le_add_right _ _)
  have hbusy := (carries_commandOf i s.beginCommand rfl).busy (permOf_status i)
  rw [← hb] at hcut
  obtain ⟨htake, hend⟩ := commandResult_untilReset hcut (undisturbed_commandOf i _ hq).2
  rw [exec_eq_run] at ht hu
  cases ht
  cases hu
  rw [(commandResult_outputs _).1] at hl
  have hl : (endState (commandOf i (s.beginCommand.meeting []))).log = s.log ++ evs := hl
  rw [hl, List.take_length_add_append] at htake
  refine ⟨htake, fun hk => ?_⟩
  obtain ⟨w, hw, hr, hwb⟩ := hend (by rw [hl, List.length_append]; omega)
  rw [hw]
  exact ⟨hr, hwb.trans hbusy, rfl⟩

/-- An input that neither starts a command nor does anything to the block. -/
theorem step_inert {x : Input} {rest : List Input} (hi : s.inputs = x :: rest)
    (hx : { s with inputs := rest }.startWord x = none) (ha : { s with inputs := rest }.arrive x = { s with inputs := rest }) :
    step s = .next { s with inputs := rest } := by
  simp only [step, hi, hx, ha]

end

/-- Settles O10: a host access under reset is inert; and a command is cut at the boundary at which reset is asserted, the first one
being the case of no action. -/
theorem resetHoldsTheBlock : Obligations.ResetHoldsTheBlock := by
  refine ⟨fun s addr width v rest hr => ⟨fun hi => ?_, fun hi => ?_⟩, fun i s t later hd ht => ?_,
    fun i s t u k later evs => exec_resetAfter⟩
  · exact step_inert hi (by simp [State.startWord, hr]) (if_pos hr)
  · exact step_inert hi rfl (if_pos hr)
  · obtain ⟨u, hu⟩ := exec_next i (s.meeting [])
    obtain ⟨evs, hl⟩ : s.log <+: u.log := (exec_carried i hu).log
    obtain ⟨hlog, hend⟩ := exec_resetAfter (k := 0) hd ht hu hl.symm
    exact ⟨by rw [hlog, List.take_zero, List.append_nil], hend (Nat.zero_le _)⟩

end Sys2Proof.Machine
end
